-- ==== Sys2Proof/Word.lean ====
section
/-! DEFINITION. The widths of the block: bytes for registers and masks (rule R7), 32-bit words for the
fields of the formats (rules R71, R73, R85, R86). -/

namespace Sys2Proof

/-- A byte: every device register, mask and cached copy is one (rule R7, decision D45). -/
abbrev Byte := BitVec 8

/-- A 32-bit field of a command, a chunk, a port operation or a result. -/
abbrev Word := BitVec 32

end Sys2Proof
end

