-- ==== Sys2Proof/Config.lean ====
section
/-! DEFINITION. The configuration record CFG of rule R5, the example configuration CFG_EX of
95_test_vectors.md section 1, and the free values: constants with no body, of which nothing can be
proved. -/

namespace Sys2Proof

/-- One of the 15 logical apps, `N_APP = 15` (rule R5). -/
abbrev AppId := Fin 15

/-- One of the four hardware domains that own an app's domain bit (rule R5). -/
inductive Domain where
  | ae0 | ae1 | gen | base
deriving DecidableEq, Repr, Inhabited

/-- The two enable registers, and the two AE domains, both numbered k in 0, 1 (rules R23, R24). -/
inductive AeDom where
  | k0 | k1
deriving DecidableEq, Repr, Inhabited

/-- The two upload domains (rule R50). -/
inductive MemDom where
  | d8 | d4
deriving DecidableEq, Repr, Inhabited

/-- The sine-control source (rule R25). -/
inductive SinSrc where
  | reg | pin
deriving DecidableEq, Repr, Inhabited

/-- The three wait descriptors by name (rule R39). -/
inductive WaitName where
  | xfer | fade | sine
deriving DecidableEq, Repr, Inhabited

/-- A value for each k in 0, 1. -/
structure Two (α : Type) where
  k0 : α
  k1 : α
deriving DecidableEq, Repr, Inhabited

/-- A value for each of the four domains. -/
structure Four (α : Type) where
  ae0 : α
  ae1 : α
  gen : α
  base : α
deriving DecidableEq, Repr, Inhabited

def Two.get {α : Type} (t : Two α) : AeDom → α
  | .k0 => t.k0
  | .k1 => t.k1

def Two.set {α : Type} (t : Two α) (k : AeDom) (v : α) : Two α :=
  match k with
  | .k0 => { t with k0 := v }
  | .k1 => { t with k1 := v }

def Four.get {α : Type} (t : Four α) : Domain → α
  | .ae0 => t.ae0
  | .ae1 => t.ae1
  | .gen => t.gen
  | .base => t.base

def Four.set {α : Type} (t : Four α) (d : Domain) (v : α) : Four α :=
  match d with
  | .ae0 => { t with ae0 := v }
  | .ae1 => { t with ae1 := v }
  | .gen => { t with gen := v }
  | .base => { t with base := v }

/-- A device register: a pair (bank, index) (rules R38, R51). -/
structure Reg where
  bank : Byte
  index : Byte
deriving DecidableEq, Repr, Inhabited

/-- The register's cell in the device register space: its bank, then its index. -/
def Reg.addr (r : Reg) : Nat := r.bank.toNat * 256 + r.index.toNat

/-- `APP[a]`: its domain bit, its directive slot and its enable bit (rule R5). -/
structure AppCfg where
  cdom : Domain
  cbit : Fin 8
  dslot : Option (Fin 14)
  en : Option (AeDom × Fin 8)
deriving DecidableEq, Repr, Inhabited

/-- A wait descriptor (rule R182). `delay` and `timeout` change no rule's outcome (rules R183, R184). Any of
the three descriptors may hold a `delay`, which is inert, though rule R183 has those of W_XFER and W_SINE
absent: rule R5 and decision D28 leave every field OPEN (DESIGN CHOICE, log 21). -/
structure WaitDesc where
  reg : Reg
  mask : Byte
  want : Byte
  delay : Option Nat
  timeout : Option Nat
deriving DecidableEq, Repr, Inhabited

/-- The configuration record CFG (rule R5). -/
structure Cfg where
  apps : Vector AppCfg 15
  gen : AppId
  bypBit : Two Byte
  prot : Four Byte
  mEn : Byte
  mByp : Byte
  rMctl : Reg
  rEn : Two Reg
  rByp : Reg
  rSinout : Reg
  rAux : Vector Reg 7
  rBma : List Reg
  rBmctl : Reg
  rBmd : Reg
  rTrig : Reg
  rTrans : Reg
  sinSlot : Fin 7
  stopFlag : Fin 8
  vSinInactive : Byte
  vCtlWrInt : Byte
  vCtlWrHost : Byte
  vCtlRdD8 : Byte
  vCtlRdD4 : Byte
  vTrig : Byte
  addrW : Nat
  wXfer : WaitDesc
  wFade : WaitDesc
  wSine : WaitDesc
  mTrans : Byte
  loD8 : Nat
  hiD8 : Nat
  loD4 : Nat
  hiD4 : Nat
  scAddr : Nat
  scByte : Fin 4
  scBit : Fin 8
  scPin : Bool
  tagFwctrlB : Word
  tagCoef : Word
  tagReg : Word
  dirStop : Byte
  dirStart : Byte
  dirDc : Byte
  mbInt : Byte
  offAddr : Nat
  offMode : Nat
  offCount : Nat
  offData : Nat
  initMaster : Byte
  initEn : Two Byte
  initByp : Byte
  initSinsrc : SinSrc
  eMalformed : Word
  eRuntime : Word
deriving DecidableEq, Repr, Inhabited

def Cfg.app (c : Cfg) (a : AppId) : AppCfg := c.apps[a]

/-- `CAP_BYTES` (rule R5): 40 payload words of 4 bytes. -/
def Cfg.capBytes : Nat := 160

/-- `UNIT[m]` (rule R5). -/
def MemDom.unit : MemDom → Nat
  | .d8 => 8
  | .d4 => 4

def Cfg.lo (c : Cfg) : MemDom → Nat
  | .d8 => c.loD8
  | .d4 => c.loD4

def Cfg.hi (c : Cfg) : MemDom → Nat
  | .d8 => c.hiD8
  | .d4 => c.hiD4

def Cfg.vCtlRd (c : Cfg) : MemDom → Byte
  | .d8 => c.vCtlRdD8
  | .d4 => c.vCtlRdD4

def Cfg.wait (c : Cfg) : WaitName → WaitDesc
  | .xfer => c.wXfer
  | .fade => c.wFade
  | .sine => c.wSine

/-- Register `i` of bank 0, where the example configuration puts every register. -/
def Reg.bank0 (i : Byte) : Reg := { bank := 0, index := i }

/-- `CFG_EX` (95_test_vectors.md section 1), with the `INIT_*` values of its program P1: an example and
not a claim about any chip. DESIGN CHOICE, unsafe (log 1): the configuration of `State.reset`. The length 1 of
W_FADE's delay is the model's number, since `CFG_EX` says only "a delay" (rules R5, R183, N19; DESIGN CHOICE,
logs 1 and 21); no step reads it. -/
def Config.cfgEx : Cfg where
  apps := #v[
    { cdom := .gen, cbit := 0, dslot := some 0, en := some (.k0, 7) },
    { cdom := .ae0, cbit := 0, dslot := some 1, en := some (.k0, 0) },
    { cdom := .ae0, cbit := 1, dslot := some 2, en := some (.k0, 1) },
    { cdom := .ae0, cbit := 2, dslot := some 3, en := some (.k0, 2) },
    { cdom := .ae0, cbit := 3, dslot := some 4, en := some (.k0, 3) },
    { cdom := .ae0, cbit := 4, dslot := some 5, en := some (.k0, 4) },
    { cdom := .ae0, cbit := 5, dslot := some 6, en := some (.k0, 5) },
    { cdom := .ae0, cbit := 6, dslot := some 7, en := some (.k0, 6) },
    { cdom := .ae1, cbit := 0, dslot := some 8, en := some (.k1, 0) },
    { cdom := .ae1, cbit := 1, dslot := some 9, en := some (.k1, 1) },
    { cdom := .ae1, cbit := 2, dslot := some 10, en := some (.k1, 2) },
    { cdom := .ae1, cbit := 3, dslot := some 11, en := some (.k1, 3) },
    { cdom := .ae1, cbit := 4, dslot := some 12, en := some (.k1, 4) },
    { cdom := .ae1, cbit := 5, dslot := some 13, en := some (.k1, 5) },
    { cdom := .base, cbit := 0, dslot := none, en := none }]
  gen := 0
  bypBit := { k0 := 0x01, k1 := 0x02 }
  prot := { ae0 := 0x01, ae1 := 0x02, gen := 0x00, base := 0x00 }
  mEn := 0x01
  mByp := 0x02
  rMctl := Reg.bank0 0x00
  rEn := { k0 := Reg.bank0 0x01, k1 := Reg.bank0 0x02 }
  rByp := Reg.bank0 0x03
  rSinout := Reg.bank0 0x05
  rAux := #v[Reg.bank0 0x05, Reg.bank0 0x06, Reg.bank0 0x07, Reg.bank0 0x08, Reg.bank0 0x09,
    Reg.bank0 0x0A, Reg.bank0 0x0B]
  rBma := [Reg.bank0 0x10, Reg.bank0 0x11]
  rBmctl := Reg.bank0 0x12
  rBmd := Reg.bank0 0x13
  rTrig := Reg.bank0 0x14
  rTrans := Reg.bank0 0x04
  sinSlot := 0
  stopFlag := 7
  vSinInactive := 0x00
  vCtlWrInt := 0x02
  vCtlWrHost := 0x01
  vCtlRdD8 := 0x04
  vCtlRdD4 := 0x05
  vTrig := 0x01
  addrW := 16
  wXfer := { reg := Reg.bank0 0x04, mask := 0x01, want := 0x00, delay := none, timeout := none }
  wFade := { reg := Reg.bank0 0x04, mask := 0x02, want := 0x00, delay := some 1, timeout := none }
  wSine := { reg := Reg.bank0 0x04, mask := 0x04, want := 0x00, delay := none, timeout := none }
  mTrans := 0x07
  loD8 := 0
  hiD8 := 0x0400
  loD4 := 0
  hiD4 := 0x0800
  scAddr := 0x0010
  scByte := 3
  scBit := 0
  scPin := true
  tagFwctrlB := 0x00000100
  tagCoef := 0x00000200
  tagReg := 0x00000300
  dirStop := 0
  dirStart := 1
  dirDc := 2
  mbInt := 1
  offAddr := 0
  offMode := 4
  offCount := 5
  offData := 9
  initMaster := 0x00
  initEn := { k0 := 0xFF, k1 := 0x3F }
  initByp := 0x00
  initSinsrc := .reg
  eMalformed := 0xFFFFFFFF
  eRuntime := 0xFFFFFFFE

/-- What the device and the collaborator answer to one poll of a WAIT (rule R182): the byte the poll
read; with `fails`, also that the collaborator then reports a fault, or that the timeout ran out. -/
inductive WaitAnswer where
  | seen (v : Byte)
  | fails (v : Byte)
deriving DecidableEq, Repr, Inhabited

/-- Free value: the byte the n-th free read returns (rules R9, R181, treatment `any value` of U1). -/
opaque Config.freeRead : Nat → Byte

/-- Free value: the answer to the n-th free poll (rules R9, R182, U2). -/
opaque Config.freeWait : Nat → WaitAnswer

/-- Free value: whether the collaborator drops a gated write that its shadow allows it to drop (rule
R177, U4). -/
opaque Config.freeDrop : Nat → Bool

/-- Free value: the BE32 count field of an UPLOAD result of n bytes where n does not fit 32 bits (rules
R170, R86: the spec states no value). -/
opaque Config.wideCount : Nat → Word

end Sys2Proof
end

