-- ==== Sys2Proof/Syntax.lean ====
section
/-! DEFINITION. The instructions: one constructor per row of spec/opcode_table.json. Commands (rules R71,
R72), descriptor items (rules R73 to R83), register-access operations (rule R85), pseudo-operations
(rule R89). And the frames in which they reach the block (rule R70). -/

namespace Sys2Proof

inductive Instr where
  /-- INIT, opcode 0x00 (rule R190). -/
  | init
  /-- TERM, opcode 0x01 (rule R191). -/
  | term
  /-- VALIDATE, opcode 0x02, with its blob (rule R192). -/
  | validate (blob : List Byte)
  /-- APPLY, opcode 0x03, with its blob (rule R120). -/
  | apply (blob : List Byte)
  /-- MSTART, opcode 0x04 (rule R193). -/
  | mstart
  /-- MSTOP, opcode 0x05 (rule R194). -/
  | mstop
  /-- QUERY, opcode 0x06 (rule R195). -/
  | query
  /-- UPLOAD, opcode 0x07: domain byte, address and size in units (rules R71, R165). -/
  | upload (dom : Byte) (addr size : Word)
  /-- Reserved opcodes 0x08 to 0x0F, by their free low bits (rule R196); so the next four. -/
  | reserved08 (low : BitVec 3)
  | reserved10 (low : BitVec 4)
  | reserved20 (low : BitVec 5)
  | reserved40 (low : BitVec 6)
  | reserved80 (low : BitVec 7)
  /-- A FWCTRL_B chunk with its body (rules R76, R102). -/
  | fwctrlB (body : List Byte)
  /-- An APPCOEF chunk of app `a` with its body (rules R78, R104). -/
  | appcoef (a : AppId) (body : List Byte)
  /-- An APPREG chunk of app `a` with its body (rules R81, R109). -/
  | appreg (a : AppId) (body : List Byte)
  /-- A chunk of an unknown tag (rules R83, R114). -/
  | skip (tag : Word) (body : List Byte)
  /-- Queue a gated write (rules R176, R177). -/
  | qwG (bank index value : Byte)
  /-- Queue a forced write (rules R176, R178). -/
  | qwF (bank index value : Byte)
  /-- Deliver the queue (rule R179). -/
  | flush
  /-- Read one register (rule R181). -/
  | rd (bank index : Byte)
  /-- Flush if the queue is not empty (rule R180). -/
  | sync
  /-- The blocking wait (rule R182). -/
  | wait (w : WaitName)
  /-- Point the address registers (rule R56). -/
  | writeAddr (addr : Word)
deriving DecidableEq, Repr

/-- A chunk of the request blob: its kind by the tag, and its body (rules R73, R74). -/
inductive Chunk where
  | fwctrlB (body : List Byte)
  | appcoef (a : AppId) (body : List Byte)
  | appreg (a : AppId) (body : List Byte)
  | skip (tag : Word) (body : List Byte)
deriving DecidableEq, Repr

/-- Why a frame's bytes are no instruction. -/
inductive DecodeError where
  /-- A command frame with no byte in it. -/
  | emptyCommand
  /-- A command frame that ends before the operands its opcode asks for (rule R71). -/
  | truncatedCommand
  /-- A chunk frame with no byte in it: an empty blob, legal, with no item in it (rule R75). -/
  | emptyChunk
  /-- Fewer than 8 bytes where a chunk header should start (M1 of rule R208). -/
  | truncatedHeader
  /-- A chunk whose length runs past the bytes that remain (M2 of rule R208). -/
  | overlongChunk
  /-- A port word with a bit set that rule R85 says is 0. -/
  | reservedPortBits
deriving DecidableEq, Repr

/-- The pseudo-operations of rule R89. They have no binary form of their own. -/
inductive Composite where
  | sync
  | wait (w : WaitName)
  | writeAddr (addr : Word)
deriving DecidableEq, Repr

/-- What is offered on one of the block's interfaces (rule R70, decision D1): bytes on the command port,
bytes of a blob, a word on the register-access port, or a composite port operation. -/
inductive Frame where
  | command (bytes : List Byte)
  | chunk (bytes : List Byte)
  | port (word : Word)
  | composite (op : Composite)
deriving DecidableEq, Repr

end Sys2Proof
end

