-- ==== Sys2Proof/Machine/State.lean ====
section
/-! DEFINITION. The state of the block (10_state.md): global state (group G), working registers (group W),
device registers (group D), hidden state (group H), the ports, the wait in progress, and the answers of
the outside world. Plain data. The faults, the refusals, and the state after reset (rules R45, R230,
R231). -/

namespace Sys2Proof.Machine

/-- One-byte cells by address, addresses strictly rising. An address that is not listed holds no value
the model knows. -/
abbrev Memory := List Host.Cell

/-- The device registers (rule R38), one-byte cells by address, addresses strictly rising, no cell equal to
`RegFile.unlisted`: an address that is not listed holds that value. -/
abbrev RegFile := List Host.Cell

/-- ST (rule R21). -/
inductive Status where
  | idle | inited
deriving DecidableEq, Repr

/-- The values of PH (rule R28). -/
inductive Phase where
  | idle | cmd | wait | quiesce | download | resume | upload
deriving DecidableEq, Repr

/-- A directive byte's meaning (rule R77). -/
inductive Directive where
  | stop | start | dc
deriving DecidableEq, Repr

/-- The transfer mode of a pass (rule R106). -/
inductive Mode where
  | none | int | host
deriving DecidableEq, Repr

/-- An item of the analysis record (rules R101, R130). -/
inductive Item where
  | fw
  | coef (a : AppId) (addr : Word) (payload : List Byte)
  | reg (flags : Byte) (vals : List Byte)
  | skip
deriving DecidableEq, Repr

/-- AR (rule R30), with the walk's own variables `force` and `seen` (rule R101). -/
structure AnalysisRecord where
  items : List Item
  on : Two Byte
  off : Two Byte
  gs : Two Byte
  ctgt : Four Byte
  xt : Two Byte
  ncoef : Nat
  mode : Mode
  sinsel : Option SinSrc
  genstop : Bool
  mdir : Directive
  bdir : Two Directive
  force : Bool
  seen : List Word
deriving DecidableEq, Repr

/-- The initial record (rule R101). -/
def AnalysisRecord.initial : AnalysisRecord where
  items := []
  on := { k0 := 0, k1 := 0 }
  off := { k0 := 0, k1 := 0 }
  gs := { k0 := 0, k1 := 0 }
  ctgt := { ae0 := 0, ae1 := 0, gen := 0, base := 0 }
  xt := { k0 := 0, k1 := 0 }
  ncoef := 0
  mode := .none
  sinsel := Option.none
  genstop := false
  mdir := .dc
  bdir := { k0 := .dc, k1 := .dc }
  force := false
  seen := []

/-- What the analyser leaves in AR: a record, or the parse error (rules R30, R100). -/
inductive Analysis where
  | malformed
  | record (r : AnalysisRecord)
deriving DecidableEq, Repr

/-- Group G (rules R20 to R25). -/
structure Globals where
  st : Status
  master : Byte
  en : Two Byte
  byp : Byte
  sinsrc : SinSrc
deriving DecidableEq, Repr

/-- Group W (rules R28 to R37). -/
structure Working where
  ph : Phase
  ix : Nat
  desc : List Byte
  ar : Analysis
  onw : Two Byte
  restore : Two Byte
  prec : Byte
  xoff : Byte
  sil : Bool
  sinsave : Byte
  trigpend : Bool
  qn : Nat
  result : Word
  outbuf : List Byte
deriving DecidableEq, Repr

/-- The kind of a queued write: gated or forced (rules R176 to R178). -/
inductive Gate where
  | gated | forced
deriving DecidableEq, Repr

/-- An entry of the collaborator's queue (rule R41). -/
structure QEntry where
  gate : Gate
  reg : Reg
  value : Byte
deriving DecidableEq, Repr

/-- The device's block-memory pointer (rules R44, R159): the address registers' number, the control byte
that qualifies it, and how many data accesses have moved it. -/
structure BlockPtr where
  addr : Word
  ctl : Byte
  off : Nat
deriving DecidableEq, Repr

/-- A device-internal transfer that the device has been told to make (rules R43, R159). -/
structure Transfer where
  addr : Word
  bytes : List Byte
deriving DecidableEq, Repr

/-- Groups D and H (rules R38 to R44): what the block's delivered writes left in the device registers, the
collaborator's queue and shadow, the device's block-memory pointer, staging area, pending transfer and
coefficient memory. -/
structure Hardware where
  regs : RegFile
  queue : List QEntry
  shadow : Memory
  bmp : BlockPtr
  staging : List Byte
  xfer : Option Transfer
  bmem : Memory
deriving DecidableEq, Repr

/-- An operation on the register-access port, as the trace shows it (rule R88). -/
inductive PortOp where
  | qw (g : Gate) (r : Reg) (v : Byte)
  | flush
  | rd (r : Reg) (v : Byte)
  | wait (w : WaitName) (ok : Bool)
deriving DecidableEq, Repr

/-- An event of the trace (rule R10), with the phase it was emitted in. -/
structure Event where
  phase : Phase
  op : PortOp
deriving DecidableEq, Repr

/-- What a WAIT has come to (rule R182). -/
inductive WaitResult where
  | ok | failed | polling
deriving DecidableEq, Repr

/-- The ports (rules R10, R70, R85, R86; decision D1). -/
structure Ports where
  /-- Frames offered to the block and not yet taken. -/
  inbox : List Frame
  /-- The register-access events of the command that ran last, in emission order (rule R10). -/
  trace : List Event
  /-- The byte the last read returned (rule R85). -/
  rdata : Byte
  /-- What the last WAIT returned (rule R182). -/
  waitRes : WaitResult
  /-- The result port: the frame the last command delivered, empty while idle (rules R86, R230). -/
  sport : List Byte
deriving DecidableEq, Repr

/-- Which wait is polling, and what its command still needs (rule R182). -/
inductive WaitSite where
  | applyXfer
  | applyFade
  | applySine
  | upload (m : MemDom) (addr : Word) (units : Nat)
  | alone (w : WaitName)
deriving DecidableEq, Repr

/-- The answers of the device and of the collaborator (rule R9): those given from outside, taken first, and
the count of free values drawn since. -/
structure Oracle where
  reads : List Byte
  waits : List WaitAnswer
  drops : List Bool
  drawn : Nat
deriving DecidableEq, Repr

structure State where
  /-- CFG (rule R5). No step changes it (rule R93). -/
  cfg : Cfg
  /-- Group G. -/
  g : Globals
  /-- Group W. -/
  w : Working
  /-- Groups D and H. -/
  hw : Hardware
  /-- The ports. -/
  io : Ports
  /-- The wait that is polling, if one is. -/
  site : Option WaitSite
  /-- The answers of the outside world. -/
  orc : Oracle
deriving DecidableEq, Repr

/-- Why the machine stops with a fault. Both are raised by `step`, when it takes a frame that no rule
gives a meaning. Both are safe: the spec's block would never be handed such a frame. -/
inductive Fault where
  /-- Raised by `step`: a command frame ends before its command does (rule R71). Safe. -/
  | truncatedCommand
  /-- Raised by `step`: a port word has a bit set that rule R85 says is 0. Safe. -/
  | reservedPortBits
deriving DecidableEq, Repr

/-- Why the machine gives no meaning. -/
inductive Refusal where
  /-- Raised by `exec`: the instruction of that mnemonic has no meaning yet. Safe. -/
  | notModelled (mnemonic : String)
  /-- Raised by every command's meaning: a command offered while another runs (rule R197, U9: "refuse").
  Safe: the host has no such move. -/
  | commandPortBusy
  /-- Raised by `step`: the configuration breaks rule R6 (U10: "refuse"). Safe: the model is then not
  instantiated. -/
  | inadmissibleConfig
deriving DecidableEq, Repr

/-- The block after hardware reset, instantiated with the configuration `c` (rules R45, R230, R231). ST, PH
and QN are the spec's; the other values are the model's (logs 6, 7, 8, 10, 18). -/
def State.resetWith (c : Cfg) : State where
  cfg := c
  g := { st := .idle, master := 0, en := { k0 := 0, k1 := 0 }, byp := 0, sinsrc := .reg }
  w := {
    ph := .idle, ix := 0, desc := [], ar := .record AnalysisRecord.initial,
    onw := { k0 := 0, k1 := 0 }, restore := { k0 := 0, k1 := 0 }, prec := 0, xoff := 0,
    sil := false, sinsave := 0, trigpend := false, qn := 0, result := 0, outbuf := [] }
  hw := {
    regs := [], queue := [], shadow := [], bmp := { addr := 0, ctl := 0, off := 0 },
    staging := [], xfer := none, bmem := [] }
  io := { inbox := [], trace := [], rdata := 0, waitRes := .ok, sport := [] }
  site := none
  orc := { reads := [], waits := [], drops := [], drawn := 0 }

/-- The block after hardware reset, with the spec's example configuration (log 1). -/
def State.reset : State := State.resetWith Config.cfgEx

end Sys2Proof.Machine
end

