-- ==== Sys2Proof/Machine/Admissible.lean ====
section
/-! DEFINITION. The admissible configurations (rule R6, with the ranges of rule R5). -/

namespace Sys2Proof.Machine

/-- A mask with exactly one bit set. -/
def oneHot (m : Byte) : Bool := (List.finRange 8).any (fun b => decide (m = 1#8 <<< b.val))

/-- The domain bits of an app. -/
def domainBit (a : AppCfg) : Domain × Fin 8 := (a.cdom, a.cbit)

/-- R6 (1) to (5): the apps. -/
def appsOk (c : Cfg) : Bool :=
  let apps := c.apps.toList
  decide ((apps.map domainBit).Nodup) &&
  decide ((apps.filterMap (·.dslot)).Nodup) && decide ((apps.filterMap (·.dslot)).length = 14) &&
  apps.all (fun a => a.en.isSome == a.dslot.isSome) &&
  decide ((apps.filterMap (·.en)).Nodup) &&
  apps.all (fun a => decide (a.cdom = .ae0 → a.en.isSome → a.en = some (.k0, a.cbit))) &&
  apps.all (fun a => decide (a.cdom = .ae1 → a.en.isSome → a.en = some (.k1, a.cbit))) &&
  (List.finRange 15).all (fun i => decide ((c.app i).cdom = .gen ↔ i = c.gen)) &&
  (c.app c.gen).en.isSome

/-- A mask of bypass bits: no bit outside `BYPBIT[0] | BYPBIT[1]`. -/
def bypassBitsOnly (c : Cfg) (m : Byte) : Bool := decide (m &&& ~~~(c.bypBit.k0 ||| c.bypBit.k1) = 0)

/-- R6 (6): the masks; and each `PROT[d]` a mask of bypass bits, as rule R5's type column says and rule R27
needs, though R6 lists no check of it (DEDUCED, log 16). -/
def masksOk (c : Cfg) : Bool :=
  oneHot c.bypBit.k0 && oneHot c.bypBit.k1 && decide (c.bypBit.k0 ≠ c.bypBit.k1) &&
  oneHot c.mEn && oneHot c.mByp && decide (c.mEn ≠ c.mByp) &&
  (bypassBitsOnly c c.prot.ae0 && bypassBitsOnly c c.prot.ae1 && bypassBitsOnly c c.prot.gen &&
    bypassBitsOnly c c.prot.base)

/-- The registers the block writes, `R_SINOUT` once, among the auxiliary registers (rule R38). -/
def writtenRegs (c : Cfg) : List Reg :=
  [c.rMctl, c.rEn.k0, c.rEn.k1, c.rByp] ++ c.rAux.toList ++ c.rBma ++ [c.rBmctl, c.rBmd, c.rTrig]

/-- The registers of the three wait descriptors (rule R39). -/
def waitRegs (c : Cfg) : List Reg := [c.wXfer.reg, c.wFade.reg, c.wSine.reg]

/-- R6 (7): the registers are pairwise distinct but for `R_AUX[SIN_SLOT] = R_SINOUT`; `R_TRANS` may coincide
with the register of a wait, and those with each other, as in `CFG_EX` (DEDUCED, log 16). Of a wait
descriptor only the register is checked: a `delay` that W_XFER or W_SINE is given, against rule R183, or that
W_FADE is not, is no ground of rule R6 to refuse (DESIGN CHOICE, log 21). -/
def regsOk (c : Cfg) : Bool :=
  decide ((c.rTrans :: writtenRegs c).Nodup) && decide (c.rAux[c.sinSlot] = c.rSinout) &&
  (waitRegs c).all (fun r => decide (r ∉ writtenRegs c))

/-- The ranges of rule R5: `ADDR_W`, `NA`, `LO`, `HI`. `ADDR_W = 0`, which R5 and R6 do not name, is not
admissible: no address register would exist (DESIGN CHOICE, log 16). -/
def rangesOk (c : Cfg) : Bool :=
  decide (0 < c.addrW) && (decide (c.addrW % 8 = 0) && (decide (c.addrW ≤ 32) &&
    (decide (c.rBma.length = c.addrW / 8) &&
      (decide (c.loD8 ≤ c.hiD8) && (decide (c.hiD8 ≤ 2 ^ c.addrW) &&
        (decide (c.loD4 ≤ c.hiD4) && decide (c.hiD4 ≤ 2 ^ c.addrW)))))))

/-- Two ranges of `N_APP` tags share no tag. -/
def tagRangesApart (a b : Word) : Bool :=
  decide (a.toNat + 15 ≤ b.toNat) || decide (b.toNat + 15 ≤ a.toNat)

/-- R6 (9): the tag ranges. -/
def tagsOk (c : Cfg) : Bool :=
  decide (c.tagCoef.toNat + 15 < 4294967296) && decide (c.tagReg.toNat + 15 < 4294967296) &&
  tagRangesApart c.tagCoef c.tagReg &&
  !(decide (c.tagCoef.toNat ≤ c.tagFwctrlB.toNat) &&
    decide (c.tagFwctrlB.toNat < c.tagCoef.toNat + 15)) &&
  !(decide (c.tagReg.toNat ≤ c.tagFwctrlB.toNat) &&
    decide (c.tagFwctrlB.toNat < c.tagReg.toNat + 15))

/-- The fields of an APPCOEF body lie before its payload, so that the one length check of rule R104 keeps
every read inside the chunk (DEDUCED from rule R53, log 16). -/
def layoutOk (c : Cfg) : Bool :=
  decide (c.offAddr + 4 ≤ c.offData) && decide (c.offMode + 1 ≤ c.offData) &&
  decide (c.offCount + 4 ≤ c.offData)

/-- R6 (8), (10), (11): the stop flag, the directive codes, the error codes. -/
def codesOk (c : Cfg) : Bool :=
  decide (7 ≤ c.stopFlag.val) &&
  decide (c.dirStop ≠ c.dirStart) && decide (c.dirStop ≠ c.dirDc) && decide (c.dirStart ≠ c.dirDc) &&
  c.eMalformed.msb && c.eRuntime.msb && decide (c.eMalformed ≠ c.eRuntime)

/-- An admissible configuration (rule R6). What a wait descriptor holds as its `delay` is not looked at, so a
CFG that gives W_XFER or W_SINE one is admissible, with no effect (rules R5, R6, R183: DESIGN CHOICE, log 21). -/
def admissible (c : Cfg) : Bool :=
  rangesOk c && (appsOk c && (masksOk c && (regsOk c && (tagsOk c && (layoutOk c && codesOk c)))))

end Sys2Proof.Machine
end

