-- ==== Sys2Proof/WellFormed.lean ====
section
/-! DEFINITION. When an instruction can be encoded: lengths that fit their BE32 field (rules R71, R73), a
SKIP whose tag is in none of the three known ranges (rules R74, R83), an address that fits the address
registers (rules R56, R78). -/

namespace Sys2Proof

/-- `tag` is one of the `N_APP` tags that start at `base` (rule R74). -/
def tagInRange (base tag : Word) : Bool :=
  decide (base.toNat ≤ tag.toNat) && decide (tag.toNat < base.toNat + 15)

/-- The tag is FWCTRL_B's, an APPCOEF's or an APPREG's (rule R74). -/
def tagKnown (c : Cfg) (tag : Word) : Bool :=
  decide (tag = c.tagFwctrlB) || tagInRange c.tagCoef tag || tagInRange c.tagReg tag

/-- A byte sequence whose length a BE32 field can say. -/
def fitsLength (bytes : List Byte) : Bool := decide (bytes.length < 4294967296)

def WellFormed (c : Cfg) : Instr → Bool
  | .init => true
  | .term => true
  | .validate blob => fitsLength blob
  | .apply blob => fitsLength blob
  | .mstart => true
  | .mstop => true
  | .query => true
  | .upload _ _ _ => true
  | .reserved08 _ => true
  | .reserved10 _ => true
  | .reserved20 _ => true
  | .reserved40 _ => true
  | .reserved80 _ => true
  | .fwctrlB body => fitsLength body
  | .appcoef _ body => fitsLength body
  | .appreg _ body => fitsLength body
  | .skip tag body => fitsLength body && !tagKnown c tag
  | .qwG _ _ _ => true
  | .qwF _ _ _ => true
  | .flush => true
  | .rd _ _ => true
  | .sync => true
  | .wait _ => true
  | .writeAddr addr => decide (addr.toNat < 2 ^ c.addrW)

end Sys2Proof
end

