-- ==== Sys2Proof/Decode.lean ====
section
/-! DEFINITION. The decoder, total on any frame and rejecting by name, then the encoder. Byte order and
operand assembly (rules R54, R91), commands (R71, R72), chunks (R73 to R75), port words (R85). -/

namespace Sys2Proof

/-- The byte at offset `i` of a byte sequence. Every use stands behind a length check (rule R53). -/
def byteAt (bytes : List Byte) (i : Nat) : Byte := bytes.getD i 0

/-- `BE32`: four bytes, first byte most significant (rules R7, R54). -/
def be32 (b3 b2 b1 b0 : Byte) : Word := b3 ++ b2 ++ b1 ++ b0

/-- The four bytes of a word, most significant first (rule R54). -/
def bytes32 (w : Word) : List Byte :=
  [w.extractLsb' 24 8, w.extractLsb' 16 8, w.extractLsb' 8 8, w.extractLsb' 0 8]

/-- `BE32(bytes + off)` (rule R7). -/
def be32At (bytes : List Byte) (off : Nat) : Word :=
  be32 (byteAt bytes off) (byteAt bytes (off + 1)) (byteAt bytes (off + 2)) (byteAt bytes (off + 3))

/-- `SBE32(bytes + off)`: the same bytes read as two's complement (rule R7). -/
def sbe32At (bytes : List Byte) (off : Nat) : Int := (be32At bytes off).toInt

/-- A BE32 length, that many bytes, and what follows them; `none` if there are fewer bytes. -/
def splitBlob : List Byte → Option (List Byte × List Byte)
  | b3 :: b2 :: b1 :: b0 :: rest =>
    if (be32 b3 b2 b1 b0).toNat ≤ rest.length then
      some (rest.take (be32 b3 b2 b1 b0).toNat, rest.drop (be32 b3 b2 b1 b0).toNat)
    else none
  | _ => none

/-- The operands of VALIDATE and APPLY (rule R71). -/
def decodeBlobCommand (mk : List Byte → Instr) (operands : List Byte) :
    Except DecodeError (Instr × List Byte) :=
  match splitBlob operands with
  | some (blob, rest) => .ok (mk blob, rest)
  | none => .error .truncatedCommand

/-- The operands of UPLOAD (rule R71). -/
def decodeUpload : List Byte → Except DecodeError (Instr × List Byte)
  | dom :: a3 :: a2 :: a1 :: a0 :: s3 :: s2 :: s1 :: s0 :: rest =>
    .ok (.upload dom (be32 a3 a2 a1 a0) (be32 s3 s2 s1 s0), rest)
  | _ => .error .truncatedCommand

/-- The reserved opcodes 0x08 to 0xFF by the row of the table they fall in (rules R72, R196). -/
def decodeReserved (op : Byte) : Instr :=
  if op.toNat < 0x10 then .reserved08 (op.extractLsb' 0 3)
  else if op.toNat < 0x20 then .reserved10 (op.extractLsb' 0 4)
  else if op.toNat < 0x40 then .reserved20 (op.extractLsb' 0 5)
  else if op.toNat < 0x80 then .reserved40 (op.extractLsb' 0 6)
  else .reserved80 (op.extractLsb' 0 7)

/-- One command from the front of a byte sequence: the instruction and the bytes after it (rules R70,
R71, R72). -/
def decodeCommand : List Byte → Except DecodeError (Instr × List Byte)
  | [] => .error .emptyCommand
  | op :: rest =>
    if op = 0x00 then .ok (.init, rest)
    else if op = 0x01 then .ok (.term, rest)
    else if op = 0x02 then decodeBlobCommand .validate rest
    else if op = 0x03 then decodeBlobCommand .apply rest
    else if op = 0x04 then .ok (.mstart, rest)
    else if op = 0x05 then .ok (.mstop, rest)
    else if op = 0x06 then .ok (.query, rest)
    else if op = 0x07 then decodeUpload rest
    else .ok (decodeReserved op, rest)

/-- The app a composite tag names, if it is one of the `N_APP` tags from `base` on (rule R74). -/
def appOfTag (base tag : Word) : Option AppId :=
  if h : base.toNat ≤ tag.toNat ∧ tag.toNat - base.toNat < 15 then
    some ⟨tag.toNat - base.toNat, h.2⟩
  else none

/-- The kind of a chunk by its tag (rules R74, R83). -/
def chunkOfTag (c : Cfg) (tag : Word) (body : List Byte) : Chunk :=
  if tag = c.tagFwctrlB then .fwctrlB body
  else match appOfTag c.tagCoef tag with
    | some a => .appcoef a body
    | none => match appOfTag c.tagReg tag with
      | some a => .appreg a body
      | none => .skip tag body

/-- One chunk from the front of a blob: the chunk and the bytes after it (rules R73, R75). No byte is no
chunk, and no error of the blob (rule R75). -/
def decodeChunk (c : Cfg) : List Byte → Except DecodeError (Chunk × List Byte)
  | [] => .error .emptyChunk
  | t3 :: t2 :: t1 :: t0 :: l3 :: l2 :: l1 :: l0 :: rest =>
    match splitBlob (l3 :: l2 :: l1 :: l0 :: rest) with
    | some (body, left) => .ok (chunkOfTag c (be32 t3 t2 t1 t0) body, left)
    | none => .error .overlongChunk
  | _ => .error .truncatedHeader

/-- A chunk as an instruction of the table. -/
def instrOfChunk : Chunk → Instr
  | .fwctrlB body => .fwctrlB body
  | .appcoef a body => .appcoef a body
  | .appreg a body => .appreg a body
  | .skip tag body => .skip tag body

/-- A register-access operation from its 32-bit word (rule R85): `op` in bits 31:30, zeros in 29:24, bank,
index and value in 23:0; the fields an operation does not use are 0. -/
def decodePort (w : Word) : Except DecodeError Instr :=
  if w.extractLsb' 24 6 = 0 then
    if w.extractLsb' 30 2 = 0#2 then
      .ok (.qwG (w.extractLsb' 16 8) (w.extractLsb' 8 8) (w.extractLsb' 0 8))
    else if w.extractLsb' 30 2 = 1#2 then
      .ok (.qwF (w.extractLsb' 16 8) (w.extractLsb' 8 8) (w.extractLsb' 0 8))
    else if w.extractLsb' 30 2 = 2#2 then
      if w.extractLsb' 0 24 = 0 then .ok .flush else .error .reservedPortBits
    else
      if w.extractLsb' 0 8 = 0 then .ok (.rd (w.extractLsb' 16 8) (w.extractLsb' 8 8))
      else .error .reservedPortBits
  else .error .reservedPortBits

/-- A composite port operation as an instruction of the table (rule R89). -/
def instrOfComposite : Composite → Instr
  | .sync => .sync
  | .wait w => .wait w
  | .writeAddr a => .writeAddr a

/-- What is left of a frame, if anything is. -/
def leftover (mk : List Byte → Frame) : List Byte → Option Frame
  | [] => none
  | b :: bs => some (mk (b :: bs))

/-- The first instruction of a frame, and the rest of the frame. -/
def decodeFrame (c : Cfg) : Frame → Except DecodeError (Instr × Option Frame)
  | .command bytes =>
    match decodeCommand bytes with
    | .ok (i, rest) => .ok (i, leftover .command rest)
    | .error e => .error e
  | .chunk bytes =>
    match decodeChunk c bytes with
    | .ok (k, rest) => .ok (instrOfChunk k, leftover .chunk rest)
    | .error e => .error e
  | .port w =>
    match decodePort w with
    | .ok i => .ok (i, none)
    | .error e => .error e
  | .composite op => .ok (instrOfComposite op, none)

/-- The bytes of a BE32 length and as many bytes (rules R71, R73). -/
def encodeBlob (bytes : List Byte) : List Byte := bytes32 (BitVec.ofNat 32 bytes.length) ++ bytes

/-- A chunk: tag, length, body (rule R73). -/
def encodeChunk (tag : Word) (body : List Byte) : Frame := .chunk (bytes32 tag ++ encodeBlob body)

/-- The composite tag of app `a` (rule R74). -/
def appTag (base : Word) (a : AppId) : Word := base + BitVec.ofNat 32 a.val

/-- A port word from its fields (rule R85). -/
def portWord (op : BitVec 2) (bank index value : Byte) : Word := op ++ 0#6 ++ bank ++ index ++ value

/-- The frame of an instruction, from the encoding tables of 30_encoding.md. -/
def encode (c : Cfg) : Instr → Frame
  | .init => .command [0x00]
  | .term => .command [0x01]
  | .validate blob => .command (0x02 :: encodeBlob blob)
  | .apply blob => .command (0x03 :: encodeBlob blob)
  | .mstart => .command [0x04]
  | .mstop => .command [0x05]
  | .query => .command [0x06]
  | .upload dom addr size => .command (0x07 :: dom :: (bytes32 addr ++ bytes32 size))
  | .reserved08 low => .command [BitVec.ofNat 8 (0x08 + low.toNat)]
  | .reserved10 low => .command [BitVec.ofNat 8 (0x10 + low.toNat)]
  | .reserved20 low => .command [BitVec.ofNat 8 (0x20 + low.toNat)]
  | .reserved40 low => .command [BitVec.ofNat 8 (0x40 + low.toNat)]
  | .reserved80 low => .command [BitVec.ofNat 8 (0x80 + low.toNat)]
  | .fwctrlB body => encodeChunk c.tagFwctrlB body
  | .appcoef a body => encodeChunk (appTag c.tagCoef a) body
  | .appreg a body => encodeChunk (appTag c.tagReg a) body
  | .skip tag body => encodeChunk tag body
  | .qwG bank index value => .port (portWord 0 bank index value)
  | .qwF bank index value => .port (portWord 1 bank index value)
  | .flush => .port (portWord 2 0 0 0)
  | .rd bank index => .port (portWord 3 bank index 0)
  | .sync => .composite .sync
  | .wait w => .composite (.wait w)
  | .writeAddr addr => .composite (.writeAddr addr)

/-- How many operand bytes of fixed length follow an opcode (rule R71). -/
def operandBytes (op : Byte) : Nat :=
  if op = 0x02 then 4 else if op = 0x03 then 4 else if op = 0x07 then 9 else 0

/-- The frame of a word of spec/opcode_table.json, every bit above `nbits` zero. An 8-bit row is an opcode.
A 32-bit row is a chunk tag or a port word: the table's numbers overlap, and a word that is a known tag is
read as the tag, a word rule R85 admits as a port operation, any other as an unknown tag (DESIGN CHOICE,
log 14; the frames themselves never overlap, since each names its interface). -/
def tableFrame (nbits w : Nat) : Option Frame :=
  if nbits = 8 then
    some (.command (BitVec.ofNat 8 w :: List.replicate (operandBytes (BitVec.ofNat 8 w)) 0))
  else if nbits = 32 then
    if tagKnown Config.cfgEx (BitVec.ofNat 32 w) then some (encodeChunk (BitVec.ofNat 32 w) [])
    else match decodePort (BitVec.ofNat 32 w) with
      | .ok _ => some (.port (BitVec.ofNat 32 w))
      | .error _ => some (encodeChunk (BitVec.ofNat 32 w) [])
  else none

/-- What the decoder reads from a word of the opcode table. -/
def decodeTableWord (nbits w : Nat) : Option Instr :=
  match tableFrame nbits w with
  | none => none
  | some f => match decodeFrame Config.cfgEx f with
    | .ok (i, _) => some i
    | .error _ => none

end Sys2Proof
end

