-- ==== Sys2Proof/Machine/Flags.lean ====
section
/-! DEFINITION. The mask arithmetic of the block: single bits, the state of an app, and which apps' states
must change (rules R7, R26, R103, R111, R116). -/

namespace Sys2Proof.Machine

/-- `bit(b)` (rule R7). -/
def bit (b : Fin 8) : Byte := 1#8 <<< b.val

/-- `v[b] = 1` (rule R7). -/
def bitSet (v : Byte) (b : Fin 8) : Bool := v.getLsbD b.val

/-- `state(a) = RUNNING` for the app with enable bit (k, b) (rule R26). -/
def appRunning (en : Two Byte) (k : AeDom) (b : Fin 8) : Bool := bitSet (en.get k) b

/-- The transition rule of one app with enable bit (k, b) and directive `d` (rule R103). -/
def transition (en : Two Byte) (d : Directive) (k : AeDom) (b : Fin 8) (r : AnalysisRecord) :
    AnalysisRecord :=
  match d with
  | .start => if appRunning en k b then r else { r with on := r.on.set k (r.on.get k ||| bit b) }
  | .stop => if appRunning en k b then { r with off := r.off.set k (r.off.get k ||| bit b) } else r
  | .dc => r

/-- `CHG[k]`: the enable bits that the pass changes for a reason the blob states (rule R111). -/
def changeMask (r : AnalysisRecord) (k : AeDom) : Byte := r.on.get k ||| r.off.get k ||| r.gs.get k

/-- The enable bit of Gen, `APP[GEN].en` (rule R6 (5): an admissible configuration has one). -/
def genEn (c : Cfg) : Option (AeDom × Fin 8) := (c.app c.gen).en

end Sys2Proof.Machine
end

