-- ==== Sys2Proof/Machine/Operands.lean ====
section
/-! DEFINITION. The operands of the descriptor items: the fields of the three chunk bodies and the checks on
them (rules R76 to R82, R91, R102, R104, R108, R109), and of UPLOAD (rule R166). -/

namespace Sys2Proof.Machine

/-- A directive code, or `none` outside the legal range (rule R77). -/
def directiveOf (c : Cfg) (b : Byte) : Option Directive :=
  if b = c.dirStop then some .stop
  else if b = c.dirStart then some .start
  else if b = c.dirDc then some .dc
  else none

/-- The directive at offset `j` of a FWCTRL_B body whose bytes have passed `fwBodyOk` (rule R76). -/
def directiveAt (c : Cfg) (body : List Byte) (j : Nat) : Directive :=
  (directiveOf c (byteAt body j)).getD .dc

/-- The checks of a FWCTRL_B body: at least 17 bytes, each of the first 17 a directive code (rules R76,
R102; M3 and M4 of rule R208). -/
def fwBodyOk (c : Cfg) (body : List Byte) : Bool :=
  decide (17 ≤ body.length) && (List.range 17).all (fun j => (directiveOf c (byteAt body j)).isSome)

/-- The target address of an APPCOEF body (rule R78). -/
def coefAddr (c : Cfg) (body : List Byte) : Word := be32At body c.offAddr

/-- The transfer-mode byte of an APPCOEF body (rule R79). -/
def coefMode (c : Cfg) (body : List Byte) : Byte := byteAt body c.offMode

/-- The signed byte-count of an APPCOEF body (rule R80). -/
def coefCount (c : Cfg) (body : List Byte) : Int := sbe32At body c.offCount

/-- The checks of an APPCOEF body, in the order of rule R104 (M6 to M10 of rule R208). -/
def coefBodyOk (c : Cfg) (body : List Byte) : Bool :=
  decide (c.offData ≤ body.length) &&
  decide ((coefAddr c body).toNat < 2 ^ c.addrW) &&
  decide (0 ≤ coefCount c body) &&
  decide ((coefCount c body).toNat % 4 = 0) &&
  decide (c.offData + (coefCount c body).toNat ≤ body.length)

/-- The payload of an APPCOEF body: `body[OFF_DATA .. OFF_DATA+n-1]` (rule R104). -/
def coefPayload (c : Cfg) (body : List Byte) : List Byte :=
  (body.drop c.offData).take (coefCount c body).toNat

/-- Where a Gen payload that starts at word `addr` holds the sine control byte (rule R108). -/
def sineOffset (c : Cfg) (addr : Word) : Nat := (c.scAddr - addr.toNat) * 4 + c.scByte.val

/-- The sine selection of a Gen coefficient chunk, if its payload covers the control word (rule R108). -/
def sineSelect (c : Cfg) (addr : Word) (payload : List Byte) : Option SinSrc :=
  if addr.toNat ≤ c.scAddr then
    if sineOffset c addr < payload.length then
      if bitSet (byteAt payload (sineOffset c addr)) c.scBit = c.scPin then some .pin else some .reg
    else none
  else none

/-- The check of an APPREG body (rules R81, R109; M12 of rule R208). -/
def regBodyOk (body : List Byte) : Bool := decide (8 ≤ body.length)

/-- The flag byte of an APPREG body (rule R82). -/
def regFlags (body : List Byte) : Byte := byteAt body 0

/-- The seven value bytes of an APPREG body (rule R81). -/
def regVals (body : List Byte) : List Byte := (body.drop 1).take 7

/-- The upload domain of a `dom` byte (rules R71, R166). -/
def memDomOf (dom : Byte) : Option MemDom :=
  if dom = 0 then some .d8 else if dom = 1 then some .d4 else none

end Sys2Proof.Machine
end

