-- ==== Sys2Proof/Machine/Ops.lean ====
section
/-! DEFINITION. The named operations over cells, registers and ports: memory, the answers of the outside
world, the register-access port (44_regaccess_port.md), the device's block-memory port
(42_coef_transfer.md rule R159), the wait primitive, and the end of a command, early or not
(60_exceptions.md rule R212). -/

namespace Sys2Proof.Machine

/-- Addresses strictly rising: the one form of a memory. -/
abbrev Memory.wf (m : Memory) : Prop := m.Pairwise (fun x y => x.1 < y.1)

/-- The byte at an address, if the model knows it. -/
def Memory.read : Memory → Nat → Option Byte
  | [], _ => none
  | (b, v) :: m, a => if a = b then some v else Memory.read m a

/-- Set the byte at an address. -/
def Memory.write : Memory → Nat → Byte → Memory
  | [], a, x => [(a, x)]
  | (b, v) :: m, a, x =>
    if a < b then (a, x) :: (b, v) :: m
    else if a = b then (a, x) :: m
    else (b, v) :: Memory.write m a x

/-- Set consecutive bytes from an address on. -/
def Memory.writeBytes : Memory → Nat → List Byte → Memory
  | m, _, [] => m
  | m, a, x :: xs => Memory.writeBytes (m.write a x) (a + 1) xs

/-- What a device register holds that no delivered write has changed: 0x00 after reset (rules R38, R47,
U15 give no value; DESIGN CHOICE, unsafe, log 8). -/
def RegFile.unlisted : Byte := 0

/-- The one form of a register file: addresses strictly rising, no cell equal to what an unlisted register
holds. -/
abbrev RegFile.wf (m : RegFile) : Prop := Memory.wf m ∧ ∀ x ∈ m, x.2 ≠ RegFile.unlisted

/-- The byte a device register holds. -/
def RegFile.read (m : RegFile) (a : Nat) : Byte := (Memory.read m a).getD RegFile.unlisted

/-- Set a device register. -/
def RegFile.write (m : RegFile) (a : Nat) (v : Byte) : RegFile :=
  if v = RegFile.unlisted then m.filter (fun x => decide (x.1 ≠ a)) else Memory.write m a v

/-! ## The answers of the outside world (rule R9) -/

/-- The byte a read returns: given from outside, else free (rule R181, U1). -/
def drawRead (s : State) : Byte × State :=
  match s.orc.reads with
  | v :: vs => (v, { s with orc := { s.orc with reads := vs } })
  | [] => (Config.freeRead s.orc.drawn, { s with orc := { s.orc with drawn := s.orc.drawn + 1 } })

/-- The answer to one poll of a wait: given from outside, else free (rule R182, U2). -/
def drawWait (s : State) : WaitAnswer × State :=
  match s.orc.waits with
  | a :: as => (a, { s with orc := { s.orc with waits := as } })
  | [] => (Config.freeWait s.orc.drawn, { s with orc := { s.orc with drawn := s.orc.drawn + 1 } })

/-- Whether the collaborator drops a write it may drop: given from outside, else free (rule R177, U4). -/
def drawDrop (s : State) : Bool × State :=
  match s.orc.drops with
  | d :: ds => (d, { s with orc := { s.orc with drops := ds } })
  | [] => (Config.freeDrop s.orc.drawn, { s with orc := { s.orc with drawn := s.orc.drawn + 1 } })

/-! ## The device's block-memory port (rules R43, R44, R60, R159; log 9) -/

/-- Byte `j` of the `ADDR_W`-bit address set to `v`, most significant byte first (rule R56). -/
def setAddrByte (c : Cfg) (addr : Word) (j : Nat) (v : Byte) : Word :=
  ((addr &&& ~~~((0xFF#32) <<< (c.addrW - 8 - 8 * j))) |||
    ((v.setWidth 32) <<< (c.addrW - 8 - 8 * j))) &&& BitVec.ofNat 32 (2 ^ c.addrW - 1)

/-- A write of R_BMD: the byte goes to coefficient memory in host-driven mode, to the staging area in
device-internal mode, and the pointer advances (rules R60, R159). Where the spec is silent the model
chooses (DESIGN CHOICE, log 9): with R_BMCTL at neither write value the byte goes nowhere and the pointer
still moves; with `V_CTL_WR_INT = V_CTL_WR_HOST` the mode is host-driven; and of a read of R_BMD between two
data writes the host-driven mode leaves a gap of one byte, since the read moves the pointer, the
device-internal mode none, since a byte goes to the end of the staging area. -/
def blockDataWrite (c : Cfg) (v : Byte) (h : Hardware) : Hardware :=
  let moved := { h.bmp with off := h.bmp.off + 1 }
  if h.bmp.ctl = c.vCtlWrHost then
    { h with bmp := moved, bmem := h.bmem.write (h.bmp.addr.toNat * 4 + h.bmp.off) v }
  else if h.bmp.ctl = c.vCtlWrInt then { h with bmp := moved, staging := h.staging ++ [v] }
  else { h with bmp := moved }

/-- What a delivered write does in the device beyond storing its byte (rule R60): an address register and
the control register load the pointer, the data register moves it, the trigger register starts the
device-internal transfer. Where the spec is silent the model chooses (DESIGN CHOICE, log 9): a trigger while
a transfer is pending replaces it, and the bytes of the one it replaces are dropped; a trigger takes the
staged bytes and the pointer's address of its moment, and leaves the staging area as it is, so that a second
one with no write of R_BMCTL since copies the same bytes again; only a write of R_BMCTL empties it. -/
def blockPortWrite (c : Cfg) (r : Reg) (v : Byte) (h : Hardware) : Hardware :=
  if r ∈ c.rBma then
    { h with bmp := { h.bmp with addr := setAddrByte c h.bmp.addr (c.rBma.idxOf r) v, off := 0 } }
  else if r = c.rBmctl then { h with bmp := { h.bmp with ctl := v, off := 0 }, staging := [] }
  else if r = c.rBmd then blockDataWrite c v h
  else if r = c.rTrig then { h with xfer := some { addr := h.bmp.addr, bytes := h.staging } }
  else h

/-- A read of R_BMD moves the device's block-memory pointer (rule R60). -/
def blockPortRead (c : Cfg) (r : Reg) (h : Hardware) : Hardware :=
  if r = c.rBmd then { h with bmp := { h.bmp with off := h.bmp.off + 1 } } else h

/-- The pending device-internal transfer has completed: its bytes are in coefficient memory (rules R43,
R159). That they land all at once, here, and that the finished copy leaves the staging area as it is, the
spec does not say (DESIGN CHOICE, log 9). -/
def transferDone (h : Hardware) : Hardware :=
  match h.xfer with
  | some t => { h with xfer := none, bmem := h.bmem.writeBytes (t.addr.toNat * 4) t.bytes }
  | none => h

/-! ## The register-access port -/

/-- An event goes to the trace (rule R10). -/
def emit (op : PortOp) (s : State) : State :=
  { s with io := { s.io with trace := s.io.trace ++ [{ phase := s.w.ph, op := op }] } }

/-- `QW(g, r, v)` (rule R176). -/
def qw (g : Gate) (r : Reg) (v : Byte) (s : State) : State :=
  emit (.qw g r v)
    { s with
      hw := { s.hw with queue := s.hw.queue ++ [{ gate := g, reg := r, value := v }] }
      w := { s.w with qn := s.w.qn + 1 } }

/-- The collaborator writes a byte to the device register and remembers it (rules R42, R177, R178; the
shadow after a forced write: log 5). -/
def deviceWrite (r : Reg) (v : Byte) (s : State) : State :=
  { s with
    hw := blockPortWrite s.cfg r v
      { s.hw with
        regs := RegFile.write s.hw.regs r.addr v
        shadow := Memory.write s.hw.shadow r.addr v } }

/-- Delivery of one entry: a forced write always reaches the device (rule R178); a gated one may be dropped
when the shadow already holds its value (rule R177). -/
def deliver (e : QEntry) (s : State) : State :=
  match e.gate with
  | .forced => deviceWrite e.reg e.value s
  | .gated =>
    if s.hw.shadow.read e.reg.addr = some e.value then
      if (drawDrop s).1 then (drawDrop s).2 else deviceWrite e.reg e.value (drawDrop s).2
    else deviceWrite e.reg e.value s

/-- Delivery of a list of entries in order (rule R41). -/
def deliverAll : List QEntry → State → State
  | [], s => s
  | e :: es, s => deliverAll es (deliver e s)

/-- `FLUSH` (rule R179). -/
def flushQueue (s : State) : State :=
  let t := deliverAll s.hw.queue (emit .flush s)
  { t with hw := { t.hw with queue := [] }, w := { t.w with qn := 0 } }

/-- `Sync()` (rule R180). -/
def syncQueue (s : State) : State := if s.w.qn > 0 then flushQueue s else s

/-- The read itself, once the queue is empty: the byte goes to the return path (rules R85, R181). Whatever
byte a read of the transfer-done flag's register returns, a pending transfer stays pending (DESIGN CHOICE,
log 9). -/
def readNow (r : Reg) (s : State) : State :=
  let v := (drawRead s).1
  let t := (drawRead s).2
  emit (.rd r v) { t with hw := blockPortRead t.cfg r t.hw, io := { t.io with rdata := v } }

/-- `RD(r)` (rule R181); the byte is `io.rdata` of the state it leaves. -/
def rdReg (r : Reg) (s : State) : State := readNow r (syncQueue s)

/-- The bytes that `WriteAddr` writes, `R_BMA[0]`'s first: `addr[ADDR_W-1-8j : ADDR_W-8-8j]` (rule R56). -/
def addrBytes (c : Cfg) (addr : Word) : List Byte :=
  (List.range (c.addrW / 8)).map (fun j => (addr >>> (c.addrW - 8 - 8 * j)).setWidth 8)

/-- A list of forced writes in order. -/
def qwForced : List (Reg × Byte) → State → State
  | [], s => s
  | (r, v) :: rest, s => qwForced rest (qw .forced r v s)

/-- `WriteAddr(addr)` (rules R56, R89). -/
def writeAddrRegs (addr : Word) (s : State) : State :=
  qwForced (s.cfg.rBma.zip (addrBytes s.cfg addr)) s

/-! ## The wait primitive (rule R182) -/

/-- The flag of a wait descriptor is in its desired state (rules R39, R182). -/
def flagShows (d : WaitDesc) (v : Byte) : Bool := decide (v &&& d.mask = d.want)

/-- A wait returned OK. Of W_XFER: the transfer-done flag was seen, so no device-internal transfer is pending
any more (rules R39, R43). A poll of another wait leaves a pending one pending, also where its register is
the same (DESIGN CHOICE, log 9). -/
def flagSeen (w : WaitName) (h : Hardware) : Hardware :=
  match w with
  | .xfer => transferDone h
  | .fade => h
  | .sine => h

/-- A poll that read the byte `v`: OK if it shows the flag, else the wait will poll again. -/
def pollSeen (w : WaitName) (v : Byte) (s : State) : State :=
  if flagShows (s.cfg.wait w) v then
    emit (.wait w true)
      { s with
        hw := flagSeen w (blockPortRead s.cfg (s.cfg.wait w).reg s.hw)
        io := { s.io with rdata := v, waitRes := .ok } }
  else
    { s with
      hw := blockPortRead s.cfg (s.cfg.wait w).reg s.hw
      io := { s.io with rdata := v, waitRes := .polling } }

/-- A poll that read the byte `v`, after which the wait fails: a reported fault, or a timeout that ran out,
whatever the flag (rules R89, R182). A pending device-internal transfer stays pending, also where `v` shows
the transfer-done flag: the spec does not say whether it then counts as finished (beside rule R43; DESIGN
CHOICE, log 9). -/
def pollFailed (w : WaitName) (v : Byte) (s : State) : State :=
  emit (.wait w false)
    { s with
      hw := blockPortRead s.cfg (s.cfg.wait w).reg s.hw
      io := { s.io with rdata := v, waitRes := .failed } }

/-- One poll: it reads the register, and sees the flag (OK), or the wait fails, or it will poll again. -/
def poll (w : WaitName) (s : State) : State :=
  match (drawWait s).1 with
  | .seen v => pollSeen w v (drawWait s).2
  | .fails v => pollFailed w v (drawWait s).2

/-- `WAIT(w)` up to its next poll: `Sync()`, then one poll; what it came to is `io.waitRes` (rules R65,
R182). -/
def waitPoll (w : WaitName) (s : State) : State := poll w (syncQueue s)

/-! ## Commands: acceptance, end, early end -/

/-- The command port is ready: `PH = P_IDLE` and no wait is polling (rule R197, decision D38). -/
def ready (s : State) : Bool := decide (s.w.ph = .idle) && s.site.isNone

/-- Acceptance of a command: `PH <- ph`, an empty trace, the result port idle (rules R10, R197). -/
def accept (ph : Phase) (s : State) : State :=
  { s with w := { s.w with ph := ph }, io := { s.io with trace := [], sport := [] } }

/-- A status on the result port, and `PH <- P_IDLE` (rules R8, R86). Its most significant byte goes first
(DESIGN CHOICE, log 17). -/
def answer (v : Word) (s : State) : State :=
  { s with w := { s.w with ph := .idle }, io := { s.io with sport := bytes32 v } }

/-- `return v` of a command that leaves its status in RESULT (rules R8, R36). INIT and TERM, under which rule
R231 has RESULT unchanged, only `answer`. -/
def finish (v : Word) (s : State) : State :=
  let t := answer v s
  { t with w := { t.w with result := v } }

/-- The two error kinds (rules R205, R206). -/
inductive ErrorKind where
  | malformed | runtime
deriving DecidableEq, Repr

/-- The status of an error kind (rule R86). -/
def errorCode (c : Cfg) : ErrorKind → Word
  | .malformed => c.eMalformed
  | .runtime => c.eRuntime

/-- The early end of a command, this block's whole exception entry: "the status is delivered on the result
port, `PH <- P_IDLE`, and nothing else" (rule R212). There is no return from it (rule R213). -/
def earlyEnd (k : ErrorKind) (s : State) : State := finish (errorCode s.cfg k) s

/-- A WAIT inside a command: on OK the command goes on with `next`; on FAIL it ends early (rules R137,
R167); while the flag has not shown, the wait stays in progress at `site` (rule R182). -/
def waitThen (w : WaitName) (site : WaitSite) (next : State → State) (s : State) : State :=
  match (waitPoll w s).io.waitRes with
  | .ok => next { waitPoll w s with site := none }
  | .failed => earlyEnd .runtime { waitPoll w s with site := none }
  | .polling => { waitPoll w s with site := some site }

/-- A command runs only when the port is ready (rule R197, U9). -/
def onCommand (s : State) (run : State → State) : Host.Outcome State Fault Refusal :=
  if ready s then .next (run s) else .refused .commandPortBusy

end Sys2Proof.Machine
end

