-- ==== Sys2Proof/Machine/Analysis.lean ====
section
/-! DEFINITION. The request analyser (40_analysis.md): the walk of the blob, the analysis rule of each item,
the completion of the record. Pure functions of the blob, the enable masks and CFG (rule R100). `none` is
`raise Malformed`. -/

namespace Sys2Proof.Machine

/-- The transitions of all apps that have a directive slot and an enable bit (rule R102). -/
def fwTransitions (c : Cfg) (en : Two Byte) (body : List Byte) (r : AnalysisRecord) : AnalysisRecord :=
  c.apps.toList.foldl
    (fun acc app =>
      match app.dslot, app.en with
      | some s, some (k, b) => transition en (directiveAt c body s.val) k b acc
      | _, _ => acc) r

/-- A FWCTRL_B chunk (rule R102). -/
def analyseFwctrlB (c : Cfg) (en : Two Byte) (body : List Byte) (r : AnalysisRecord) :
    Option AnalysisRecord :=
  if c.tagFwctrlB ∈ r.seen then none
  else if fwBodyOk c body then
    let t := fwTransitions c en body r
    some { t with
      seen := c.tagFwctrlB :: t.seen
      mdir := directiveAt c body 14
      bdir := { k0 := directiveAt c body 15, k1 := directiveAt c body 16 }
      items := t.items ++ [.fw] }
  else none

/-- The accumulation of a non-empty coefficient chunk (rule R105). -/
def accumulateCoef (c : Cfg) (a : AppId) (mb : Byte) (addr : Word) (payload : List Byte)
    (r : AnalysisRecord) : AnalysisRecord :=
  { r with
    ncoef := r.ncoef + 1
    ctgt := r.ctgt.set (c.app a).cdom (r.ctgt.get (c.app a).cdom ||| bit (c.app a).cbit)
    xt := match (c.app a).en with
      | some (k, b) => r.xt.set k (r.xt.get k ||| bit b)
      | none => r.xt
    force := r.force || decide (r.ncoef + 1 > 1) || decide (payload.length > Cfg.capBytes) ||
      decide (mb ≠ c.mbInt)
    sinsel := if a = c.gen then (sineSelect c addr payload).or r.sinsel else r.sinsel
    items := r.items ++ [.coef a addr payload] }

/-- An APPCOEF chunk (rules R104, R107). -/
def analyseAppcoef (c : Cfg) (a : AppId) (body : List Byte) (r : AnalysisRecord) :
    Option AnalysisRecord :=
  if appTag c.tagCoef a ∈ r.seen then none
  else if coefBodyOk c body then
    let t := { r with seen := appTag c.tagCoef a :: r.seen }
    if coefCount c body = 0 then some { t with items := t.items ++ [.skip] }
    else some (accumulateCoef c a (coefMode c body) (coefAddr c body) (coefPayload c body) t)
  else none

/-- An APPREG chunk (rule R109). -/
def analyseAppreg (c : Cfg) (a : AppId) (body : List Byte) (r : AnalysisRecord) :
    Option AnalysisRecord :=
  if regBodyOk body then
    if a = c.gen then
      if appTag c.tagReg a ∈ r.seen then none
      else some { r with
        seen := appTag c.tagReg a :: r.seen
        genstop := r.genstop || bitSet (regFlags body) c.stopFlag
        items := r.items ++ [.reg (regFlags body) (regVals body)] }
    else some { r with items := r.items ++ [.skip] }
  else none

/-- A chunk of an unknown tag (rule R114). -/
def analyseSkip (r : AnalysisRecord) : Option AnalysisRecord :=
  some { r with items := r.items ++ [.skip] }

/-- One chunk of the walk (rule R101). -/
def analyseChunk (c : Cfg) (en : Two Byte) (k : Chunk) (r : AnalysisRecord) : Option AnalysisRecord :=
  match k with
  | .fwctrlB body => analyseFwctrlB c en body r
  | .appcoef a body => analyseAppcoef c a body r
  | .appreg a body => analyseAppreg c a body r
  | .skip _ _ => analyseSkip r

/-- The walk of the blob (rule R75): at most `fuel` chunks, each of 8 bytes or more. -/
def walk (c : Cfg) (en : Two Byte) : Nat → List Byte → AnalysisRecord → Option AnalysisRecord
  | _, [], r => some r
  | 0, _ :: _, _ => none
  | fuel + 1, b :: bs, r =>
    match decodeChunk c (b :: bs) with
    | .error _ => none
    | .ok (k, rest) =>
      match analyseChunk c en k r with
      | none => none
      | some r' => walk c en fuel rest r'

/-- Transfer-mode selection (rule R106). -/
def selectMode (r : AnalysisRecord) : Mode :=
  if r.ncoef = 0 then .none else if r.force then .host else .int

/-- The Gen stop mask (rule R110). -/
def genStopMask (c : Cfg) (en : Two Byte) (r : AnalysisRecord) : Two Byte :=
  match genEn c with
  | some (k, b) =>
    if r.genstop && appRunning en k b && !bitSet (r.off.get k) b then
      Two.set { k0 := 0, k1 := 0 } k (bit b)
    else { k0 := 0, k1 := 0 }
  | none => { k0 := 0, k1 := 0 }

/-- What completes the record after the last chunk (rules R106, R110). -/
def completeRecord (c : Cfg) (en : Two Byte) (r : AnalysisRecord) : AnalysisRecord :=
  { r with mode := selectMode r, gs := genStopMask c en r }

/-- `Analyse(DESC, EN[0], EN[1])` (rule R100). -/
def analyse (c : Cfg) (blob : List Byte) (en : Two Byte) : Analysis :=
  match walk c en blob.length blob AnalysisRecord.initial with
  | none => .malformed
  | some r => .record (completeRecord c en r)

/-- The record AR holds; the initial one after a parse error, when no rule reads it. -/
def recordOf : Analysis → AnalysisRecord
  | .malformed => AnalysisRecord.initial
  | .record r => r

/-- The record the phases of the running pass read (rule R30). -/
def passRecord (s : State) : AnalysisRecord := recordOf s.w.ar

/-- The enable masks an analysis reads: EN while INITED, zeros while IDLE (rules R21, R121, R192). -/
def analysisEn (s : State) : Two Byte :=
  if s.g.st = .inited then s.g.en else { k0 := 0, k1 := 0 }

/-- A descriptor item given to the analyser by itself (log 15): its rule updates AR, or raises Malformed,
which ends the analysis early with no other effect (rules R101, R205, R212). After a parse error "later
chunks are not looked at" (rule R115). -/
def analyseItem (rule : AnalysisRecord → Option AnalysisRecord) (s : State) : State :=
  match s.w.ar with
  | .malformed => earlyEnd .malformed s
  | .record r =>
    match rule r with
    | none => earlyEnd .malformed { s with w := { s.w with ar := .malformed } }
    | some r' => { s with w := { s.w with ar := .record r' } }

end Sys2Proof.Machine
end

