-- ==== Sys2Proof/Machine/Transfer.lean ====
section
/-! DEFINITION. Phase 3's handling of items: the coefficient-transfer sequencer and the Gen register chunk
(42_coef_transfer.md). -/

namespace Sys2Proof.Machine

/-- The payload, byte by byte, to R_BMD (rules R55, R151, R152). -/
def qwPayload (s : State) (payload : List Byte) : State :=
  qwForced (payload.map (fun v => (s.cfg.rBmd, v))) s

/-- A COEF item in host-driven mode (rule R151). -/
def coefHost (addr : Word) (payload : List Byte) (s : State) : State :=
  let s := writeAddrRegs addr s
  let s := qw .forced s.cfg.rBmctl s.cfg.vCtlWrHost s
  syncQueue (qwPayload s payload)

/-- A COEF item in device-internal mode (rule R152). -/
def coefInternal (addr : Word) (payload : List Byte) (s : State) : State :=
  let s := writeAddrRegs addr s
  let s := qw .forced s.cfg.rBmctl s.cfg.vCtlWrInt s
  let s := qwPayload s payload
  syncQueue { s with w := { s.w with trigpend := true } }

/-- The device-internal trigger, at most once a pass (rules R131, R153). -/
def triggerTransfer (s : State) : State :=
  if s.w.trigpend then
    let s := syncQueue (qw .forced s.cfg.rTrig s.cfg.vTrig s)
    { s with w := { s.w with trigpend := false } }
  else s

/-- One auxiliary register of a REG item, with the cancelling of the silence bookkeeping (rules R155,
R156). -/
def auxWrite (flags : Byte) (vals : List Byte) (i : Fin 7) (s : State) : State :=
  if bitSet flags (i.castLE (by decide)) then
    let s := qw .gated s.cfg.rAux[i] (byteAt vals i.val) s
    if i = s.cfg.sinSlot ∧ byteAt vals i.val = s.cfg.vSinInactive then
      { s with w := { s.w with sil := false } }
    else s
  else s

/-- The auxiliary registers of a REG item, ascending (rule R155). -/
def auxWrites (flags : Byte) (vals : List Byte) (s : State) : State :=
  (List.finRange 7).foldl (fun s i => auxWrite flags vals i s) s

/-- EN[k] set to a value, and the gated write of R_EN[k] (rules R128, R132, R157). -/
def writeEn (k : AeDom) (v : Byte) (s : State) : State :=
  qw .gated (s.cfg.rEn.get k) v { s with g := { s.g with en := s.g.en.set k v } }

/-- The Gen stop request (rule R157). -/
def genStop (s : State) : State :=
  match genEn s.cfg with
  | none => s
  | some (k, b) =>
    let s := { s with
      w := { s.w with
        onw := s.w.onw.set k (s.w.onw.get k &&& ~~~bit b)
        restore := s.w.restore.set k (s.w.restore.get k &&& ~~~bit b) } }
    if appRunning s.g.en k b then writeEn k (s.g.en.get k &&& ~~~bit b) s else s

/-- A REG item (rule R155). -/
def regItem (flags : Byte) (vals : List Byte) (s : State) : State :=
  let s := auxWrites flags vals s
  syncQueue (if bitSet flags s.cfg.stopFlag then genStop s else s)

/-- A COEF item in the transfer mode of the pass (rules R106, R130). With no mode there is no COEF item
(log 28). -/
def coefItem (addr : Word) (payload : List Byte) (s : State) : State :=
  match (passRecord s).mode with
  | .host => coefHost addr payload s
  | .int => coefInternal addr payload s
  | .none => s

/-- An item of phase 3 (rules R130, R158). -/
def downloadItem (item : Item) (s : State) : State :=
  match item with
  | .coef _ addr payload => coefItem addr payload s
  | .reg flags vals => regItem flags vals s
  | .fw => s
  | .skip => s

/-- An item, then `IX` counts it (rules R29, R130). -/
def downloadStep (item : Item) (s : State) : State :=
  let s := downloadItem item s
  { s with w := { s.w with ix := s.w.ix + 1 } }

/-- The items in blob order (rule R130). -/
def downloadItems : List Item → State → State
  | [], s => s
  | item :: items, s => downloadItems items (downloadStep item s)

end Sys2Proof.Machine
end

