-- ==== Sys2Proof/Machine/Apply.lean ====
section
/-! DEFINITION. APPLY and its four phases (41_sequencer_phases.md), in the order the rules give. The pass is
cut where a WAIT may keep polling: `quiesceBegin` follows phase 1's wait, `quiesceFaded` the fade wait,
`quiesceSilent` the sine wait. -/

namespace Sys2Proof.Machine

/-- Step Q1a: the bypass bits the pass needs (rule R123). -/
def bypassNeed (c : Cfg) (r : AnalysisRecord) : Byte :=
  let changed (k : AeDom) : Byte := if changeMask r k ≠ 0 then c.bypBit.get k else 0
  let target (d : Domain) : Byte := if r.mode = .host ∧ r.ctgt.get d ≠ 0 then c.prot.get d else 0
  changed .k0 ||| changed .k1 ||| target .ae0 ||| target .ae1 ||| target .gen ||| target .base

/-- The bypass bits whose directive is `d` (rule R123: `xon` for START, `XOFF` for STOP). -/
def bypassAsked (c : Cfg) (r : AnalysisRecord) (d : Directive) : Byte :=
  (if r.bdir.k0 = d then c.bypBit.k0 else 0) ||| (if r.bdir.k1 = d then c.bypBit.k1 else 0)

/-- BYP set to a value, and the gated write of R_BYP (rules R124, R134). -/
def writeByp (v : Byte) (s : State) : State :=
  qw .gated s.cfg.rByp v { s with g := { s.g with byp := v } }

/-- The new bypass value of step Q1b (rule R124). -/
def bypassOn (s : State) : Byte :=
  s.g.byp ||| bypassNeed s.cfg (passRecord s) ||| bypassAsked s.cfg (passRecord s) .start

/-- Step Q1b: the bypass write and its bookkeeping (rules R123, R124). -/
def stepQ1 (s : State) : State :=
  let need := bypassNeed s.cfg (passRecord s)
  let xon := bypassAsked s.cfg (passRecord s) .start
  let t := { s with
    w := { s.w with
      xoff := bypassAsked s.cfg (passRecord s) .stop
      prec := need &&& ~~~s.g.byp &&& ~~~xon } }
  if bypassOn s ≠ s.g.byp then writeByp (bypassOn s) t else t

/-- Step Q2a: whether Gen is affected (rule R125). -/
def genAffected (c : Cfg) (r : AnalysisRecord) : Bool :=
  (match genEn c with
    | some (k, b) => bitSet (changeMask r k) b
    | none => false) ||
  (decide (r.mode = .host) && bitSet (r.ctgt.get .gen) (c.app c.gen).cbit)

/-- Step Q2b: silencing the sine (rule R126). -/
def stepQ2 (s : State) : State :=
  if s.g.sinsrc = .reg ∧ genAffected s.cfg (passRecord s) = true then
    let t := rdReg s.cfg.rSinout s
    if t.io.rdata ≠ t.cfg.vSinInactive then
      qw .gated t.cfg.rSinout t.cfg.vSinInactive
        { t with w := { t.w with sinsave := t.io.rdata, sil := true } }
    else t
  else s

/-- The enable bits of EN[k] that a host-driven transfer clears (rule R128: `xclr`). -/
def transferClear (r : AnalysisRecord) (k : AeDom) : Byte := if r.mode = .host then r.xt.get k else 0

/-- Step Q4 for one enable register, with its bookkeeping (rules R128, R129); ONW[k] is set here (rule R31)
to what rule R121 set it to at entry (DEDUCED, log 30). -/
def stepQ4For (k : AeDom) (s : State) : State :=
  let r := passRecord s
  let clr := r.off.get k ||| (transferClear r k &&& s.g.en.get k)
  let t := { s with
    w := { s.w with
      restore := s.w.restore.set k (transferClear r k &&& s.g.en.get k &&& ~~~r.off.get k)
      onw := s.w.onw.set k (r.on.get k) } }
  if clr ≠ 0 then writeEn k (s.g.en.get k &&& ~~~clr) t else t

/-- Step Q4: clearing enable bits (rule R128). -/
def stepQ4 (s : State) : State := syncQueue (stepQ4For .k1 (stepQ4For .k0 s))

/-- Phase 3 (rules R130, R131). -/
def phaseDownload (s : State) : State :=
  triggerTransfer
    (downloadItems (passRecord s).items { s with w := { s.w with ph := .download, ix := 0 } })

/-- Step R1 for one enable register (rule R132). -/
def stepR1For (k : AeDom) (s : State) : State :=
  writeEn k (s.g.en.get k ||| s.w.restore.get k ||| s.w.onw.get k) s

/-- Step R2: the sine back (rule R133). -/
def stepR2 (s : State) : State :=
  if s.w.sil then
    let t := qw .gated s.cfg.rSinout s.w.sinsave s
    { t with w := { t.w with sil := false } }
  else s

/-- Step R3: the bypass back (rule R134). -/
def stepR3 (s : State) : State :=
  let newbyp := s.g.byp &&& ~~~s.w.prec &&& ~~~s.w.xoff
  if newbyp ≠ s.g.byp then writeByp newbyp s else s

/-- MASTER set to a value, and the gated write of R_MCTL (rules R135, R193, R194). -/
def writeMaster (v : Byte) (s : State) : State :=
  qw .gated s.cfg.rMctl v { s with g := { s.g with master := v } }

/-- Step R4: the master directive (rule R135). -/
def stepR4 (s : State) : State :=
  match (passRecord s).mdir with
  | .start => writeMaster (s.g.master ||| s.cfg.mByp) s
  | .stop => writeMaster (s.g.master &&& ~~~s.cfg.mByp) s
  | .dc => s

/-- Phase 4 and the completion (rules R132 to R136). -/
def phaseResume (s : State) : State :=
  let s := { s with w := { s.w with ph := .resume } }
  let s := stepR1For .k1 (stepR1For .k0 s)
  finish 0 (syncQueue (stepR4 (stepR3 (stepR2 s))))

/-- Phase 2 after its waits, then phases 3 and 4: no wait is left, so none of this can abort (rule
R130). -/
def quiesceSilent (s : State) : State := phaseResume (phaseDownload (stepQ4 s))

/-- Phase 2 after the fade wait (rule R127). -/
def quiesceFaded (s : State) : State :=
  if s.w.sil then waitThen .sine .applySine quiesceSilent s else quiesceSilent s

/-- Phase 2 from its beginning (rules R123 to R127). -/
def quiesceBegin (s : State) : State :=
  let s := { s with w := { s.w with ph := .quiesce } }
  let t := stepQ2 (stepQ1 s)
  if bypassOn s ≠ s.g.byp then waitThen .fade .applyFade quiesceFaded t else quiesceFaded t

/-- Phase 1 (rule R122). -/
def phaseWait (s : State) : State :=
  waitThen .xfer .applyXfer quiesceBegin { s with w := { s.w with ph := .wait } }

/-- The working registers of the last pass cleared, ONW among them, so that nothing leaks into this one (rule
R47). -/
def clearPass (s : State) : State :=
  { s with
    w := { s.w with
      restore := { k0 := 0, k1 := 0 }, onw := { k0 := 0, k1 := 0 }, prec := 0, xoff := 0, sil := false,
      trigpend := false, ix := 0 } }

/-- The commit of a well-formed request: the clear of rule R47, then rule R121's own load of ONW and of the
sine selection (the order of the two: DEDUCED, log 30). -/
def commitPass (r : AnalysisRecord) (s : State) : State :=
  let t := clearPass s
  { t with
    g := { t.g with sinsrc := r.sinsel.getD t.g.sinsrc }
    w := { t.w with onw := r.on } }

/-- The blob latched and analysed (rules R66, R121, R192). -/
def latchAnalyse (blob : List Byte) (s : State) : State :=
  { s with w := { s.w with desc := blob, ar := analyse s.cfg blob (analysisEn s) } }

/-- The entry of APPLY after its status gate: analysis, commit, then the phases (rules R121, R137). -/
def applyBlob (blob : List Byte) (s : State) : State :=
  let s := latchAnalyse blob s
  match s.w.ar with
  | .malformed => earlyEnd .malformed s
  | .record r => phaseWait (commitPass r s)

/-- APPLY (rules R120, R121). -/
def execApply (blob : List Byte) (s : State) : Host.Outcome State Fault Refusal :=
  onCommand s fun s =>
    let s := accept .cmd s
    if s.g.st = .inited then applyBlob blob s else earlyEnd .runtime s

end Sys2Proof.Machine
end

