-- ==== Sys2Proof/Machine/Commands.lean ====
section
/-! DEFINITION. The lifecycle, validation, master and query commands (45_commands.md), and the reserved
opcodes. -/

namespace Sys2Proof.Machine

/-- The global state INIT loads (rules R46, R190). -/
def initGlobals (c : Cfg) : Globals where
  st := .inited
  master := c.initMaster
  en := c.initEn
  byp := c.initByp
  sinsrc := c.initSinsrc

/-- INIT (rules R190, R231). -/
def execInit (s : State) : Host.Outcome State Fault Refusal :=
  onCommand s fun s =>
    let s := accept .cmd s
    answer 0 (if s.g.st = .inited then s else { s with g := initGlobals s.cfg })

/-- TERM (rules R191, R231). -/
def execTerm (s : State) : Host.Outcome State Fault Refusal :=
  onCommand s fun s =>
    let s := accept .cmd s
    answer 0 { s with g := { s.g with st := .idle } }

/-- VALIDATE (rule R192). -/
def execValidate (blob : List Byte) (s : State) : Host.Outcome State Fault Refusal :=
  onCommand s fun s =>
    let s := latchAnalyse blob (accept .cmd s)
    match s.w.ar with
    | .malformed => earlyEnd .malformed s
    | .record _ => finish 0 s

/-- The status gate of a command that touches hardware (rule R207). -/
def gated (run : State → State) (s : State) : State :=
  if s.g.st = .inited then run s else earlyEnd .runtime s

/-- MSTART (rule R193). -/
def execMstart (s : State) : Host.Outcome State Fault Refusal :=
  onCommand s fun s =>
    gated (fun s => finish 0 (syncQueue (writeMaster (s.g.master ||| s.cfg.mEn) s))) (accept .cmd s)

/-- MSTOP (rule R194). -/
def execMstop (s : State) : Host.Outcome State Fault Refusal :=
  onCommand s fun s =>
    gated (fun s => finish 0 (syncQueue (writeMaster (s.g.master &&& ~~~s.cfg.mEn) s)))
      (accept .cmd s)

/-- QUERY (rule R195). -/
def execQuery (s : State) : Host.Outcome State Fault Refusal :=
  onCommand s fun s =>
    let s := accept .cmd s
    if s.g.st = .inited then
      let s := rdReg s.cfg.rTrans s
      finish ((s.io.rdata &&& s.cfg.mTrans).setWidth 32) s
    else finish 0 s

/-- A reserved opcode is answered as "an implementation that must answer" does: E_MALFORMED with no side
effect (rule R196, decision D42; DESIGN CHOICE, log 11). -/
def reservedAnswer (s : State) : Host.Outcome State Fault Refusal :=
  onCommand s fun s => earlyEnd .malformed (accept .cmd s)

/-- Opcodes 0x08 to 0x0F (rule R196). -/
def execReserved08 (_low : BitVec 3) (s : State) : Host.Outcome State Fault Refusal := reservedAnswer s

/-- Opcodes 0x10 to 0x1F (rule R196). -/
def execReserved10 (_low : BitVec 4) (s : State) : Host.Outcome State Fault Refusal := reservedAnswer s

/-- Opcodes 0x20 to 0x3F (rule R196). -/
def execReserved20 (_low : BitVec 5) (s : State) : Host.Outcome State Fault Refusal := reservedAnswer s

/-- Opcodes 0x40 to 0x7F (rule R196). -/
def execReserved40 (_low : BitVec 6) (s : State) : Host.Outcome State Fault Refusal := reservedAnswer s

/-- Opcodes 0x80 to 0xFF (rule R196). -/
def execReserved80 (_low : BitVec 7) (s : State) : Host.Outcome State Fault Refusal := reservedAnswer s

end Sys2Proof.Machine
end

