-- ==== Sys2Proof/Machine/Gates.lean ====
section
/-! DEFINITION. The three gates on register access (rule R186), for what is offered by itself: a port
operation, a pseudo-operation, an item of phase 3. The commands keep them by their own tests of ST and by the
order of their phases. An access that a gate holds back is not issued: nothing happens (log 22). -/

namespace Sys2Proof.Machine

/-- The status gate (rule R186 (1)). -/
def statusOpen (s : State) : Bool := decide (s.g.st = .inited)

/-- The registers of block memory access (rules R38, R178). -/
def blockMemoryReg (c : Cfg) (r : Reg) : Bool :=
  decide (r ∈ c.rBma) || decide (r = c.rBmctl) || decide (r = c.rBmd) || decide (r = c.rTrig)

/-- `WAIT(W_XFER)` returned OK in the command that runs (rule R186 (2)). With none running, the operations
offered by themselves since the last command count as one (DESIGN CHOICE, log 22). -/
def transferOpen (s : State) : Bool :=
  s.io.trace.any (fun e => decide (e.op = .wait .xfer true) &&
    (decide (s.w.ph ≠ .idle) || decide (e.phase = .idle)))

/-- The registers that a phase may write (the table of rule R140; P_CMD by rule R198). P_IDLE has no row in
either, so the phase gate holds nothing back there, a register outside rule R38 included: what the block
names (rule R51) is the business of its commands (DESIGN CHOICE, log 22). -/
def phaseWrites (c : Cfg) (p : Phase) (r : Reg) : Bool :=
  match p with
  | .idle => true
  | .cmd => decide (r = c.rMctl)
  | .wait => false
  | .quiesce => decide (r = c.rByp) || decide (r = c.rSinout) || decide (r = c.rEn.k0) || decide (r = c.rEn.k1)
  | .download => blockMemoryReg c r || decide (r ∈ c.rAux.toList) ||
      (match genEn c with
        | some (k, _) => decide (r = c.rEn.get k)
        | none => false)
  | .resume => decide (r = c.rEn.k0) || decide (r = c.rEn.k1) || decide (r = c.rSinout) ||
      decide (r = c.rByp) || decide (r = c.rMctl)
  | .upload => decide (r ∈ c.rBma) || decide (r = c.rBmctl)

/-- The waits that a phase may make (rules R122, R127, R140, R167). -/
def phaseWaits (p : Phase) (w : WaitName) : Bool :=
  match p with
  | .idle => true
  | .cmd => false
  | .wait => decide (w = .xfer)
  | .quiesce => decide (w = .fade) || decide (w = .sine)
  | .download => false
  | .resume => false
  | .upload => decide (w = .xfer)

/-- The registers that a phase may read (the table of rule R140; P_CMD by rule R198): those of its waits,
and its own. P_IDLE as in `phaseWrites`: any register, also one outside rule R38 (DESIGN CHOICE, log 22). -/
def phaseReads (c : Cfg) (p : Phase) (r : Reg) : Bool :=
  match p with
  | .idle => true
  | .cmd => decide (r = c.rTrans)
  | .wait => decide (r = c.wXfer.reg)
  | .quiesce => decide (r = c.rSinout) || decide (r = c.wFade.reg) || decide (r = c.wSine.reg)
  | .download => false
  | .resume => false
  | .upload => decide (r = c.wXfer.reg) || decide (r = c.rBmd)

/-- The transfer gate lets an access to register `r` through (rule R186 (2)). -/
def regOpen (r : Reg) (s : State) : Bool := !blockMemoryReg s.cfg r || transferOpen s

/-- The gates let a write of register `r` through (rule R186), gated or forced: they test the register and not
the write kind that rules R38 and R60 give it (offered by itself: DESIGN CHOICE, log 22). -/
def writeOpen (r : Reg) (s : State) : Bool := statusOpen s && regOpen r s && phaseWrites s.cfg s.w.ph r

/-- The gates let a read of register `r` through (rule R186). -/
def readOpen (r : Reg) (s : State) : Bool := statusOpen s && regOpen r s && phaseReads s.cfg s.w.ph r

/-- The gates let a wait through (rule R186). -/
def waitOpen (w : WaitName) (s : State) : Bool := statusOpen s && phaseWaits s.w.ph w

/-- The gates let `WriteAddr` through: the writes of all address registers (rules R89, R186). -/
def addrOpen (s : State) : Bool := s.cfg.rBma.all (fun r => writeOpen r s)

/-- What the gates hold back is not issued (rule R186). -/
def ifOpen (isOpen : Bool) (run : State → State) (s : State) : State := if isOpen then run s else s

end Sys2Proof.Machine
end

