-- ==== Sys2Proof/Machine/Items.lean ====
section
/-! DEFINITION. The meanings of the four descriptor items as instructions: in phase 3 what the item does to
the device, otherwise what it does to the analysis record (40_analysis.md, 42_coef_transfer.md; log 15). -/

namespace Sys2Proof.Machine

/-- The gates let an item of phase 3 through: what it issues needs ST = INITED, and block memory the transfer
wait (rule R186; log 22). -/
def itemOpen (item : Item) (s : State) : Bool :=
  match item with
  | .coef _ _ _ => statusOpen s && transferOpen s
  | .reg _ _ => statusOpen s
  | .fw => true
  | .skip => true

/-- PH decides which stage handles an item: phase 3's item loop (rule R130) or the analyser (rule R101). In
either stage a malformed item ends early with AR left Malformed (DESIGN CHOICE, log 15). -/
def itemStage (rule : AnalysisRecord → Option AnalysisRecord) (item : Option Item) (s : State) : State :=
  if s.w.ph = .download then
    match item with
    | some item => ifOpen (itemOpen item s) (downloadStep item) s
    | none => earlyEnd .malformed { s with w := { s.w with ar := .malformed } }
  else analyseItem rule s

/-- FWCTRL_B (rules R102, R103); nothing in phase 3 (rule R158). -/
def execFwctrlB (body : List Byte) (s : State) : Host.Outcome State Fault Refusal :=
  .next (itemStage (analyseFwctrlB s.cfg (analysisEn s) body)
    (if fwBodyOk s.cfg body then some .fw else none) s)

/-- APPCOEF (rules R104 to R108); in phase 3 rule R151 or R152. -/
def execAppcoef (a : AppId) (body : List Byte) (s : State) : Host.Outcome State Fault Refusal :=
  .next (itemStage (analyseAppcoef s.cfg a body)
    (if coefBodyOk s.cfg body then
      some (if coefCount s.cfg body = 0 then .skip
        else .coef a (coefAddr s.cfg body) (coefPayload s.cfg body))
    else none) s)

/-- APPREG (rule R109); in phase 3 rules R155 to R157, for Gen only. -/
def execAppreg (a : AppId) (body : List Byte) (s : State) : Host.Outcome State Fault Refusal :=
  .next (itemStage (analyseAppreg s.cfg a body)
    (if regBodyOk body then
      some (if a = s.cfg.gen then .reg (regFlags body) (regVals body) else .skip)
    else none) s)

/-- SKIP, a chunk of an unknown tag (rule R114); nothing in phase 3 (rule R158). -/
def execSkip (_tag : Word) (_body : List Byte) (s : State) : Host.Outcome State Fault Refusal :=
  .next (itemStage analyseSkip (some .skip) s)

end Sys2Proof.Machine
end

