-- ==== Sys2Proof/Machine/Port.lean ====
section
/-! DEFINITION. The register-access operations and the pseudo-operations as instructions
(44_regaccess_port.md, rules R56, R85, R89), each behind the gates of rule R186 (log 22). -/

namespace Sys2Proof.Machine

/-- QW_G (rules R176, R177, R186). Offered by itself it may name a register that rule R60 has written forced
only, and its delivery may then drop it (DESIGN CHOICE, log 22). -/
def execQwG (bank index value : Byte) (s : State) : Host.Outcome State Fault Refusal :=
  .next (ifOpen (writeOpen { bank := bank, index := index } s)
    (qw .gated { bank := bank, index := index } value) s)

/-- QW_F (rules R176, R178, R186). Offered by itself it may name a register that the block writes gated
(DESIGN CHOICE, log 22). -/
def execQwF (bank index value : Byte) (s : State) : Host.Outcome State Fault Refusal :=
  .next (ifOpen (writeOpen { bank := bank, index := index } s)
    (qw .forced { bank := bank, index := index } value) s)

/-- FLUSH (rules R179, R186). -/
def execFlush (s : State) : Host.Outcome State Fault Refusal :=
  .next (ifOpen (statusOpen s) flushQueue s)

/-- RD (rules R181, R186). -/
def execRd (bank index : Byte) (s : State) : Host.Outcome State Fault Refusal :=
  .next (ifOpen (readOpen { bank := bank, index := index } s)
    (rdReg { bank := bank, index := index }) s)

/-- Sync (rules R180, R186). -/
def execSync (s : State) : Host.Outcome State Fault Refusal :=
  .next (ifOpen (statusOpen s) syncQueue s)

/-- A WAIT by itself, up to its next poll: while the flag has not shown it stays in progress (rule
R182). -/
def waitAlone (w : WaitName) (s : State) : State :=
  match (waitPoll w s).io.waitRes with
  | .ok => { waitPoll w s with site := none }
  | .failed => { waitPoll w s with site := none }
  | .polling => { waitPoll w s with site := some (.alone w) }

/-- WAIT (rules R182, R186). -/
def execWait (w : WaitName) (s : State) : Host.Outcome State Fault Refusal :=
  .next (ifOpen (waitOpen w s) (waitAlone w) s)

/-- WriteAddr (rules R56, R186). -/
def execWriteAddr (addr : Word) (s : State) : Host.Outcome State Fault Refusal :=
  .next (ifOpen (addrOpen s) (writeAddrRegs addr) s)

/-- The 32-bit word of a port operation (rule R85). A WAIT is one or more reads of its register (rule R89):
its word is that read's. -/
def portWordOf (c : Cfg) : PortOp → Word
  | .qw .gated r v => portWord 0 r.bank r.index v
  | .qw .forced r v => portWord 1 r.bank r.index v
  | .flush => portWord 2 0 0 0
  | .rd r _ => portWord 3 r.bank r.index 0
  | .wait w _ => portWord 3 (c.wait w).reg.bank (c.wait w).reg.index 0

end Sys2Proof.Machine
end

