-- ==== Sys2Proof/Machine/Upload.lean ====
section
/-! DEFINITION. UPLOAD, the diagnostic read-back (43_upload.md). -/

namespace Sys2Proof.Machine

/-- The count field of a result (rules R86, R170). Where it does not fit its 32 bits the spec states no
value: a free one (log 19). -/
def countWord (n : Nat) : Word := if n < 4294967296 then BitVec.ofNat 32 n else Config.wideCount n

/-- Success of UPLOAD: status 0, the count, the bytes (rules R86, R170). -/
def finishUpload (bytes : List Byte) (s : State) : State :=
  let t := finish 0 s
  { t with
    w := { t.w with outbuf := bytes }
    io := { t.io with sport := bytes32 0 ++ bytes32 (countWord bytes.length) ++ bytes } }

/-- The reads of R_BMD, one a byte; what they returned goes to OUTBUF in order (rules R55, R169). -/
def drain : Nat → State → State
  | 0, s => s
  | n + 1, s =>
    let s := rdReg s.cfg.rBmd s
    drain n { s with w := { s.w with outbuf := s.w.outbuf ++ [s.io.rdata], ix := s.w.ix + 1 } }

/-- UPLOAD after its wait: point the registers in the read direction, drain, return (rules R168, R169). -/
def uploadRead (m : MemDom) (addr : Word) (units : Nat) (s : State) : State :=
  let s := writeAddrRegs addr s
  let s := syncQueue (qw .forced s.cfg.rBmctl (s.cfg.vCtlRd m) s)
  let s := drain (units * m.unit) { s with w := { s.w with outbuf := [], ix := 0 } }
  finishUpload s.w.outbuf s

/-- How many units are read: the clamp (rule R166). -/
def clampUnits (c : Cfg) (m : MemDom) (addr size : Word) : Nat :=
  min size.toNat (c.hi m - addr.toNat)

/-- The address is in the legal range `[LO[m], HI[m])` (rules R52, R166). -/
def uploadAddrOk (c : Cfg) (m : MemDom) (addr : Word) : Bool :=
  decide (c.lo m ≤ addr.toNat) && decide (addr.toNat < c.hi m)

/-- UPLOAD past its argument checks (rules R166, R167). -/
def uploadUnits (m : MemDom) (addr : Word) (units : Nat) (s : State) : State :=
  if units = 0 then finishUpload [] s
  else waitThen .xfer (.upload m addr units) (uploadRead m addr units) s

/-- UPLOAD past its status gate (rule R166). -/
def uploadChecked (dom : Byte) (addr size : Word) (s : State) : State :=
  match memDomOf dom with
  | none => earlyEnd .malformed s
  | some m =>
    if uploadAddrOk s.cfg m addr then uploadUnits m addr (clampUnits s.cfg m addr size) s
    else earlyEnd .malformed s

/-- UPLOAD (rule R165). -/
def execUpload (dom : Byte) (addr size : Word) (s : State) : Host.Outcome State Fault Refusal :=
  onCommand s fun s =>
    let s := accept .upload s
    if s.g.st = .inited then uploadChecked dom addr size s else earlyEnd .runtime s

end Sys2Proof.Machine
end

