-- ==== Sys2Proof/Machine/Dispatch.lean ====
section
/-! DEFINITION. One arm per instruction, each a direct call of its meaning. -/

namespace Sys2Proof.Machine

def exec (i : Instr) (s : State) : Host.Outcome State Fault Refusal :=
  match i with
  | .init => Sys2Proof.Machine.execInit s
  | .term => Sys2Proof.Machine.execTerm s
  | .validate blob => Sys2Proof.Machine.execValidate blob s
  | .apply blob => Sys2Proof.Machine.execApply blob s
  | .mstart => Sys2Proof.Machine.execMstart s
  | .mstop => Sys2Proof.Machine.execMstop s
  | .query => Sys2Proof.Machine.execQuery s
  | .upload dom addr size => Sys2Proof.Machine.execUpload dom addr size s
  | .reserved08 low => Sys2Proof.Machine.execReserved08 low s
  | .reserved10 low => Sys2Proof.Machine.execReserved10 low s
  | .reserved20 low => Sys2Proof.Machine.execReserved20 low s
  | .reserved40 low => Sys2Proof.Machine.execReserved40 low s
  | .reserved80 low => Sys2Proof.Machine.execReserved80 low s
  | .fwctrlB body => Sys2Proof.Machine.execFwctrlB body s
  | .appcoef a body => Sys2Proof.Machine.execAppcoef a body s
  | .appreg a body => Sys2Proof.Machine.execAppreg a body s
  | .skip tag body => Sys2Proof.Machine.execSkip tag body s
  | .qwG bank index value => Sys2Proof.Machine.execQwG bank index value s
  | .qwF bank index value => Sys2Proof.Machine.execQwF bank index value s
  | .flush => Sys2Proof.Machine.execFlush s
  | .rd bank index => Sys2Proof.Machine.execRd bank index s
  | .sync => Sys2Proof.Machine.execSync s
  | .wait w => Sys2Proof.Machine.execWait w s
  | .writeAddr addr => Sys2Proof.Machine.execWriteAddr addr s

end Sys2Proof.Machine
end

