-- ==== Sys2Proof/Machine/Fetch.lean ====
section
/-! DEFINITION. Taking a frame: which instruction comes next, what is left of the frame, and what a frame
with no instruction in it does (rules R70, R75, R197; logs 13, 20). -/

namespace Sys2Proof.Machine

/-- The inbox once an instruction has been taken from its first frame. -/
def inboxAfter (rest : Option Frame) (frames : List Frame) : List Frame :=
  match rest with
  | some f => f :: frames
  | none => frames

/-- The state in which a fetched instruction runs. -/
def takeFrame (rest : Option Frame) (frames : List Frame) (s : State) : State :=
  { s with io := { s.io with inbox := inboxAfter rest frames } }

/-- A frame that decodes to no instruction: an empty frame does nothing (an empty blob is legal and has no
item, rule R75), a chunk whose header is cut short or whose length runs past the bytes is malformed (M1, M2
of rule R208), the others stop the machine (DESIGN CHOICE, log 20). -/
def undecoded (e : DecodeError) (s : State) : Host.Outcome State Fault Refusal :=
  match e with
  | .emptyCommand => .next s
  | .truncatedCommand => .fault .truncatedCommand
  | .emptyChunk => .next s
  | .truncatedHeader => .next (earlyEnd .malformed { s with w := { s.w with ar := .malformed } })
  | .overlongChunk => .next (earlyEnd .malformed { s with w := { s.w with ar := .malformed } })
  | .reservedPortBits => .fault .reservedPortBits

/-- The state in which the next step takes `f` as its first frame: no wait in progress, and for a command
the port ready. -/
def withFrame (f : Frame) (s : State) : State :=
  { s with
    site := none
    w := { s.w with ph := match f with
      | .command _ => .idle
      | .chunk _ => s.w.ph
      | .port _ => s.w.ph
      | .composite _ => s.w.ph }
    io := { s.io with inbox := f :: s.io.inbox } }

end Sys2Proof.Machine
end

