-- ==== Sys2Proof/Machine/Resume.lean ====
section
/-! DEFINITION. The next poll of a wait in progress, and what its command does when it ends (rules R137,
R167, R182). -/

namespace Sys2Proof.Machine

/-- Poll again at the site where a wait is in progress. -/
def resumeWait (site : WaitSite) (s : State) : State :=
  match site with
  | .applyXfer => waitThen .xfer .applyXfer quiesceBegin s
  | .applyFade => waitThen .fade .applyFade quiesceFaded s
  | .applySine => waitThen .sine .applySine quiesceSilent s
  | .upload m addr units => waitThen .xfer (.upload m addr units) (uploadRead m addr units) s
  | .alone w => waitAlone w s

end Sys2Proof.Machine
end

