-- ==== Sys2Proof/Machine/Step.lean ====
section
/-! DEFINITION. One step: a wait in progress polls once; else the first frame offered is decoded and run;
with nothing offered the block waits in P_IDLE (rules R182, R197, R230). -/

namespace Sys2Proof.Machine

def step (s : State) : Host.Outcome State Fault Refusal :=
  if admissible s.cfg then
    match s.site with
    | some site => .next (resumeWait site s)
    | none =>
      match s.io.inbox with
      | [] => .next s
      | f :: frames =>
        match decodeFrame s.cfg f with
        | .ok (i, rest) => exec i (takeFrame rest frames s)
        | .error e => undecoded e (takeFrame none frames s)
  else .refused .inadmissibleConfig

/-- The state in which the next step fetches and runs the instruction of a word of the opcode table. -/
def State.withFetchWord (s : State) (nbits w : Nat) : State :=
  match tableFrame nbits w with
  | some f => withFrame f s
  | none => s

end Sys2Proof.Machine
end

