-- ==== Sys2Proof/Safety.lean ====
section
/-! DEFINITION. The terms in which claims are stated: the invariant of the machine, coherence of the block's
copies with the device, which registers a phase may touch, the order of the phases, what a pass leaves in
the enable masks, and the register accesses of a whole pass, written from the rules. -/

namespace Sys2Proof.Machine

/-- The shadow is coherent: it equals the device register whenever it holds a value (rule R177). -/
def ShadowCoherent (h : Hardware) : Prop :=
  ∀ a v, Memory.read h.shadow a = some v → RegFile.read h.regs a = v

/-- The phase in which a wait may be in progress (rules R122, R127, R167). -/
def sitePhase : WaitSite → Phase
  | .applyXfer => .wait
  | .applyFade => .quiesce
  | .applySine => .quiesce
  | .upload _ _ _ => .upload
  | .alone _ => .idle

/-- The wait that is in progress at a site (rules R122, R127, R167). -/
def siteWait : WaitSite → WaitName
  | .applyXfer => .xfer
  | .applyFade => .fade
  | .applySine => .sine
  | .upload _ _ _ => .xfer
  | .alone w => w

/-- PH is P_IDLE, or the phase of the wait in progress (rules R28, R138, R197). -/
def phaseOfSite : Option WaitSite → Phase
  | none => .idle
  | some site => sitePhase site

/-- What every step keeps. -/
structure Inv (s : State) : Prop where
  /-- The memories are in their canonical form. -/
  regsWf : RegFile.wf s.hw.regs
  shadowWf : Memory.wf s.hw.shadow
  bmemWf : Memory.wf s.hw.bmem
  /-- The shadow is coherent (rule R177). -/
  shadowOk : ShadowCoherent s.hw
  /-- `QN` counts the queue (rules R35, R41). -/
  counted : s.w.qn = s.hw.queue.length
  /-- Nothing is queued while a wait polls (rule R65). -/
  waitEmpty : s.site.isSome = true → s.hw.queue = []
  /-- PH says where the sequencer is (rules R28, R138). -/
  phase : s.w.ph = phaseOfSite s.site
  /-- No trigger is owed outside phase 3 (rules R131, R245). -/
  noTrigger : s.w.trigpend = false
  /-- In phase 1 the pass has silenced nothing yet (rules R33, R121). -/
  notSilenced : s.site = some .applyXfer → s.w.sil = false
  /-- Only an initialised block waits (rules R186 (1), R198, R207). -/
  heldInited : s.site.isSome = true → s.g.st = .inited

/-- MASTER, EN[0], EN[1], BYP equal the device registers they shadow (rules R67, R245). -/
structure Coherent (s : State) : Prop where
  master : RegFile.read s.hw.regs s.cfg.rMctl.addr = s.g.master
  en0 : RegFile.read s.hw.regs s.cfg.rEn.k0.addr = s.g.en.k0
  en1 : RegFile.read s.hw.regs s.cfg.rEn.k1.addr = s.g.en.k1
  byp : RegFile.read s.hw.regs s.cfg.rByp.addr = s.g.byp

/-- The instruction is a command, the reserved opcodes among them (rules R71, R72). -/
def isCommand : Instr → Bool
  | .init => true
  | .term => true
  | .validate _ => true
  | .apply _ => true
  | .mstart => true
  | .mstop => true
  | .query => true
  | .upload _ _ _ => true
  | .reserved08 _ => true
  | .reserved10 _ => true
  | .reserved20 _ => true
  | .reserved40 _ => true
  | .reserved80 _ => true
  | .fwctrlB _ => false
  | .appcoef _ _ => false
  | .appreg _ _ => false
  | .skip _ _ => false
  | .qwG _ _ _ => false
  | .qwF _ _ _ => false
  | .flush => false
  | .rd _ _ => false
  | .sync => false
  | .wait _ => false
  | .writeAddr _ => false

/-- The registers a phase may write (the table of rule R140). -/
def mayWrite (c : Cfg) (p : Phase) (r : Reg) : Prop :=
  match p with
  | .idle => False
  | .cmd => r = c.rMctl
  | .wait => False
  | .quiesce => r = c.rByp ∨ r = c.rSinout ∨ r = c.rEn.k0 ∨ r = c.rEn.k1
  | .download => r ∈ c.rBma ∨ r = c.rBmctl ∨ r = c.rBmd ∨ r = c.rTrig ∨ r ∈ c.rAux.toList ∨
      ∃ k b, genEn c = some (k, b) ∧ r = c.rEn.get k
  | .resume => r = c.rEn.k0 ∨ r = c.rEn.k1 ∨ r = c.rSinout ∨ r = c.rByp ∨ r = c.rMctl
  | .upload => r ∈ c.rBma ∨ r = c.rBmctl

/-- The registers a phase may read by itself (the table of rule R140, less the waits). -/
def mayRead (c : Cfg) (p : Phase) (r : Reg) : Prop :=
  match p with
  | .idle => False
  | .cmd => r = c.rTrans
  | .wait => False
  | .quiesce => r = c.rSinout
  | .download => False
  | .resume => False
  | .upload => r = c.rBmd

/-- The waits a phase may make (rules R122, R127, R140, R167). -/
def mayWait (p : Phase) (w : WaitName) : Prop :=
  match p with
  | .idle => False
  | .cmd => False
  | .wait => w = .xfer
  | .quiesce => w = .fade ∨ w = .sine
  | .download => False
  | .resume => False
  | .upload => w = .xfer

/-- The phase gate (rule R186 (3)): an event touches only what its phase may touch. MSTART, MSTOP and QUERY
run in P_CMD (rule R198). -/
def gateOk (c : Cfg) (e : Event) : Prop :=
  match e.op with
  | .qw _ r _ => mayWrite c e.phase r
  | .flush => True
  | .rd r _ => mayRead c e.phase r
  | .wait w _ => mayWait e.phase w

/-- A register of block memory access, the trigger among them (rules R38, R60, R178). -/
def isBlockMemory (c : Cfg) (r : Reg) : Prop := r ∈ c.rBma ∨ r = c.rBmctl ∨ r = c.rBmd ∨ r = c.rTrig

/-- The operation touches a register of block memory access. -/
def touchesBlockMemory (c : Cfg) : PortOp → Prop
  | .qw _ r _ => isBlockMemory c r
  | .flush => False
  | .rd r _ => isBlockMemory c r
  | .wait _ _ => False

/-- The transfer wait has returned OK in these events. -/
def transferWaited (trace : List Event) : Prop := ∃ p, { phase := p, op := .wait .xfer true } ∈ trace

/-- The transfer gate (rule R186 (2)): every event that touches block memory stands after a transfer wait
that returned OK; and such a wait stands in the trace of a pass held up in phase 2. -/
def transferGate (s : State) : Prop :=
  (∀ pre e post, s.io.trace = pre ++ e :: post → touchesBlockMemory s.cfg e.op → transferWaited pre) ∧
  (s.site = some .applyFade ∨ s.site = some .applySine → transferWaited s.io.trace)

/-- A phase lets an operation by itself touch its register (the table of rule R140): a wait is the read of
its register too. -/
def phaseLets (c : Cfg) (p : Phase) : PortOp → Prop
  | .qw _ r _ => mayWrite c p r
  | .flush => True
  | .rd r _ => mayRead c p r ∨ ∃ w, mayWait p w ∧ r = (c.wait w).reg
  | .wait w _ => mayWait p w

/-- What rule R186 asks of an operation offered by itself: ST = INITED; for block memory a transfer wait that
was OK, in the command that runs, or with none running by itself since the last one; and the leave of its
phase, of which P_IDLE has none to give or refuse (the reading of log 22). -/
def mayIssue (s : State) (op : PortOp) : Prop :=
  s.g.st = .inited ∧
  (touchesBlockMemory s.cfg op →
    ∃ e ∈ s.io.trace, e.op = .wait .xfer true ∧ (s.w.ph = .idle → e.phase = .idle)) ∧
  (s.w.ph ≠ .idle → phaseLets s.cfg s.w.ph op)

/-- The position of a phase in a pass (rule R138). -/
def phaseRank : Phase → Nat
  | .idle => 0
  | .cmd => 1
  | .wait => 2
  | .quiesce => 3
  | .download => 4
  | .resume => 5
  | .upload => 6

/-- No event stands after one of a later phase: there is no backward edge (rules R28, R138). -/
def phasesForward (trace : List Event) : Prop :=
  trace.Pairwise (fun e f => phaseRank e.phase ≤ phaseRank f.phase)

/-- The events stand in the order of the phases, and while a wait is in progress none is of a phase later
than the one it waits in (rule R138). -/
def forwardSoFar (s : State) : Prop :=
  phasesForward s.io.trace ∧
    (s.site.isSome = true → ∀ e ∈ s.io.trace, phaseRank e.phase ≤ phaseRank s.w.ph)

/-- The number of writes of register `r` in a trace. -/
def countWrites (r : Reg) : List Event → Nat
  | [] => 0
  | e :: es =>
    (match e.op with
      | .qw _ r' _ => if r' = r then 1 else 0
      | .flush => 0
      | .rd _ _ => 0
      | .wait _ _ => 0) + countWrites r es

/-- An item of the blob asks to stop Gen (rules R82, R157). -/
def itemStopsGen (c : Cfg) : Item → Bool
  | .reg flags _ => bitSet flags c.stopFlag
  | .fw => false
  | .coef _ _ _ => false
  | .skip => false

/-- The enable bit of EN[k] that the blob's register chunks stop, if they do (rule R157). -/
def genStopped (c : Cfg) (items : List Item) (k : AeDom) : Byte :=
  if items.any (itemStopsGen c) then
    match genEn c with
    | some (kg, b) => if kg = k then bit b else 0
    | none => 0
  else 0

/-- The enable mask a completed pass leaves, from the mask before it: explicit stops off, starts on, a Gen
stop request last (the table of rule R139). -/
def enAfter (c : Cfg) (items : List Item) (off on before : Byte) (k : AeDom) : Byte :=
  ((before &&& ~~~off) ||| on) &&& ~~~genStopped c items k

/-- The last value a list of queued writes gives a register, if any gives one. -/
def lastQueued (a : Nat) : List QEntry → Option Byte
  | [] => none
  | e :: es => (lastQueued a es).or (if e.reg.addr = a then some e.value else none)

/-- The answers at the head of the tape show the flag of each wait of a list, in order, at its first
poll. -/
def answersShow (c : Cfg) : List WaitName → List WaitAnswer → Prop
  | [], _ => True
  | w :: ws, .seen v :: rest => v &&& (c.wait w).mask = (c.wait w).want ∧ answersShow c ws rest
  | _ :: _, .fails _ :: _ => False
  | _ :: _, [] => False

/-- The answers at the head of the tape show the flag of some of these waits, in order, each at its first
poll, and then the next wait fails at its first. -/
def answersFail (c : Cfg) : List WaitName → List WaitAnswer → Prop
  | w :: ws, .seen v :: rest => v &&& (c.wait w).mask = (c.wait w).want ∧ answersFail c ws rest
  | _ :: _, .fails _ :: _ => True
  | _ :: _, [] => False
  | [], _ => False

/-- The answers at the head of the tape show the flag of the waits before `held`, in order, each at its first
poll, and the first poll of `held` neither shows its flag nor fails. -/
def answersHold (c : Cfg) (held : WaitName) : List WaitName → List WaitAnswer → Prop
  | w :: ws, .seen v :: rest =>
    (v &&& (c.wait w).mask = (c.wait w).want ∧ answersHold c held ws rest) ∨
    (w = held ∧ v &&& (c.wait w).mask ≠ (c.wait w).want)
  | _ :: _, .fails _ :: _ => False
  | _ :: _, [] => False
  | [], _ => False

/-! ## Blobs chunk by chunk -/

/-- The bytes of whole chunks, each a tag and a body (rules R73, R75). -/
def blobOf (ks : List (Word × List Byte)) : List Byte :=
  ks.flatMap (fun k => bytes32 k.1 ++ encodeBlob k.2)

/-- Instructions one after another, as long as each answers a next state. -/
def runItems : List Instr → State → Option State
  | [], s => some s
  | i :: is, s =>
    match exec i s with
    | .next t => runItems is t
    | .fault _ => none
    | .refused _ => none

/-! ## The register accesses of a pass, from the rules -/

/-- A trace without its flushes, on which no property of the emitted sequence depends (rule R180). -/
def accesses (trace : List Event) : List Event := trace.filter (fun e => decide (e.op ≠ .flush))

/-- Operations emitted in one phase. -/
def eventsIn (p : Phase) (ops : List PortOp) : List Event := ops.map (fun op => { phase := p, op := op })

/-- `need`, as rule R123 computes it. -/
def needBits (c : Cfg) (r : AnalysisRecord) : Byte :=
  let need := [AeDom.k0, AeDom.k1].foldl (fun need k =>
    if r.on.get k ||| r.off.get k ||| r.gs.get k ≠ 0 then need ||| c.bypBit.get k else need) 0
  if r.mode = .host then
    [Domain.ae0, Domain.ae1, Domain.gen, Domain.base].foldl (fun need d =>
      if r.ctgt.get d ≠ 0 then need ||| c.prot.get d else need) need
  else need

/-- `xon` (for START) and `XOFF` (for STOP), as rule R123 computes them. -/
def askedBits (c : Cfg) (r : AnalysisRecord) (d : Directive) : Byte :=
  [AeDom.k0, AeDom.k1].foldl (fun m k => if r.bdir.get k = d then m ||| c.bypBit.get k else m) 0

/-- BYP after step Q1 (rule R124). -/
def bypAfterQ1 (c : Cfg) (r : AnalysisRecord) (byp : Byte) : Byte :=
  byp ||| needBits c r ||| askedBits c r .start

/-- `SINSRC = REG and gen_aff` (rules R125, R126). -/
def sineAtStake (c : Cfg) (r : AnalysisRecord) (src : SinSrc) : Bool :=
  decide (src = .reg) &&
    ((match (c.app c.gen).en with
      | some (k, b) => bitSet (r.on.get k ||| r.off.get k ||| r.gs.get k) b
      | none => false) ||
    (decide (r.mode = .host) && bitSet r.ctgt.gen (c.app c.gen).cbit))

/-- `xclr` (rule R128). -/
def xclr (r : AnalysisRecord) (k : AeDom) : Byte := if r.mode = .host then r.xt.get k else 0

/-- The enable masks after step Q4 (rule R128). -/
def enAfterQ4 (r : AnalysisRecord) (en : Two Byte) : Two Byte :=
  { k0 := en.k0 &&& ~~~(r.off.k0 ||| xclr r .k0), k1 := en.k1 &&& ~~~(r.off.k1 ||| xclr r .k1) }

/-- The writes of step Q4: each register whose value changes (rule R128). -/
def clearAccesses (c : Cfg) (r : AnalysisRecord) (en : Two Byte) : List PortOp :=
  [AeDom.k0, AeDom.k1].flatMap (fun k =>
    if r.off.get k ||| (xclr r k &&& en.get k) ≠ 0 then
      [.qw .gated (c.rEn.get k) (en.get k &&& ~~~(r.off.get k ||| (xclr r k &&& en.get k)))]
    else [])

/-- The writes of an item of phase 3 (rules R151, R152, R155, R157, R158). -/
def itemAccesses (c : Cfg) (m : Mode) (en : Two Byte) : Item → List PortOp
  | .fw => []
  | .coef _ addr payload =>
    if m = .none then []
    else (c.rBma.zip (addrBytes c addr)).map (fun p => .qw .forced p.1 p.2) ++
      [.qw .forced c.rBmctl (if m = .host then c.vCtlWrHost else c.vCtlWrInt)] ++
      payload.map (fun v => .qw .forced c.rBmd v)
  | .reg flags vals =>
    (List.finRange 7).filterMap (fun i =>
      if flags.getLsbD i.val then some (.qw .gated c.rAux[i] (byteAt vals i.val)) else none) ++
    (match genEn c with
      | some (k, b) =>
        if bitSet flags c.stopFlag = true ∧ bitSet (en.get k) b = true then
          [.qw .gated (c.rEn.get k) (en.get k &&& ~~~bit b)]
        else []
      | none => [])
  | .skip => []

/-- The enable masks after an item (rule R157). -/
def itemEn (c : Cfg) (en : Two Byte) (item : Item) : Two Byte :=
  { k0 := en.k0 &&& ~~~genStopped c [item] .k0, k1 := en.k1 &&& ~~~genStopped c [item] .k1 }

/-- The writes of the items in blob order (rule R130). -/
def downloadAccesses (c : Cfg) (m : Mode) : Two Byte → List Item → List PortOp
  | _, [] => []
  | en, item :: items => itemAccesses c m en item ++ downloadAccesses c m (itemEn c en item) items

/-- The item is a coefficient chunk's. -/
def isCoef : Item → Bool
  | .coef _ _ _ => true
  | .fw => false
  | .reg _ _ => false
  | .skip => false

/-- The item writes the sine register inactive (rule R156). -/
def cancelsSilence (c : Cfg) : Item → Bool
  | .reg flags vals =>
    flags.getLsbD c.sinSlot.val && decide (byteAt vals c.sinSlot.val = c.vSinInactive)
  | .fw => false
  | .coef _ _ _ => false
  | .skip => false

/-- The trigger, once, if the pass wrote a coefficient chunk in device-internal mode (rules R131, R153). -/
def triggerAccesses (c : Cfg) (r : AnalysisRecord) : List PortOp :=
  if r.mode = .int ∧ r.items.any isCoef = true then [.qw .forced c.rTrig c.vTrig] else []

/-- The writes of phase 4 (rules R132 to R135), from the enable masks before the pass, the saved sine value
if phase 2 silenced it, and the bypass mask before and after. -/
def resumeAccesses (c : Cfg) (r : AnalysisRecord) (g : Globals) (saved : Option Byte) (bypEnd : Byte) :
    List PortOp :=
  [.qw .gated c.rEn.k0 (enAfter c r.items r.off.k0 r.on.k0 g.en.k0 .k0),
   .qw .gated c.rEn.k1 (enAfter c r.items r.off.k1 r.on.k1 g.en.k1 .k1)] ++
  (match saved with
    | some v => if r.items.any (cancelsSilence c) then [] else [.qw .gated c.rSinout v]
    | none => []) ++
  (if bypEnd ≠ g.byp then [.qw .gated c.rByp bypEnd] else []) ++
  (match r.mdir with
    | .start => [.qw .gated c.rMctl (g.master ||| c.mByp)]
    | .stop => [.qw .gated c.rMctl (g.master &&& ~~~c.mByp)]
    | .dc => [])

/-- The accesses of a pass past its waits: step Q4, phase 3, phase 4 (rules R128 to R136). -/
def accessesPastWaits (c : Cfg) (r : AnalysisRecord) (g : Globals) (saved : Option Byte)
    (bypEnd : Byte) : List Event :=
  eventsIn .quiesce (clearAccesses c r g.en) ++
  eventsIn .download
    (downloadAccesses c r.mode (enAfterQ4 r g.en) r.items ++ triggerAccesses c r) ++
  eventsIn .resume (resumeAccesses c r g saved bypEnd)

/-- Phase 2 silences the sine: it is at stake and the byte read, `v`, is not the inactive value (rule R126). -/
def silences (c : Cfg) (r : AnalysisRecord) (g : Globals) (v : Byte) : Bool :=
  sineAtStake c r g.sinsrc && decide (v ≠ c.vSinInactive)

/-- The accesses of steps Q1 and Q2 (rules R124, R126). -/
def mutingAccesses (c : Cfg) (r : AnalysisRecord) (g : Globals) (v : Byte) : List PortOp :=
  (if bypAfterQ1 c r g.byp ≠ g.byp then [.qw .gated c.rByp (bypAfterQ1 c r g.byp)] else []) ++
  (if sineAtStake c r g.sinsrc then [.rd c.rSinout v] else []) ++
  (if silences c r g v then [.qw .gated c.rSinout c.vSinInactive] else [])

/-- The accesses of a whole pass from its transfer wait on, every wait OK, `v` the byte that the read of
R_SINOUT returns if it is made (rules R122 to R136). -/
def passAccesses (c : Cfg) (r : AnalysisRecord) (g : Globals) (v : Byte) : List Event :=
  eventsIn .wait [.wait .xfer true] ++
  eventsIn .quiesce
    (mutingAccesses c r g v ++
     (if bypAfterQ1 c r g.byp ≠ g.byp then [.wait .fade true] else []) ++
     (if silences c r g v then [.wait .sine true] else [])) ++
  accessesPastWaits c r { g with byp := bypAfterQ1 c r g.byp } (if silences c r g v then some v else none)
    ((g.byp ||| askedBits c r .start) &&& ~~~askedBits c r .stop)

/-! ## A pass held up in a wait -/

/-- The accesses of a pass up to the wait it is held up in (rules R122 to R127). -/
def accessesBeforeWait (c : Cfg) (r : AnalysisRecord) (g : Globals) (v : Byte) : WaitSite → List Event
  | .applyXfer => []
  | .applyFade => eventsIn .wait [.wait .xfer true] ++ eventsIn .quiesce (mutingAccesses c r g v)
  | .applySine => eventsIn .wait [.wait .xfer true] ++ eventsIn .quiesce (mutingAccesses c r g v ++
      (if bypAfterQ1 c r g.byp ≠ g.byp then [.wait .fade true] else []))
  | .upload _ _ _ => []
  | .alone _ => []

/-- The state of a pass held up in a wait at `site`: the pass of the record `r` from the global state `g`
(the sine selection committed), `v` the byte that the read of R_SINOUT returned if it was made (rules R121 to
R127, R182). -/
structure HeldPass (r : AnalysisRecord) (g : Globals) (v : Byte) (site : WaitSite) (s : State) : Prop where
  isPass : site = .applyXfer ∨ site = .applyFade ∨ site = .applySine
  held : s.site = some site
  record : s.w.ar = .record r
  /-- ST = INITED (rule R121). -/
  inited : g.st = .inited
  /-- Past phase 1 the bypass bits of step Q1 are set, nothing else has changed (rule R124). -/
  globals : s.g = { g with byp := if site = .applyXfer then g.byp else bypAfterQ1 s.cfg r g.byp }
  /-- There is a fade wait only if the bypass mask changes, a sine wait only if the sine was silenced (rule
  R127). -/
  faded : site = .applyFade → bypAfterQ1 s.cfg r g.byp ≠ g.byp
  silenced : site = .applySine → silences s.cfg r g v = true
  /-- PREC, XOFF, SIL, SINSAVE (rules R123, R124, R126). -/
  prec : s.w.prec =
    if site = .applyXfer then 0 else needBits s.cfg r &&& ~~~g.byp &&& ~~~askedBits s.cfg r .start
  xoff : s.w.xoff = if site = .applyXfer then 0 else askedBits s.cfg r .stop
  sil : s.w.sil = (decide (site ≠ .applyXfer) && silences s.cfg r g v)
  sinsave : s.w.sil = true → s.w.sinsave = v
  /-- The rest of the pass's registers, as rule R121 loads them. -/
  loaded : s.w.onw = r.on ∧ s.w.restore = { k0 := 0, k1 := 0 } ∧ s.w.trigpend = false ∧ s.w.ix = 0
  emitted : accesses s.io.trace = accessesBeforeWait s.cfg r g v site

/-- The place in a pass of each of its waits (rules R122, R127). -/
def passSite : WaitName → WaitSite
  | .xfer => .applyXfer
  | .fade => .applyFade
  | .sine => .applySine

/-- The waits of a pass from the one at `site` on: a fade wait if the bypass mask changes, and a sine wait if
`sine` says so (rules R122, R127). -/
def waitsFrom (c : Cfg) (r : AnalysisRecord) (g : Globals) (sine : Bool) : WaitSite → List WaitName
  | .applyXfer => [.xfer] ++ (if bypAfterQ1 c r g.byp ≠ g.byp then [.fade] else []) ++
      (if sine then [.sine] else [])
  | .applyFade => [.fade] ++ (if sine then [.sine] else [])
  | .applySine => [.sine]
  | .upload _ _ _ => [.xfer]
  | .alone w => [w]

/-- The pass may have a sine wait to come: in phase 1, if the sine is at stake and the byte that R_SINOUT is
about to return is not known to be the inactive value (a byte that no answer gives is any byte); later, if the
byte `v` that it returned silenced it (rules R125 to R127, R181). -/
def mayWaitForSine (r : AnalysisRecord) (g : Globals) (v : Byte) (site : WaitSite) (s : State) : Bool :=
  if site = .applyXfer then
    sineAtStake s.cfg r g.sinsrc && decide (s.orc.reads.head? ≠ some s.cfg.vSinInactive)
  else silences s.cfg r g v

/-- The pass has a sine wait to come: as `mayWaitForSine`, with the byte that R_SINOUT is about to return
known not to be the inactive value (rules R125 to R127, R181). -/
def willWaitForSine (r : AnalysisRecord) (g : Globals) (v : Byte) (site : WaitSite) (s : State) : Bool :=
  if site = .applyXfer then
    sineAtStake s.cfg r g.sinsrc && s.orc.reads.head?.any (fun u => decide (u ≠ s.cfg.vSinInactive))
  else silences s.cfg r g v

/-- What a completed pass of the record `r` leaves in group G, from the global state `g` (the sine selection
committed): the guarantee (the table of rule R139; rules R132, R134, R135). -/
def globalsAfter (c : Cfg) (r : AnalysisRecord) (g : Globals) : Globals :=
  { g with
    en :=
      { k0 := enAfter c r.items r.off.k0 r.on.k0 g.en.k0 .k0
        k1 := enAfter c r.items r.off.k1 r.on.k1 g.en.k1 .k1 }
    byp := (g.byp ||| askedBits c r .start) &&& ~~~askedBits c r .stop
    master := match r.mdir with
      | .start => g.master ||| c.mByp
      | .stop => g.master &&& ~~~c.mByp
      | .dc => g.master }

/-- In the events `pre` of a pass from the global state `g`, the coefficient target `a` has been muted: the
transfer wait was OK; if a bit of its domain's `PROT` was not set, a write of R_BYP that sets them all, and
after it a fade wait that was OK; if its enable bit was set, a write of its enable register that clears it
(rules R122 to R124, R127, R128). -/
def MutedBefore (c : Cfg) (g : Globals) (a : AppId) (pre : List Event) : Prop :=
  let prot := c.prot.get (c.app a).cdom
  { phase := .wait, op := .wait .xfer true } ∈ pre ∧
  (prot &&& g.byp ≠ prot → ∃ v, prot &&& v = prot ∧
    List.Sublist [{ phase := .quiesce, op := .qw .gated c.rByp v },
      { phase := .quiesce, op := .wait .fade true }] pre) ∧
  (∀ k b, (c.app a).en = some (k, b) → bitSet (g.en.get k) b = true →
    ∃ v, bitSet v b = false ∧ { phase := .quiesce, op := .qw .gated (c.rEn.get k) v } ∈ pre)

end Sys2Proof.Machine
end

