-- ==== Sys2Proof/Certificates/Slice0/Obligations.lean ====
section
/-! DEFINITION. The statements about the model, for the provers. Each docstring names the rule of the spec
it formalises, or the log entry of the choice it rests on. -/

open Sys2Proof Sys2Proof.Machine

/-! ## Encoding -/

/-- Decoding the frame of a well-formed instruction gives it back, with nothing left of the frame (rules
R71 to R75, R83, R85). -/
def Obligations.DecodeEncodeRoundTrip : Prop :=
  ∀ (c : Cfg) (i : Instr), admissible c = true → WellFormed c i = true →
    decodeFrame c (encode c i) = .ok (i, none)

/-- What decodes has one encoding: a port word that decodes is the word its operation encodes to, and
command bytes that decode to one command with nothing left are the bytes it encodes to (rules R71, R72,
R85). -/
def Obligations.EncodedFormsHaveOneMeaning : Prop :=
  (∀ (c : Cfg) (w : Word) (i : Instr), decodePort w = .ok i → encode c i = .port w) ∧
  (∀ (c : Cfg) (bytes : List Byte) (i : Instr),
    decodeCommand bytes = .ok (i, []) → encode c i = .command bytes)

/-- Words written out from the spec's encodings decode to what they stand for (rules R71, R73, R85;
95_test_vectors.md section 1). -/
def Obligations.WrittenWordsDecode : Prop :=
  decodeFrame Config.cfgEx (.command [0x07, 0x01, 0x00, 0x00, 0x07, 0xFF, 0x00, 0x00, 0x00, 0x04]) =
      .ok (.upload 1 0x7FF 4, none) ∧
  decodeFrame Config.cfgEx (.command [0x03, 0x00, 0x00, 0x00, 0x02, 0xAA, 0xBB]) =
      .ok (.apply [0xAA, 0xBB], none) ∧
  decodeFrame Config.cfgEx (.chunk [0x00, 0x00, 0x02, 0x08, 0x00, 0x00, 0x00, 0x01, 0x55]) =
      .ok (.appcoef 8 [0x55], none) ∧
  decodeFrame Config.cfgEx (.port 0x00000303) = .ok (.qwG 0 3 3, none) ∧
  decodeFrame Config.cfgEx (.port 0x400013A0) = .ok (.qwF 0 0x13 0xA0, none) ∧
  decodeFrame Config.cfgEx (.port 0xC0000500) = .ok (.rd 0 5, none)

/-! ## The machine -/

/-- With no wait in progress, a step runs the instruction that the first frame decodes to; what the step
adds is that the frame's bytes are taken (rules R70, R197; that a step takes one instruction from the first
frame of the inbox, and leaves the rest of the frame, is the model's choice, log 13). -/
def Obligations.StepRunsDecodedInstruction : Prop :=
  ∀ (s : State) (f : Frame) (frames : List Frame) (i : Instr) (rest : Option Frame),
    admissible s.cfg = true → s.site = none → s.io.inbox = f :: frames →
    decodeFrame s.cfg f = .ok (i, rest) →
    step s = exec i { s with io := { s.io with inbox := rest.toList ++ frames } }

/-- While a wait is in progress a step answers a next state and takes no frame, so no command is accepted;
and a poll that neither shows the flag nor fails leaves everything as it was but the byte on the return path
and the answers used, so that the pass goes on polling with all it holds (rules R182, R197; one poll a step
is the model's cut, log 3). -/
def Obligations.StepDuringWaitTakesNoFrame : Prop :=
  ∀ (s : State) (site : WaitSite), admissible s.cfg = true → s.site = some site →
    (∃ t, step s = .next t ∧ t.io.inbox = s.io.inbox ∧ t.cfg = s.cfg) ∧
    (∀ t, s.w.qn = 0 → step s = .next t → t.site = some site → t.g = s.g ∧ t.w = s.w ∧ t.hw = s.hw ∧
      t.io = { s.io with rdata := t.io.rdata, waitRes := .polling }) ∧
    (∀ v rest, s.w.qn = 0 → s.orc.waits = .seen v :: rest →
      v &&& (s.cfg.wait (siteWait site)).mask ≠ (s.cfg.wait (siteWait site)).want →
      step s = .next { s with
        io := { s.io with rdata := v, waitRes := .polling }
        orc := { s.orc with waits := rest } })

/-- With nothing offered and no wait in progress the block waits as it is (rule R230; frames as the host's
offers: log 13). -/
def Obligations.StepWaitsForACommand : Prop :=
  ∀ s : State, admissible s.cfg = true → s.site = none → s.io.inbox = [] → step s = .next s

/-- A step refuses a configuration exactly if it breaks a clause of rule R6 or a range of rule R5, each
written out below; the last three clauses are the model's own (`ADDR_W > 0`, `PROT` a mask of bypass bits,
the fixed fields of an APPCOEF body before its payload: log 16, as is the reading of R6 (7) that the wait
registers may coincide with each other and with R_TRANS only). No clause is about the delays of the wait
descriptors, which rule R183 has absent for W_XFER and W_SINE (the model's choice, log 21). -/
def Obligations.InadmissibleConfigRefused : Prop :=
  ∀ s : State, step s = .refused .inadmissibleConfig ↔ ¬(
    -- (1) the domain bits
    (∀ a b, (s.cfg.app a).cdom = (s.cfg.app b).cdom → (s.cfg.app a).cbit = (s.cfg.app b).cbit →
      a = b) ∧
    -- (2) the directive slots
    (∀ slot, ∃ a, (s.cfg.app a).dslot = some slot) ∧
    (∀ a b slot, (s.cfg.app a).dslot = some slot → (s.cfg.app b).dslot = some slot → a = b) ∧
    -- (3) the enable bits
    (∀ a, (s.cfg.app a).en.isSome = (s.cfg.app a).dslot.isSome) ∧
    (∀ a b p, (s.cfg.app a).en = some p → (s.cfg.app b).en = some p → a = b) ∧
    -- (4) the enable bits of the AE domains
    (∀ a p, (s.cfg.app a).cdom = .ae0 → (s.cfg.app a).en = some p → p = (.k0, (s.cfg.app a).cbit)) ∧
    (∀ a p, (s.cfg.app a).cdom = .ae1 → (s.cfg.app a).en = some p → p = (.k1, (s.cfg.app a).cbit)) ∧
    -- (5) Gen
    (∀ a, (s.cfg.app a).cdom = .gen ↔ a = s.cfg.gen) ∧ (s.cfg.app s.cfg.gen).en ≠ none ∧
    -- (6) the masks
    (∃ i j : Fin 8, i ≠ j ∧ s.cfg.bypBit = { k0 := bit i, k1 := bit j }) ∧
    (∃ i j : Fin 8, i ≠ j ∧ s.cfg.mEn = bit i ∧ s.cfg.mByp = bit j) ∧
    -- (7) the registers
    (s.cfg.rTrans :: s.cfg.rMctl :: s.cfg.rEn.k0 :: s.cfg.rEn.k1 :: s.cfg.rByp :: s.cfg.rBmctl ::
      s.cfg.rBmd :: s.cfg.rTrig :: (s.cfg.rAux.toList ++ s.cfg.rBma)).Nodup ∧
    s.cfg.rAux[s.cfg.sinSlot] = s.cfg.rSinout ∧
    (∀ w : WaitName, (s.cfg.wait w).reg ∉
      s.cfg.rMctl :: s.cfg.rEn.k0 :: s.cfg.rEn.k1 :: s.cfg.rByp :: s.cfg.rBmctl :: s.cfg.rBmd ::
        s.cfg.rTrig :: (s.cfg.rAux.toList ++ s.cfg.rBma)) ∧
    -- (8) the stop flag
    7 ≤ s.cfg.stopFlag.val ∧
    -- (9) the tags
    s.cfg.tagCoef.toNat + 15 < 2 ^ 32 ∧ s.cfg.tagReg.toNat + 15 < 2 ^ 32 ∧
    (∀ x y : Nat, x < 15 → y < 15 → s.cfg.tagCoef.toNat + x ≠ s.cfg.tagReg.toNat + y) ∧
    (∀ x : Nat, x < 15 → s.cfg.tagCoef.toNat + x ≠ s.cfg.tagFwctrlB.toNat ∧
      s.cfg.tagReg.toNat + x ≠ s.cfg.tagFwctrlB.toNat) ∧
    -- (10) the directive codes
    s.cfg.dirStop ≠ s.cfg.dirStart ∧ s.cfg.dirStop ≠ s.cfg.dirDc ∧ s.cfg.dirStart ≠ s.cfg.dirDc ∧
    -- (11) the error codes
    s.cfg.eMalformed.toInt < 0 ∧ s.cfg.eRuntime.toInt < 0 ∧ s.cfg.eMalformed ≠ s.cfg.eRuntime ∧
    -- the ranges of R5
    s.cfg.addrW % 8 = 0 ∧ s.cfg.addrW ≤ 32 ∧ s.cfg.rBma.length = s.cfg.addrW / 8 ∧
    (∀ m, s.cfg.lo m ≤ s.cfg.hi m ∧ s.cfg.hi m ≤ 2 ^ s.cfg.addrW) ∧
    -- the model's own (log 16)
    0 < s.cfg.addrW ∧
    (∀ d, s.cfg.prot.get d &&& ~~~(s.cfg.bypBit.k0 ||| s.cfg.bypBit.k1) = 0) ∧
    s.cfg.offAddr + 4 ≤ s.cfg.offData ∧ s.cfg.offMode + 1 ≤ s.cfg.offData ∧
      s.cfg.offCount + 4 ≤ s.cfg.offData)

/-- The configuration is fixed for the life of the model (rule R93). -/
def Obligations.StepKeepsConfiguration : Prop :=
  ∀ s t : State, step s = .next t → t.cfg = s.cfg

/-- Every step keeps the invariant: canonical memories, a coherent shadow, QN counting the queue, an empty
queue under a wait, PH at P_IDLE or at the phase of the wait, no trigger owed, nothing silenced in phase 1,
ST = INITED under a wait (rules R28, R33, R35, R41, R65, R121, R131, R138, R177, R186, R198, R245). -/
def Obligations.StepKeepsInvariant : Prop :=
  ∀ s t : State, Inv s → step s = .next t → Inv t

/-- The state after reset meets the invariant, for every configuration. Rule R45 gives PH and QN, rule R47 the
empty queue; that no trigger is owed is the model's reset value of TRIGPEND (DESIGN CHOICE, log 7), and the
register file and the empty shadow are the model's (DESIGN CHOICE, log 8). -/
def Obligations.ResetMeetsInvariant : Prop := ∀ c : Cfg, Inv (State.resetWith c)

/-- The values the spec gives for reset (rule R45; `hw.queue` empty by rule R47, the result port idle by rule
R230). -/
def Obligations.ResetValues : Prop :=
  ∀ c : Cfg, (State.resetWith c).g.st = .idle ∧ (State.resetWith c).w.ph = .idle ∧
    (State.resetWith c).w.qn = 0 ∧ (State.resetWith c).hw.queue = [] ∧ (State.resetWith c).io.sport = []

/-! ## Lifecycle, validation, master and query commands -/

/-- INIT while IDLE loads the `INIT_*` values, INIT while INITED changes nothing in group G; neither emits
anything, and RESULT is unchanged (rules R190, R231). -/
def Obligations.InitLoadsGlobalStateOnce : Prop :=
  ∀ s : State, ready s = true →
    exec .init s = .next { s with
      g := if s.g.st = .inited then s.g
        else { st := .inited, master := s.cfg.initMaster, en := s.cfg.initEn, byp := s.cfg.initByp,
               sinsrc := s.cfg.initSinsrc }
      w := { s.w with ph := .idle }
      io := { s.io with trace := [], sport := bytes32 0 } }

/-- TERM sets ST to IDLE, returns 0 and emits nothing; it does not wait for a pending device-internal
transfer; RESULT is unchanged (rules R191, R231; that the other fields of group G, which hold no readable
value then, keep their bits: log 23). -/
def Obligations.TermSetsIdle : Prop :=
  ∀ s : State, ready s = true →
    exec .term s = .next { s with
      g := { s.g with st := .idle }
      w := { s.w with ph := .idle }
      io := { s.io with trace := [], sport := bytes32 0 } }

/-- VALIDATE latches the blob, analyses it and returns the verdict: no port operation, no change to group
G (rule R192; the byte order of the status on the port: log 17). -/
def Obligations.ValidateReturnsVerdict : Prop :=
  ∀ (s : State) (blob : List Byte), ready s = true →
    ∃ t, exec (.validate blob) s = .next t ∧
      t.w.desc = blob ∧
      t.w.ar = analyse s.cfg blob (if s.g.st = .inited then s.g.en else { k0 := 0, k1 := 0 }) ∧
      t.w.result = (if t.w.ar = .malformed then s.cfg.eMalformed else 0) ∧
      t.w = { s.w with ph := .idle, desc := t.w.desc, ar := t.w.ar, result := t.w.result } ∧
      t.io = { s.io with trace := [], sport := bytes32 t.w.result } ∧
      t.g = s.g ∧ t.hw = s.hw ∧ t.site = s.site ∧ t.orc = s.orc ∧ t.cfg = s.cfg

/-- Whether a blob is malformed does not depend on the enable masks (rule R192). -/
def Obligations.VerdictIgnoresEnableMasks : Prop :=
  ∀ (c : Cfg) (blob : List Byte) (en en' : Two Byte),
    analyse c blob en = .malformed ↔ analyse c blob en' = .malformed

/-- MSTART sets the master enable and MSTOP clears it: one gated write of R_MCTL, a flush, no wait (rules
R193, R194), and the device register holds the new value (rule R177). -/
def Obligations.MstartMstopSetAndClearMasterEnable : Prop :=
  ∀ (s : State) (i : Instr) (v : Byte), admissible s.cfg = true → ready s = true →
    s.g.st = .inited → s.hw.queue = [] → s.w.qn = 0 → ShadowCoherent s.hw →
    (i = .mstart ∧ v = s.g.master ||| s.cfg.mEn ∨ i = .mstop ∧ v = s.g.master &&& ~~~s.cfg.mEn) →
    ∃ t, exec i s = .next t ∧
      t.g = { s.g with master := v } ∧
      t.w = { s.w with ph := .idle, qn := 0, result := 0 } ∧
      t.io = { s.io with
        trace := [{ phase := .cmd, op := .qw .gated s.cfg.rMctl v },
                  { phase := .cmd, op := .flush }]
        sport := bytes32 0 } ∧
      t.hw.queue = [] ∧ t.hw.bmem = s.hw.bmem ∧ t.hw.bmp = s.hw.bmp ∧ t.hw.xfer = s.hw.xfer ∧
      RegFile.read t.hw.regs s.cfg.rMctl.addr = v ∧
      (∀ a, a ≠ s.cfg.rMctl.addr → RegFile.read t.hw.regs a = RegFile.read s.hw.regs a) ∧
      t.site = none ∧ t.cfg = s.cfg

/-- QUERY while INITED reads R_TRANS once and returns the byte masked, zero-extended; the byte is the
device's answer (rules R195, R86; the byte order of the status on the port: log 17). While IDLE it returns
0 with no access. -/
def Obligations.QueryReturnsMaskedTransitions : Prop :=
  (∀ s : State, ready s = true → s.g.st = .inited → s.hw.queue = [] → s.w.qn = 0 →
    ∃ v t, exec .query s = .next t ∧
      (∀ u rest, s.orc.reads = u :: rest → v = u) ∧
      t.w = { s.w with ph := .idle, qn := 0, result := (v &&& s.cfg.mTrans).setWidth 32 } ∧
      t.io.trace = [{ phase := .cmd, op := .rd s.cfg.rTrans v }] ∧
      t.io.sport = bytes32 ((v &&& s.cfg.mTrans).setWidth 32) ∧
      t.g = s.g ∧ t.hw.regs = s.hw.regs ∧ t.hw.queue = [] ∧ t.hw.bmem = s.hw.bmem ∧
      t.site = none ∧ t.cfg = s.cfg) ∧
  (∀ s : State, ready s = true → s.g.st = .idle →
    exec .query s = .next { s with
      w := { s.w with ph := .idle, result := 0 }
      io := { s.io with trace := [], sport := bytes32 0 } })

/-- The status gate: while ST is not INITED, APPLY, MSTART, MSTOP and UPLOAD return E_RUNTIME, having
emitted no port operation and changed nothing, whatever their operands (rules R207, R211; the byte order of
the status on the port: log 17). -/
def Obligations.StatusGateReturnsRuntimeFailure : Prop :=
  ∀ (s : State) (i : Instr), ready s = true → s.g.st = .idle →
    (i = .mstart ∨ i = .mstop ∨ (∃ blob, i = .apply blob) ∨
      ∃ dom addr size, i = .upload dom addr size) →
    exec i s = .next { s with
      w := { s.w with ph := .idle, result := s.cfg.eRuntime }
      io := { s.io with trace := [], sport := bytes32 s.cfg.eRuntime } }

/-- A reserved opcode is answered E_MALFORMED with no side effect: the model's choice of the two that rule
R196 allows (log 11; the byte order of the status on the port: log 17). -/
def Obligations.ReservedOpcodesAnswerMalformed : Prop :=
  ∀ (s : State) (i : Instr), ready s = true →
    ((∃ x, i = .reserved08 x) ∨ (∃ x, i = .reserved10 x) ∨ (∃ x, i = .reserved20 x) ∨
      (∃ x, i = .reserved40 x) ∨ ∃ x, i = .reserved80 x) →
    exec i s = .next { s with
      w := { s.w with ph := .idle, result := s.cfg.eMalformed }
      io := { s.io with trace := [], sport := bytes32 s.cfg.eMalformed } }

/-- A command offered while another runs has no meaning: the model refuses it (rule R197, U9; log 12). -/
def Obligations.BusyPortRefusesCommands : Prop :=
  ∀ (s : State) (i : Instr), isCommand i = true → ready s = false →
    exec i s = .refused .commandPortBusy

/-! ## Port operations -/

/-- Queue-a-write, where the gates let it through, appends one entry of its kind, counts it, and touches
neither the device nor any other state (rules R176, R186); where they do not, it is not issued and nothing
happens (rule R186; offered by itself: log 22). -/
def Obligations.QueueWriteAppendsOneEntry : Prop :=
  ∀ (s : State) (bank index value : Byte),
    let r : Reg := { bank := bank, index := index }
    (mayIssue s (.qw .gated r value) → exec (.qwG bank index value) s = .next { s with
      hw := { s.hw with queue := s.hw.queue ++ [{ gate := .gated, reg := r, value := value }] }
      w := { s.w with qn := s.w.qn + 1 }
      io := { s.io with trace := s.io.trace ++ [{ phase := s.w.ph, op := .qw .gated r value }] } }) ∧
    (mayIssue s (.qw .forced r value) → exec (.qwF bank index value) s = .next { s with
      hw := { s.hw with queue := s.hw.queue ++ [{ gate := .forced, reg := r, value := value }] }
      w := { s.w with qn := s.w.qn + 1 }
      io := { s.io with trace := s.io.trace ++ [{ phase := s.w.ph, op := .qw .forced r value }] } }) ∧
    (¬mayIssue s (.qw .gated r value) → exec (.qwG bank index value) s = .next s) ∧
    (¬mayIssue s (.qw .forced r value) → exec (.qwF bank index value) s = .next s)

/-- FLUSH while INITED delivers the queue in order and empties it: with a coherent shadow each device register
then holds the last value queued for it, dropped gated writes or not, or what it held (rules R41, R177, R178,
R179); while IDLE it is not issued and nothing happens (rule R186). That block memory changes only through
the data register is the model's device (log 9); the FLUSH event of a flush of an empty queue is its reading
of the trace (log 24). -/
def Obligations.FlushDeliversTheQueue : Prop :=
  ∀ s : State,
    (s.g.st = .idle → exec .flush s = .next s) ∧
    (s.g.st = .inited → ShadowCoherent s.hw →
      ∃ t, exec .flush s = .next t ∧ t.hw.queue = [] ∧ t.w = { s.w with qn := 0 } ∧
        (∀ a, RegFile.read t.hw.regs a =
          (lastQueued a s.hw.queue).getD (RegFile.read s.hw.regs a)) ∧
        ShadowCoherent t.hw ∧
        ((∀ e ∈ s.hw.queue, e.reg ≠ s.cfg.rBmd) → t.hw.bmem = s.hw.bmem) ∧
        t.io = { s.io with trace := s.io.trace ++ [{ phase := s.w.ph, op := .flush }] } ∧
        t.g = s.g ∧ t.site = s.site ∧ t.cfg = s.cfg)

/-- A forced write reaches the device whatever the shadow holds (rule R178); the trigger write makes the staged
bytes the pending transfer, to the address the pointer holds, in place of one that is pending, and changes no
byte of block memory itself (rules R43, R153; the device side is the model's reading and choice, log 9). -/
def Obligations.ForcedWriteAlwaysDelivered : Prop :=
  ∀ (s : State) (r : Reg) (v : Byte),
    (∀ a, RegFile.read (deliver { gate := .forced, reg := r, value := v } s).hw.regs a =
      if a = r.addr then v else RegFile.read s.hw.regs a) ∧
    (deliver { gate := .forced, reg := r, value := v } s).orc = s.orc ∧
    (admissible s.cfg = true → r = s.cfg.rTrig →
      (deliver { gate := .forced, reg := r, value := v } s).hw.xfer =
        some { addr := s.hw.bmp.addr, bytes := s.hw.staging } ∧
      (deliver { gate := .forced, reg := r, value := v } s).hw.bmem = s.hw.bmem)

/-- Sync while INITED does what FLUSH does when something is queued, and nothing otherwise (rule R180); while
IDLE nothing is issued (rule R186). -/
def Obligations.SyncFlushesOnlyIfQueued : Prop :=
  ∀ s : State,
    (s.g.st = .inited → 0 < s.w.qn → ∃ t, exec .sync s = .next t ∧ exec .flush s = .next t ∧ t.w.qn = 0 ∧
      t.hw.queue = []) ∧
    (s.w.qn = 0 ∨ s.g.st = .idle → exec .sync s = .next s)

/-- RD, where the gates let it through, flushes first if something is queued, so that with a coherent shadow
the registers hold the queued values, then returns one byte, the device's answer (rules R65, R179, R180,
R181); where they do not, it is not issued and nothing happens (rule R186; offered by itself: log 22). -/
def Obligations.ReadFlushesThenReturnsTheAnswer : Prop :=
  ∀ (s : State) (bank index : Byte),
    (¬mayIssue s (.rd { bank := bank, index := index } 0) → exec (.rd bank index) s = .next s) ∧
    (mayIssue s (.rd { bank := bank, index := index } 0) → s.w.qn = s.hw.queue.length →
      ∃ v t, exec (.rd bank index) s = .next t ∧
        (∀ u rest, s.orc.reads = u :: rest → v = u) ∧
        t.io.rdata = v ∧ t.hw.queue = [] ∧ t.w = { s.w with qn := 0 } ∧
        t.io.trace = s.io.trace ++
          (if 0 < s.w.qn then [{ phase := s.w.ph, op := .flush }] else []) ++
          [{ phase := s.w.ph, op := .rd { bank := bank, index := index } v }] ∧
        (ShadowCoherent s.hw → ∀ a, RegFile.read t.hw.regs a =
          (lastQueued a s.hw.queue).getD (RegFile.read s.hw.regs a)) ∧
        (s.w.qn = 0 → t.hw.regs = s.hw.regs ∧ t.hw.bmem = s.hw.bmem) ∧
        t.g = s.g ∧ t.site = s.site ∧ t.cfg = s.cfg ∧ t.io.inbox = s.io.inbox)

/-- WAIT, where the gates let it through, flushes first if something is queued, so that with a coherent shadow
the registers hold the queued values, then reads its register: it returns OK if the byte shows the flag, FAIL
if the collaborator reports a fault or a timeout ran out, whatever the flag, and stays in progress with no
event otherwise; a later poll, the next step, comes to the same three (rules R65, R88, R179, R182; one poll a
step is the model's cut, log 3); where the gates do not, it is not issued and nothing happens (rule R186;
offered by itself: log 22). -/
def Obligations.WaitOutcomes : Prop :=
  (∀ (s : State) (w : WaitName) (v : Byte) (a : WaitAnswer) (rest : List WaitAnswer),
    (¬mayIssue s (.wait w true) → exec (.wait w) s = .next s) ∧
    (mayIssue s (.wait w true) → s.w.qn = s.hw.queue.length → s.orc.waits = a :: rest →
      (a = .seen v ∨ a = .fails v) →
    let flushed : List Event := if 0 < s.w.qn then [{ phase := s.w.ph, op := .flush }] else []
    ∃ t, exec (.wait w) s = .next t ∧ t.hw.queue = [] ∧ t.w = { s.w with qn := 0 } ∧
      t.io.rdata = v ∧ t.orc.waits = rest ∧ t.g = s.g ∧ t.cfg = s.cfg ∧ t.io.inbox = s.io.inbox ∧
      (ShadowCoherent s.hw → ∀ x, RegFile.read t.hw.regs x =
        (lastQueued x s.hw.queue).getD (RegFile.read s.hw.regs x)) ∧
      (a = .seen v → v &&& (s.cfg.wait w).mask = (s.cfg.wait w).want →
        t.io.waitRes = .ok ∧ t.site = none ∧
        t.io.trace = s.io.trace ++ flushed ++ [{ phase := s.w.ph, op := .wait w true }]) ∧
      (a = .seen v → v &&& (s.cfg.wait w).mask ≠ (s.cfg.wait w).want →
        t.io.waitRes = .polling ∧ t.site = some (.alone w) ∧ t.io.trace = s.io.trace ++ flushed) ∧
      (a = .fails v → t.io.waitRes = .failed ∧ t.site = none ∧
        t.io.trace = s.io.trace ++ flushed ++ [{ phase := s.w.ph, op := .wait w false }]))) ∧
  (∀ (s : State) (w : WaitName) (v : Byte) (a : WaitAnswer) (rest : List WaitAnswer),
    admissible s.cfg = true → Inv s → s.site = some (.alone w) → s.orc.waits = a :: rest →
    (a = .seen v ∨ a = .fails v) →
    ∃ t, step s = .next t ∧ t.hw.queue = [] ∧ t.hw.regs = s.hw.regs ∧ t.w = s.w ∧ t.io.rdata = v ∧
      t.orc.waits = rest ∧ t.g = s.g ∧ t.cfg = s.cfg ∧ t.io.inbox = s.io.inbox ∧
      (a = .seen v → v &&& (s.cfg.wait w).mask = (s.cfg.wait w).want →
        t.io.waitRes = .ok ∧ t.site = none ∧
        t.io.trace = s.io.trace ++ [{ phase := s.w.ph, op := .wait w true }]) ∧
      (a = .seen v → v &&& (s.cfg.wait w).mask ≠ (s.cfg.wait w).want →
        t.io.waitRes = .polling ∧ t.site = some (.alone w) ∧ t.io.trace = s.io.trace) ∧
      (a = .fails v → t.io.waitRes = .failed ∧ t.site = none ∧
        t.io.trace = s.io.trace ++ [{ phase := s.w.ph, op := .wait w false }]))

/-- WriteAddr, where the gates let its writes through, queues one forced write for each address register, most
significant byte first (rule R56); where they do not, it is not issued and nothing happens (rule R186; offered
by itself: log 22). -/
def Obligations.WriteAddrQueuesBytesMsbFirst : Prop :=
  ∀ (s : State) (addr : Word), admissible s.cfg = true →
    (¬(∀ r ∈ s.cfg.rBma, ∀ v, mayIssue s (.qw .forced r v)) → exec (.writeAddr addr) s = .next s) ∧
    ((∀ r ∈ s.cfg.rBma, ∀ v, mayIssue s (.qw .forced r v)) →
    ∃ (t : State) (es : List QEntry), exec (.writeAddr addr) s = .next t ∧
      es.length = s.cfg.addrW / 8 ∧
      (∀ (j : Nat) (r : Reg), s.cfg.rBma[j]? = some r →
        es[j]? = some { gate := .forced, reg := r,
                        value := addr.extractLsb' (s.cfg.addrW - 8 - 8 * j) 8 }) ∧
      t = { s with
        hw := { s.hw with queue := s.hw.queue ++ es }
        w := { s.w with qn := s.w.qn + es.length }
        io := { s.io with
          trace := s.io.trace ++ es.map (fun e => { phase := s.w.ph, op := .qw e.gate e.reg e.value }) } })

/-! ## Descriptor items in the analyser (offered by themselves, outside phase 3: log 15) -/

/-- A well-formed FWCTRL_B chunk: for every app with a directive slot and an enable bit, ON gains the bit
exactly if the directive is START and the app is stopped, OFF exactly if it is STOP and the app runs, by the
enable masks while INITED and by zeros while IDLE; the bypass directives are taken over; one FW item;
nothing else (rules R102, R103, R192; a chunk run by itself on AR as it stands is the model's choice, log
15; BlobAnalysisRunsItsItems ties it to a blob). -/
def Obligations.FwctrlSetsTransitions : Prop :=
  ∀ (s : State) (r : AnalysisRecord) (body : List Byte), admissible s.cfg = true →
    s.w.ph ≠ .download → s.w.ar = .record r → s.cfg.tagFwctrlB ∉ r.seen → 17 ≤ body.length →
    (∀ j < 17, byteAt body j ∈ [s.cfg.dirStop, s.cfg.dirStart, s.cfg.dirDc]) →
    let en : Two Byte := if s.g.st = .inited then s.g.en else { k0 := 0, k1 := 0 }
    ∃ r', exec (.fwctrlB body) s = .next { s with w := { s.w with ar := .record r' } } ∧
      (∀ a slot k b, (s.cfg.app a).dslot = some slot → (s.cfg.app a).en = some (k, b) →
        (bitSet (r'.on.get k) b = (bitSet (r.on.get k) b ||
          (decide (byteAt body slot.val = s.cfg.dirStart) && !bitSet (en.get k) b))) ∧
        (bitSet (r'.off.get k) b = (bitSet (r.off.get k) b ||
          (decide (byteAt body slot.val = s.cfg.dirStop) && bitSet (en.get k) b)))) ∧
      (∀ k b, (∀ a slot, (s.cfg.app a).dslot = some slot → (s.cfg.app a).en ≠ some (k, b)) →
        bitSet (r'.on.get k) b = bitSet (r.on.get k) b ∧
        bitSet (r'.off.get k) b = bitSet (r.off.get k) b) ∧
      directiveOf s.cfg (byteAt body 14) = some r'.mdir ∧
      directiveOf s.cfg (byteAt body 15) = some r'.bdir.k0 ∧
      directiveOf s.cfg (byteAt body 16) = some r'.bdir.k1 ∧
      r' = { r with on := r'.on, off := r'.off, mdir := r'.mdir, bdir := r'.bdir,
                    seen := s.cfg.tagFwctrlB :: r.seen, items := r.items ++ [.fw] }

/-- A well-formed, non-empty APPCOEF chunk: one COEF item, the count, the target masks, the reasons that
force host-driven mode, and for Gen the sine selection where the payload covers the control word (rules
R104, R105, R108; a chunk run by itself on AR as it stands is the model's choice, log 15). -/
def Obligations.AppcoefAccumulates : Prop :=
  ∀ (s : State) (r : AnalysisRecord) (a : AppId) (body : List Byte) (n : Nat),
    s.w.ph ≠ .download → s.w.ar = .record r →
    s.cfg.tagCoef + BitVec.ofNat 32 a.val ∉ r.seen →
    sbe32At body s.cfg.offCount = (n : Int) → 0 < n → n % 4 = 0 → s.cfg.offData + n ≤ body.length →
    (be32At body s.cfg.offAddr).toNat < 2 ^ s.cfg.addrW →
    let addr : Nat := (be32At body s.cfg.offAddr).toNat
    let off : Nat := (s.cfg.scAddr - addr) * 4 + s.cfg.scByte.val
    let r' : AnalysisRecord :=
      { r with
        seen := (s.cfg.tagCoef + BitVec.ofNat 32 a.val) :: r.seen
        ncoef := r.ncoef + 1
        ctgt := r.ctgt.set (s.cfg.app a).cdom
          (r.ctgt.get (s.cfg.app a).cdom ||| bit (s.cfg.app a).cbit)
        xt := match (s.cfg.app a).en with
          | some (k, b) => r.xt.set k (r.xt.get k ||| bit b)
          | none => r.xt
        force := r.force || decide (0 < r.ncoef) || decide (160 < n) ||
          decide (byteAt body s.cfg.offMode ≠ s.cfg.mbInt)
        sinsel := if a = s.cfg.gen ∧ addr ≤ s.cfg.scAddr ∧ off < n then
            (if (byteAt body (s.cfg.offData + off)).getLsbD s.cfg.scBit.val = s.cfg.scPin then
              some .pin else some .reg)
          else r.sinsel
        items := r.items ++
          [.coef a (be32At body s.cfg.offAddr) ((body.drop s.cfg.offData).take n)] }
    exec (.appcoef a body) s = .next { s with w := { s.w with ar := .record r' } }

/-- A zero-length APPCOEF chunk is legal and contributes nothing but its mark for the duplicate check and a
SKIP item (rules R104, R107; a chunk run by itself is the model's choice, log 15). -/
def Obligations.ZeroLengthAppcoefContributesNothing : Prop :=
  ∀ (s : State) (r : AnalysisRecord) (a : AppId) (body : List Byte),
    s.w.ph ≠ .download → s.w.ar = .record r →
    s.cfg.tagCoef + BitVec.ofNat 32 a.val ∉ r.seen →
    sbe32At body s.cfg.offCount = 0 → s.cfg.offData ≤ body.length →
    (be32At body s.cfg.offAddr).toNat < 2 ^ s.cfg.addrW →
    let r' : AnalysisRecord :=
      { r with
        seen := (s.cfg.tagCoef + BitVec.ofNat 32 a.val) :: r.seen
        items := r.items ++ [.skip] }
    exec (.appcoef a body) s = .next { s with w := { s.w with ar := .record r' } }

/-- An APPREG chunk of 8 bytes or more: for Gen, unseen, a REG item and the stop flag; for another app a
SKIP item and nothing else; a chunk of an unknown tag the same (rules R109, R114; a chunk run by itself is
the model's choice, log 15). -/
def Obligations.AppregAndUnknownChunks : Prop :=
  ∀ (s : State) (r : AnalysisRecord) (a : AppId) (tag : Word) (body : List Byte),
    s.w.ph ≠ .download → s.w.ar = .record r →
    let gen : AnalysisRecord :=
      { r with
        seen := (s.cfg.tagReg + BitVec.ofNat 32 a.val) :: r.seen
        genstop := r.genstop || bitSet (byteAt body 0) s.cfg.stopFlag
        items := r.items ++ [.reg (byteAt body 0) ((body.drop 1).take 7)] }
    let skipped : AnalysisRecord := { r with items := r.items ++ [.skip] }
    (8 ≤ body.length → a = s.cfg.gen → s.cfg.tagReg + BitVec.ofNat 32 a.val ∉ r.seen →
      exec (.appreg a body) s = .next { s with w := { s.w with ar := .record gen } }) ∧
    (8 ≤ body.length → a ≠ s.cfg.gen →
      exec (.appreg a body) s = .next { s with w := { s.w with ar := .record skipped } }) ∧
    exec (.skip tag body) s = .next { s with w := { s.w with ar := .record skipped } }

/-- Every cause M3 to M13 of rule R208 ends the analysis early with E_MALFORMED and nothing else (rules
R102, R104, R109, R112, R205, R212; that an item offered by itself ends so is the model's choice, log 15,
and the byte order of the status on the port log 17). -/
def Obligations.MalformedChunkEndsAnalysis : Prop :=
  ∀ (s : State) (r : AnalysisRecord) (i : Instr), s.w.ph ≠ .download → s.w.ar = .record r →
    ((∃ body, i = .fwctrlB body ∧
        (s.cfg.tagFwctrlB ∈ r.seen ∨ body.length < 17 ∨
          ∃ j < 17, byteAt body j ∉ [s.cfg.dirStop, s.cfg.dirStart, s.cfg.dirDc])) ∨
      (∃ a body, i = .appcoef a body ∧
        (s.cfg.tagCoef + BitVec.ofNat 32 a.val ∈ r.seen ∨ body.length < s.cfg.offData ∨
          2 ^ s.cfg.addrW ≤ (be32At body s.cfg.offAddr).toNat ∨ sbe32At body s.cfg.offCount < 0 ∨
          sbe32At body s.cfg.offCount % 4 ≠ 0 ∨
          (body.length : Int) < s.cfg.offData + sbe32At body s.cfg.offCount)) ∨
      (∃ a body, i = .appreg a body ∧
        (body.length < 8 ∨
          (a = s.cfg.gen ∧ s.cfg.tagReg + BitVec.ofNat 32 a.val ∈ r.seen)))) →
    exec i s = .next { s with
      w := { s.w with ar := .malformed, ph := .idle, result := s.cfg.eMalformed }
      io := { s.io with sport := bytes32 s.cfg.eMalformed } }

/-! ## The analysis of a blob -/

/-- The transfer mode: none without a non-empty coefficient chunk, host-driven if something forces it,
device-internal for one chunk that nothing forces; two chunks force it whatever their mode bytes,
device-internal mode is left to a chunk of at most 160 bytes; and of a blob of one non-empty coefficient
chunk the mode is device-internal exactly if its mode byte asks for it and it has at most 160 bytes (rules
R105, R106). -/
def Obligations.TransferModeSelection : Prop :=
  (∀ (c : Cfg) (blob : List Byte) (en : Two Byte) (r : AnalysisRecord),
    analyse c blob en = .record r →
    r.ncoef = (r.items.filter isCoef).length ∧
    (r.mode = .none ↔ r.ncoef = 0) ∧
    (r.mode = .host ↔ 0 < r.ncoef ∧ r.force = true) ∧
    (r.mode = .int ↔ r.ncoef = 1 ∧ r.force = false) ∧
    (2 ≤ r.ncoef → r.mode = .host) ∧
    (r.mode = .int → ∀ a addr payload, Item.coef a addr payload ∈ r.items → payload.length ≤ 160)) ∧
  (∀ (c : Cfg) (en : Two Byte) (a : AppId) (body : List Byte) (n : Nat), admissible c = true →
    fitsLength body = true → sbe32At body c.offCount = (n : Int) → 0 < n → n % 4 = 0 →
    c.offData + n ≤ body.length → (be32At body c.offAddr).toNat < 2 ^ c.addrW →
    ∃ r, analyse c (blobOf [(c.tagCoef + BitVec.ofNat 32 a.val, body)]) en = .record r ∧
      r.mode = if n ≤ 160 ∧ byteAt body c.offMode = c.mbInt then .int else .host)

/-- ON and OFF are masks of apps whose state must change: `ON & EN = 0`, `OFF & ~EN = 0`, `ON & OFF = 0`;
and GS holds exactly Gen's enable bit, exactly if a register chunk asks to stop Gen, Gen runs, and no
directive stops it (rules R103, R109, R110). -/
def Obligations.TransitionAndGenStopMasks : Prop :=
  ∀ (c : Cfg) (blob : List Byte) (en : Two Byte) (r : AnalysisRecord) (k : AeDom),
    analyse c blob en = .record r →
    r.on.get k &&& en.get k = 0 ∧ r.off.get k &&& ~~~en.get k = 0 ∧ r.on.get k &&& r.off.get k = 0 ∧
    (∀ b, bitSet (r.gs.get k) b = true ↔ (c.app c.gen).en = some (k, b) ∧
      (∃ flags vals, Item.reg flags vals ∈ r.items ∧ bitSet flags c.stopFlag = true) ∧
      bitSet (en.get k) b = true ∧ bitSet (r.off.get k) b = false)

/-- NCOEF is at most N_APP: a second chunk of the same app is malformed (rules R112, R116). -/
def Obligations.CoefficientChunksAtMostApps : Prop :=
  ∀ (c : Cfg) (blob : List Byte) (en : Two Byte) (r : AnalysisRecord), admissible c = true →
    analyse c blob en = .record r →
    r.ncoef ≤ 15 ∧
    (r.items.filterMap (fun i => match i with
      | .coef a _ _ => some a
      | .fw => none
      | .reg _ _ => none
      | .skip => none)).Nodup

/-- After any number of whole chunks, bytes too few for a header and a length that runs past the end make
the blob malformed; a blob that begins with a malformed one is malformed; the empty blob is not (rules R75,
R113, R115; M1 and M2 of rule R208). -/
def Obligations.FramingErrorsAreMalformed : Prop :=
  ∀ (c : Cfg) (en : Two Byte) (ks : List (Word × List Byte)) (tail : List Byte),
    (∀ k ∈ ks, fitsLength k.2 = true) →
    (0 < tail.length → tail.length < 8 → analyse c (blobOf ks ++ tail) en = .malformed) ∧
    (8 ≤ tail.length → tail.length - 8 < (be32At tail 4).toNat →
      analyse c (blobOf ks ++ tail) en = .malformed) ∧
    (analyse c (blobOf ks) en = .malformed → analyse c (blobOf ks ++ tail) en = .malformed) ∧
    analyse c [] en ≠ .malformed

/-- A blob of whole chunks is malformed exactly if some chunk of it, wherever it stands, has one of the
causes M3 to M13 of rule R208: a body that its rule rejects, or a tag that may stand once and stands twice
(rules R75, R102, R104, R109, R112, R113, R115). -/
def Obligations.BlobMalformedIffAChunkIs : Prop :=
  ∀ (c : Cfg) (en : Two Byte) (ks : List (Word × List Byte)), admissible c = true →
    (∀ k ∈ ks, fitsLength k.2 = true) →
    (analyse c (blobOf ks) en = .malformed ↔
      (∃ k ∈ ks,
        (k.1 = c.tagFwctrlB ∧
          (k.2.length < 17 ∨ ∃ j < 17, byteAt k.2 j ∉ [c.dirStop, c.dirStart, c.dirDc])) ∨
        (∃ a : AppId, k.1 = c.tagCoef + BitVec.ofNat 32 a.val ∧
          (k.2.length < c.offData ∨ 2 ^ c.addrW ≤ (be32At k.2 c.offAddr).toNat ∨
            sbe32At k.2 c.offCount < 0 ∨ sbe32At k.2 c.offCount % 4 ≠ 0 ∨
            (k.2.length : Int) < c.offData + sbe32At k.2 c.offCount)) ∨
        (∃ a : AppId, k.1 = c.tagReg + BitVec.ofNat 32 a.val ∧ k.2.length < 8)) ∨
      ¬((ks.map (fun k => k.1)).filter (fun tag =>
          decide (tag = c.tagFwctrlB) || tagInRange c.tagCoef tag ||
          decide (tag = c.tagReg + BitVec.ofNat 32 c.gen.val))).Nodup)

/-- The analysis of a blob of whole chunks is its chunks' rules one after another from the initial record,
completed with the transfer mode and the Gen stop mask (rules R75, R101, R106, R110, R115; the items run by
themselves: log 15). -/
def Obligations.BlobAnalysisRunsItsItems : Prop :=
  ∀ (s : State) (ks : List (Word × List Byte)), s.w.ph ≠ .download →
    s.w.ar = .record AnalysisRecord.initial → (∀ k ∈ ks, fitsLength k.2 = true) →
    let en : Two Byte := if s.g.st = .inited then s.g.en else { k0 := 0, k1 := 0 }
    ∃ t, runItems (ks.map (fun k => instrOfChunk (chunkOfTag s.cfg k.1 k.2))) s = some t ∧
      (t.w.ar = .malformed → analyse s.cfg (blobOf ks) en = .malformed) ∧
      (∀ r, t.w.ar = .record r → analyse s.cfg (blobOf ks) en = .record
        { r with
          mode := if r.ncoef = 0 then .none else if r.force then .host else .int
          gs := match (s.cfg.app s.cfg.gen).en with
            | some (k, b) =>
              if r.genstop = true ∧ bitSet (en.get k) b = true ∧ bitSet (r.off.get k) b = false then
                Two.set { k0 := 0, k1 := 0 } k (bit b)
              else { k0 := 0, k1 := 0 }
            | none => { k0 := 0, k1 := 0 } })

/-! ## Descriptor items in phase 3 (offered by themselves: log 15) -/

/-- A COEF item in host-driven or device-internal mode: the address registers, the control register, the
payload byte by byte, all forced, then a flush; device-internal mode leaves the trigger owed (rules R55,
R151, R152). Where ST is not INITED or no transfer wait was OK it is not issued (rule R186). The item runs by
itself at PH = P_DOWNLOAD (the model's choice, log 15) and IX counts it (log 25); what APPLY's own phase 3
emits is CompletedPassAccesses. -/
def Obligations.CoefItemWritesInOrder : Prop :=
  ∀ (s : State) (a : AppId) (body : List Byte) (n : Nat),
    s.w.ph = .download → s.w.qn = s.hw.queue.length →
    sbe32At body s.cfg.offCount = (n : Int) → 0 < n → n % 4 = 0 → s.cfg.offData + n ≤ body.length →
    (be32At body s.cfg.offAddr).toNat < 2 ^ s.cfg.addrW → (passRecord s).mode ≠ .none →
    (s.g.st = .idle ∨ ¬transferWaited s.io.trace → exec (.appcoef a body) s = .next s) ∧
    (s.g.st = .inited → transferWaited s.io.trace → ∃ t, exec (.appcoef a body) s = .next t ∧
      t.io.trace = s.io.trace ++
        (s.cfg.rBma.zip (addrBytes s.cfg (be32At body s.cfg.offAddr))).map
          (fun p => { phase := .download, op := .qw .forced p.1 p.2 }) ++
        [{ phase := .download, op := .qw .forced s.cfg.rBmctl
            (if (passRecord s).mode = .host then s.cfg.vCtlWrHost else s.cfg.vCtlWrInt) }] ++
        ((body.drop s.cfg.offData).take n).map
          (fun v => { phase := .download, op := .qw .forced s.cfg.rBmd v }) ++
        [{ phase := .download, op := .flush }] ∧
      t.hw.queue = [] ∧
      t.w = { s.w with
        qn := 0, ix := s.w.ix + 1
        trigpend := if (passRecord s).mode = .host then s.w.trigpend else true } ∧
      t.g = s.g ∧ t.site = s.site ∧ t.cfg = s.cfg ∧ t.io.inbox = s.io.inbox)

/-- What a COEF item leaves in the device: in host-driven mode the payload in coefficient memory from word
`addr` on, every other byte as before; in device-internal mode, where the two control values differ,
coefficient memory as before, and the payload in the staging area with the pointer at `addr` for the
trigger to copy (rules R151, R152, R159; the device side is the model's reading, log 9; the item runs by
itself at PH = P_DOWNLOAD, log 15). -/
def Obligations.CoefItemReachesTheDevice : Prop :=
  ∀ (s : State) (a : AppId) (body : List Byte) (n : Nat), admissible s.cfg = true →
    s.w.ph = .download → s.g.st = .inited → transferWaited s.io.trace → s.hw.queue = [] → s.w.qn = 0 →
    sbe32At body s.cfg.offCount = (n : Int) → 0 < n → n % 4 = 0 → s.cfg.offData + n ≤ body.length →
    (be32At body s.cfg.offAddr).toNat < 2 ^ s.cfg.addrW →
    ((passRecord s).mode = .host →
      ∃ t, exec (.appcoef a body) s = .next t ∧
        ∀ x, Memory.read t.hw.bmem x =
          if (be32At body s.cfg.offAddr).toNat * 4 ≤ x ∧
              x < (be32At body s.cfg.offAddr).toNat * 4 + n then
            some (byteAt body (s.cfg.offData + (x - (be32At body s.cfg.offAddr).toNat * 4)))
          else Memory.read s.hw.bmem x) ∧
    ((passRecord s).mode = .int → s.cfg.vCtlWrInt ≠ s.cfg.vCtlWrHost →
      ∃ t, exec (.appcoef a body) s = .next t ∧ t.hw.bmem = s.hw.bmem ∧
        t.hw.staging = (body.drop s.cfg.offData).take n ∧
        t.hw.bmp.addr = be32At body s.cfg.offAddr)

/-- A REG item: one gated write for each selected auxiliary register, ascending; an inactive value for the
sine register cancels the silence; the stop flag clears Gen's bit after them and takes Gen out of what
phase 4 restores and starts; a flush if anything is queued (rules R155, R156, R157). While IDLE it is not
issued (rule R186). The item runs by itself at PH = P_DOWNLOAD (the model's choice, log 15) and IX counts it
(log 25). -/
def Obligations.RegItemWritesSelectedRegisters : Prop :=
  ∀ (s : State) (body : List Byte) (kg : AeDom) (bg : Fin 8),
    s.w.ph = .download → s.w.qn = s.hw.queue.length → 8 ≤ body.length →
    genEn s.cfg = some (kg, bg) →
    let stop := bitSet (byteAt body 0) s.cfg.stopFlag
    let stopWrite := stop && bitSet (s.g.en.get kg) bg
    let aux : List Event := (List.finRange 7).filterMap (fun i =>
      if (byteAt body 0).getLsbD i.val then
        some { phase := .download, op := .qw .gated s.cfg.rAux[i] (byteAt body (1 + i.val)) }
      else none)
    let en : List Event := if stopWrite then
        [{ phase := .download, op := .qw .gated (s.cfg.rEn.get kg) (s.g.en.get kg &&& ~~~bit bg) }]
      else []
    (s.g.st = .idle → exec (.appreg s.cfg.gen body) s = .next s) ∧
    (s.g.st = .inited → ∃ t, exec (.appreg s.cfg.gen body) s = .next t ∧
      t.io.trace = s.io.trace ++ aux ++ en ++
        (if 0 < s.w.qn ∨ aux ≠ [] ∨ en ≠ [] then [{ phase := .download, op := .flush }] else []) ∧
      t.hw.queue = [] ∧
      t.g = (if stopWrite then
          { s.g with en := s.g.en.set kg (s.g.en.get kg &&& ~~~bit bg) } else s.g) ∧
      t.w = { s.w with
        qn := 0, ix := s.w.ix + 1
        sil := s.w.sil && !((byteAt body 0).getLsbD s.cfg.sinSlot.val &&
          decide (byteAt body (1 + s.cfg.sinSlot.val) = s.cfg.vSinInactive))
        onw := if stop then s.w.onw.set kg (s.w.onw.get kg &&& ~~~bit bg) else s.w.onw
        restore := if stop then s.w.restore.set kg (s.w.restore.get kg &&& ~~~bit bg)
          else s.w.restore } ∧
      t.site = s.site ∧ t.cfg = s.cfg ∧ t.io.inbox = s.io.inbox)

/-- FW and SKIP items emit nothing in phase 3: a FWCTRL_B chunk, an unknown chunk, a zero-length
coefficient chunk, a register chunk for another app (rule R158). Each runs by itself at PH = P_DOWNLOAD (the
model's choice, log 15), and IX counts it (log 25). -/
def Obligations.OtherItemsEmitNothing : Prop :=
  ∀ (s : State) (i : Instr), s.w.ph = .download →
    ((∃ body, i = .fwctrlB body ∧ fwBodyOk s.cfg body = true) ∨ (∃ tag body, i = .skip tag body) ∨
      (∃ a body, i = .appcoef a body ∧ coefBodyOk s.cfg body = true ∧
        sbe32At body s.cfg.offCount = 0) ∨
      (∃ a body, i = .appreg a body ∧ 8 ≤ body.length ∧ a ≠ s.cfg.gen)) →
    exec i s = .next { s with w := { s.w with ix := s.w.ix + 1 } }

/-! ## APPLY -/

/-- A malformed request has no hardware side effect and changes no global state; of the working registers
only PH, DESC, AR and the result (rules R113, R121, R205; the byte order of the status on the port: log
17). -/
def Obligations.MalformedApplyHasNoEffect : Prop :=
  ∀ (s : State) (blob : List Byte), ready s = true → s.g.st = .inited →
    analyse s.cfg blob s.g.en = .malformed →
    exec (.apply blob) s = .next { s with
      w := { s.w with ph := .idle, desc := blob, ar := .malformed, result := s.cfg.eMalformed }
      io := { s.io with trace := [], sport := bytes32 s.cfg.eMalformed } }

/-- A failing wait in phase 1 ends the pass with E_RUNTIME: the sine selection is committed, nothing was
emitted but the wait (rules R121, R122, R137; X2 of rule R209). That ONW is loaded at entry is rule R121's
(log 30), and that the failing poll's byte is left in `io.rdata` the model's reading (log 3; the byte order
of the status on the port: log 17), and that a pending transfer stays pending whatever that byte shows the
model's choice (log 9). -/
def Obligations.FailedTransferWaitAbortsApply : Prop :=
  ∀ (s : State) (blob : List Byte) (r : AnalysisRecord) (v : Byte) (rest : List WaitAnswer),
    admissible s.cfg = true → ready s = true → s.g.st = .inited → s.hw.queue = [] → s.w.qn = 0 →
    analyse s.cfg blob s.g.en = .record r → s.orc.waits = .fails v :: rest →
    exec (.apply blob) s = .next { s with
      g := { s.g with sinsrc := r.sinsel.getD s.g.sinsrc }
      w := { s.w with
        ph := .idle, desc := blob, ar := .record r, restore := { k0 := 0, k1 := 0 }, onw := r.on,
        prec := 0, xoff := 0, sil := false, trigpend := false, ix := 0, result := s.cfg.eRuntime }
      io := { s.io with
        trace := [{ phase := .wait, op := .wait .xfer false }]
        rdata := v
        waitRes := .failed
        sport := bytes32 s.cfg.eRuntime }
      orc := { s.orc with waits := rest } }

/-- When each wait that the pass makes sees its flag at its first poll (the transfer wait; the fade wait if
the bypass mask changes; the sine wait if the sine is at stake and the byte that R_SINOUT returns is not
given as the inactive one), APPLY completes: result 0, P_IDLE, nothing queued, the sine silence and the
trigger settled, and group G as the guarantee has it: the enable and bypass masks, the master byte, the sine
selection committed. A pass held up in a wait completes so too, when the next poll of that wait and the
first poll of each wait still to come see their flags (rules R120 to R127, R132, R134 to R136, R139, R182,
R245; the byte order of the status on the port: log 17). What it emits is CompletedPassAccesses. -/
def Obligations.ApplyCompletes : Prop :=
  let completed (s t : State) (r : AnalysisRecord) (g : Globals) : Prop :=
    t.w.result = 0 ∧ t.w.ph = .idle ∧ t.site = none ∧ t.hw.queue = [] ∧ t.w.qn = 0 ∧ t.w.sil = false ∧
      t.w.trigpend = false ∧ t.io.sport = bytes32 0 ∧ t.io.inbox = s.io.inbox ∧ t.cfg = s.cfg ∧
      t.g = globalsAfter s.cfg r g
  (∀ (s : State) (blob : List Byte) (r : AnalysisRecord), admissible s.cfg = true → Inv s →
    ready s = true → s.g.st = .inited → analyse s.cfg blob s.g.en = .record r →
    let g : Globals := { s.g with sinsrc := r.sinsel.getD s.g.sinsrc }
    answersShow s.cfg (waitsFrom s.cfg r g (mayWaitForSine r g 0 .applyXfer s) .applyXfer) s.orc.waits →
    ∃ t, exec (.apply blob) s = .next t ∧ completed s t r g) ∧
  (∀ (s : State) (site : WaitSite) (r : AnalysisRecord) (g : Globals) (v : Byte),
    admissible s.cfg = true → Inv s → HeldPass r g v site s →
    answersShow s.cfg (waitsFrom s.cfg r g (mayWaitForSine r g v site s) site) s.orc.waits →
    ∃ t, step s = .next t ∧ completed s t r g)

/-- The guarantee of a pass that returned 0: explicit stops are off, starts are on, every app bit cleared
only for the transfer is set again, a Gen stop request wins over all; bypass bits are as before but for
the directives; the master bypass follows its directive. The same of a pass that was held up in a wait and
that a later poll lets complete; past phase 1 the bypass bits it clears are those its PREC and XOFF name;
and of a pass that HeldPassState describes, from the state before the pass (rules R132, R134, R135, R139,
R182). -/
def Obligations.CompletedPassGuarantee : Prop :=
  (∀ (s t : State) (blob : List Byte) (r : AnalysisRecord), admissible s.cfg = true →
    s.g.st = .inited → analyse s.cfg blob s.g.en = .record r →
    exec (.apply blob) s = .next t → t.site = none → t.w.result = 0 →
    (∀ k, t.g.en.get k = enAfter s.cfg r.items (r.off.get k) (r.on.get k) (s.g.en.get k) k) ∧
    t.g.byp = (s.g.byp ||| askedBits s.cfg r .start) &&& ~~~askedBits s.cfg r .stop ∧
    t.g.master = (match r.mdir with
      | .start => s.g.master ||| s.cfg.mByp
      | .stop => s.g.master &&& ~~~s.cfg.mByp
      | .dc => s.g.master) ∧
    t.g.st = .inited ∧ t.g.sinsrc = r.sinsel.getD s.g.sinsrc) ∧
  (∀ (s t : State) (site : WaitSite), admissible s.cfg = true → s.site = some site →
    (site = .applyXfer ∨ site = .applyFade ∨ site = .applySine) →
    step s = .next t → t.site = none → t.w.result = 0 →
    (∀ k, t.g.en.get k = enAfter s.cfg (passRecord s).items ((passRecord s).off.get k)
      ((passRecord s).on.get k) (s.g.en.get k) k) ∧
    t.g.byp = (if site = .applyXfer then
        (s.g.byp ||| askedBits s.cfg (passRecord s) .start) &&& ~~~askedBits s.cfg (passRecord s) .stop
      else s.g.byp &&& ~~~s.w.prec &&& ~~~s.w.xoff) ∧
    t.g.master = (match (passRecord s).mdir with
      | .start => s.g.master ||| s.cfg.mByp
      | .stop => s.g.master &&& ~~~s.cfg.mByp
      | .dc => s.g.master) ∧
    t.g.st = s.g.st ∧ t.g.sinsrc = s.g.sinsrc) ∧
  (∀ (s t : State) (site : WaitSite) (r : AnalysisRecord) (g : Globals) (v : Byte),
    admissible s.cfg = true → HeldPass r g v site s →
    step s = .next t → t.site = none → t.w.result = 0 →
    (∀ k, t.g.en.get k = enAfter s.cfg r.items (r.off.get k) (r.on.get k) (g.en.get k) k) ∧
    t.g.byp = (g.byp ||| askedBits s.cfg r .start) &&& ~~~askedBits s.cfg r .stop ∧
    t.g.master = (match r.mdir with
      | .start => g.master ||| s.cfg.mByp
      | .stop => g.master &&& ~~~s.cfg.mByp
      | .dc => g.master) ∧
    t.g.st = .inited ∧ t.g.sinsrc = g.sinsrc)

/-- A pass that its step leaves held up in a wait, at its first wait or at a later one, holds what rules
R121 to R127 say: the record, BYP, PREC, XOFF, SIL and SINSAVE of what it has done, and exactly the accesses
up to that wait; kept by every step that leaves it held up, with the byte that R_SINOUT returned once phase
2 has read it. And it is held up in a wait when the waits before that one see their flags and the poll of
that one neither does nor fails (the sine wait, where the byte that R_SINOUT returns is given) (rules R121
to R127, R182; one poll a step is the model's cut, log 3). -/
def Obligations.HeldPassState : Prop :=
  (∀ (s t : State) (blob : List Byte) (r : AnalysisRecord) (site : WaitSite), admissible s.cfg = true →
    s.g.st = .inited → analyse s.cfg blob s.g.en = .record r →
    exec (.apply blob) s = .next t → t.site = some site →
    ∃ v, (∀ u rest, s.orc.reads = u :: rest → v = u) ∧
      HeldPass r { s.g with sinsrc := r.sinsel.getD s.g.sinsrc } v site t) ∧
  (∀ (s t : State) (site site' : WaitSite) (r : AnalysisRecord) (g : Globals) (v : Byte),
    admissible s.cfg = true → Inv s → HeldPass r g v site s → step s = .next t → t.site = some site' →
    ∃ v', (site ≠ .applyXfer → v' = v) ∧
      (site = .applyXfer → ∀ u rest, s.orc.reads = u :: rest → v' = u) ∧ HeldPass r g v' site' t) ∧
  (∀ (s : State) (blob : List Byte) (r : AnalysisRecord) (w : WaitName), admissible s.cfg = true →
    Inv s → ready s = true → s.g.st = .inited → analyse s.cfg blob s.g.en = .record r →
    let g : Globals := { s.g with sinsrc := r.sinsel.getD s.g.sinsrc }
    answersHold s.cfg w (waitsFrom s.cfg r g (willWaitForSine r g 0 .applyXfer s) .applyXfer)
      s.orc.waits →
    ∃ t, exec (.apply blob) s = .next t ∧ t.site = some (passSite w)) ∧
  (∀ (s : State) (site : WaitSite) (r : AnalysisRecord) (g : Globals) (v : Byte) (w : WaitName),
    admissible s.cfg = true → Inv s → HeldPass r g v site s →
    answersHold s.cfg w (waitsFrom s.cfg r g (willWaitForSine r g v site s) site) s.orc.waits →
    ∃ t, step s = .next t ∧ t.site = some (passSite w))

/-- The reads, writes and waits of a pass that returned 0, in order, are those of its phases: the transfer
wait; the bypass write if the mask changes, the read of R_SINOUT if the sine is at stake and its silencing
if it was on, their waits; the enable clears; every COEF and REG item in blob order, then the trigger of a
device-internal pass; the enable writes, R_SINOUT back at what it was if the pass silenced it and no
register chunk cancelled that, the bypass and the master write. Of a pass held up in a wait, the rest of
them from that wait on; and of one that HeldPassState describes, all of them from its first (rules R121 to
R136, R140, R151 to R158; flushes left out, rule R180). -/
def Obligations.CompletedPassAccesses : Prop :=
  (∀ (s t : State) (blob : List Byte) (r : AnalysisRecord), admissible s.cfg = true →
    s.g.st = .inited → analyse s.cfg blob s.g.en = .record r →
    exec (.apply blob) s = .next t → t.site = none → t.w.result = 0 →
    ∃ v, (∀ u rest, s.orc.reads = u :: rest → v = u) ∧
      accesses t.io.trace =
        passAccesses s.cfg r { s.g with sinsrc := r.sinsel.getD s.g.sinsrc } v) ∧
  (∀ (s t : State) (site : WaitSite), admissible s.cfg = true → Inv s → s.site = some site →
    step s = .next t → t.site = none → t.w.result = 0 →
    let saved := if s.w.sil then some s.w.sinsave else none
    let rest := accessesPastWaits s.cfg (passRecord s) s.g saved
      (s.g.byp &&& ~~~s.w.prec &&& ~~~s.w.xoff)
    (site = .applyXfer → ∃ v, (∀ u rest, s.orc.reads = u :: rest → v = u) ∧
      accesses t.io.trace = accesses s.io.trace ++ passAccesses s.cfg (passRecord s) s.g v) ∧
    (site = .applyFade → accesses t.io.trace = accesses s.io.trace ++
      eventsIn .quiesce ([.wait .fade true] ++ if s.w.sil then [.wait .sine true] else []) ++ rest) ∧
    (site = .applySine → accesses t.io.trace = accesses s.io.trace ++
      eventsIn .quiesce [.wait .sine true] ++ rest)) ∧
  (∀ (s t : State) (site : WaitSite) (r : AnalysisRecord) (g : Globals) (v : Byte),
    admissible s.cfg = true → Inv s → HeldPass r g v site s →
    step s = .next t → t.site = none → t.w.result = 0 →
    ∃ v', (site ≠ .applyXfer → v' = v) ∧
      (site = .applyXfer → ∀ u rest, s.orc.reads = u :: rest → v' = u) ∧
      accesses t.io.trace = passAccesses s.cfg r g v')

/-- Before any write of a block-memory address register of a host-driven pass, every coefficient target is
muted: the transfer wait was OK; if a bit of its domain's `PROT` was not set, a write of R_BYP that sets them
all stands before it, and after that a fade wait that was OK; if its enable bit was set, a write of its
enable register that clears it. So of a pass that runs through, and of one held up in any of its waits, over
its whole trace (rules R122, R123, R124, R127, R128, R154 (1) and (2)). -/
def Obligations.TargetsAreMutedBeforeTransfer : Prop :=
  (∀ (s t : State) (blob : List Byte) (r : AnalysisRecord) (a : AppId) (addr : Word)
    (payload : List Byte) (pre post : List Event) (e : Event) (g : Gate) (q : Reg) (x : Byte),
    admissible s.cfg = true → s.g.st = .inited → analyse s.cfg blob s.g.en = .record r →
    r.mode = .host → Item.coef a addr payload ∈ r.items →
    exec (.apply blob) s = .next t → t.io.trace = pre ++ e :: post →
    e.op = .qw g q x → q ∈ s.cfg.rBma → MutedBefore s.cfg s.g a pre) ∧
  (∀ (s t : State) (blob : List Byte) (r : AnalysisRecord) (site : WaitSite) (g₀ : Globals) (v : Byte)
    (a : AppId) (addr : Word) (payload : List Byte) (pre post : List Event) (e : Event) (g : Gate)
    (q : Reg) (x : Byte),
    admissible s.cfg = true → Inv s → HeldPass r g₀ v site s → analyse s.cfg blob g₀.en = .record r →
    r.mode = .host → Item.coef a addr payload ∈ r.items →
    step s = .next t → t.io.trace = pre ++ e :: post →
    e.op = .qw g q x → q ∈ s.cfg.rBma → MutedBefore s.cfg g₀ a pre)

/-- What a pass leaves that a wait ended, at its first poll or at a later one: nothing is rolled back;
enables and master are as before, BYP as before or, past phase 1, with `need` and `xon` OR-ed in, R_SINOUT
at its inactive value if the pass silenced it and as before if not, the queue empty. And a wait that fails
does end the pass, with E_RUNTIME: any of the three (the sine wait, where the byte that R_SINOUT returns is
given), in the step that starts the pass or in a later one, the waits before it having seen their flags; the
wait in progress by its next poll, which changes nothing but the result, PH, the trace and the return paths
(rules R137, R182, R212; X2 to X4 of rule R209; one poll a step and the byte it leaves in `io.rdata`: log 3,
the byte order of the status on the port: log 17; that a pending transfer stays pending whatever that byte
shows is the model's choice, log 9). -/
def Obligations.AbortedPassState : Prop :=
  (∀ (s t : State) (blob : List Byte) (r : AnalysisRecord), admissible s.cfg = true → Inv s →
    s.g.st = .inited → analyse s.cfg blob s.g.en = .record r →
    exec (.apply blob) s = .next t → t.w.result = s.cfg.eRuntime → t.site = none →
    t.g = { s.g with
      sinsrc := r.sinsel.getD s.g.sinsrc
      byp := if { phase := .wait, op := .wait .xfer false } ∈ t.io.trace then s.g.byp
        else bypAfterQ1 s.cfg r s.g.byp } ∧
    (s.hw.queue = [] → RegFile.read t.hw.regs s.cfg.rSinout.addr =
      if { phase := .quiesce, op := .qw .gated s.cfg.rSinout s.cfg.vSinInactive } ∈ t.io.trace then
        s.cfg.vSinInactive
      else RegFile.read s.hw.regs s.cfg.rSinout.addr) ∧
    t.w.ph = .idle ∧ t.hw.queue = [] ∧ t.w.qn = 0) ∧
  (∀ (s t : State) (site : WaitSite), admissible s.cfg = true → Inv s → s.site = some site →
    (site = .applyXfer ∨ site = .applyFade ∨ site = .applySine) →
    step s = .next t → t.w.result = s.cfg.eRuntime → t.site = none →
    ∃ evs, t.io.trace = s.io.trace ++ evs ∧
      t.g = { s.g with
        byp := if site = .applyXfer ∧ { phase := .wait, op := .wait .xfer false } ∉ evs then
            bypAfterQ1 s.cfg (passRecord s) s.g.byp
          else s.g.byp } ∧
      RegFile.read t.hw.regs s.cfg.rSinout.addr =
        (if { phase := .quiesce, op := .qw .gated s.cfg.rSinout s.cfg.vSinInactive } ∈ evs then
          s.cfg.vSinInactive
        else RegFile.read s.hw.regs s.cfg.rSinout.addr) ∧
      t.w.ph = .idle ∧ t.hw.queue = [] ∧ t.w.qn = 0) ∧
  (∀ (s : State) (blob : List Byte) (r : AnalysisRecord), admissible s.cfg = true → Inv s →
    ready s = true → s.g.st = .inited → analyse s.cfg blob s.g.en = .record r →
    let g : Globals := { s.g with sinsrc := r.sinsel.getD s.g.sinsrc }
    answersFail s.cfg (waitsFrom s.cfg r g (willWaitForSine r g 0 .applyXfer s) .applyXfer) s.orc.waits →
    ∃ t, exec (.apply blob) s = .next t ∧ t.w.result = s.cfg.eRuntime ∧ t.site = none ∧
      t.w.ph = .idle ∧ t.io.sport = bytes32 s.cfg.eRuntime) ∧
  (∀ (s : State) (site : WaitSite) (r : AnalysisRecord) (g : Globals) (v : Byte),
    admissible s.cfg = true → Inv s → HeldPass r g v site s →
    answersFail s.cfg (waitsFrom s.cfg r g (willWaitForSine r g v site s) site) s.orc.waits →
    ∃ t, step s = .next t ∧ t.w.result = s.cfg.eRuntime ∧ t.site = none ∧
      t.w.ph = .idle ∧ t.io.sport = bytes32 s.cfg.eRuntime) ∧
  (∀ (s : State) (site : WaitSite) (v : Byte) (rest : List WaitAnswer),
    admissible s.cfg = true → Inv s → s.site = some site →
    (site = .applyXfer ∨ site = .applyFade ∨ site = .applySine) → s.orc.waits = .fails v :: rest →
    step s = .next { s with
      w := { s.w with ph := .idle, result := s.cfg.eRuntime }
      io := { s.io with
        trace := s.io.trace ++ [{ phase := s.w.ph, op := .wait (siteWait site) false }]
        rdata := v
        waitRes := .failed
        sport := bytes32 s.cfg.eRuntime }
      orc := { s.orc with waits := rest }
      site := none })

/-- The three gates on register access: no port operation while ST = IDLE; block memory and the trigger touched
only after a transfer wait that was OK; and every operation touches only what the table of rule R140 lets its
phase touch. So of the exec that starts a command; of every step of one held up in a wait, which waits only
while INITED; and of the exec of an operation or item offered by itself, but that P_IDLE gives no leave and
refuses none (log 22) (rules R140, R186, R198). -/
def Obligations.PhaseGateHolds : Prop :=
  (∀ (s t : State) (i : Instr), isCommand i = true → s.g.st = .idle → exec i s = .next t →
    t.io.trace = []) ∧
  (∀ (s t : State) (i : Instr), isCommand i = true → exec i s = .next t →
    (∀ e ∈ t.io.trace, gateOk s.cfg e) ∧ (admissible s.cfg = true → transferGate t) ∧
    (Inv s → t.site.isSome = true → t.g.st = .inited)) ∧
  (∀ (s t : State) (site : WaitSite), Inv s → s.site = some site → (∀ w, site ≠ .alone w) →
    (∀ e ∈ s.io.trace, gateOk s.cfg e) → transferGate s → step s = .next t →
    s.g.st = .inited ∧ t.g.st = .inited ∧ (∀ e ∈ t.io.trace, gateOk s.cfg e) ∧ transferGate t) ∧
  (∀ (s t : State) (i : Instr), isCommand i = false → exec i s = .next t →
    ∃ evs, t.io.trace = s.io.trace ++ evs ∧ (evs ≠ [] → s.g.st = .inited) ∧
      (admissible s.cfg = true → ∀ e ∈ evs, touchesBlockMemory s.cfg e.op → transferWaited s.io.trace) ∧
      (s.w.ph ≠ .idle → ∀ e ∈ evs, phaseLets s.cfg s.w.ph e.op))

/-- The phases of a command's port operations only go forward, and none is of a phase later than the one it
waits in: so of the exec that starts the command, and kept by every step of a command held up in a wait
(rules R28, R138). -/
def Obligations.PhasesGoForward : Prop :=
  (∀ (s t : State) (i : Instr), isCommand i = true → exec i s = .next t → forwardSoFar t) ∧
  (∀ (s t : State) (site : WaitSite), Inv s → s.site = some site → (∀ w, site ≠ .alone w) →
    forwardSoFar s → step s = .next t → forwardSoFar t)

/-- Phase 2 only mutes: its R_BYP writes only set bits, its R_SINOUT writes are the inactive value, its
R_EN writes only clear bits (rule R140's table); the same of what a step adds to a pass held up in a wait.
That it does mute is TargetsAreMutedBeforeTransfer and CompletedPassAccesses. -/
def Obligations.QuiesceOnlyMutes : Prop :=
  (∀ (s t : State) (blob : List Byte) (g : Gate) (q : Reg) (v : Byte), admissible s.cfg = true →
    exec (.apply blob) s = .next t →
    ({ phase := .quiesce, op := .qw g q v } : Event) ∈ t.io.trace →
    (q = s.cfg.rByp → s.g.byp &&& v = s.g.byp) ∧
    (q = s.cfg.rSinout → v = s.cfg.vSinInactive) ∧
    (∀ k, q = s.cfg.rEn.get k → v &&& s.g.en.get k = v)) ∧
  (∀ (s t : State) (site : WaitSite), admissible s.cfg = true → Inv s → s.site = some site →
    (site = .applyXfer ∨ site = .applyFade ∨ site = .applySine) → step s = .next t →
    ∃ evs, t.io.trace = s.io.trace ++ evs ∧
      ∀ g q v, ({ phase := .quiesce, op := .qw g q v } : Event) ∈ evs →
        (q = s.cfg.rByp → s.g.byp &&& v = s.g.byp) ∧
        (q = s.cfg.rSinout → v = s.cfg.vSinInactive) ∧
        (∀ k, q = s.cfg.rEn.get k → v &&& s.g.en.get k = v))

/-- An empty pass (no transition, no stop flag, no mode, every directive DC, no REG item) emits the transfer
wait, the two enable writes and one flush, and leaves group G unchanged (rule R141, scenario A). -/
def Obligations.EmptyPassTrace : Prop :=
  ∀ (s : State) (blob : List Byte) (r : AnalysisRecord) (v : Byte) (rest : List WaitAnswer),
    Inv s → s.hw.queue = [] → ready s = true → s.g.st = .inited →
    analyse s.cfg blob s.g.en = .record r →
    (∀ k, r.on.get k = 0 ∧ r.off.get k = 0 ∧ r.gs.get k = 0) → r.mode = .none →
    r.mdir = .dc → r.bdir = { k0 := .dc, k1 := .dc } → (∀ i ∈ r.items, ∀ f vals, i ≠ .reg f vals) →
    s.orc.waits = .seen v :: rest → v &&& s.cfg.wXfer.mask = s.cfg.wXfer.want →
    ∃ t, exec (.apply blob) s = .next t ∧ t.w.result = 0 ∧ t.w.ph = .idle ∧
      t.g = s.g ∧
      t.io.trace = [{ phase := .wait, op := .wait .xfer true },
        { phase := .resume, op := .qw .gated s.cfg.rEn.k0 s.g.en.k0 },
        { phase := .resume, op := .qw .gated s.cfg.rEn.k1 s.g.en.k1 },
        { phase := .resume, op := .flush }]

/-- The device-internal trigger is written exactly once in a completed device-internal pass, and never in
another, of a pass that runs through and, over its whole trace, of one held up in a wait; the step that
completes a pass held up in a wait writes it once if the pass is device-internal and has a coefficient item,
else never; and a completed device-internal pass, where the two control values differ, leaves its payload
pending for its address, whether it ran through or was held up (rules R43, R131, R151, R153; the device side
is the model's reading, log 9). -/
def Obligations.TriggerWrittenOncePerInternalPass : Prop :=
  (∀ (s t : State) (blob : List Byte) (r : AnalysisRecord), admissible s.cfg = true →
    s.g.st = .inited → analyse s.cfg blob s.g.en = .record r →
    exec (.apply blob) s = .next t → t.site = none → t.w.result = 0 →
    countWrites s.cfg.rTrig t.io.trace = if r.mode = .int then 1 else 0) ∧
  (∀ (s t : State) (site : WaitSite), admissible s.cfg = true → Inv s → s.site = some site →
    (site = .applyXfer ∨ site = .applyFade ∨ site = .applySine) →
    step s = .next t → t.site = none → t.w.result = 0 →
    countWrites s.cfg.rTrig t.io.trace = countWrites s.cfg.rTrig s.io.trace +
      if (passRecord s).mode = .int ∧ (passRecord s).items.any isCoef = true then 1 else 0) ∧
  (∀ (s t : State) (blob : List Byte) (r : AnalysisRecord) (a : AppId) (addr : Word)
    (payload : List Byte), admissible s.cfg = true → Inv s → s.g.st = .inited →
    s.cfg.vCtlWrInt ≠ s.cfg.vCtlWrHost → analyse s.cfg blob s.g.en = .record r → r.mode = .int →
    Item.coef a addr payload ∈ r.items → exec (.apply blob) s = .next t → t.site = none →
    t.w.result = 0 → t.hw.xfer = some { addr := addr, bytes := payload }) ∧
  (∀ (s t : State) (site : WaitSite) (blob : List Byte) (r : AnalysisRecord) (g : Globals) (v : Byte),
    admissible s.cfg = true → Inv s → HeldPass r g v site s → analyse s.cfg blob g.en = .record r →
    step s = .next t → t.site = none → t.w.result = 0 →
    countWrites s.cfg.rTrig t.io.trace = (if r.mode = .int then 1 else 0) ∧
    (s.cfg.vCtlWrInt ≠ s.cfg.vCtlWrHost → r.mode = .int → ∀ a addr payload,
      Item.coef a addr payload ∈ r.items → t.hw.xfer = some { addr := addr, bytes := payload }))

/-- Every command but an INIT from IDLE keeps the block's copies equal to the device registers they
shadow, whether it completes, ends early or is held up in a wait, and whichever gated writes the
collaborator drops (rules R67, R137, R177, R245). -/
def Obligations.CommandsKeepCopiesCoherent : Prop :=
  (∀ (s t : State) (i : Instr), admissible s.cfg = true → Inv s → isCommand i = true →
    s.hw.queue = [] → (i = .init → s.g.st = .inited) → Coherent s → exec i s = .next t →
    Coherent t ∧ t.hw.queue = []) ∧
  (∀ (s t : State) (site : WaitSite), Inv s → s.site = some site → Coherent s →
    step s = .next t → Coherent t ∧ t.hw.queue = [])

/-! ## UPLOAD -/

/-- UPLOAD tests its arguments before any access: an invalid domain or an address outside the legal range
returns E_MALFORMED; then no unit asked for succeeds, with no byte and not even the wait (rules R166, R171,
R210, R211; the byte order of the status on the port: log 17). -/
def Obligations.UploadTestsItsArgumentsFirst : Prop :=
  (∀ (s : State) (dom : Byte) (addr size : Word), ready s = true → s.g.st = .inited →
    ((dom ≠ 0 ∧ dom ≠ 1) ∨ (dom = 0 ∧ (addr.toNat < s.cfg.loD8 ∨ s.cfg.hiD8 ≤ addr.toNat)) ∨
      (dom = 1 ∧ (addr.toNat < s.cfg.loD4 ∨ s.cfg.hiD4 ≤ addr.toNat))) →
    exec (.upload dom addr size) s = .next { s with
      w := { s.w with ph := .idle, result := s.cfg.eMalformed }
      io := { s.io with trace := [], sport := bytes32 s.cfg.eMalformed } }) ∧
  (∀ (s : State) (dom : Byte) (addr : Word) (m : MemDom), ready s = true → s.g.st = .inited →
    memDomOf dom = some m → s.cfg.lo m ≤ addr.toNat → addr.toNat < s.cfg.hi m →
    exec (.upload dom addr 0) s = .next { s with
      w := { s.w with ph := .idle, result := 0, outbuf := [] }
      io := { s.io with trace := [], sport := bytes32 0 ++ bytes32 0 } })

/-- UPLOAD reads the clamped number of units: the wait, the address and control writes, one read a byte,
the bytes returned in order with status 0 and their count; group G is unchanged. An UPLOAD held up in its wait
waits for that clamped number at that address in that memory, with no access made, and is held up when the
poll neither shows the flag nor fails; and the step that lets it past the wait returns as one that runs
through (rules R165 to R170, R182; one poll a step is the model's cut, log 3). Coefficient memory is what it
was with a pending device-internal transfer done, nothing else (the model's device, log 9); of a count that
does not fit its 32 bits nothing is said (log 19). -/
def Obligations.UploadReturnsClampedBytes : Prop :=
  let returns (s t : State) (m : MemDom) (addr : Word) (units : Nat) (before : List Event) : Prop :=
    ∃ (bytes : List Byte) (count : Word),
      bytes.length = units * m.unit ∧
      (bytes.length ≤ s.orc.reads.length → bytes = s.orc.reads.take bytes.length) ∧
      t.w.outbuf = bytes ∧ t.w.result = 0 ∧ t.w.ph = .idle ∧ t.site = none ∧
      t.io.sport = bytes32 0 ++ bytes32 count ++ bytes ∧
      (bytes.length < 2 ^ 32 → count = BitVec.ofNat 32 bytes.length) ∧
      t.io.trace = before ++ [{ phase := .upload, op := .wait .xfer true }] ++
        (s.cfg.rBma.zip (addrBytes s.cfg addr)).map
          (fun p => { phase := .upload, op := .qw .forced p.1 p.2 }) ++
        [{ phase := .upload, op := .qw .forced s.cfg.rBmctl (s.cfg.vCtlRd m) },
         { phase := .upload, op := .flush }] ++
        bytes.map (fun b => { phase := .upload, op := .rd s.cfg.rBmd b }) ∧
      t.g = s.g ∧ t.hw.queue = [] ∧ t.cfg = s.cfg ∧ t.hw.xfer = none ∧
      t.hw.bmem = (match s.hw.xfer with
        | some x => Memory.writeBytes s.hw.bmem (x.addr.toNat * 4) x.bytes
        | none => s.hw.bmem)
  (∀ (s : State) (dom : Byte) (addr size : Word) (m : MemDom) (v : Byte) (rest : List WaitAnswer),
    admissible s.cfg = true → ready s = true → s.g.st = .inited → s.hw.queue = [] → s.w.qn = 0 →
    memDomOf dom = some m → s.cfg.lo m ≤ addr.toNat → addr.toNat < s.cfg.hi m →
    size ≠ 0 → s.orc.waits = .seen v :: rest → v &&& s.cfg.wXfer.mask = s.cfg.wXfer.want →
    ∃ t, exec (.upload dom addr size) s = .next t ∧
      returns s t m addr (min size.toNat (s.cfg.hi m - addr.toNat)) []) ∧
  (∀ (s : State) (m : MemDom) (addr : Word) (units : Nat) (v : Byte) (rest : List WaitAnswer),
    admissible s.cfg = true → Inv s → s.site = some (.upload m addr units) →
    s.orc.waits = .seen v :: rest → v &&& s.cfg.wXfer.mask = s.cfg.wXfer.want →
    ∃ t, step s = .next t ∧ returns s t m addr units s.io.trace) ∧
  (∀ (s t : State) (dom : Byte) (addr size : Word) (site : WaitSite), admissible s.cfg = true →
    exec (.upload dom addr size) s = .next t → t.site = some site →
    ∃ m, memDomOf dom = some m ∧ s.cfg.lo m ≤ addr.toNat ∧ addr.toNat < s.cfg.hi m ∧
      site = .upload m addr (min size.toNat (s.cfg.hi m - addr.toNat)) ∧
      t.w = { s.w with ph := .upload, qn := 0 } ∧ t.g = s.g ∧ t.cfg = s.cfg ∧
      t.io.trace = (if 0 < s.w.qn then [{ phase := .upload, op := .flush }] else []) ∧
      t.io.sport = []) ∧
  (∀ (s : State) (dom : Byte) (addr size : Word) (m : MemDom) (v : Byte) (rest : List WaitAnswer),
    admissible s.cfg = true → ready s = true → s.g.st = .inited → s.hw.queue = [] → s.w.qn = 0 →
    memDomOf dom = some m → s.cfg.lo m ≤ addr.toNat → addr.toNat < s.cfg.hi m →
    size ≠ 0 → s.orc.waits = .seen v :: rest → v &&& s.cfg.wXfer.mask ≠ s.cfg.wXfer.want →
    exec (.upload dom addr size) s = .next { s with
      w := { s.w with ph := .upload }
      io := { s.io with trace := [], sport := [], rdata := v, waitRes := .polling }
      orc := { s.orc with waits := rest }
      site := some (.upload m addr (min size.toNat (s.cfg.hi m - addr.toNat))) })

/-- A failing wait ends UPLOAD with E_RUNTIME, at its first poll or at a later one: no register written, no
byte returned (rules R167, R170, R182; X5 of rule R209; one poll a step and the byte it leaves in `io.rdata`:
log 3, the byte order of the status on the port: log 17; that a pending transfer stays pending whatever that
byte shows is the model's choice, log 9). -/
def Obligations.FailedTransferWaitEndsUpload : Prop :=
  (∀ (s : State) (dom : Byte) (addr size : Word) (m : MemDom) (v : Byte) (rest : List WaitAnswer),
    admissible s.cfg = true → ready s = true → s.g.st = .inited → s.hw.queue = [] → s.w.qn = 0 →
    memDomOf dom = some m → s.cfg.lo m ≤ addr.toNat → addr.toNat < s.cfg.hi m → size ≠ 0 →
    s.orc.waits = .fails v :: rest →
    exec (.upload dom addr size) s = .next { s with
      w := { s.w with ph := .idle, result := s.cfg.eRuntime }
      io := { s.io with
        trace := [{ phase := .upload, op := .wait .xfer false }]
        rdata := v
        waitRes := .failed
        sport := bytes32 s.cfg.eRuntime }
      orc := { s.orc with waits := rest } }) ∧
  (∀ (s : State) (m : MemDom) (addr : Word) (units : Nat) (v : Byte) (rest : List WaitAnswer),
    admissible s.cfg = true → Inv s → s.site = some (.upload m addr units) →
    s.orc.waits = .fails v :: rest →
    step s = .next { s with
      w := { s.w with ph := .idle, result := s.cfg.eRuntime }
      io := { s.io with
        trace := s.io.trace ++ [{ phase := .upload, op := .wait .xfer false }]
        rdata := v
        waitRes := .failed
        sport := bytes32 s.cfg.eRuntime }
      orc := { s.orc with waits := rest }
      site := none })

/-- UPLOAD is read-only: it changes no field of group G and writes no register but the address and control
registers of block memory, in the step that starts it and in every step after a wait (rule R170). -/
def Obligations.UploadIsReadOnly : Prop :=
  (∀ (s t : State) (dom : Byte) (addr size : Word),
    exec (.upload dom addr size) s = .next t →
    t.g = s.g ∧
    ∀ e ∈ t.io.trace, ∀ g q v, e.op = .qw g q v →
      g = .forced ∧ (q ∈ s.cfg.rBma ∨ q = s.cfg.rBmctl)) ∧
  (∀ (s t : State) (m : MemDom) (addr : Word) (units : Nat),
    s.site = some (.upload m addr units) → step s = .next t →
    t.g = s.g ∧ ∃ evs, t.io.trace = s.io.trace ++ evs ∧
      ∀ e ∈ evs, ∀ g q v, e.op = .qw g q v →
        g = .forced ∧ (q ∈ s.cfg.rBma ∨ q = s.cfg.rBmctl))
end

