-- ==== Sys2Proof/Laws/Memory.lean ====
section
/-! SUPPORT. The laws of memories: reading after writing, and the canonical form. -/

namespace Sys2Proof.Machine

theorem Memory.read_write (m : Memory) (a b : Nat) (v : Byte) :
    Memory.read (Memory.write m a v) b = if b = a then some v else Memory.read m b := by
  induction m with
  | nil => simp [Memory.write, Memory.read]
  | cons x m ih =>
    obtain ⟨k, u⟩ := x
    unfold Memory.write
    split
    · rfl
    · split
      · rename_i _ hak
        subst hak
        by_cases h : b = a <;> simp [Memory.read, h]
      · rename_i h1 h2
        simp only [Memory.read, ih]
        by_cases h : b = k
        · have : b ≠ a := by omega
          simp [h]; omega
        · simp [h]

theorem Memory.read_write_same (m : Memory) (a : Nat) (v : Byte) :
    Memory.read (Memory.write m a v) a = some v := by simp [Memory.read_write]

theorem Memory.read_write_other (m : Memory) {a b : Nat} (v : Byte) (h : b ≠ a) :
    Memory.read (Memory.write m a v) b = Memory.read m b := by simp [Memory.read_write, h]

theorem Memory.mem_write {m : Memory} {a : Nat} {v : Byte} {x : Host.Cell}
    (h : x ∈ Memory.write m a v) : x = (a, v) ∨ x ∈ m := by
  induction m with
  | nil => simpa [Memory.write] using h
  | cons y m ih =>
    obtain ⟨k, u⟩ := y
    unfold Memory.write at h
    split at h
    · simpa using h
    · split at h
      · rcases List.mem_cons.1 h with h | h
        · exact .inl h
        · exact .inr (List.mem_cons_of_mem _ h)
      · rcases List.mem_cons.1 h with h | h
        · exact .inr (h ▸ List.mem_cons_self)
        · exact (ih h).imp_right (List.mem_cons_of_mem _)

/-- A write keeps the canonical form. -/
theorem Memory.write_wf {m : Memory} (h : Memory.wf m) (a : Nat) (v : Byte) :
    Memory.wf (Memory.write m a v) := by
  induction m with
  | nil => simp [Memory.write, Memory.wf]
  | cons x m ih =>
    obtain ⟨k, u⟩ := x
    obtain ⟨hk, hm⟩ := List.pairwise_cons.1 h
    unfold Memory.write
    split
    · rename_i hak
      refine List.pairwise_cons.2 ⟨fun y hy => ?_, h⟩
      rcases List.mem_cons.1 hy with rfl | hy
      · exact hak
      · exact Nat.lt_trans hak (hk y hy)
    · split
      · rename_i hak
        exact List.pairwise_cons.2 ⟨fun y hy => hak ▸ hk y hy, hm⟩
      · rename_i h1 h2
        refine List.pairwise_cons.2 ⟨fun y hy => ?_, ih hm⟩
        rcases Memory.mem_write hy with rfl | hy
        · simp only; omega
        · exact hk y hy

theorem Memory.writeBytes_wf {m : Memory} (h : Memory.wf m) (a : Nat) (bytes : List Byte) :
    Memory.wf (Memory.writeBytes m a bytes) := by
  induction bytes generalizing m a with
  | nil => exact h
  | cons x xs ih => exact ih (Memory.write_wf h a x) (a + 1)

/-- Consecutive bytes written are read back; every other address reads as before. -/
theorem Memory.read_writeBytes (m : Memory) (a b : Nat) (bytes : List Byte) :
    Memory.read (Memory.writeBytes m a bytes) b =
      if h : a ≤ b ∧ b - a < bytes.length then some (bytes[b - a]'h.2) else Memory.read m b := by
  induction bytes generalizing m a with
  | nil => simp [Memory.writeBytes]
  | cons x xs ih =>
    simp only [Memory.writeBytes, ih, Memory.read_write, List.length_cons]
    by_cases hba : b = a
    · subst hba; simp
    · by_cases h1 : a + 1 ≤ b ∧ b - (a + 1) < xs.length
      · have h2 : a ≤ b ∧ b - a < xs.length + 1 := by omega
        obtain ⟨n, rfl⟩ : ∃ n, b = a + 1 + n := ⟨b - (a + 1), by omega⟩
        have e1 : a + 1 + n - a = n + 1 := by omega
        have e2 : a + 1 + n - (a + 1) = n := by omega
        simp only [h1, h2, and_self, dite_true]
        simp [e1, e2]
      · have h2 : ¬(a ≤ b ∧ b - a < xs.length + 1) := by omega
        rw [dif_neg h1, dif_neg h2, if_neg hba]

/-! ## The register file -/

theorem Memory.read_filter_ne (m : Memory) (a b : Nat) :
    Memory.read (m.filter (fun x => decide (x.1 ≠ a))) b = if b = a then none else Memory.read m b := by
  induction m with
  | nil => simp [Memory.read]
  | cons x m ih =>
    obtain ⟨k, u⟩ := x
    by_cases hk : k = a
    · subst hk
      rw [List.filter_cons_of_neg (by simp), ih]
      by_cases hb : b = k <;> simp [Memory.read, hb]
    · rw [List.filter_cons_of_pos (by simpa using hk)]
      simp only [Memory.read, ih]
      by_cases hb : b = k
      · subst hb; simp [hk]
      · simp [hb]

/-- A device register reads as it was last written. -/
theorem RegFile.read_write (m : RegFile) (a b : Nat) (v : Byte) :
    RegFile.read (RegFile.write m a v) b = if b = a then v else RegFile.read m b := by
  unfold RegFile.read RegFile.write
  split
  · rename_i hv
    rw [Memory.read_filter_ne, hv]
    split <;> rfl
  · rw [Memory.read_write]
    split <;> rfl

/-- A write keeps the register file's canonical form. -/
theorem RegFile.write_wf {m : RegFile} (h : RegFile.wf m) (a : Nat) (v : Byte) :
    RegFile.wf (RegFile.write m a v) := by
  unfold RegFile.write
  split
  · exact ⟨h.1.filter _, fun x hx => h.2 x (List.mem_filter.1 hx).1⟩
  · rename_i hv
    refine ⟨Memory.write_wf h.1 a v, fun x hx => ?_⟩
    rcases Memory.mem_write hx with rfl | hx
    · exact hv
    · exact h.2 x hx

/-- Different registers have different cells. -/
theorem Reg.addr_inj {r r' : Reg} (h : r.addr = r'.addr) : r = r' := by
  have hb := r.index.isLt
  have hb' := r'.index.isLt
  unfold Reg.addr at h
  obtain ⟨b, i⟩ := r
  obtain ⟨b', i'⟩ := r'
  simp only at *
  have h1 : b.toNat = b'.toNat := by omega
  have h2 : i.toNat = i'.toNat := by omega
  rw [BitVec.eq_of_toNat_eq h1, BitVec.eq_of_toNat_eq h2]

end Sys2Proof.Machine
end

