-- ==== Sys2Proof/Laws/State.lean ====
section
/-! SUPPORT. One lemma per field per update of State: what each named update of Machine/Ops.lean leaves in
each field, true by unfolding it once. -/

namespace Sys2Proof.Machine

@[simp] theorem emit_cfg (op : PortOp) (s : State) : (emit op s).cfg = s.cfg := rfl
@[simp] theorem emit_g (op : PortOp) (s : State) : (emit op s).g = s.g := rfl
@[simp] theorem emit_w (op : PortOp) (s : State) : (emit op s).w = s.w := rfl
@[simp] theorem emit_hw (op : PortOp) (s : State) : (emit op s).hw = s.hw := rfl
@[simp] theorem emit_site (op : PortOp) (s : State) : (emit op s).site = s.site := rfl
@[simp] theorem emit_orc (op : PortOp) (s : State) : (emit op s).orc = s.orc := rfl
@[simp] theorem emit_io_inbox (op : PortOp) (s : State) : (emit op s).io.inbox = s.io.inbox := rfl
@[simp] theorem emit_io_rdata (op : PortOp) (s : State) : (emit op s).io.rdata = s.io.rdata := rfl
@[simp] theorem emit_io_waitRes (op : PortOp) (s : State) : (emit op s).io.waitRes = s.io.waitRes := rfl
@[simp] theorem emit_io_sport (op : PortOp) (s : State) : (emit op s).io.sport = s.io.sport := rfl
@[simp] theorem emit_io_trace (op : PortOp) (s : State) : (emit op s).io.trace = s.io.trace ++ [{ phase := s.w.ph, op := op }] := rfl

@[simp] theorem accept_cfg (ph : Phase) (s : State) : (accept ph s).cfg = s.cfg := rfl
@[simp] theorem accept_g (ph : Phase) (s : State) : (accept ph s).g = s.g := rfl
@[simp] theorem accept_hw (ph : Phase) (s : State) : (accept ph s).hw = s.hw := rfl
@[simp] theorem accept_site (ph : Phase) (s : State) : (accept ph s).site = s.site := rfl
@[simp] theorem accept_orc (ph : Phase) (s : State) : (accept ph s).orc = s.orc := rfl
@[simp] theorem accept_io_inbox (ph : Phase) (s : State) : (accept ph s).io.inbox = s.io.inbox := rfl
@[simp] theorem accept_io_rdata (ph : Phase) (s : State) : (accept ph s).io.rdata = s.io.rdata := rfl
@[simp] theorem accept_io_waitRes (ph : Phase) (s : State) : (accept ph s).io.waitRes = s.io.waitRes := rfl
@[simp] theorem accept_w (ph : Phase) (s : State) : (accept ph s).w = { s.w with ph := ph } := rfl
@[simp] theorem accept_io_trace (ph : Phase) (s : State) : (accept ph s).io.trace = [] := rfl
@[simp] theorem accept_io_sport (ph : Phase) (s : State) : (accept ph s).io.sport = [] := rfl

@[simp] theorem answer_cfg (v : Word) (s : State) : (answer v s).cfg = s.cfg := rfl
@[simp] theorem answer_g (v : Word) (s : State) : (answer v s).g = s.g := rfl
@[simp] theorem answer_hw (v : Word) (s : State) : (answer v s).hw = s.hw := rfl
@[simp] theorem answer_site (v : Word) (s : State) : (answer v s).site = s.site := rfl
@[simp] theorem answer_orc (v : Word) (s : State) : (answer v s).orc = s.orc := rfl
@[simp] theorem answer_io_inbox (v : Word) (s : State) : (answer v s).io.inbox = s.io.inbox := rfl
@[simp] theorem answer_io_rdata (v : Word) (s : State) : (answer v s).io.rdata = s.io.rdata := rfl
@[simp] theorem answer_io_waitRes (v : Word) (s : State) : (answer v s).io.waitRes = s.io.waitRes := rfl
@[simp] theorem answer_io_trace (v : Word) (s : State) : (answer v s).io.trace = s.io.trace := rfl
@[simp] theorem answer_io_sport (v : Word) (s : State) : (answer v s).io.sport = bytes32 v := rfl
@[simp] theorem answer_w (v : Word) (s : State) : (answer v s).w = { s.w with ph := .idle } := rfl

@[simp] theorem finish_cfg (v : Word) (s : State) : (finish v s).cfg = s.cfg := rfl
@[simp] theorem finish_g (v : Word) (s : State) : (finish v s).g = s.g := rfl
@[simp] theorem finish_hw (v : Word) (s : State) : (finish v s).hw = s.hw := rfl
@[simp] theorem finish_site (v : Word) (s : State) : (finish v s).site = s.site := rfl
@[simp] theorem finish_orc (v : Word) (s : State) : (finish v s).orc = s.orc := rfl
@[simp] theorem finish_io_inbox (v : Word) (s : State) : (finish v s).io.inbox = s.io.inbox := rfl
@[simp] theorem finish_io_rdata (v : Word) (s : State) : (finish v s).io.rdata = s.io.rdata := rfl
@[simp] theorem finish_io_waitRes (v : Word) (s : State) : (finish v s).io.waitRes = s.io.waitRes := rfl
@[simp] theorem finish_io_trace (v : Word) (s : State) : (finish v s).io.trace = s.io.trace := rfl
@[simp] theorem finish_w (v : Word) (s : State) : (finish v s).w = { s.w with ph := .idle, result := v } := rfl
@[simp] theorem finish_io_sport (v : Word) (s : State) : (finish v s).io.sport = bytes32 v := rfl

@[simp] theorem earlyEnd_cfg (k : ErrorKind) (s : State) : (earlyEnd k s).cfg = s.cfg := rfl
@[simp] theorem earlyEnd_g (k : ErrorKind) (s : State) : (earlyEnd k s).g = s.g := rfl
@[simp] theorem earlyEnd_hw (k : ErrorKind) (s : State) : (earlyEnd k s).hw = s.hw := rfl
@[simp] theorem earlyEnd_site (k : ErrorKind) (s : State) : (earlyEnd k s).site = s.site := rfl
@[simp] theorem earlyEnd_orc (k : ErrorKind) (s : State) : (earlyEnd k s).orc = s.orc := rfl
@[simp] theorem earlyEnd_io_inbox (k : ErrorKind) (s : State) : (earlyEnd k s).io.inbox = s.io.inbox := rfl
@[simp] theorem earlyEnd_io_rdata (k : ErrorKind) (s : State) : (earlyEnd k s).io.rdata = s.io.rdata := rfl
@[simp] theorem earlyEnd_io_waitRes (k : ErrorKind) (s : State) : (earlyEnd k s).io.waitRes = s.io.waitRes := rfl
@[simp] theorem earlyEnd_io_trace (k : ErrorKind) (s : State) : (earlyEnd k s).io.trace = s.io.trace := rfl
@[simp] theorem earlyEnd_w (k : ErrorKind) (s : State) : (earlyEnd k s).w = { s.w with ph := .idle, result := errorCode s.cfg k } := rfl
@[simp] theorem earlyEnd_io_sport (k : ErrorKind) (s : State) : (earlyEnd k s).io.sport = bytes32 (errorCode s.cfg k) := rfl

@[simp] theorem drawRead_cfg (s : State) : ((drawRead s).2).cfg = s.cfg := by unfold drawRead; split <;> rfl
@[simp] theorem drawRead_g (s : State) : ((drawRead s).2).g = s.g := by unfold drawRead; split <;> rfl
@[simp] theorem drawRead_w (s : State) : ((drawRead s).2).w = s.w := by unfold drawRead; split <;> rfl
@[simp] theorem drawRead_hw (s : State) : ((drawRead s).2).hw = s.hw := by unfold drawRead; split <;> rfl
@[simp] theorem drawRead_io (s : State) : ((drawRead s).2).io = s.io := by unfold drawRead; split <;> rfl
@[simp] theorem drawRead_site (s : State) : ((drawRead s).2).site = s.site := by unfold drawRead; split <;> rfl

@[simp] theorem drawWait_cfg (s : State) : ((drawWait s).2).cfg = s.cfg := by unfold drawWait; split <;> rfl
@[simp] theorem drawWait_g (s : State) : ((drawWait s).2).g = s.g := by unfold drawWait; split <;> rfl
@[simp] theorem drawWait_w (s : State) : ((drawWait s).2).w = s.w := by unfold drawWait; split <;> rfl
@[simp] theorem drawWait_hw (s : State) : ((drawWait s).2).hw = s.hw := by unfold drawWait; split <;> rfl
@[simp] theorem drawWait_io (s : State) : ((drawWait s).2).io = s.io := by unfold drawWait; split <;> rfl
@[simp] theorem drawWait_site (s : State) : ((drawWait s).2).site = s.site := by unfold drawWait; split <;> rfl

@[simp] theorem drawDrop_cfg (s : State) : ((drawDrop s).2).cfg = s.cfg := by unfold drawDrop; split <;> rfl
@[simp] theorem drawDrop_g (s : State) : ((drawDrop s).2).g = s.g := by unfold drawDrop; split <;> rfl
@[simp] theorem drawDrop_w (s : State) : ((drawDrop s).2).w = s.w := by unfold drawDrop; split <;> rfl
@[simp] theorem drawDrop_hw (s : State) : ((drawDrop s).2).hw = s.hw := by unfold drawDrop; split <;> rfl
@[simp] theorem drawDrop_io (s : State) : ((drawDrop s).2).io = s.io := by unfold drawDrop; split <;> rfl
@[simp] theorem drawDrop_site (s : State) : ((drawDrop s).2).site = s.site := by unfold drawDrop; split <;> rfl

@[simp] theorem qw_cfg (g : Gate) (r : Reg) (v : Byte) (s : State) : (qw g r v s).cfg = s.cfg := rfl
@[simp] theorem qw_g (g : Gate) (r : Reg) (v : Byte) (s : State) : (qw g r v s).g = s.g := rfl
@[simp] theorem qw_site (g : Gate) (r : Reg) (v : Byte) (s : State) : (qw g r v s).site = s.site := rfl
@[simp] theorem qw_orc (g : Gate) (r : Reg) (v : Byte) (s : State) : (qw g r v s).orc = s.orc := rfl
@[simp] theorem qw_io_inbox (g : Gate) (r : Reg) (v : Byte) (s : State) : (qw g r v s).io.inbox = s.io.inbox := rfl
@[simp] theorem qw_io_rdata (g : Gate) (r : Reg) (v : Byte) (s : State) : (qw g r v s).io.rdata = s.io.rdata := rfl
@[simp] theorem qw_io_waitRes (g : Gate) (r : Reg) (v : Byte) (s : State) : (qw g r v s).io.waitRes = s.io.waitRes := rfl
@[simp] theorem qw_io_sport (g : Gate) (r : Reg) (v : Byte) (s : State) : (qw g r v s).io.sport = s.io.sport := rfl
@[simp] theorem qw_w (g : Gate) (r : Reg) (v : Byte) (s : State) : (qw g r v s).w = { s.w with qn := s.w.qn + 1 } := rfl
@[simp] theorem qw_hw (g : Gate) (r : Reg) (v : Byte) (s : State) : (qw g r v s).hw = { s.hw with queue := s.hw.queue ++ [{ gate := g, reg := r, value := v }] } := rfl
@[simp] theorem qw_io_trace (g : Gate) (r : Reg) (v : Byte) (s : State) : (qw g r v s).io.trace = s.io.trace ++ [{ phase := s.w.ph, op := .qw g r v }] := rfl

@[simp] theorem deviceWrite_cfg (r : Reg) (v : Byte) (s : State) : (deviceWrite r v s).cfg = s.cfg := rfl
@[simp] theorem deviceWrite_g (r : Reg) (v : Byte) (s : State) : (deviceWrite r v s).g = s.g := rfl
@[simp] theorem deviceWrite_w (r : Reg) (v : Byte) (s : State) : (deviceWrite r v s).w = s.w := rfl
@[simp] theorem deviceWrite_io (r : Reg) (v : Byte) (s : State) : (deviceWrite r v s).io = s.io := rfl
@[simp] theorem deviceWrite_site (r : Reg) (v : Byte) (s : State) : (deviceWrite r v s).site = s.site := rfl
@[simp] theorem deviceWrite_orc (r : Reg) (v : Byte) (s : State) : (deviceWrite r v s).orc = s.orc := rfl

end Sys2Proof.Machine
end

