-- ==== Sys2Proof/Laws/Port.lean ====
section
/-! SUPPORT. What each port operation can do, said once: the fields it leaves alone, what it does to the
queue and the trace, and the facts about the device that it keeps. -/

namespace Sys2Proof.Machine

/-! ## Fields that delivery and flushing leave alone -/

@[simp] theorem deliver_cfg (e : QEntry) (s : State) : (deliver e s).cfg = s.cfg := by
  unfold deliver; repeat' split
  all_goals simp

@[simp] theorem deliverAll_cfg (es : List QEntry) (s : State) : (deliverAll es s).cfg = s.cfg := by
  induction es generalizing s with
  | nil => rfl
  | cons e es ih => simp [deliverAll, ih]

@[simp] theorem deliver_g (e : QEntry) (s : State) : (deliver e s).g = s.g := by
  unfold deliver; repeat' split
  all_goals simp

@[simp] theorem deliverAll_g (es : List QEntry) (s : State) : (deliverAll es s).g = s.g := by
  induction es generalizing s with
  | nil => rfl
  | cons e es ih => simp [deliverAll, ih]

@[simp] theorem deliver_w (e : QEntry) (s : State) : (deliver e s).w = s.w := by
  unfold deliver; repeat' split
  all_goals simp

@[simp] theorem deliverAll_w (es : List QEntry) (s : State) : (deliverAll es s).w = s.w := by
  induction es generalizing s with
  | nil => rfl
  | cons e es ih => simp [deliverAll, ih]

@[simp] theorem deliver_io (e : QEntry) (s : State) : (deliver e s).io = s.io := by
  unfold deliver; repeat' split
  all_goals simp

@[simp] theorem deliverAll_io (es : List QEntry) (s : State) : (deliverAll es s).io = s.io := by
  induction es generalizing s with
  | nil => rfl
  | cons e es ih => simp [deliverAll, ih]

@[simp] theorem deliver_site (e : QEntry) (s : State) : (deliver e s).site = s.site := by
  unfold deliver; repeat' split
  all_goals simp

@[simp] theorem deliverAll_site (es : List QEntry) (s : State) : (deliverAll es s).site = s.site := by
  induction es generalizing s with
  | nil => rfl
  | cons e es ih => simp [deliverAll, ih]

@[simp] theorem flushQueue_hw_queue (s : State) : (flushQueue s).hw.queue = [] := rfl

@[simp] theorem flushQueue_cfg (s : State) : (flushQueue s).cfg = s.cfg := by
  simp [flushQueue]

@[simp] theorem syncQueue_cfg (s : State) : (syncQueue s).cfg = s.cfg := by
  unfold syncQueue; split <;> simp

@[simp] theorem flushQueue_g (s : State) : (flushQueue s).g = s.g := by
  simp [flushQueue]

@[simp] theorem syncQueue_g (s : State) : (syncQueue s).g = s.g := by
  unfold syncQueue; split <;> simp

@[simp] theorem flushQueue_site (s : State) : (flushQueue s).site = s.site := by
  simp [flushQueue]

@[simp] theorem syncQueue_site (s : State) : (syncQueue s).site = s.site := by
  unfold syncQueue; split <;> simp

@[simp] theorem flushQueue_w (s : State) : (flushQueue s).w = { s.w with qn := 0 } := by
  simp [flushQueue]

@[simp] theorem syncQueue_w (s : State) : (syncQueue s).w = { s.w with qn := 0 } := by
  unfold syncQueue; split
  · simp
  · have h : s.w.qn = 0 := by omega
    generalize s.w = u at h
    cases u
    simp_all

@[simp] theorem flushQueue_io_inbox (s : State) : (flushQueue s).io.inbox = s.io.inbox := by
  simp [flushQueue]

@[simp] theorem syncQueue_io_inbox (s : State) : (syncQueue s).io.inbox = s.io.inbox := by
  unfold syncQueue; split <;> simp

@[simp] theorem flushQueue_io_rdata (s : State) : (flushQueue s).io.rdata = s.io.rdata := by
  simp [flushQueue]

@[simp] theorem syncQueue_io_rdata (s : State) : (syncQueue s).io.rdata = s.io.rdata := by
  unfold syncQueue; split <;> simp

@[simp] theorem flushQueue_io_waitRes (s : State) : (flushQueue s).io.waitRes = s.io.waitRes := by
  simp [flushQueue]

@[simp] theorem syncQueue_io_waitRes (s : State) : (syncQueue s).io.waitRes = s.io.waitRes := by
  unfold syncQueue; split <;> simp

@[simp] theorem flushQueue_io_sport (s : State) : (flushQueue s).io.sport = s.io.sport := by
  simp [flushQueue]

@[simp] theorem syncQueue_io_sport (s : State) : (syncQueue s).io.sport = s.io.sport := by
  unfold syncQueue; split <;> simp

@[simp] theorem flushQueue_io_trace (s : State) : (flushQueue s).io.trace = s.io.trace ++ [{ phase := s.w.ph, op := .flush }] := by
  simp [flushQueue]

@[simp] theorem readNow_cfg (r : Reg) (s : State) : (readNow r s).cfg = s.cfg := by
  simp [readNow, blockPortRead]

@[simp] theorem rdReg_cfg (r : Reg) (s : State) : (rdReg r s).cfg = s.cfg := by
  simp [rdReg]

@[simp] theorem readNow_g (r : Reg) (s : State) : (readNow r s).g = s.g := by
  simp [readNow, blockPortRead]

@[simp] theorem rdReg_g (r : Reg) (s : State) : (rdReg r s).g = s.g := by
  simp [rdReg]

@[simp] theorem readNow_site (r : Reg) (s : State) : (readNow r s).site = s.site := by
  simp [readNow, blockPortRead]

@[simp] theorem rdReg_site (r : Reg) (s : State) : (rdReg r s).site = s.site := by
  simp [rdReg]

@[simp] theorem readNow_w (r : Reg) (s : State) : (readNow r s).w = s.w := by
  simp [readNow, blockPortRead]

@[simp] theorem rdReg_w (r : Reg) (s : State) : (rdReg r s).w = { s.w with qn := 0 } := by
  simp [rdReg]

@[simp] theorem readNow_io_inbox (r : Reg) (s : State) : (readNow r s).io.inbox = s.io.inbox := by
  simp [readNow, blockPortRead]

@[simp] theorem rdReg_io_inbox (r : Reg) (s : State) : (rdReg r s).io.inbox = s.io.inbox := by
  simp [rdReg]

@[simp] theorem readNow_io_sport (r : Reg) (s : State) : (readNow r s).io.sport = s.io.sport := by
  simp [readNow, blockPortRead]

@[simp] theorem rdReg_io_sport (r : Reg) (s : State) : (rdReg r s).io.sport = s.io.sport := by
  simp [rdReg]

@[simp] theorem readNow_io_waitRes (r : Reg) (s : State) : (readNow r s).io.waitRes = s.io.waitRes := by
  simp [readNow, blockPortRead]

@[simp] theorem rdReg_io_waitRes (r : Reg) (s : State) : (rdReg r s).io.waitRes = s.io.waitRes := by
  simp [rdReg]

@[simp] theorem readNow_hw_queue (r : Reg) (s : State) : (readNow r s).hw.queue = s.hw.queue := by
  simp [readNow, blockPortRead]; split <;> simp

@[simp] theorem pollSeen_cfg (w : WaitName) (v : Byte) (s : State) : (pollSeen w v s).cfg = s.cfg := by
  unfold pollSeen; split <;> rfl

@[simp] theorem poll_cfg (w : WaitName) (s : State) : (poll w s).cfg = s.cfg := by
  unfold poll; split <;> simp [pollFailed]

@[simp] theorem waitPoll_cfg (w : WaitName) (s : State) : (waitPoll w s).cfg = s.cfg := by
  simp [waitPoll]

@[simp] theorem pollSeen_g (w : WaitName) (v : Byte) (s : State) : (pollSeen w v s).g = s.g := by
  unfold pollSeen; split <;> rfl

@[simp] theorem poll_g (w : WaitName) (s : State) : (poll w s).g = s.g := by
  unfold poll; split <;> simp [pollFailed]

@[simp] theorem waitPoll_g (w : WaitName) (s : State) : (waitPoll w s).g = s.g := by
  simp [waitPoll]

@[simp] theorem pollSeen_site (w : WaitName) (v : Byte) (s : State) : (pollSeen w v s).site = s.site := by
  unfold pollSeen; split <;> rfl

@[simp] theorem poll_site (w : WaitName) (s : State) : (poll w s).site = s.site := by
  unfold poll; split <;> simp [pollFailed]

@[simp] theorem waitPoll_site (w : WaitName) (s : State) : (waitPoll w s).site = s.site := by
  simp [waitPoll]

@[simp] theorem pollSeen_w (w : WaitName) (v : Byte) (s : State) : (pollSeen w v s).w = s.w := by
  unfold pollSeen; split <;> rfl

@[simp] theorem poll_w (w : WaitName) (s : State) : (poll w s).w = s.w := by
  unfold poll; split <;> simp [pollFailed]

@[simp] theorem waitPoll_w (w : WaitName) (s : State) : (waitPoll w s).w = { s.w with qn := 0 } := by
  simp [waitPoll]

@[simp] theorem pollSeen_io_inbox (w : WaitName) (v : Byte) (s : State) : (pollSeen w v s).io.inbox = s.io.inbox := by
  unfold pollSeen; split <;> rfl

@[simp] theorem poll_io_inbox (w : WaitName) (s : State) : (poll w s).io.inbox = s.io.inbox := by
  unfold poll; split <;> simp [pollFailed]

@[simp] theorem waitPoll_io_inbox (w : WaitName) (s : State) : (waitPoll w s).io.inbox = s.io.inbox := by
  simp [waitPoll]

@[simp] theorem pollSeen_io_sport (w : WaitName) (v : Byte) (s : State) : (pollSeen w v s).io.sport = s.io.sport := by
  unfold pollSeen; split <;> rfl

@[simp] theorem poll_io_sport (w : WaitName) (s : State) : (poll w s).io.sport = s.io.sport := by
  unfold poll; split <;> simp [pollFailed]

@[simp] theorem waitPoll_io_sport (w : WaitName) (s : State) : (waitPoll w s).io.sport = s.io.sport := by
  simp [waitPoll]

end Sys2Proof.Machine
end

