-- ==== Sys2Proof/Laws/Device.lean ====
section
/-! SUPPORT. What delivery does to the device and to the shadow: the value each register is left with, the
shadow's coherence, the canonical form of the three memories. -/

namespace Sys2Proof.Machine

/-! ## The block-memory port touches no register, no shadow, no queue -/

@[simp] theorem blockPortWrite_regs (c : Cfg) (r : Reg) (v : Byte) (h : Hardware) :
    (blockPortWrite c r v h).regs = h.regs := by
  unfold blockPortWrite blockDataWrite; repeat' split
  all_goals rfl

@[simp] theorem blockPortWrite_shadow (c : Cfg) (r : Reg) (v : Byte) (h : Hardware) :
    (blockPortWrite c r v h).shadow = h.shadow := by
  unfold blockPortWrite blockDataWrite; repeat' split
  all_goals rfl

@[simp] theorem blockPortWrite_queue (c : Cfg) (r : Reg) (v : Byte) (h : Hardware) :
    (blockPortWrite c r v h).queue = h.queue := by
  unfold blockPortWrite blockDataWrite; repeat' split
  all_goals rfl

/-- Coefficient memory changes only through the data register. -/
theorem blockPortWrite_bmem (c : Cfg) {r : Reg} (v : Byte) (h : Hardware) (hr : r ≠ c.rBmd) :
    (blockPortWrite c r v h).bmem = h.bmem := by
  unfold blockPortWrite; repeat' split
  all_goals rfl

theorem blockPortWrite_bmem_wf (c : Cfg) (r : Reg) (v : Byte) {h : Hardware}
    (hw : Memory.wf h.bmem) : Memory.wf (blockPortWrite c r v h).bmem := by
  unfold blockPortWrite blockDataWrite; repeat' split
  all_goals first | exact hw | exact Memory.write_wf hw _ _

@[simp] theorem blockPortRead_regs (c : Cfg) (r : Reg) (h : Hardware) :
    (blockPortRead c r h).regs = h.regs := by
  unfold blockPortRead; split <;> rfl

@[simp] theorem blockPortRead_shadow (c : Cfg) (r : Reg) (h : Hardware) :
    (blockPortRead c r h).shadow = h.shadow := by
  unfold blockPortRead; split <;> rfl

@[simp] theorem blockPortRead_queue (c : Cfg) (r : Reg) (h : Hardware) :
    (blockPortRead c r h).queue = h.queue := by
  unfold blockPortRead; split <;> rfl

@[simp] theorem blockPortRead_bmem (c : Cfg) (r : Reg) (h : Hardware) :
    (blockPortRead c r h).bmem = h.bmem := by
  unfold blockPortRead; split <;> rfl

@[simp] theorem blockPortRead_xfer (c : Cfg) (r : Reg) (h : Hardware) :
    (blockPortRead c r h).xfer = h.xfer := by
  unfold blockPortRead; split <;> rfl

@[simp] theorem transferDone_regs (h : Hardware) : (transferDone h).regs = h.regs := by
  unfold transferDone; split <;> rfl

@[simp] theorem transferDone_shadow (h : Hardware) : (transferDone h).shadow = h.shadow := by
  unfold transferDone; split <;> rfl

@[simp] theorem transferDone_queue (h : Hardware) : (transferDone h).queue = h.queue := by
  unfold transferDone; split <;> rfl

theorem transferDone_bmem_wf {h : Hardware} (hw : Memory.wf h.bmem) :
    Memory.wf (transferDone h).bmem := by
  unfold transferDone; split
  · exact Memory.writeBytes_wf hw _ _
  · exact hw

@[simp] theorem flagSeen_regs (w : WaitName) (h : Hardware) : (flagSeen w h).regs = h.regs := by
  cases w <;> simp [flagSeen]

@[simp] theorem flagSeen_shadow (w : WaitName) (h : Hardware) : (flagSeen w h).shadow = h.shadow := by
  cases w <;> simp [flagSeen]

@[simp] theorem flagSeen_queue (w : WaitName) (h : Hardware) : (flagSeen w h).queue = h.queue := by
  cases w <;> simp [flagSeen]

theorem flagSeen_bmem_wf (w : WaitName) {h : Hardware} (hw : Memory.wf h.bmem) :
    Memory.wf (flagSeen w h).bmem := by
  cases w
  · exact transferDone_bmem_wf hw
  · exact hw
  · exact hw

/-! ## Delivery -/

@[simp] theorem deviceWrite_hw_regs (r : Reg) (v : Byte) (s : State) :
    (deviceWrite r v s).hw.regs = RegFile.write s.hw.regs r.addr v := by simp [deviceWrite]

@[simp] theorem deviceWrite_hw_shadow (r : Reg) (v : Byte) (s : State) :
    (deviceWrite r v s).hw.shadow = Memory.write s.hw.shadow r.addr v := by simp [deviceWrite]

@[simp] theorem deviceWrite_hw_queue (r : Reg) (v : Byte) (s : State) :
    (deviceWrite r v s).hw.queue = s.hw.queue := by simp [deviceWrite]

/-- All that delivery of one entry can do: the device write, or nothing where the shadow says the device
holds the value already. -/
theorem deliver_cases (e : QEntry) (s : State) :
    (∃ o, deliver e s = deviceWrite e.reg e.value { s with orc := o }) ∨
    (e.gate = .gated ∧ Memory.read s.hw.shadow e.reg.addr = some e.value ∧
      ∃ o, deliver e s = { s with orc := o }) := by
  have hd : ∃ o, (drawDrop s).2 = { s with orc := o } := by
    unfold drawDrop; split
    · exact ⟨_, rfl⟩
    · exact ⟨_, rfl⟩
  obtain ⟨o, ho⟩ := hd
  unfold deliver
  split
  · exact .inl ⟨s.orc, rfl⟩
  · rename_i hg
    split
    · rename_i hs
      split
      · exact .inr ⟨hg, hs, o, ho⟩
      · exact .inl ⟨o, by rw [ho]⟩
    · exact .inl ⟨s.orc, rfl⟩

@[simp] theorem deliver_hw_queue (e : QEntry) (s : State) : (deliver e s).hw.queue = s.hw.queue := by
  rcases deliver_cases e s with ⟨o, h⟩ | ⟨_, _, o, h⟩ <;> simp [h]

@[simp] theorem deliverAll_hw_queue (es : List QEntry) (s : State) :
    (deliverAll es s).hw.queue = s.hw.queue := by
  induction es generalizing s with
  | nil => rfl
  | cons e es ih => simp [deliverAll, ih]

/-- The three memories are in their canonical form. -/
structure MemoriesWf (h : Hardware) : Prop where
  regs : RegFile.wf h.regs
  shadow : Memory.wf h.shadow
  bmem : Memory.wf h.bmem

theorem deviceWrite_memoriesWf (r : Reg) (v : Byte) {s : State} (h : MemoriesWf s.hw) :
    MemoriesWf (deviceWrite r v s).hw where
  regs := by simpa using RegFile.write_wf h.regs _ _
  shadow := by simpa using Memory.write_wf h.shadow _ _
  bmem := blockPortWrite_bmem_wf s.cfg r v h.bmem

theorem deliver_memoriesWf (e : QEntry) {s : State} (h : MemoriesWf s.hw) :
    MemoriesWf (deliver e s).hw := by
  rcases deliver_cases e s with ⟨o, h'⟩ | ⟨_, _, o, h'⟩ <;> rw [h']
  · exact deviceWrite_memoriesWf _ _ (s := { s with orc := o }) h
  · exact h

theorem deliverAll_memoriesWf (es : List QEntry) {s : State} (h : MemoriesWf s.hw) :
    MemoriesWf (deliverAll es s).hw := by
  induction es generalizing s with
  | nil => exact h
  | cons e es ih => exact ih (deliver_memoriesWf e h)

theorem deviceWrite_shadowCoherent (r : Reg) (v : Byte) {s : State} (h : ShadowCoherent s.hw) :
    ShadowCoherent (deviceWrite r v s).hw := by
  intro a u
  simp only [deviceWrite_hw_regs, deviceWrite_hw_shadow, Memory.read_write, RegFile.read_write]
  split
  · exact fun h => by simpa using h
  · exact h a u

theorem deliver_shadowCoherent (e : QEntry) {s : State} (h : ShadowCoherent s.hw) :
    ShadowCoherent (deliver e s).hw := by
  rcases deliver_cases e s with ⟨o, h'⟩ | ⟨_, _, o, h'⟩ <;> rw [h']
  · exact deviceWrite_shadowCoherent _ _ (s := { s with orc := o }) h
  · exact h

theorem deliverAll_shadowCoherent (es : List QEntry) {s : State} (h : ShadowCoherent s.hw) :
    ShadowCoherent (deliverAll es s).hw := by
  induction es generalizing s with
  | nil => exact h
  | cons e es ih => exact ih (deliver_shadowCoherent e h)

/-- Delivery leaves the register with the entry's value, dropped or not. -/
theorem deliver_read (e : QEntry) {s : State} (h : ShadowCoherent s.hw) (a : Nat) :
    RegFile.read (deliver e s).hw.regs a =
      if e.reg.addr = a then e.value else RegFile.read s.hw.regs a := by
  rcases deliver_cases e s with ⟨o, h'⟩ | ⟨_, hs, o, h'⟩ <;> rw [h']
  · simp only [deviceWrite_hw_regs, RegFile.read_write, eq_comm]
  · split
    · rename_i ha
      subst ha
      exact h _ _ hs
    · rfl

/-- Delivery of a list leaves each register with the last value it holds for it. -/
theorem deliverAll_read (es : List QEntry) {s : State} (h : ShadowCoherent s.hw) (a : Nat) :
    RegFile.read (deliverAll es s).hw.regs a =
      (lastQueued a es).getD (RegFile.read s.hw.regs a) := by
  induction es generalizing s with
  | nil => rfl
  | cons e es ih =>
    simp only [deliverAll, lastQueued, ih (deliver_shadowCoherent e h), deliver_read e h]
    cases lastQueued a es <;> split <;> simp

theorem deliver_bmem (e : QEntry) (s : State) (he : e.reg ≠ s.cfg.rBmd) :
    (deliver e s).hw.bmem = s.hw.bmem := by
  rcases deliver_cases e s with ⟨o, h'⟩ | ⟨_, hs, o, h'⟩ <;> rw [h']
  exact blockPortWrite_bmem s.cfg _ _ he

theorem deliverAll_bmem (es : List QEntry) (s : State) (he : ∀ e ∈ es, e.reg ≠ s.cfg.rBmd) :
    (deliverAll es s).hw.bmem = s.hw.bmem := by
  induction es generalizing s with
  | nil => rfl
  | cons e es ih =>
    rw [deliverAll, ih, deliver_bmem e s (he e List.mem_cons_self)]
    intro e' h'
    rw [deliver_cfg]
    exact he e' (List.mem_cons_of_mem _ h')

theorem lastQueued_append (a : Nat) (es fs : List QEntry) :
    lastQueued a (es ++ fs) = (lastQueued a fs).or (lastQueued a es) := by
  induction es with
  | nil => simp [lastQueued]
  | cons e es ih => simp [lastQueued, ih, Option.or_assoc]

/-! ## Flush, Sync, read and wait: the device's side -/

/-- What a register holds once the queue has been delivered. -/
def pendingValue (s : State) (a : Nat) : Byte :=
  (lastQueued a s.hw.queue).getD (RegFile.read s.hw.regs a)

/-- The facts about the device and the queue that every operation keeps. -/
structure DeviceOk (s : State) : Prop where
  memories : MemoriesWf s.hw
  shadow : ShadowCoherent s.hw
  counted : s.w.qn = s.hw.queue.length

theorem emit_deviceOk (op : PortOp) {s : State} (h : DeviceOk s) : DeviceOk (emit op s) :=
  ⟨h.memories, h.shadow, h.counted⟩

theorem qw_deviceOk (g : Gate) (r : Reg) (v : Byte) {s : State} (h : DeviceOk s) :
    DeviceOk (qw g r v s) where
  memories := ⟨h.memories.regs, h.memories.shadow, h.memories.bmem⟩
  shadow := h.shadow
  counted := by simp [h.counted]

theorem flushQueue_memoriesWf {s : State} (h : MemoriesWf s.hw) : MemoriesWf (flushQueue s).hw :=
  have k := deliverAll_memoriesWf s.hw.queue (s := emit .flush s) h
  ⟨k.regs, k.shadow, k.bmem⟩

theorem flushQueue_shadowCoherent {s : State} (h : ShadowCoherent s.hw) :
    ShadowCoherent (flushQueue s).hw :=
  deliverAll_shadowCoherent s.hw.queue (s := emit .flush s) h

theorem flushQueue_deviceOk {s : State} (h : DeviceOk s) : DeviceOk (flushQueue s) where
  memories := flushQueue_memoriesWf h.memories
  shadow := flushQueue_shadowCoherent h.shadow
  counted := by simp

theorem flushQueue_read {s : State} (h : ShadowCoherent s.hw) (a : Nat) :
    RegFile.read (flushQueue s).hw.regs a = pendingValue s a :=
  deliverAll_read s.hw.queue (s := emit .flush s) h a

theorem flushQueue_bmem (s : State) (h : ∀ e ∈ s.hw.queue, e.reg ≠ s.cfg.rBmd) :
    (flushQueue s).hw.bmem = s.hw.bmem :=
  deliverAll_bmem s.hw.queue (emit .flush s) h

theorem syncQueue_deviceOk {s : State} (h : DeviceOk s) : DeviceOk (syncQueue s) := by
  unfold syncQueue; split
  · exact flushQueue_deviceOk h
  · exact h

/-- With QN counting the queue, Sync leaves it empty. -/
theorem syncQueue_queue {s : State} (h : s.w.qn = s.hw.queue.length) :
    (syncQueue s).hw.queue = [] := by
  unfold syncQueue; split
  · rfl
  · exact List.eq_nil_of_length_eq_zero (by omega)

theorem syncQueue_trace (s : State) :
    (syncQueue s).io.trace =
      s.io.trace ++ (if 0 < s.w.qn then [{ phase := s.w.ph, op := .flush }] else []) := by
  unfold syncQueue; split
  · simp
  · simp

theorem pendingValue_flushQueue {s : State} (h : ShadowCoherent s.hw) (a : Nat) :
    pendingValue (flushQueue s) a = pendingValue s a := by
  simp [pendingValue, lastQueued, flushQueue_read h]

theorem pendingValue_syncQueue {s : State} (h : ShadowCoherent s.hw) (a : Nat) :
    pendingValue (syncQueue s) a = pendingValue s a := by
  unfold syncQueue; split
  · exact pendingValue_flushQueue h a
  · rfl

theorem pendingValue_qw (g : Gate) (r : Reg) (v : Byte) (s : State) (a : Nat) :
    pendingValue (qw g r v s) a = if r.addr = a then v else pendingValue s a := by
  unfold pendingValue
  simp only [qw_hw, lastQueued_append, lastQueued]
  split <;> simp

theorem pendingValue_empty {s : State} (h : s.hw.queue = []) (a : Nat) :
    pendingValue s a = RegFile.read s.hw.regs a := by
  simp [pendingValue, h, lastQueued]

@[simp] theorem readNow_hw_regs (r : Reg) (s : State) : (readNow r s).hw.regs = s.hw.regs := by
  simp [readNow]

@[simp] theorem readNow_hw_shadow (r : Reg) (s : State) : (readNow r s).hw.shadow = s.hw.shadow := by
  simp [readNow]

@[simp] theorem readNow_hw_bmem (r : Reg) (s : State) : (readNow r s).hw.bmem = s.hw.bmem := by
  simp [readNow]

@[simp] theorem readNow_hw_xfer (r : Reg) (s : State) : (readNow r s).hw.xfer = s.hw.xfer := by
  simp [readNow]

theorem readNow_trace (r : Reg) (s : State) :
    (readNow r s).io.trace =
      s.io.trace ++ [{ phase := s.w.ph, op := .rd r (readNow r s).io.rdata }] := by
  simp [readNow]

theorem readNow_deviceOk (r : Reg) {s : State} (h : DeviceOk s) : DeviceOk (readNow r s) where
  memories := ⟨by simpa using h.memories.regs, by simpa using h.memories.shadow,
    by simpa using h.memories.bmem⟩
  shadow := by intro a v; simpa using h.shadow a v
  counted := by simpa using h.counted

theorem rdReg_deviceOk (r : Reg) {s : State} (h : DeviceOk s) : DeviceOk (rdReg r s) :=
  readNow_deviceOk r (syncQueue_deviceOk h)

theorem rdReg_queue (r : Reg) {s : State} (h : s.w.qn = s.hw.queue.length) :
    (rdReg r s).hw.queue = [] := by
  simpa [rdReg] using syncQueue_queue h

theorem rdReg_trace (r : Reg) (s : State) :
    (rdReg r s).io.trace =
      s.io.trace ++ (if 0 < s.w.qn then [{ phase := s.w.ph, op := .flush }] else []) ++
        [{ phase := s.w.ph, op := .rd r (rdReg r s).io.rdata }] := by
  rw [rdReg, readNow_trace, syncQueue_trace]; simp

theorem pendingValue_rdReg (r : Reg) {s : State} (h : ShadowCoherent s.hw) (a : Nat) :
    pendingValue (rdReg r s) a = pendingValue s a := by
  rw [← pendingValue_syncQueue h]
  simp [pendingValue, rdReg]

/-- All that a poll can come to. -/
theorem poll_cases (w : WaitName) (s : State) :
    (∃ v o, flagShows (s.cfg.wait w) v = true ∧ poll w s =
      emit (.wait w true) { s with
        hw := flagSeen w (blockPortRead s.cfg (s.cfg.wait w).reg s.hw)
        io := { s.io with rdata := v, waitRes := .ok }
        orc := o }) ∨
    (∃ v o, poll w s = emit (.wait w false) { s with
        hw := blockPortRead s.cfg (s.cfg.wait w).reg s.hw
        io := { s.io with rdata := v, waitRes := .failed }
        orc := o }) ∨
    (∃ v o, flagShows (s.cfg.wait w) v = false ∧ poll w s = { s with
        hw := blockPortRead s.cfg (s.cfg.wait w).reg s.hw
        io := { s.io with rdata := v, waitRes := .polling }
        orc := o }) := by
  have hd : ∃ o, (drawWait s).2 = { s with orc := o } := by
    unfold drawWait; split
    · exact ⟨_, rfl⟩
    · exact ⟨_, rfl⟩
  obtain ⟨o, ho⟩ := hd
  unfold poll
  split
  · rename_i v hv
    rw [ho]
    unfold pollSeen
    split
    · exact .inl ⟨v, o, ‹_›, rfl⟩
    · rename_i hf
      exact .inr (.inr ⟨v, o, by simpa using hf, rfl⟩)
  · rename_i v hv
    rw [ho]
    exact .inr (.inl ⟨v, o, rfl⟩)

/-- What a poll leaves that neither saw the flag nor failed: the byte it read, and an answer used. -/
theorem poll_polling (w : WaitName) {s : State} (h : (poll w s).io.waitRes = .polling) :
    ∃ v o, poll w s = { s with
      hw := blockPortRead s.cfg (s.cfg.wait w).reg s.hw
      io := { s.io with rdata := v, waitRes := .polling }
      orc := o } := by
  rcases poll_cases w s with ⟨v, o, _, e⟩ | ⟨v, o, e⟩ | ⟨v, o, _, e⟩
  · rw [e] at h
    cases h
  · rw [e] at h
    cases h
  · exact ⟨v, o, e⟩

theorem poll_deviceOk (w : WaitName) {s : State} (h : DeviceOk s) : DeviceOk (poll w s) := by
  rcases poll_cases w s with ⟨v, o, _, hp⟩ | ⟨v, o, hp⟩ | ⟨v, o, _, hp⟩ <;> rw [hp]
  · refine ⟨⟨?_, ?_, ?_⟩, ?_, ?_⟩
    · simpa using h.memories.regs
    · simpa using h.memories.shadow
    · simpa using flagSeen_bmem_wf w (h := blockPortRead s.cfg (s.cfg.wait w).reg s.hw)
        (by simpa using h.memories.bmem)
    · intro a v; simpa using h.shadow a v
    · simpa using h.counted
  · refine ⟨⟨?_, ?_, ?_⟩, ?_, ?_⟩
    · simpa using h.memories.regs
    · simpa using h.memories.shadow
    · simpa using h.memories.bmem
    · intro a v; simpa using h.shadow a v
    · simpa using h.counted
  · refine ⟨⟨?_, ?_, ?_⟩, ?_, ?_⟩
    · simpa using h.memories.regs
    · simpa using h.memories.shadow
    · simpa using h.memories.bmem
    · intro a v; simpa using h.shadow a v
    · simpa using h.counted

@[simp] theorem poll_hw_queue (w : WaitName) (s : State) : (poll w s).hw.queue = s.hw.queue := by
  rcases poll_cases w s with ⟨v, o, _, hp⟩ | ⟨v, o, hp⟩ | ⟨v, o, _, hp⟩ <;> simp [hp]

@[simp] theorem poll_hw_regs (w : WaitName) (s : State) : (poll w s).hw.regs = s.hw.regs := by
  rcases poll_cases w s with ⟨v, o, _, hp⟩ | ⟨v, o, hp⟩ | ⟨v, o, _, hp⟩ <;> simp [hp]

theorem waitPoll_deviceOk (w : WaitName) {s : State} (h : DeviceOk s) : DeviceOk (waitPoll w s) :=
  poll_deviceOk w (syncQueue_deviceOk h)

theorem waitPoll_queue (w : WaitName) {s : State} (h : s.w.qn = s.hw.queue.length) :
    (waitPoll w s).hw.queue = [] := by simpa [waitPoll] using syncQueue_queue h

theorem pendingValue_waitPoll (w : WaitName) {s : State} (h : ShadowCoherent s.hw) (a : Nat) :
    pendingValue (waitPoll w s) a = pendingValue s a := by
  rw [← pendingValue_syncQueue h]
  simp [pendingValue, waitPoll]

/-- The events of a wait by what it has come to: one when it has ended, none while it goes on. -/
def waitEvents (p : Phase) (w : WaitName) : WaitResult → List Event
  | .ok => [{ phase := p, op := .wait w true }]
  | .failed => [{ phase := p, op := .wait w false }]
  | .polling => []

/-- The trace after a poll. -/
theorem waitPoll_trace (w : WaitName) (s : State) :
    (waitPoll w s).io.trace =
      (syncQueue s).io.trace ++ waitEvents s.w.ph w (waitPoll w s).io.waitRes := by
  unfold waitPoll
  rcases poll_cases w (syncQueue s) with ⟨v, o, _, hp⟩ | ⟨v, o, hp⟩ | ⟨v, o, _, hp⟩ <;>
    simp [hp, waitEvents]

/-! ## The tapes of answers -/

@[simp] theorem drawDrop_waits (s : State) : (drawDrop s).2.orc.waits = s.orc.waits := by
  unfold drawDrop; split <;> rfl

@[simp] theorem drawDrop_reads (s : State) : (drawDrop s).2.orc.reads = s.orc.reads := by
  unfold drawDrop; split <;> rfl

@[simp] theorem drawRead_waits (s : State) : (drawRead s).2.orc.waits = s.orc.waits := by
  unfold drawRead; split <;> rfl

@[simp] theorem drawWait_reads (s : State) : (drawWait s).2.orc.reads = s.orc.reads := by
  unfold drawWait; split <;> rfl

@[simp] theorem deliver_waits (e : QEntry) (s : State) :
    (deliver e s).orc.waits = s.orc.waits := by
  unfold deliver; repeat' split
  all_goals simp

@[simp] theorem deliver_reads (e : QEntry) (s : State) :
    (deliver e s).orc.reads = s.orc.reads := by
  unfold deliver; repeat' split
  all_goals simp

@[simp] theorem deliverAll_waits (es : List QEntry) (s : State) :
    (deliverAll es s).orc.waits = s.orc.waits := by
  induction es generalizing s with
  | nil => rfl
  | cons e es ih => simp [deliverAll, ih]

@[simp] theorem deliverAll_reads (es : List QEntry) (s : State) :
    (deliverAll es s).orc.reads = s.orc.reads := by
  induction es generalizing s with
  | nil => rfl
  | cons e es ih => simp [deliverAll, ih]

@[simp] theorem flushQueue_waits (s : State) : (flushQueue s).orc.waits = s.orc.waits := by
  simp [flushQueue]

@[simp] theorem flushQueue_reads (s : State) : (flushQueue s).orc.reads = s.orc.reads := by
  simp [flushQueue]

@[simp] theorem syncQueue_waits (s : State) : (syncQueue s).orc.waits = s.orc.waits := by
  unfold syncQueue; split <;> simp

@[simp] theorem syncQueue_reads (s : State) : (syncQueue s).orc.reads = s.orc.reads := by
  unfold syncQueue; split <;> simp

@[simp] theorem readNow_waits (r : Reg) (s : State) : (readNow r s).orc.waits = s.orc.waits := by
  simp [readNow]

@[simp] theorem rdReg_waits (r : Reg) (s : State) : (rdReg r s).orc.waits = s.orc.waits := by
  simp [rdReg]

/-- A read takes the answer at the head of the tape. -/
theorem rdReg_answer (r : Reg) (s : State) {v : Byte} {rest : List Byte}
    (h : s.orc.reads = v :: rest) : (rdReg r s).io.rdata = v ∧ (rdReg r s).orc.reads = rest := by
  have h' : (syncQueue s).orc.reads = v :: rest := by simp [h]
  simp only [rdReg, readNow, drawRead, h']
  exact ⟨rfl, rfl⟩

/-- A poll that sees the flag. -/
theorem waitPoll_shows (w : WaitName) (s : State) {v : Byte} {rest : List WaitAnswer}
    (h : s.orc.waits = .seen v :: rest) (hv : v &&& (s.cfg.wait w).mask = (s.cfg.wait w).want) :
    (waitPoll w s).io.waitRes = .ok ∧ (waitPoll w s).io.rdata = v ∧
      (waitPoll w s).orc.waits = rest := by
  have h' : (syncQueue s).orc.waits = .seen v :: rest := by simp [h]
  simp only [waitPoll, poll, drawWait, h', pollSeen, syncQueue_cfg, flagShows, hv, decide_true, if_true]
  exact ⟨rfl, rfl, rfl⟩

/-- A poll that the collaborator answers with a failure. -/
theorem waitPoll_fails (w : WaitName) (s : State) {v : Byte} {rest : List WaitAnswer}
    (h : s.orc.waits = .fails v :: rest) :
    waitPoll w s =
      pollFailed w v { syncQueue s with orc := { (syncQueue s).orc with waits := rest } } := by
  have h' : (syncQueue s).orc.waits = .fails v :: rest := by simp [h]
  simp only [waitPoll, poll, drawWait, h']

/-- A poll that does not see the flag. -/
theorem waitPoll_polls (w : WaitName) (s : State) {v : Byte} {rest : List WaitAnswer}
    (h : s.orc.waits = .seen v :: rest) (hv : v &&& (s.cfg.wait w).mask ≠ (s.cfg.wait w).want) :
    (waitPoll w s).io.waitRes = .polling ∧ (waitPoll w s).io.rdata = v ∧
      (waitPoll w s).orc.waits = rest := by
  have h' : (syncQueue s).orc.waits = .seen v :: rest := by simp [h]
  simp only [waitPoll, poll, drawWait, h', pollSeen, syncQueue_cfg, flagShows, hv, decide_false,
    Bool.false_eq_true, if_false, and_self]

/-- All that a WAIT inside a command can come to: it goes on, ends early, or keeps polling. -/
theorem waitThen_cases (w : WaitName) (site : WaitSite) (next : State → State) (s : State) :
    (waitThen w site next s = next { waitPoll w s with site := none } ∧
      (waitPoll w s).io.waitRes = .ok) ∨
    (waitThen w site next s = earlyEnd .runtime { waitPoll w s with site := none } ∧
      (waitPoll w s).io.waitRes = .failed) ∨
    (waitThen w site next s = { waitPoll w s with site := some site } ∧
      (waitPoll w s).io.waitRes = .polling) := by
  unfold waitThen
  split
  · exact .inl ⟨rfl, ‹_›⟩
  · exact .inr (.inl ⟨rfl, ‹_›⟩)
  · exact .inr (.inr ⟨rfl, ‹_›⟩)

/-! ## The block-memory port -/

theorem deliverAll_append (es fs : List QEntry) (s : State) :
    deliverAll (es ++ fs) s = deliverAll fs (deliverAll es s) := by
  induction es generalizing s with
  | nil => rfl
  | cons e es ih => exact ih _

/-- Each bit of the address after one of its bytes is set (rule R56). -/
theorem setAddrByte_getLsbD (c : Cfg) (p : Word) (j : Nat) (v : Byte) (i : Nat) (hw : c.addrW ≤ 32)
    (hj : 8 * j + 8 ≤ c.addrW) :
    (setAddrByte c p j v).getLsbD i = (decide (i < c.addrW) &&
      (if c.addrW - 8 - 8 * j ≤ i ∧ i < c.addrW - 8 * j then v.getLsbD (i - (c.addrW - 8 - 8 * j))
        else p.getLsbD i)) := by
  have hff : ∀ k, (0xFF#32).getLsbD k = decide (k < 8) := by
    intro k
    by_cases h : k < 32
    · have : ∀ k : Fin 32, (0xFF#32).getLsbD k = decide (k.val < 8) := by decide
      exact this ⟨k, h⟩
    · rw [BitVec.getLsbD_of_ge _ _ (by omega)]; symm; simp; omega
  simp only [setAddrByte, BitVec.getLsbD_and, BitVec.getLsbD_or, BitVec.getLsbD_not,
    BitVec.getLsbD_shiftLeft, BitVec.getLsbD_setWidth, BitVec.getLsbD_ofNat,
    Nat.testBit_two_pow_sub_one, hff]
  obtain ⟨sh, hsh⟩ : ∃ sh, sh = c.addrW - 8 - 8 * j := ⟨_, rfl⟩
  have hsh2 : c.addrW - 8 * j = sh + 8 := by omega
  rw [← hsh, hsh2]
  by_cases h1 : i < c.addrW
  · have h32 : i < 32 := by omega
    by_cases h2 : sh ≤ i
    · have a1 : ¬ i < sh := by omega
      by_cases h3 : i < sh + 8
      · have a2 : i - sh < 8 := by omega
        have a3 : i - sh < 32 := by omega
        simp [a1, a2, a3, h1, h2, h3, h32]
      · have a2 : ¬ i - sh < 8 := by omega
        have a3 : v.getLsbD (i - sh) = false := BitVec.getLsbD_of_ge _ _ (by omega)
        simp [a1, a2, a3, h1, h3, h32]
    · have a1 : i < sh := by omega
      simp [a1, h1, h2, h32]
  · simp [h1]

end Sys2Proof.Machine
end

