-- ==== Sys2Proof/Laws/Acts.lean ====
section
/-! SUPPORT. What a phase can do, said once: a phase is a chain of elementary acts, each within what the
phase is allowed, and every such chain keeps the same facts. -/

namespace Sys2Proof.Machine

/-- What a phase may do on the port: plain writes, writes of the three kinds of copied registers, reads. -/
structure Allowed where
  write : Gate → Reg → Byte → Prop
  en : AeDom → Byte → Prop
  byp : Byte → Prop
  master : Byte → Prop
  read : Reg → Prop

/-- The port operations that an allowance admits. -/
def Allowed.admits (al : Allowed) (c : Cfg) : PortOp → Prop
  | .qw g r v => al.write g r v ∨ (g = .gated ∧
      ((∃ k, r = c.rEn.get k ∧ al.en k v) ∨ (r = c.rByp ∧ al.byp v) ∨ (r = c.rMctl ∧ al.master v)))
  | .flush => True
  | .rd r _ => al.read r
  | .wait _ _ => False

/-- `t` is reached from `s` by elementary acts within the allowance. -/
inductive Acts (al : Allowed) (s : State) : State → Prop where
  | refl : Acts al s s
  | write {t : State} {g : Gate} {r : Reg} {v : Byte} :
      Acts al s t → al.write g r v → Acts al s (qw g r v t)
  | en {t : State} {k : AeDom} {v : Byte} : Acts al s t → al.en k v → Acts al s (writeEn k v t)
  | byp {t : State} {v : Byte} : Acts al s t → al.byp v → Acts al s (writeByp v t)
  | master {t : State} {v : Byte} : Acts al s t → al.master v → Acts al s (writeMaster v t)
  | sync {t : State} : Acts al s t → Acts al s (syncQueue t)
  | read {t : State} {r : Reg} : Acts al s t → al.read r → Acts al s (rdReg r t)
  | note {t : State} {u : Working} : Acts al s t →
      u.ph = t.w.ph → u.qn = t.w.qn → u.ar = t.w.ar → u.desc = t.w.desc →
      Acts al s { t with w := u }

theorem Acts.trans {al : Allowed} {s t u : State} (h : Acts al s t) (h' : Acts al t u) :
    Acts al s u := by
  induction h' with
  | refl => exact h
  | write _ ha ih => exact ih.write ha
  | en _ ha ih => exact ih.en ha
  | byp _ ha ih => exact ih.byp ha
  | master _ ha ih => exact ih.master ha
  | sync _ ih => exact ih.sync
  | read _ ha ih => exact ih.read ha
  | note _ h1 h2 h3 h4 ih => exact ih.note h1 h2 h3 h4

/-- What one allowance lets through, a wider one does. -/
theorem Acts.mono {al al' : Allowed} {s t : State} (h : Acts al s t)
    (hw : ∀ g r v, al.write g r v → al'.write g r v) (he : ∀ k v, al.en k v → al'.en k v)
    (hb : ∀ v, al.byp v → al'.byp v) (hm : ∀ v, al.master v → al'.master v)
    (hr : ∀ r, al.read r → al'.read r) : Acts al' s t := by
  induction h with
  | refl => exact .refl
  | write _ ha ih => exact ih.write (hw _ _ _ ha)
  | en _ ha ih => exact ih.en (he _ _ ha)
  | byp _ ha ih => exact ih.byp (hb _ ha)
  | master _ ha ih => exact ih.master (hm _ ha)
  | sync _ ih => exact ih.sync
  | read _ ha ih => exact ih.read (hr _ ha)
  | note _ h1 h2 h3 h4 ih => exact ih.note h1 h2 h3 h4

/-- The fields that no act within a phase touches. -/
structure SamePhase (s t : State) : Prop where
  cfg : t.cfg = s.cfg
  site : t.site = s.site
  inbox : t.io.inbox = s.io.inbox
  sport : t.io.sport = s.io.sport
  waitRes : t.io.waitRes = s.io.waitRes
  ph : t.w.ph = s.w.ph
  ar : t.w.ar = s.w.ar
  desc : t.w.desc = s.w.desc
  st : t.g.st = s.g.st
  sinsrc : t.g.sinsrc = s.g.sinsrc

theorem Acts.samePhase {al : Allowed} {s t : State} (h : Acts al s t) : SamePhase s t := by
  induction h with
  | refl => constructor <;> rfl
  | write _ _ ih => exact ⟨ih.cfg, ih.site, ih.inbox, ih.sport, ih.waitRes, ih.ph, ih.ar, ih.desc, ih.st, ih.sinsrc⟩
  | en _ _ ih => exact ⟨ih.cfg, ih.site, ih.inbox, ih.sport, ih.waitRes, ih.ph, ih.ar, ih.desc, ih.st, ih.sinsrc⟩
  | byp _ _ ih => exact ⟨ih.cfg, ih.site, ih.inbox, ih.sport, ih.waitRes, ih.ph, ih.ar, ih.desc, ih.st, ih.sinsrc⟩
  | master _ _ ih => exact ⟨ih.cfg, ih.site, ih.inbox, ih.sport, ih.waitRes, ih.ph, ih.ar, ih.desc, ih.st, ih.sinsrc⟩
  | sync _ ih => constructor <;> simp [ih.cfg, ih.site, ih.inbox, ih.sport, ih.waitRes, ih.ph, ih.ar, ih.desc, ih.st, ih.sinsrc]
  | read _ _ ih => constructor <;> simp [ih.cfg, ih.site, ih.inbox, ih.sport, ih.waitRes, ih.ph, ih.ar, ih.desc, ih.st, ih.sinsrc]
  | note _ h1 _ h3 h4 ih =>
    exact ⟨ih.cfg, ih.site, ih.inbox, ih.sport, ih.waitRes, h1.trans ih.ph, h3.trans ih.ar, h4.trans ih.desc, ih.st, ih.sinsrc⟩

theorem withG_deviceOk {s : State} (g : Globals) (h : DeviceOk s) : DeviceOk { s with g := g } :=
  ⟨h.memories, h.shadow, h.counted⟩

theorem Acts.deviceOk {al : Allowed} {s t : State} (h : Acts al s t) (hs : DeviceOk s) :
    DeviceOk t := by
  induction h with
  | refl => exact hs
  | write _ _ ih => exact qw_deviceOk _ _ _ ih
  | en _ _ ih => exact qw_deviceOk _ _ _ (withG_deviceOk _ ih)
  | byp _ _ ih => exact qw_deviceOk _ _ _ (withG_deviceOk _ ih)
  | master _ _ ih => exact qw_deviceOk _ _ _ (withG_deviceOk _ ih)
  | sync _ ih => exact syncQueue_deviceOk ih
  | read _ _ ih => exact rdReg_deviceOk _ ih
  | note _ _ h2 _ _ ih => exact ⟨ih.memories, ih.shadow, h2.trans ih.counted⟩

/-- The trace grows by events of the phase, each within the allowance. -/
theorem Acts.trace {al : Allowed} {s t : State} (h : Acts al s t) :
    ∃ evs, t.io.trace = s.io.trace ++ evs ∧
      ∀ e ∈ evs, e.phase = s.w.ph ∧ al.admits s.cfg e.op := by
  induction h with
  | refl => exact ⟨[], by simp, by simp⟩
  | @write t g r v h ha ih =>
    obtain ⟨evs, h1, h2⟩ := ih
    refine ⟨evs ++ [{ phase := t.w.ph, op := .qw g r v }], by simp [h1], ?_⟩
    simp only [List.mem_append, List.mem_singleton]
    rintro e (he | rfl)
    · exact h2 e he
    · exact ⟨h.samePhase.ph, .inl ha⟩
  | @en t k v h ha ih =>
    obtain ⟨evs, h1, h2⟩ := ih
    refine ⟨evs ++ [{ phase := t.w.ph, op := .qw .gated (t.cfg.rEn.get k) v }],
      by simp [writeEn, h1], ?_⟩
    simp only [List.mem_append, List.mem_singleton]
    rintro e (he | rfl)
    · exact h2 e he
    · exact ⟨h.samePhase.ph, .inr ⟨rfl, .inl ⟨k, by rw [h.samePhase.cfg], ha⟩⟩⟩
  | @byp t v h ha ih =>
    obtain ⟨evs, h1, h2⟩ := ih
    refine ⟨evs ++ [{ phase := t.w.ph, op := .qw .gated t.cfg.rByp v }],
      by simp [writeByp, h1], ?_⟩
    simp only [List.mem_append, List.mem_singleton]
    rintro e (he | rfl)
    · exact h2 e he
    · exact ⟨h.samePhase.ph, .inr ⟨rfl, .inr (.inl ⟨by rw [h.samePhase.cfg], ha⟩)⟩⟩
  | @master t v h ha ih =>
    obtain ⟨evs, h1, h2⟩ := ih
    refine ⟨evs ++ [{ phase := t.w.ph, op := .qw .gated t.cfg.rMctl v }],
      by simp [writeMaster, h1], ?_⟩
    simp only [List.mem_append, List.mem_singleton]
    rintro e (he | rfl)
    · exact h2 e he
    · exact ⟨h.samePhase.ph, .inr ⟨rfl, .inr (.inr ⟨by rw [h.samePhase.cfg], ha⟩)⟩⟩
  | @sync t h ih =>
    obtain ⟨evs, h1, h2⟩ := ih
    refine ⟨evs ++ (if 0 < t.w.qn then [{ phase := t.w.ph, op := .flush }] else []),
      by rw [syncQueue_trace, h1, List.append_assoc], ?_⟩
    intro e he
    rcases List.mem_append.1 he with he | he
    · exact h2 e he
    · split at he
      · rw [List.mem_singleton.1 he]; exact ⟨h.samePhase.ph, trivial⟩
      · simp at he
  | @read t r h ha ih =>
    obtain ⟨evs, h1, h2⟩ := ih
    refine ⟨evs ++ (if 0 < t.w.qn then [{ phase := t.w.ph, op := .flush }] else []) ++
        [{ phase := t.w.ph, op := .rd r (rdReg r t).io.rdata }],
      by rw [rdReg_trace, h1]; simp [List.append_assoc], ?_⟩
    intro e he
    rcases List.mem_append.1 he with he | he
    · rcases List.mem_append.1 he with he | he
      · exact h2 e he
      · split at he
        · rw [List.mem_singleton.1 he]; exact ⟨h.samePhase.ph, trivial⟩
        · simp at he
    · rw [List.mem_singleton.1 he]; exact ⟨h.samePhase.ph, ha⟩
  | note _ _ _ _ _ ih => exact ih

/-- The four copied registers are four different registers (rule R6 (7)). -/
structure CopiesApart (c : Cfg) : Prop where
  en : c.rEn.k0 ≠ c.rEn.k1
  enByp : ∀ k, c.rEn.get k ≠ c.rByp
  enMctl : ∀ k, c.rEn.get k ≠ c.rMctl
  bypMctl : c.rByp ≠ c.rMctl

/-- No plain write of the allowance touches a copied register. -/
def Allowed.sparesCopies (al : Allowed) (c : Cfg) : Prop :=
  ∀ g r v, al.write g r v → r ≠ c.rMctl ∧ r ≠ c.rByp ∧ ∀ k, r ≠ c.rEn.get k

/-- The copies are what their registers will hold once the queue is delivered (rule R67). -/
structure CoherentPending (s : State) : Prop where
  master : pendingValue s s.cfg.rMctl.addr = s.g.master
  en : ∀ k, pendingValue s (s.cfg.rEn.get k).addr = s.g.en.get k
  byp : pendingValue s s.cfg.rByp.addr = s.g.byp

theorem Two.get_set {α : Type} (t : Two α) (k k' : AeDom) (v : α) :
    (t.set k v).get k' = if k' = k then v else t.get k' := by
  cases k <;> cases k' <;> rfl

theorem CopiesApart.en_get {c : Cfg} (h : CopiesApart c) {k k' : AeDom} (hk : k ≠ k') :
    c.rEn.get k ≠ c.rEn.get k' := by
  cases k <;> cases k'
  · exact absurd rfl hk
  · exact h.en
  · exact fun e => h.en e.symm
  · exact absurd rfl hk

theorem Acts.coherentPending {al : Allowed} {s t : State} (h : Acts al s t)
    (hc : CopiesApart s.cfg) (hal : al.sparesCopies s.cfg) (hd : DeviceOk s)
    (hs : CoherentPending s) : CoherentPending t := by
  have na : ∀ {r r' : Reg}, r ≠ r' → ¬ r.addr = r'.addr := fun h e => h (Reg.addr_inj e)
  induction h with
  | refl => exact hs
  | @write t g r v h ha ih =>
    obtain ⟨h1, h2, h3⟩ := hal g r v ha
    rw [← h.samePhase.cfg] at h1 h2 h3
    constructor
    · simp only [pendingValue_qw, qw_cfg, qw_g, if_neg (na h1), ih.master]
    · intro k; simp only [pendingValue_qw, qw_cfg, qw_g, if_neg (na (h3 k)), ih.en]
    · simp only [pendingValue_qw, qw_cfg, qw_g, if_neg (na h2), ih.byp]
  | @en t k v h ha ih =>
    rw [← h.samePhase.cfg] at hc
    have hp : ∀ x a, pendingValue { t with g := x } a = pendingValue t a := fun _ _ => rfl
    constructor
    · simp only [writeEn, pendingValue_qw, qw_cfg, qw_g, if_neg (na (hc.enMctl k)), hp, ih.master]
    · intro k'
      simp only [writeEn, pendingValue_qw, qw_cfg, qw_g, hp, Two.get_set]
      by_cases hk : k' = k
      · simp [hk]
      · rw [if_neg (na (hc.en_get (Ne.symm hk))), if_neg hk, ih.en]
    · simp only [writeEn, pendingValue_qw, qw_cfg, qw_g, if_neg (na (hc.enByp k)), hp, ih.byp]
  | @byp t v h ha ih =>
    rw [← h.samePhase.cfg] at hc
    have hp : ∀ x a, pendingValue { t with g := x } a = pendingValue t a := fun _ _ => rfl
    constructor
    · simp only [writeByp, pendingValue_qw, qw_cfg, qw_g, if_neg (na hc.bypMctl), hp, ih.master]
    · intro k'
      simp only [writeByp, pendingValue_qw, qw_cfg, qw_g, hp, if_neg (na (hc.enByp k').symm), ih.en]
    · simp only [writeByp, pendingValue_qw, qw_cfg, qw_g, hp, if_true]
  | @master t v h ha ih =>
    rw [← h.samePhase.cfg] at hc
    have hp : ∀ x a, pendingValue { t with g := x } a = pendingValue t a := fun _ _ => rfl
    constructor
    · simp only [writeMaster, pendingValue_qw, qw_cfg, qw_g, hp, if_true]
    · intro k'
      simp only [writeMaster, pendingValue_qw, qw_cfg, qw_g, hp, if_neg (na (hc.enMctl k').symm), ih.en]
    · simp only [writeMaster, pendingValue_qw, qw_cfg, qw_g, hp, if_neg (na hc.bypMctl.symm), ih.byp]
  | @sync t h ih =>
    have hk := (h.deviceOk hd).shadow
    exact ⟨by simp [pendingValue_syncQueue hk, ih.master],
      fun k => by simp [pendingValue_syncQueue hk, ih.en],
      by simp [pendingValue_syncQueue hk, ih.byp]⟩
  | @read t r h ha ih =>
    have hk := (h.deviceOk hd).shadow
    exact ⟨by simp [pendingValue_rdReg _ hk, ih.master],
      fun k => by simp [pendingValue_rdReg _ hk, ih.en],
      by simp [pendingValue_rdReg _ hk, ih.byp]⟩
  | note _ _ _ _ _ ih => exact ⟨ih.master, ih.en, ih.byp⟩

end Sys2Proof.Machine
end

