-- ==== Sys2Proof/Laws/Phases.lean ====
section
/-! SUPPORT. Each phase of APPLY, and UPLOAD's access, as a chain of acts within what rule R140 allows the
phase. -/

namespace Sys2Proof.Machine

/-- Phase 2 may set bypass bits, mute the sine, clear enable bits, read the sine register (R140). -/
def quiesceAllowed (c : Cfg) (en : Two Byte) (byp : Byte) : Allowed where
  write g r v := g = .gated ∧ r = c.rSinout ∧ v = c.vSinInactive
  en k v := v &&& en.get k = v
  byp v := byp &&& v = byp
  master _ := False
  read r := r = c.rSinout

/-- An item of phase 3 may write the block-memory registers, the auxiliary registers and Gen's enable
register (R140). -/
def itemAllowed (c : Cfg) : Allowed where
  write g r _ := (g = .forced ∧ (r ∈ c.rBma ∨ r = c.rBmctl ∨ r = c.rBmd)) ∨
    (g = .gated ∧ r ∈ c.rAux.toList)
  en k _ := ∃ b, genEn c = some (k, b)
  byp _ := False
  master _ := False
  read _ := False

/-- A register chunk's item may write the auxiliary registers and Gen's enable register (R155, R157). -/
def regAllowed (c : Cfg) : Allowed where
  write g r _ := g = .gated ∧ r ∈ c.rAux.toList
  en k _ := ∃ b, genEn c = some (k, b)
  byp _ := False
  master _ := False
  read _ := False

/-- The end of phase 3 may write the trigger register (R140). -/
def triggerAllowed (c : Cfg) : Allowed where
  write g r _ := g = .forced ∧ r = c.rTrig
  en _ _ := False
  byp _ := False
  master _ := False
  read _ := False

/-- Phase 4 may write the enable registers, the sine, the bypass and the master register (R140). -/
def resumeAllowed (c : Cfg) : Allowed where
  write g r _ := g = .gated ∧ r = c.rSinout
  en _ _ := True
  byp _ := True
  master _ := True
  read _ := False

/-- UPLOAD may write the address and control registers and read the data register (R140). -/
def uploadAllowed (c : Cfg) : Allowed where
  write g r _ := g = .forced ∧ (r ∈ c.rBma ∨ r = c.rBmctl)
  en _ _ := False
  byp _ := False
  master _ := False
  read r := r = c.rBmd

/-- MSTART, MSTOP and QUERY may write the master register and read the transition register (R198). -/
def cmdAllowed (c : Cfg) : Allowed where
  write _ _ _ := False
  en _ _ := False
  byp _ := False
  master _ := True
  read r := r = c.rTrans

/-! ## Shared pieces -/

/-- Forced writes in a list: what they queue, count and emit. -/
theorem qwForced_eq (ps : List (Reg × Byte)) (s : State) :
    qwForced ps s = { s with
      hw := { s.hw with
        queue := s.hw.queue ++ ps.map (fun p => { gate := .forced, reg := p.1, value := p.2 }) }
      w := { s.w with qn := s.w.qn + ps.length }
      io := { s.io with
        trace := s.io.trace ++
          ps.map (fun p => { phase := s.w.ph, op := .qw .forced p.1 p.2 }) } } := by
  induction ps generalizing s with
  | nil => simp [qwForced]
  | cons p ps ih =>
    obtain ⟨r, v⟩ := p
    simp [qwForced, ih, qw, emit, Nat.add_assoc, Nat.add_comm 1]

theorem qwForced_acts (al : Allowed) (ps : List (Reg × Byte)) (s : State)
    (h : ∀ p ∈ ps, al.write .forced p.1 p.2) : Acts al s (qwForced ps s) := by
  induction ps generalizing s with
  | nil => exact .refl
  | cons p ps ih =>
    exact (Acts.refl.write (h p List.mem_cons_self)).trans
      (ih _ fun q hq => h q (List.mem_cons_of_mem _ hq))

theorem writeAddrRegs_acts (al : Allowed) (addr : Word) (s : State)
    (h : ∀ r ∈ s.cfg.rBma, ∀ v, al.write .forced r v) : Acts al s (writeAddrRegs addr s) :=
  qwForced_acts al _ s fun p hp => h p.1 (List.of_mem_zip hp).1 p.2

/-! ## Phase 2 -/

/-- ANDing a byte with anything only clears bits. -/
theorem and_not_and_self (x m : Byte) : (x &&& ~~~m) &&& x = x &&& ~~~m := by
  rw [BitVec.and_assoc, BitVec.and_comm (~~~m) x, ← BitVec.and_assoc, BitVec.and_self]

theorem bypassOn_sets (s : State) : s.g.byp &&& bypassOn s = s.g.byp := by
  unfold bypassOn
  apply BitVec.eq_of_getLsbD_eq
  intro i hi
  simp only [BitVec.getLsbD_and, BitVec.getLsbD_or]
  cases s.g.byp.getLsbD i <;> simp

theorem stepQ1_acts (s : State) (en : Two Byte) :
    Acts (quiesceAllowed s.cfg en s.g.byp) s (stepQ1 s) := by
  unfold stepQ1
  have h : Acts (quiesceAllowed s.cfg en s.g.byp) s
      { s with w := { s.w with
        xoff := bypassAsked s.cfg (passRecord s) .stop
        prec := bypassNeed s.cfg (passRecord s) &&& ~~~s.g.byp &&&
          ~~~bypassAsked s.cfg (passRecord s) .start } } :=
    Acts.refl.note rfl rfl rfl rfl
  simp only
  split
  · exact h.byp (bypassOn_sets s)
  · exact h

theorem stepQ1_g (s : State) : (stepQ1 s).g = { s.g with byp := bypassOn s } := by
  unfold stepQ1
  simp only
  split
  · rfl
  · rename_i h
    have h' : bypassOn s = s.g.byp := by simpa using h
    rw [h']

theorem stepQ2_acts (s : State) (en : Two Byte) (byp : Byte) :
    Acts (quiesceAllowed s.cfg en byp) s (stepQ2 s) := by
  unfold stepQ2
  split
  · have h : Acts (quiesceAllowed s.cfg en byp) s (rdReg s.cfg.rSinout s) := Acts.refl.read rfl
    simp only
    split
    · exact Acts.write (h.note rfl rfl rfl rfl) ⟨rfl, by simp, by simp⟩
    · exact h
  · exact .refl

@[simp] theorem stepQ2_g (s : State) : (stepQ2 s).g = s.g := by
  unfold stepQ2
  split
  · simp only
    split <;> simp
  · rfl

theorem stepQ4For_acts (k : AeDom) (s : State) (en : Two Byte) (byp : Byte)
    (h : s.g.en.get k = en.get k) : Acts (quiesceAllowed s.cfg en byp) s (stepQ4For k s) := by
  unfold stepQ4For
  have hn : ∀ x y, Acts (quiesceAllowed s.cfg en byp) s
      { s with w := { s.w with restore := x, onw := y } } := fun x y => Acts.refl.note rfl rfl rfl rfl
  simp only
  split
  · refine (hn _ _).en ?_
    show _ &&& en.get k = _
    rw [← h]
    exact and_not_and_self _ _
  · exact hn _ _

/-- What step Q4 leaves in EN[k]. -/
def clearedEn (s : State) (k : AeDom) : Byte :=
  s.g.en.get k &&& ~~~((passRecord s).off.get k ||| transferClear (passRecord s) k)

theorem Two.set_get_self {α : Type} (t : Two α) (k : AeDom) : t.set k (t.get k) = t := by
  cases k <;> rfl

theorem stepQ4For_g (k : AeDom) (s : State) :
    (stepQ4For k s).g = { s.g with en := s.g.en.set k (clearedEn s k) } := by
  have e : clearedEn s k = s.g.en.get k &&&
      ~~~((passRecord s).off.get k ||| (transferClear (passRecord s) k &&& s.g.en.get k)) := by
    unfold clearedEn
    apply BitVec.eq_of_getLsbD_eq
    intro i hi
    simp only [BitVec.getLsbD_and, BitVec.getLsbD_or, BitVec.getLsbD_not, hi, decide_true,
      Bool.true_and]
    cases (s.g.en.get k).getLsbD i <;> simp
  rw [e]
  unfold stepQ4For
  simp only
  split
  · rfl
  · rename_i h
    have h' : (passRecord s).off.get k ||| (transferClear (passRecord s) k &&& s.g.en.get k) = 0 := by
      simpa using h
    rw [h']
    have : s.g.en.get k &&& ~~~(0 : Byte) = s.g.en.get k := by
      rw [show ~~~(0 : Byte) = BitVec.allOnes 8 from rfl, BitVec.and_allOnes]
    rw [this, Two.set_get_self]

theorem stepQ4For_ar (k : AeDom) (s : State) : (stepQ4For k s).w.ar = s.w.ar := by
  unfold stepQ4For
  simp only
  split <;> rfl

theorem stepQ4For_cfg (k : AeDom) (s : State) : (stepQ4For k s).cfg = s.cfg := by
  unfold stepQ4For
  simp only
  split <;> rfl

theorem passRecord_congr {s t : State} (h : t.w.ar = s.w.ar) : passRecord t = passRecord s := by
  simp [passRecord, h]

theorem stepQ4_acts (s : State) (byp : Byte) :
    Acts (quiesceAllowed s.cfg s.g.en byp) s (stepQ4 s) := by
  unfold stepQ4
  have h0 := stepQ4For_acts .k0 s s.g.en byp rfl
  have h1 := stepQ4For_acts .k1 (stepQ4For .k0 s) s.g.en byp (by rw [stepQ4For_g]; rfl)
  rw [stepQ4For_cfg] at h1
  exact (h0.trans h1).sync

theorem stepQ4_g (s : State) :
    (stepQ4 s).g = { s.g with en := { k0 := clearedEn s .k0, k1 := clearedEn s .k1 } } := by
  have e : clearedEn (stepQ4For .k0 s) .k1 = clearedEn s .k1 := by
    unfold clearedEn
    rw [passRecord_congr (stepQ4For_ar .k0 s), stepQ4For_g]
    rfl
  simp only [stepQ4, syncQueue_g, stepQ4For_g, e]
  rfl

/-! ## Phase 3 -/

theorem qwPayload_acts (payload : List Byte) (s : State) :
    Acts (itemAllowed s.cfg) s (qwPayload s payload) := by
  refine qwForced_acts _ _ s fun p hp => ?_
  obtain ⟨v, _, rfl⟩ := List.mem_map.1 hp
  exact .inl ⟨rfl, .inr (.inr rfl)⟩

theorem writeAddrRegs_item (addr : Word) (s : State) :
    Acts (itemAllowed s.cfg) s (writeAddrRegs addr s) :=
  writeAddrRegs_acts _ addr s fun _ hr _ => .inl ⟨rfl, .inl hr⟩

@[simp] theorem qwForced_cfg (ps : List (Reg × Byte)) (s : State) : (qwForced ps s).cfg = s.cfg := by
  rw [qwForced_eq]

@[simp] theorem writeAddrRegs_cfg (addr : Word) (s : State) : (writeAddrRegs addr s).cfg = s.cfg :=
  qwForced_cfg _ s

@[simp] theorem qwForced_g (ps : List (Reg × Byte)) (s : State) : (qwForced ps s).g = s.g := by
  rw [qwForced_eq]

@[simp] theorem writeAddrRegs_g (addr : Word) (s : State) : (writeAddrRegs addr s).g = s.g :=
  qwForced_g _ s

theorem coefHost_acts (addr : Word) (payload : List Byte) (s : State) :
    Acts (itemAllowed s.cfg) s (coefHost addr payload s) := by
  have h1 := (writeAddrRegs_item addr s).write (g := .forced)
    (r := (writeAddrRegs addr s).cfg.rBmctl) (v := (writeAddrRegs addr s).cfg.vCtlWrHost)
    (.inl ⟨rfl, .inr (.inl (by simp))⟩)
  have h2 := qwPayload_acts payload (qw .forced (writeAddrRegs addr s).cfg.rBmctl
    (writeAddrRegs addr s).cfg.vCtlWrHost (writeAddrRegs addr s))
  rw [h1.samePhase.cfg] at h2
  exact (h1.trans h2).sync

theorem coefInternal_acts (addr : Word) (payload : List Byte) (s : State) :
    Acts (itemAllowed s.cfg) s (coefInternal addr payload s) := by
  have h1 := (writeAddrRegs_item addr s).write (g := .forced)
    (r := (writeAddrRegs addr s).cfg.rBmctl) (v := (writeAddrRegs addr s).cfg.vCtlWrInt)
    (.inl ⟨rfl, .inr (.inl (by simp))⟩)
  have h2 := qwPayload_acts payload (qw .forced (writeAddrRegs addr s).cfg.rBmctl
    (writeAddrRegs addr s).cfg.vCtlWrInt (writeAddrRegs addr s))
  rw [h1.samePhase.cfg] at h2
  unfold coefInternal
  exact Acts.sync (Acts.note (h1.trans h2) rfl rfl rfl rfl)

theorem auxWrite_acts (flags : Byte) (vals : List Byte) (i : Fin 7) (s : State) :
    Acts (regAllowed s.cfg) s (auxWrite flags vals i s) := by
  unfold auxWrite
  split
  · have h : Acts (regAllowed s.cfg) s (qw .gated s.cfg.rAux[i] (byteAt vals i.val) s) :=
      Acts.refl.write ⟨rfl, by simp⟩
    simp only
    split
    · exact h.note rfl rfl rfl rfl
    · exact h
  · exact .refl

theorem auxWrites_acts (flags : Byte) (vals : List Byte) (s : State) :
    Acts (regAllowed s.cfg) s (auxWrites flags vals s) := by
  unfold auxWrites
  generalize List.finRange 7 = is
  induction is generalizing s with
  | nil => exact .refl
  | cons i is ih =>
    have h := auxWrite_acts flags vals i s
    have h' := ih (auxWrite flags vals i s)
    rw [h.samePhase.cfg] at h'
    exact h.trans h'

theorem genStop_acts (s : State) : Acts (regAllowed s.cfg) s (genStop s) := by
  unfold genStop
  split
  · exact .refl
  · rename_i k b hk
    have hn : ∀ x y, Acts (regAllowed s.cfg) s
        { s with w := { s.w with onw := x, restore := y } } :=
      fun x y => Acts.refl.note rfl rfl rfl rfl
    simp only
    split
    · exact (hn _ _).en ⟨b, hk⟩
    · exact hn _ _

theorem regItem_acts (flags : Byte) (vals : List Byte) (s : State) :
    Acts (regAllowed s.cfg) s (regItem flags vals s) := by
  unfold regItem
  have h := auxWrites_acts flags vals s
  have h' := genStop_acts (auxWrites flags vals s)
  rw [h.samePhase.cfg] at h'
  simp only
  split
  · exact (h.trans h').sync
  · exact h.sync

theorem downloadItem_acts (item : Item) (s : State) :
    Acts (itemAllowed s.cfg) s (downloadItem item s) := by
  unfold downloadItem
  split
  · unfold coefItem
    split
    · exact coefHost_acts _ _ s
    · exact coefInternal_acts _ _ s
    · exact .refl
  · exact (regItem_acts _ _ s).mono (fun _ _ _ h => .inr h) (fun _ _ h => h) (fun _ h => h) (fun _ h => h)
      (fun _ h => h)
  · exact .refl
  · exact .refl

theorem downloadStep_acts (item : Item) (s : State) :
    Acts (itemAllowed s.cfg) s (downloadStep item s) :=
  (downloadItem_acts item s).note rfl rfl rfl rfl

theorem downloadItems_acts (items : List Item) (s : State) :
    Acts (itemAllowed s.cfg) s (downloadItems items s) := by
  induction items generalizing s with
  | nil => exact .refl
  | cons item items ih =>
    have h := downloadStep_acts item s
    have h' := ih (downloadStep item s)
    rw [h.samePhase.cfg] at h'
    exact h.trans h'

theorem triggerTransfer_acts (s : State) : Acts (triggerAllowed s.cfg) s (triggerTransfer s) := by
  unfold triggerTransfer
  split
  · have h : Acts (triggerAllowed s.cfg) s (qw .forced s.cfg.rTrig s.cfg.vTrig s) :=
      Acts.refl.write ⟨rfl, rfl⟩
    exact h.sync.note rfl rfl rfl rfl
  · exact .refl

@[simp] theorem triggerTransfer_g (s : State) : (triggerTransfer s).g = s.g := by
  unfold triggerTransfer
  split
  · simp
  · rfl

/-- No trigger is owed after phase 3 (rule R131). -/
theorem triggerTransfer_trigpend (s : State) : (triggerTransfer s).w.trigpend = false := by
  unfold triggerTransfer
  split
  · rfl
  · rename_i h; simpa using h

/-! ## Phase 4 -/

theorem stepR1For_acts (k : AeDom) (s : State) : Acts (resumeAllowed s.cfg) s (stepR1For k s) :=
  Acts.refl.en trivial

theorem stepR2_acts (s : State) : Acts (resumeAllowed s.cfg) s (stepR2 s) := by
  unfold stepR2
  split
  · have h : Acts (resumeAllowed s.cfg) s (qw .gated s.cfg.rSinout s.w.sinsave s) :=
      Acts.refl.write ⟨rfl, rfl⟩
    exact h.note rfl rfl rfl rfl
  · exact .refl

theorem stepR3_acts (s : State) : Acts (resumeAllowed s.cfg) s (stepR3 s) := by
  unfold stepR3
  simp only
  split
  · exact Acts.refl.byp trivial
  · exact .refl

theorem stepR4_acts (s : State) : Acts (resumeAllowed s.cfg) s (stepR4 s) := by
  unfold stepR4
  split
  · exact Acts.refl.master trivial
  · exact Acts.refl.master trivial
  · exact .refl

/-- Phase 4 up to its flush. -/
theorem resume_acts (s : State) :
    Acts (resumeAllowed s.cfg) s
      (syncQueue (stepR4 (stepR3 (stepR2 (stepR1For .k1 (stepR1For .k0 s)))))) := by
  have h1 := (stepR1For_acts .k0 s).trans (stepR1For_acts .k1 (stepR1For .k0 s))
  have c1 := h1.samePhase.cfg
  have h2 := stepR2_acts (stepR1For .k1 (stepR1For .k0 s))
  rw [c1] at h2
  have h12 := h1.trans h2
  have h3 := stepR3_acts (stepR2 (stepR1For .k1 (stepR1For .k0 s)))
  rw [h12.samePhase.cfg] at h3
  have h123 := h12.trans h3
  have h4 := stepR4_acts (stepR3 (stepR2 (stepR1For .k1 (stepR1For .k0 s))))
  rw [h123.samePhase.cfg] at h4
  exact (h123.trans h4).sync

/-! ## UPLOAD -/

theorem drain_acts (n : Nat) (s : State) : Acts (uploadAllowed s.cfg) s (drain n s) := by
  induction n generalizing s with
  | zero => exact .refl
  | succ n ih =>
    have h : Acts (uploadAllowed s.cfg) s
        { rdReg s.cfg.rBmd s with w := { (rdReg s.cfg.rBmd s).w with
          outbuf := (rdReg s.cfg.rBmd s).w.outbuf ++ [(rdReg s.cfg.rBmd s).io.rdata]
          ix := (rdReg s.cfg.rBmd s).w.ix + 1 } } :=
      (Acts.refl.read rfl).note rfl rfl rfl rfl
    have h' := ih { rdReg s.cfg.rBmd s with w := { (rdReg s.cfg.rBmd s).w with
          outbuf := (rdReg s.cfg.rBmd s).w.outbuf ++ [(rdReg s.cfg.rBmd s).io.rdata]
          ix := (rdReg s.cfg.rBmd s).w.ix + 1 } }
    rw [h.samePhase.cfg] at h'
    exact h.trans h'

/-- UPLOAD's access up to its end. -/
theorem uploadRead_acts (m : MemDom) (addr : Word) (units : Nat) (s : State) :
    ∃ t, Acts (uploadAllowed s.cfg) s t ∧ uploadRead m addr units s = finishUpload t.w.outbuf t := by
  have h1 : Acts (uploadAllowed s.cfg) s (writeAddrRegs addr s) :=
    writeAddrRegs_acts _ addr s fun _ hr _ => ⟨rfl, .inl hr⟩
  have h2 : Acts (uploadAllowed s.cfg) s (syncQueue (qw .forced (writeAddrRegs addr s).cfg.rBmctl
      ((writeAddrRegs addr s).cfg.vCtlRd m) (writeAddrRegs addr s))) :=
    (h1.write ⟨rfl, .inr (by simp)⟩).sync
  have h3 := h2.note (u := { (syncQueue (qw .forced (writeAddrRegs addr s).cfg.rBmctl
      ((writeAddrRegs addr s).cfg.vCtlRd m) (writeAddrRegs addr s))).w with outbuf := [], ix := 0 })
      rfl rfl rfl rfl
  have h4 := drain_acts (units * m.unit) { (syncQueue (qw .forced (writeAddrRegs addr s).cfg.rBmctl
      ((writeAddrRegs addr s).cfg.vCtlRd m) (writeAddrRegs addr s))) with
      w := { (syncQueue (qw .forced (writeAddrRegs addr s).cfg.rBmctl
        ((writeAddrRegs addr s).cfg.vCtlRd m) (writeAddrRegs addr s))).w with outbuf := [], ix := 0 } }
  rw [h3.samePhase.cfg] at h4
  exact ⟨_, h3.trans h4, rfl⟩

end Sys2Proof.Machine
end

