-- ==== Sys2Proof/Laws/Pass.lean ====
section
/-! SUPPORT. A pass as a whole: the facts every stage keeps, where a pass can stand after it, and its
trace. -/

namespace Sys2Proof.Machine

/-! ## Working registers that a stage leaves alone -/

@[simp] theorem stepQ1_trigpend (s : State) : (stepQ1 s).w.trigpend = s.w.trigpend := by
  unfold stepQ1; simp only; split <;> rfl

@[simp] theorem stepQ1_sil (s : State) : (stepQ1 s).w.sil = s.w.sil := by
  unfold stepQ1; simp only; split <;> rfl

@[simp] theorem stepQ1_onw (s : State) : (stepQ1 s).w.onw = s.w.onw := by
  unfold stepQ1; simp only; split <;> rfl

@[simp] theorem stepQ1_restore (s : State) : (stepQ1 s).w.restore = s.w.restore := by
  unfold stepQ1; simp only; split <;> rfl

theorem stepQ1_xoff (s : State) :
    (stepQ1 s).w.xoff = bypassAsked s.cfg (passRecord s) .stop := by
  unfold stepQ1; simp only; split <;> rfl

theorem stepQ1_prec (s : State) :
    (stepQ1 s).w.prec = bypassNeed s.cfg (passRecord s) &&& ~~~s.g.byp &&&
      ~~~bypassAsked s.cfg (passRecord s) .start := by
  unfold stepQ1; simp only; split <;> rfl

@[simp] theorem stepQ2_trigpend (s : State) : (stepQ2 s).w.trigpend = s.w.trigpend := by
  unfold stepQ2; split
  · simp only; split <;> simp
  · rfl

@[simp] theorem stepQ2_onw (s : State) : (stepQ2 s).w.onw = s.w.onw := by
  unfold stepQ2; split
  · simp only; split <;> simp
  · rfl

@[simp] theorem stepQ2_restore (s : State) : (stepQ2 s).w.restore = s.w.restore := by
  unfold stepQ2; split
  · simp only; split <;> simp
  · rfl

@[simp] theorem stepQ2_xoff (s : State) : (stepQ2 s).w.xoff = s.w.xoff := by
  unfold stepQ2; split
  · simp only; split <;> simp
  · rfl

@[simp] theorem stepQ2_prec (s : State) : (stepQ2 s).w.prec = s.w.prec := by
  unfold stepQ2; split
  · simp only; split <;> simp
  · rfl

@[simp] theorem stepQ4For_trigpend (k : AeDom) (s : State) :
    (stepQ4For k s).w.trigpend = s.w.trigpend := by
  unfold stepQ4For; simp only; split <;> rfl

@[simp] theorem stepQ4For_onw (k : AeDom) (s : State) :
    (stepQ4For k s).w.onw = s.w.onw.set k ((passRecord s).on.get k) := by
  unfold stepQ4For; simp only; split <;> rfl

@[simp] theorem stepQ4For_xoff (k : AeDom) (s : State) : (stepQ4For k s).w.xoff = s.w.xoff := by
  unfold stepQ4For; simp only; split <;> rfl

@[simp] theorem stepQ4For_prec (k : AeDom) (s : State) : (stepQ4For k s).w.prec = s.w.prec := by
  unfold stepQ4For; simp only; split <;> rfl

theorem stepQ4For_restore (k : AeDom) (s : State) :
    (stepQ4For k s).w.restore = s.w.restore.set k
      (transferClear (passRecord s) k &&& s.g.en.get k &&& ~~~(passRecord s).off.get k) := by
  unfold stepQ4For; simp only; split <;> rfl

/-- ONW after step Q4 (rule R31). -/
@[simp] theorem stepQ4_onw (s : State) : (stepQ4 s).w.onw = (passRecord s).on := by
  simp only [stepQ4, syncQueue_w, stepQ4For_onw, passRecord_congr (stepQ4For_ar .k0 s)]
  rfl

@[simp] theorem stepQ4_xoff (s : State) : (stepQ4 s).w.xoff = s.w.xoff := by simp [stepQ4]

@[simp] theorem stepQ4_prec (s : State) : (stepQ4 s).w.prec = s.w.prec := by simp [stepQ4]

/-- RESTORE[k] after step Q4 (rule R129). -/
theorem stepQ4_restore (s : State) (k : AeDom) :
    (stepQ4 s).w.restore.get k =
      transferClear (passRecord s) k &&& s.g.en.get k &&& ~~~(passRecord s).off.get k := by
  simp only [stepQ4, syncQueue_w, stepQ4For_restore, stepQ4For_g,
    passRecord_congr (stepQ4For_ar .k0 s)]
  cases k <;> rfl

theorem stepR2_trigpend (s : State) : (stepR2 s).w.trigpend = s.w.trigpend := by
  unfold stepR2; split <;> rfl

theorem stepR2_sil (s : State) : (stepR2 s).w.sil = false := by
  unfold stepR2; split
  · rfl
  · rename_i h; simpa using h

@[simp] theorem stepR2_g (s : State) : (stepR2 s).g = s.g := by
  unfold stepR2; split <;> rfl

theorem stepR2_xoff (s : State) : (stepR2 s).w.xoff = s.w.xoff := by
  unfold stepR2; split <;> rfl

theorem stepR2_prec (s : State) : (stepR2 s).w.prec = s.w.prec := by
  unfold stepR2; split <;> rfl

theorem stepR3_trigpend (s : State) : (stepR3 s).w.trigpend = s.w.trigpend := by
  unfold stepR3; simp only; split <;> rfl

theorem stepR3_sil (s : State) : (stepR3 s).w.sil = s.w.sil := by
  unfold stepR3; simp only; split <;> rfl

theorem stepR3_g (s : State) :
    (stepR3 s).g = { s.g with byp := s.g.byp &&& ~~~s.w.prec &&& ~~~s.w.xoff } := by
  unfold stepR3; simp only; split
  · rfl
  · rename_i h
    have h' : s.g.byp &&& ~~~s.w.prec &&& ~~~s.w.xoff = s.g.byp := by simpa using h
    rw [h']

theorem stepR4_trigpend (s : State) : (stepR4 s).w.trigpend = s.w.trigpend := by
  unfold stepR4; split <;> rfl

theorem stepR4_sil (s : State) : (stepR4 s).w.sil = s.w.sil := by
  unfold stepR4; split <;> rfl

/-- MASTER after the master directive (rule R135). -/
def masterAfter (c : Cfg) (d : Directive) (master : Byte) : Byte :=
  match d with
  | .start => master ||| c.mByp
  | .stop => master &&& ~~~c.mByp
  | .dc => master

theorem stepR4_g (s : State) :
    (stepR4 s).g = { s.g with master := masterAfter s.cfg (passRecord s).mdir s.g.master } := by
  unfold stepR4 masterAfter; split <;> simp_all [writeMaster]

/-! ## Where a command can stand -/

/-- A command has ended, or one of its waits polls with ST = INITED and nothing queued. -/
def Settled (t : State) : Prop :=
  (t.site = none ∧ t.w.ph = .idle) ∨
  ∃ site, t.site = some site ∧ t.w.ph = sitePhase site ∧ t.hw.queue = [] ∧
    (site = .applyXfer → t.w.sil = false) ∧ t.g.st = .inited

theorem DeviceOk.inv {t : State} (h : DeviceOk t) (hs : Settled t) (ht : t.w.trigpend = false) :
    Inv t where
  regsWf := h.memories.regs
  shadowWf := h.memories.shadow
  bmemWf := h.memories.bmem
  shadowOk := h.shadow
  counted := h.counted
  waitEmpty := by
    rcases hs with ⟨h1, _⟩ | ⟨_, _, _, h3, _⟩
    · simp [h1]
    · exact fun _ => h3
  phase := by
    rcases hs with ⟨h1, h2⟩ | ⟨_, h1, h2, _⟩ <;> simp [h1, h2, phaseOfSite]
  noTrigger := ht
  notSilenced := by
    rcases hs with ⟨h1, _⟩ | ⟨_, h1, _, _, h4, _⟩
    · simp [h1]
    · rw [h1]; exact fun h => h4 (Option.some.inj h)
  heldInited := by
    rcases hs with ⟨h1, _⟩ | ⟨_, _, _, _, _, h5⟩
    · simp [h1]
    · exact fun _ => h5

theorem Inv.deviceOk {s : State} (h : Inv s) : DeviceOk s :=
  ⟨⟨h.regsWf, h.shadowWf, h.bmemWf⟩, h.shadowOk, h.counted⟩

theorem withSite_deviceOk {s : State} (x : Option WaitSite) (h : DeviceOk s) :
    DeviceOk { s with site := x } := ⟨h.memories, h.shadow, h.counted⟩

theorem finish_deviceOk {s : State} (v : Word) (h : DeviceOk s) : DeviceOk (finish v s) :=
  ⟨h.memories, h.shadow, h.counted⟩

theorem withW_deviceOk {s : State} (u : Working) (h : DeviceOk s) (hq : u.qn = s.w.qn) :
    DeviceOk { s with w := u } := ⟨h.memories, h.shadow, hq.trans h.counted⟩

/-- A wait inside a command keeps a property that its three ends have. -/
theorem waitThen_ind {P : State → Prop} (w : WaitName) (site : WaitSite) (next : State → State)
    (s : State) (hok : (waitPoll w s).io.waitRes = .ok → P (next { waitPoll w s with site := none }))
    (hfail : (waitPoll w s).io.waitRes = .failed →
      P (earlyEnd .runtime { waitPoll w s with site := none }))
    (hpoll : (waitPoll w s).io.waitRes = .polling → P { waitPoll w s with site := some site }) :
    P (waitThen w site next s) := by
  rcases waitThen_cases w site next s with ⟨h, h'⟩ | ⟨h, h'⟩ | ⟨h, h'⟩ <;> rw [h]
  · exact hok h'
  · exact hfail h'
  · exact hpoll h'

/-- A command that is going on: the device is in order and no trigger is owed. -/
structure Going (s : State) : Prop where
  device : DeviceOk s
  noTrigger : s.w.trigpend = false

/-- A command's step has come to rest: in order, no trigger owed, ended or polling. -/
structure Rested (t : State) : Prop where
  device : DeviceOk t
  noTrigger : t.w.trigpend = false
  settled : Settled t

theorem waitThen_rested (w : WaitName) (site : WaitSite) (next : State → State) {s : State}
    (hs : Going s) (hp : s.w.ph = sitePhase site) (hx : site = .applyXfer → s.w.sil = false)
    (hi : s.g.st = .inited)
    (hn : ∀ u, Going u → u.site = none → u.w.ph = s.w.ph → u.w.ar = s.w.ar → u.g.st = .inited →
      Rested (next u)) :
    Rested (waitThen w site next s) := by
  have hd := waitPoll_deviceOk w hs.device
  apply waitThen_ind
  · intro _
    exact hn _ ⟨withSite_deviceOk _ hd, by simp [hs.noTrigger]⟩ rfl (by simp) (by simp) (by simpa using hi)
  · intro _
    exact ⟨finish_deviceOk _ (withSite_deviceOk _ hd), by simp [hs.noTrigger], .inl ⟨rfl, by simp⟩⟩
  · intro _
    exact ⟨withSite_deviceOk _ hd, by simp [hs.noTrigger],
      .inr ⟨site, rfl, by simp [hp], waitPoll_queue w hs.device.counted, by simpa using hx,
        by simpa using hi⟩⟩

theorem stepQ4_trigpend (s : State) : (stepQ4 s).w.trigpend = s.w.trigpend := by simp [stepQ4]

/-- Phase 4 keeps the device in order and ends the command. -/
theorem phaseResume_rested {s : State} (hs : Going s) (h0 : s.site = none) :
    Rested (phaseResume s) := by
  have ha := resume_acts { s with w := { s.w with ph := .resume } }
  have hd : DeviceOk { s with w := { s.w with ph := .resume } } := withW_deviceOk _ hs.device rfl
  refine ⟨finish_deviceOk 0 (ha.deviceOk hd), ?_, .inl ⟨ha.samePhase.site.trans h0, rfl⟩⟩
  simp only [phaseResume, finish_w, syncQueue_w, stepR4_trigpend, stepR3_trigpend, stepR2_trigpend]
  exact hs.noTrigger

theorem phaseDownload_going {s : State} (hs : DeviceOk s) :
    Going (phaseDownload s) ∧ (phaseDownload s).site = s.site ∧ (phaseDownload s).cfg = s.cfg ∧
      (phaseDownload s).w.ar = s.w.ar := by
  have h1 := downloadItems_acts (passRecord s).items { s with w := { s.w with ph := .download, ix := 0 } }
  have h2 := triggerTransfer_acts
    (downloadItems (passRecord s).items { s with w := { s.w with ph := .download, ix := 0 } })
  have hd : DeviceOk { s with w := { s.w with ph := .download, ix := 0 } } := withW_deviceOk _ hs rfl
  exact ⟨⟨h2.deviceOk (h1.deviceOk hd), triggerTransfer_trigpend _⟩,
    h2.samePhase.site.trans h1.samePhase.site, h2.samePhase.cfg.trans h1.samePhase.cfg,
    h2.samePhase.ar.trans h1.samePhase.ar⟩

theorem quiesceSilent_rested {s : State} (hs : Going s) (h0 : s.site = none) :
    Rested (quiesceSilent s) := by
  have h4 := stepQ4_acts s 0
  obtain ⟨h, hsite, _, _⟩ := phaseDownload_going (h4.deviceOk hs.device)
  exact phaseResume_rested h (hsite.trans (h4.samePhase.site.trans h0))

theorem quiesceFaded_rested {s : State} (hs : Going s) (h0 : s.site = none)
    (hp : s.w.ph = .quiesce) (hi : s.g.st = .inited) : Rested (quiesceFaded s) := by
  unfold quiesceFaded
  split
  · exact waitThen_rested _ _ _ hs hp nofun hi fun u hu h0 _ _ _ => quiesceSilent_rested hu h0
  · exact quiesceSilent_rested hs h0

theorem quiesceBegin_rested {s : State} (hs : Going s) (h0 : s.site = none) (hi : s.g.st = .inited) :
    Rested (quiesceBegin s) := by
  have hd : DeviceOk { s with w := { s.w with ph := .quiesce } } := withW_deviceOk _ hs.device rfl
  have h1 := stepQ1_acts { s with w := { s.w with ph := .quiesce } } s.g.en
  have h2 := stepQ2_acts (stepQ1 { s with w := { s.w with ph := .quiesce } }) s.g.en s.g.byp
  rw [h1.samePhase.cfg] at h2
  have h12 := h1.trans h2
  have hg : Going (stepQ2 (stepQ1 { s with w := { s.w with ph := .quiesce } })) :=
    ⟨h12.deviceOk hd, by simp [hs.noTrigger]⟩
  have hph := h12.samePhase.ph
  have hst := h12.samePhase.site.trans h0
  have hin := h12.samePhase.st.trans hi
  unfold quiesceBegin
  simp only
  split
  · exact waitThen_rested _ _ _ hg hph nofun hin fun u hu hn hq _ hi' =>
      quiesceFaded_rested hu hn (hq.trans hph) hi'
  · exact quiesceFaded_rested hg hst hph hin

theorem phaseWait_rested {s : State} (hs : Going s) (hx : s.w.sil = false) (hi : s.g.st = .inited) :
    Rested (phaseWait s) :=
  waitThen_rested _ _ _ (s := { s with w := { s.w with ph := .wait } })
    ⟨withW_deviceOk _ hs.device rfl, hs.noTrigger⟩ rfl (fun _ => hx) hi
    fun _ hu h0 _ _ hi' => quiesceBegin_rested hu h0 hi'

theorem earlyEnd_rested (k : ErrorKind) {s : State} (hs : Going s) (h0 : s.site = none) :
    Rested (earlyEnd k s) :=
  ⟨finish_deviceOk _ hs.device, hs.noTrigger, .inl ⟨h0, rfl⟩⟩

theorem finish_rested (v : Word) {s : State} (hs : Going s) (h0 : s.site = none) :
    Rested (finish v s) :=
  ⟨finish_deviceOk _ hs.device, hs.noTrigger, .inl ⟨h0, rfl⟩⟩

theorem accept_going (ph : Phase) {s : State} (hs : Going s) : Going (accept ph s) :=
  ⟨⟨hs.device.memories, hs.device.shadow, hs.device.counted⟩, hs.noTrigger⟩

theorem applyBlob_rested (blob : List Byte) {s : State} (hs : Going s) (h0 : s.site = none)
    (hi : s.g.st = .inited) : Rested (applyBlob blob s) := by
  unfold applyBlob
  simp only
  split
  · exact earlyEnd_rested _ ⟨⟨hs.device.memories, hs.device.shadow, hs.device.counted⟩, hs.noTrigger⟩ h0
  · exact phaseWait_rested ⟨⟨hs.device.memories, hs.device.shadow, hs.device.counted⟩, rfl⟩ rfl hi

/-! ## UPLOAD -/

theorem finishUpload_rested (bytes : List Byte) {s : State} (hs : Going s) (h0 : s.site = none) :
    Rested (finishUpload bytes s) :=
  ⟨⟨hs.device.memories, hs.device.shadow, hs.device.counted⟩, hs.noTrigger, .inl ⟨h0, rfl⟩⟩

theorem drain_trigpend (n : Nat) (s : State) : (drain n s).w.trigpend = s.w.trigpend := by
  induction n generalizing s with
  | zero => rfl
  | succ n ih => simp [drain, ih]

@[simp] theorem qwForced_trigpend (ps : List (Reg × Byte)) (s : State) :
    (qwForced ps s).w.trigpend = s.w.trigpend := by rw [qwForced_eq]

theorem uploadRead_rested (m : MemDom) (addr : Word) (units : Nat) {s : State} (hs : Going s)
    (h0 : s.site = none) : Rested (uploadRead m addr units s) := by
  obtain ⟨t, ha, ht⟩ := uploadRead_acts m addr units s
  have hw : (uploadRead m addr units s).w.trigpend = false := by
    simp [uploadRead, finishUpload, drain_trigpend, writeAddrRegs, hs.noTrigger]
  have htr : t.w.trigpend = false := by rw [ht] at hw; exact hw
  rw [ht]
  exact finishUpload_rested _ ⟨ha.deviceOk hs.device, htr⟩ (ha.samePhase.site.trans h0)

theorem uploadChecked_rested (dom : Byte) (addr size : Word) {s : State} (hs : Going s)
    (h0 : s.site = none) (hp : s.w.ph = .upload) (hi : s.g.st = .inited) : Rested (uploadChecked dom addr size s) := by
  unfold uploadChecked
  split
  · exact earlyEnd_rested _ hs h0
  · split
    · unfold uploadUnits
      split
      · exact finishUpload_rested _ hs h0
      · exact waitThen_rested _ _ _ hs hp nofun hi fun u hu h0 _ _ _ => uploadRead_rested _ _ _ hu h0
    · exact earlyEnd_rested _ hs h0

end Sys2Proof.Machine
end

