-- ==== Sys2Proof/Laws/Trace.lean ====
section
/-! SUPPORT. The register-access events of a pass and of UPLOAD: which phase each carries, what each may be,
and in which order the phases stand. -/

namespace Sys2Proof.Machine

/-- Events of phase `p`, each within an allowance or a wait that the phase may make. -/
def PhaseEvents (c : Cfg) (p : Phase) (al : Allowed) (evs : List Event) : Prop :=
  ∀ e ∈ evs, e.phase = p ∧ (al.admits c e.op ∨ ∃ w ok, e.op = .wait w ok ∧ mayWait p w)

theorem PhaseEvents.nil {c : Cfg} {p : Phase} {al : Allowed} : PhaseEvents c p al [] := by
  intro e he; simp at he

theorem PhaseEvents.append {c : Cfg} {p : Phase} {al : Allowed} {xs ys : List Event}
    (h : PhaseEvents c p al xs) (h' : PhaseEvents c p al ys) : PhaseEvents c p al (xs ++ ys) := by
  intro e he
  rcases List.mem_append.1 he with he | he
  · exact h e he
  · exact h' e he

theorem Acts.phaseEvents {al : Allowed} {s t : State} (h : Acts al s t) :
    ∃ evs, t.io.trace = s.io.trace ++ evs ∧ PhaseEvents s.cfg s.w.ph al evs := by
  obtain ⟨evs, h1, h2⟩ := h.trace
  exact ⟨evs, h1, fun e he => ⟨(h2 e he).1, .inl (h2 e he).2⟩⟩

/-- The poll of a wait emits events of its phase only. -/
theorem waitPoll_phaseEvents (w : WaitName) (al : Allowed) (s : State) (hw : mayWait s.w.ph w) :
    ∃ evs, (waitPoll w s).io.trace = s.io.trace ++ evs ∧ PhaseEvents s.cfg s.w.ph al evs := by
  refine ⟨(if 0 < s.w.qn then [{ phase := s.w.ph, op := .flush }] else []) ++
    waitEvents s.w.ph w (waitPoll w s).io.waitRes, by rw [waitPoll_trace, syncQueue_trace, List.append_assoc], ?_⟩
  refine PhaseEvents.append ?_ ?_
  · intro e he
    split at he
    · rw [List.mem_singleton.1 he]; exact ⟨rfl, .inl trivial⟩
    · simp at he
  · intro e he
    unfold waitEvents at he
    split at he
    · rw [List.mem_singleton.1 he]; exact ⟨rfl, .inr ⟨w, true, rfl, hw⟩⟩
    · rw [List.mem_singleton.1 he]; exact ⟨rfl, .inr ⟨w, false, rfl, hw⟩⟩
    · simp at he

/-- The events of (the rest of) a pass: phase 1, phase 2, the items of phase 3, its trigger, phase 4. -/
def PassEvents (c : Cfg) (en : Two Byte) (byp : Byte) (evs : List Event) : Prop :=
  ∃ w q d g r, evs = w ++ q ++ d ++ g ++ r ∧
    PhaseEvents c .wait (cmdAllowed c) w ∧ (∀ e ∈ w, ∀ k x v, e.op ≠ .qw k x v) ∧
    (∀ e ∈ w, ∀ x v, e.op ≠ .rd x v) ∧
    PhaseEvents c .quiesce (quiesceAllowed c en byp) q ∧
    PhaseEvents c .download (itemAllowed c) d ∧
    PhaseEvents c .download (triggerAllowed c) g ∧
    PhaseEvents c .resume (resumeAllowed c) r

theorem PassEvents.nil {c : Cfg} {en : Two Byte} {byp : Byte} : PassEvents c en byp [] :=
  ⟨[], [], [], [], [], rfl, .nil, by simp, by simp, .nil, .nil, .nil, .nil⟩

/-- More of phase 2 in front of the rest of a pass that begins in phase 2. -/
theorem PhaseEvents.consPass {c : Cfg} {en : Two Byte} {byp : Byte} {q evs : List Event}
    (hq : PhaseEvents c .quiesce (quiesceAllowed c en byp) q)
    (h : ∃ q' d g r, evs = q' ++ d ++ g ++ r ∧
      PhaseEvents c .quiesce (quiesceAllowed c en byp) q' ∧
      PhaseEvents c .download (itemAllowed c) d ∧
      PhaseEvents c .download (triggerAllowed c) g ∧
      PhaseEvents c .resume (resumeAllowed c) r) :
    ∃ q' d g r, q ++ evs = q' ++ d ++ g ++ r ∧
      PhaseEvents c .quiesce (quiesceAllowed c en byp) q' ∧
      PhaseEvents c .download (itemAllowed c) d ∧
      PhaseEvents c .download (triggerAllowed c) g ∧
      PhaseEvents c .resume (resumeAllowed c) r := by
  obtain ⟨q', d, g, r, rfl, h1, h2, h3, h4⟩ := h
  exact ⟨q ++ q', d, g, r, by simp [List.append_assoc], hq.append h1, h2, h3, h4⟩

/-- The events that phase 2, 3 and 4 add from a state in phase 2. -/
def RestEvents (en : Two Byte) (byp : Byte) (s t : State) : Prop :=
  ∃ evs, t.io.trace = s.io.trace ++ evs ∧ ∃ q d g r, evs = q ++ d ++ g ++ r ∧
    PhaseEvents s.cfg .quiesce (quiesceAllowed s.cfg en byp) q ∧
    PhaseEvents s.cfg .download (itemAllowed s.cfg) d ∧
    PhaseEvents s.cfg .download (triggerAllowed s.cfg) g ∧
    PhaseEvents s.cfg .resume (resumeAllowed s.cfg) r

theorem RestEvents.after {en : Two Byte} {byp : Byte} {s u t : State} {q : List Event}
    (hu : u.io.trace = s.io.trace ++ q) (hc : u.cfg = s.cfg)
    (hq : PhaseEvents s.cfg .quiesce (quiesceAllowed s.cfg en byp) q)
    (h : RestEvents en byp u t) : RestEvents en byp s t := by
  obtain ⟨evs, h1, h2⟩ := h
  rw [hc] at h2
  exact ⟨q ++ evs, by rw [h1, hu, List.append_assoc], hq.consPass h2⟩

theorem RestEvents.of_trace {en : Two Byte} {byp : Byte} {s t : State} {q : List Event}
    (hu : t.io.trace = s.io.trace ++ q)
    (hq : PhaseEvents s.cfg .quiesce (quiesceAllowed s.cfg en byp) q) : RestEvents en byp s t :=
  ⟨q, hu, q, [], [], [], by simp, hq, .nil, .nil, .nil⟩

theorem quiesceSilent_events (s : State) (byp : Byte) (hp : s.w.ph = .quiesce) :
    RestEvents s.g.en byp s (quiesceSilent s) := by
  have h1 := stepQ4_acts s byp
  obtain ⟨q, hq, hq'⟩ := h1.phaseEvents
  rw [hp] at hq'
  have h2 := downloadItems_acts (passRecord (stepQ4 s)).items
    { stepQ4 s with w := { (stepQ4 s).w with ph := .download, ix := 0 } }
  obtain ⟨d, hd, hd'⟩ := h2.phaseEvents
  have h3 := triggerTransfer_acts (downloadItems (passRecord (stepQ4 s)).items
    { stepQ4 s with w := { (stepQ4 s).w with ph := .download, ix := 0 } })
  obtain ⟨g, hg, hg'⟩ := h3.phaseEvents
  have h4 := resume_acts { phaseDownload (stepQ4 s) with
    w := { (phaseDownload (stepQ4 s)).w with ph := .resume } }
  obtain ⟨r, hr, hr'⟩ := h4.phaseEvents
  have c1 := h1.samePhase.cfg
  have c2 := h2.samePhase.cfg.trans c1
  have c3 := h3.samePhase.cfg.trans c2
  rw [h2.samePhase.ph, c2] at hg'
  refine ⟨q ++ d ++ g ++ r, ?_, q, d, g, r, rfl, hq', ?_, hg', ?_⟩
  · show (finish 0 _).io.trace = _
    rw [finish_io_trace, hr]
    show (phaseDownload (stepQ4 s)).io.trace ++ r = _
    rw [phaseDownload, hg, hd, hq]
    simp [List.append_assoc]
  · have hd2 : PhaseEvents (stepQ4 s).cfg .download (itemAllowed (stepQ4 s).cfg) d := hd'
    rwa [c1] at hd2
  · have c4 : (phaseDownload (stepQ4 s)).cfg = s.cfg := c3
    have hr2 : PhaseEvents (phaseDownload (stepQ4 s)).cfg .resume
        (resumeAllowed (phaseDownload (stepQ4 s)).cfg) r := hr'
    rwa [c4] at hr2

theorem quiesceFaded_events (s : State) (byp : Byte) (hp : s.w.ph = .quiesce) :
    RestEvents s.g.en byp s (quiesceFaded s) := by
  unfold quiesceFaded
  split
  · obtain ⟨q, hq, hq'⟩ := waitPoll_phaseEvents .sine (quiesceAllowed s.cfg s.g.en byp) s
      (by rw [hp]; exact .inr rfl)
    rw [hp] at hq'
    refine waitThen_ind _ _ _ _ (fun _ => ?_) (fun _ => ?_) (fun _ => ?_)
    · have h := quiesceSilent_events { waitPoll .sine s with site := none } byp (by simp [hp])
      rw [show ({ waitPoll .sine s with site := none } : State).g = s.g by simp] at h
      exact RestEvents.after hq (by simp) hq' h
    · exact RestEvents.of_trace hq hq'
    · exact RestEvents.of_trace hq hq'
  · exact quiesceSilent_events s byp hp

theorem quiesceBegin_events (s : State) : RestEvents s.g.en s.g.byp s (quiesceBegin s) := by
  have h1 := stepQ1_acts { s with w := { s.w with ph := .quiesce } } s.g.en
  have h2 := stepQ2_acts (stepQ1 { s with w := { s.w with ph := .quiesce } }) s.g.en s.g.byp
  rw [h1.samePhase.cfg] at h2
  have h12 := h1.trans h2
  obtain ⟨q, hq, hq'⟩ := h12.phaseEvents
  have hp := h12.samePhase.ph
  have hc := h12.samePhase.cfg
  have hen : (stepQ2 (stepQ1 { s with w := { s.w with ph := .quiesce } })).g.en = s.g.en := by
    rw [stepQ2_g, stepQ1_g]
  unfold quiesceBegin
  simp only
  split
  · obtain ⟨q2, hq2, hq2'⟩ := waitPoll_phaseEvents .fade (quiesceAllowed s.cfg s.g.en s.g.byp)
      (stepQ2 (stepQ1 { s with w := { s.w with ph := .quiesce } })) (by rw [hp]; exact .inl rfl)
    rw [hp, hc] at hq2'
    have hq12 : PhaseEvents s.cfg .quiesce (quiesceAllowed s.cfg s.g.en s.g.byp) (q ++ q2) :=
      PhaseEvents.append hq' hq2'
    have ht : (waitPoll .fade (stepQ2 (stepQ1 { s with w := { s.w with ph := .quiesce } }))).io.trace
        = s.io.trace ++ (q ++ q2) := by rw [hq2, hq, List.append_assoc]
    refine waitThen_ind _ _ _ _ (fun _ => ?_) (fun _ => ?_) (fun _ => ?_)
    · have h := quiesceFaded_events
        { waitPoll .fade (stepQ2 (stepQ1 { s with w := { s.w with ph := .quiesce } })) with
          site := none } s.g.byp (by simp [hp])
      rw [show ({ waitPoll .fade (stepQ2 (stepQ1 { s with w := { s.w with ph := .quiesce } })) with
          site := none } : State).g.en = s.g.en by simpa using hen] at h
      exact RestEvents.after ht (by simp [hc]) hq12 h
    · exact RestEvents.of_trace ht hq12
    · exact RestEvents.of_trace ht hq12
  · have h := quiesceFaded_events (stepQ2 (stepQ1 { s with w := { s.w with ph := .quiesce } }))
      s.g.byp hp
    rw [hen] at h
    exact RestEvents.after hq hc hq' h

/-- The events a pass adds from phase 1 on. -/
theorem phaseWait_events (s : State) :
    ∃ evs, (phaseWait s).io.trace = s.io.trace ++ evs ∧ PassEvents s.cfg s.g.en s.g.byp evs := by
  have ht := waitPoll_trace .xfer { s with w := { s.w with ph := .wait } }
  rw [syncQueue_trace, List.append_assoc] at ht
  generalize (waitPoll .xfer { s with w := { s.w with ph := .wait } }).io.waitRes = res at ht
  obtain ⟨evs, hevs⟩ : ∃ evs, evs =
      (if 0 < s.w.qn then [({ phase := .wait, op := .flush } : Event)] else []) ++
        waitEvents .wait .xfer res := ⟨_, rfl⟩
  have ht' : (waitPoll .xfer { s with w := { s.w with ph := .wait } }).io.trace =
      s.io.trace ++ evs := by rw [ht, hevs]
  have h0 : ∀ e ∈ evs, e = { phase := .wait, op := .flush } ∨
      ∃ ok, e = { phase := .wait, op := .wait .xfer ok } := by
    intro e he
    rw [hevs] at he
    rcases List.mem_append.1 he with he | he
    · split at he
      · exact .inl (List.mem_singleton.1 he)
      · simp at he
    · unfold waitEvents at he
      split at he
      · exact .inr ⟨true, List.mem_singleton.1 he⟩
      · exact .inr ⟨false, List.mem_singleton.1 he⟩
      · simp at he
  have h1 : PhaseEvents s.cfg .wait (cmdAllowed s.cfg) evs := by
    intro e he
    rcases h0 e he with rfl | ⟨ok, rfl⟩
    · exact ⟨rfl, .inl trivial⟩
    · exact ⟨rfl, .inr ⟨.xfer, ok, rfl, rfl⟩⟩
  have h2 : ∀ e ∈ evs, ∀ k x v, e.op ≠ .qw k x v := by
    intro e he
    rcases h0 e he with rfl | ⟨ok, rfl⟩ <;> simp
  have h3 : ∀ e ∈ evs, ∀ x v, e.op ≠ .rd x v := by
    intro e he
    rcases h0 e he with rfl | ⟨ok, rfl⟩ <;> simp
  unfold phaseWait
  refine waitThen_ind (P := fun t => ∃ evs, t.io.trace = s.io.trace ++ evs ∧
      PassEvents s.cfg s.g.en s.g.byp evs) _ _ _ _ (fun _ => ?_) (fun _ => ?_) (fun _ => ?_)
  · obtain ⟨rest, hr, q, d, g, r, rfl, a1, a2, a3, a4⟩ := quiesceBegin_events
      { waitPoll .xfer { s with w := { s.w with ph := .wait } } with site := none }
    simp only [waitPoll_g, waitPoll_cfg] at a1 a2 a3 a4
    exact ⟨evs ++ (q ++ d ++ g ++ r), by rw [hr]; show _ ++ _ = _; rw [ht', List.append_assoc],
      evs, q, d, g, r, by simp [List.append_assoc], h1, h2, h3, a1, a2, a3, a4⟩
  · exact ⟨evs, ht', evs, [], [], [], [], by simp, h1, h2, h3, .nil, .nil, .nil, .nil⟩
  · exact ⟨evs, ht', evs, [], [], [], [], by simp, h1, h2, h3, .nil, .nil, .nil, .nil⟩

/-- Events of one phase, within its allowance. -/
theorem uploadRead_events (m : MemDom) (addr : Word) (units : Nat) (s : State) :
    ∃ evs, (uploadRead m addr units s).io.trace = s.io.trace ++ evs ∧
      PhaseEvents s.cfg s.w.ph (uploadAllowed s.cfg) evs := by
  obtain ⟨t, ha, ht⟩ := uploadRead_acts m addr units s
  rw [ht]
  exact ha.phaseEvents

theorem countWrites_append (r : Reg) (xs ys : List Event) :
    countWrites r (xs ++ ys) = countWrites r xs + countWrites r ys := by
  induction xs with
  | nil => simp [countWrites]
  | cons x xs ih => simp only [List.cons_append, countWrites, ih]; omega

theorem countWrites_eq_zero (r : Reg) (xs : List Event) (h : ∀ e ∈ xs, ∀ g v, e.op ≠ .qw g r v) :
    countWrites r xs = 0 := by
  induction xs with
  | nil => rfl
  | cons x xs ih =>
    simp only [countWrites]
    rw [ih fun e he => h e (by simp [he])]
    have := h x (by simp)
    split
    · rename_i g r' v hx
      rw [if_neg]
      rintro rfl
      exact this _ _ hx
    all_goals rfl

end Sys2Proof.Machine
end

