-- ==== Sys2Proof/Laws/Results.lean ====
section
/-! SUPPORT. What the phases of a pass compute: the enable masks through phase 3, and the global state that
a pass leaves. -/

namespace Sys2Proof.Machine

/-- The enable bits that the items of a list take from EN[k], ONW[k] and RESTORE[k]. -/
theorem genStopped_cons (c : Cfg) (item : Item) (items : List Item) (k : AeDom) :
    genStopped c (item :: items) k = genStopped c [item] k ||| genStopped c items k := by
  unfold genStopped
  simp only [List.any_cons, List.any_nil, Bool.or_false]
  rcases genEn c with _ | ⟨kg, b⟩
  · simp
  · simp only
    generalize (if kg = k then bit b else 0) = m
    by_cases h : itemStopsGen c item = true <;> by_cases h' : items.any (itemStopsGen c) = true <;>
      simp [h, h']

/-- The masks of `t` are those of `s` without the bits of `m`, and nothing else of group G or of the
bypass bookkeeping has changed. -/
structure Masked (m : AeDom → Byte) (s t : State) : Prop where
  en : ∀ k, t.g.en.get k = s.g.en.get k &&& ~~~m k
  onw : ∀ k, t.w.onw.get k = s.w.onw.get k &&& ~~~m k
  restore : ∀ k, t.w.restore.get k = s.w.restore.get k &&& ~~~m k
  master : t.g.master = s.g.master
  byp : t.g.byp = s.g.byp
  prec : t.w.prec = s.w.prec
  xoff : t.w.xoff = s.w.xoff

theorem and_not_zero (v : Byte) : v &&& ~~~(0 : Byte) = v := by
  rw [show ~~~(0 : Byte) = BitVec.allOnes 8 from rfl, BitVec.and_allOnes]

theorem Masked.none {s t : State} (hg : t.g = s.g) (ho : t.w.onw = s.w.onw)
    (hr : t.w.restore = s.w.restore) (hp : t.w.prec = s.w.prec) (hx : t.w.xoff = s.w.xoff) :
    Masked (fun _ => 0) s t :=
  ⟨fun k => by rw [hg, and_not_zero], fun k => by rw [ho, and_not_zero],
    fun k => by rw [hr, and_not_zero], by rw [hg], by rw [hg], hp, hx⟩

theorem and_not_and_not (v m n : Byte) : v &&& ~~~m &&& ~~~n = v &&& ~~~(m ||| n) := by
  apply BitVec.eq_of_getLsbD_eq
  intro i hi
  simp only [BitVec.getLsbD_and, BitVec.getLsbD_or, BitVec.getLsbD_not, hi, decide_true,
    Bool.true_and]
  cases v.getLsbD i <;> cases m.getLsbD i <;> cases n.getLsbD i <;> rfl

theorem Masked.trans {m n : AeDom → Byte} {s t u : State} (h : Masked m s t) (h' : Masked n t u) :
    Masked (fun k => m k ||| n k) s u :=
  ⟨fun k => by rw [h'.en, h.en, and_not_and_not], fun k => by rw [h'.onw, h.onw, and_not_and_not],
    fun k => by rw [h'.restore, h.restore, and_not_and_not], h'.master.trans h.master,
    h'.byp.trans h.byp, h'.prec.trans h.prec, h'.xoff.trans h.xoff⟩

theorem Masked.congr {m n : AeDom → Byte} {s t : State} (h : Masked m s t) (e : ∀ k, m k = n k) :
    Masked n s t := by
  have : m = n := funext e
  exact this ▸ h

theorem syncQueue_masked (s : State) : Masked (fun _ => 0) s (syncQueue s) :=
  Masked.none (by simp) (by simp) (by simp) (by simp) (by simp)

@[simp] theorem qwForced_w (ps : List (Reg × Byte)) (s : State) :
    (qwForced ps s).w = { s.w with qn := s.w.qn + ps.length } := by rw [qwForced_eq]

@[simp] theorem coefHost_g (addr : Word) (payload : List Byte) (s : State) :
    (coefHost addr payload s).g = s.g := by
  simp [coefHost, qwPayload, writeAddrRegs]

@[simp] theorem coefInternal_g (addr : Word) (payload : List Byte) (s : State) :
    (coefInternal addr payload s).g = s.g := by
  simp [coefInternal, qwPayload, writeAddrRegs]

theorem coefHost_w (addr : Word) (payload : List Byte) (s : State) :
    (coefHost addr payload s).w = { s.w with qn := 0 } := by
  simp [coefHost, qwPayload, writeAddrRegs]

theorem coefInternal_w (addr : Word) (payload : List Byte) (s : State) :
    (coefInternal addr payload s).w = { s.w with qn := 0, trigpend := true } := by
  simp [coefInternal, qwPayload, writeAddrRegs]

theorem auxWrite_g (flags : Byte) (vals : List Byte) (i : Fin 7) (s : State) :
    (auxWrite flags vals i s).g = s.g := by
  unfold auxWrite
  split
  · simp only; split <;> rfl
  · rfl

theorem auxWrite_masked (flags : Byte) (vals : List Byte) (i : Fin 7) (s : State) :
    Masked (fun _ => 0) s (auxWrite flags vals i s) := by
  refine Masked.none (auxWrite_g flags vals i s) ?_ ?_ ?_ ?_ <;> unfold auxWrite <;> split <;>
    simp only <;> (try split) <;> rfl

theorem auxWrites_masked (flags : Byte) (vals : List Byte) (s : State) :
    Masked (fun _ => 0) s (auxWrites flags vals s) := by
  unfold auxWrites
  generalize List.finRange 7 = is
  induction is generalizing s with
  | nil => exact Masked.none rfl rfl rfl rfl rfl
  | cons i is ih =>
    exact ((auxWrite_masked flags vals i s).trans (ih (auxWrite flags vals i s))).congr
      fun k => by simp

theorem bit_getLsbD (b : Fin 8) (i : Nat) : (bit b).getLsbD i = decide (i = b.val) := by
  unfold bit
  rw [BitVec.getLsbD_shiftLeft, BitVec.getLsbD_one]
  have := b.isLt
  by_cases h : i = b.val
  · subst h; simp [this]
  · simp only [h, decide_false]
    by_cases h1 : i < b.val
    · simp [h1]
    · have h2 : i - b.val ≠ 0 := by omega
      simp [h2]

/-- Clearing a bit that is clear changes nothing. -/
theorem and_not_bit {v : Byte} {b : Fin 8} (h : bitSet v b = false) : v &&& ~~~bit b = v := by
  apply BitVec.eq_of_getLsbD_eq
  intro i hi
  simp only [BitVec.getLsbD_and, BitVec.getLsbD_not, hi, decide_true, Bool.true_and, bit_getLsbD]
  by_cases hib : i = b.val
  · subst hib
    have : v.getLsbD b.val = false := h
    rw [this]; rfl
  · simp [hib]

/-- Clearing bits in one of two masks. -/
theorem Two.get_set_and_not (t : Two Byte) (k k' : AeDom) (m : Byte) :
    (t.set k (t.get k &&& ~~~m)).get k' = t.get k' &&& ~~~(if k = k' then m else 0) := by
  rw [Two.get_set]
  by_cases h : k' = k
  · subst h; simp only [if_true]
  · simp only [h, Ne.symm h, if_false, and_not_zero]

/-- A Gen stop request takes Gen's bit out of EN, ONW and RESTORE (rule R157). -/
theorem genStop_masked (c : Cfg) (flags : Byte) (vals : List Byte) (s : State) (hc : s.cfg = c)
    (hf : bitSet flags c.stopFlag = true) :
    Masked (genStopped c [.reg flags vals]) s (genStop s) := by
  subst hc
  unfold genStop genStopped
  simp only [List.any_cons, List.any_nil, Bool.or_false, itemStopsGen, hf, if_true]
  rcases h : genEn s.cfg with _ | ⟨k, b⟩
  · exact Masked.none rfl rfl rfl rfl rfl
  · simp only
    split
    · exact ⟨fun k' => Two.get_set_and_not _ _ _ _, fun k' => Two.get_set_and_not _ _ _ _,
        fun k' => Two.get_set_and_not _ _ _ _, rfl, rfl, rfl, rfl⟩
    · rename_i hr
      have hr' : bitSet (s.g.en.get k) b = false := by simpa [appRunning] using hr
      refine ⟨fun k' => ?_, fun k' => Two.get_set_and_not _ _ _ _,
        fun k' => Two.get_set_and_not _ _ _ _, rfl, rfl, rfl, rfl⟩
      by_cases hk : k = k'
      · subst hk; simp only [if_true]; exact (and_not_bit hr').symm
      · simp only [hk, if_false, and_not_zero]

theorem regItem_masked (c : Cfg) (flags : Byte) (vals : List Byte) (s : State) (hc : s.cfg = c) :
    Masked (genStopped c [.reg flags vals]) s (regItem flags vals s) := by
  have h1 := auxWrites_masked flags vals s
  have hc' : (auxWrites flags vals s).cfg = c := (auxWrites_acts flags vals s).samePhase.cfg.trans hc
  unfold regItem
  simp only
  split
  · rename_i hf
    rw [hc'] at hf
    exact ((h1.trans (genStop_masked c flags vals _ hc' hf)).trans (syncQueue_masked _)).congr
      fun k => by simp
  · rename_i hf
    rw [hc'] at hf
    refine (h1.trans (syncQueue_masked _)).congr fun k => ?_
    simp [genStopped, itemStopsGen, hf]

theorem downloadStep_masked (c : Cfg) (item : Item) (s : State) (hc : s.cfg = c) :
    Masked (genStopped c [item]) s (downloadStep item s) := by
  have hstep : ∀ t : State, Masked (fun _ => 0) t { t with w := { t.w with ix := t.w.ix + 1 } } :=
    fun t => Masked.none rfl rfl rfl rfl rfl
  have hz : ∀ i : Item, itemStopsGen c i = false → ∀ k, (0 : Byte) = genStopped c [i] k := by
    intro i h k; simp [genStopped, h]
  cases item with
  | fw => exact (hstep s).congr (hz _ rfl)
  | skip => exact (hstep s).congr (hz _ rfl)
  | reg flags vals =>
    exact ((regItem_masked c flags vals s hc).trans (hstep _)).congr fun k => by simp
  | coef a addr payload =>
    have : Masked (fun _ => 0) s (coefItem addr payload s) := by
      unfold coefItem
      split
      · refine Masked.none (by simp) ?_ ?_ ?_ ?_ <;> rw [coefHost_w]
      · refine Masked.none (by simp) ?_ ?_ ?_ ?_ <;> rw [coefInternal_w]
      · exact Masked.none rfl rfl rfl rfl rfl
    exact (this.trans (hstep _)).congr fun k => by rw [← hz _ rfl k]; simp

theorem downloadItems_masked (c : Cfg) (items : List Item) (s : State) (hc : s.cfg = c) :
    Masked (genStopped c items) s (downloadItems items s) := by
  induction items generalizing s with
  | nil => exact (Masked.none rfl rfl rfl rfl rfl).congr fun k => by simp [genStopped]
  | cons item items ih =>
    have h1 := downloadStep_masked c item s hc
    have h2 := ih (downloadStep item s) ((downloadStep_acts item s).samePhase.cfg.trans hc)
    exact (h1.trans h2).congr fun k => (genStopped_cons c item items k).symm

theorem triggerTransfer_masked (s : State) : Masked (fun _ => 0) s (triggerTransfer s) := by
  refine Masked.none (triggerTransfer_g s) ?_ ?_ ?_ ?_ <;> unfold triggerTransfer <;> split <;> simp

/-- Phase 3 as a whole on the masks (rule R157). -/
theorem phaseDownload_masked (s : State) :
    Masked (genStopped s.cfg (passRecord s).items) s (phaseDownload s) := by
  have h0 : Masked (fun _ => 0) s { s with w := { s.w with ph := .download, ix := 0 } } :=
    Masked.none rfl rfl rfl rfl rfl
  exact ((h0.trans (downloadItems_masked s.cfg (passRecord s).items _ rfl)).trans
    (triggerTransfer_masked _)).congr fun k => by simp

/-- Phase 4 on group G (rules R132 to R135). -/
theorem phaseResume_g (s : State) :
    (∀ k, (phaseResume s).g.en.get k = s.g.en.get k ||| s.w.restore.get k ||| s.w.onw.get k) ∧
    (phaseResume s).g.byp = s.g.byp &&& ~~~s.w.prec &&& ~~~s.w.xoff ∧
    (phaseResume s).g.master = masterAfter s.cfg (passRecord s).mdir s.g.master := by
  have e : (phaseResume s).g = (stepR4 (stepR3 (stepR2 (stepR1For .k1 (stepR1For .k0
      { s with w := { s.w with ph := .resume } }))))).g := by simp [phaseResume]
  rw [e, stepR4_g, stepR3_g, stepR2_g, stepR2_prec, stepR2_xoff]
  have h1 := stepR1For_acts .k0 { s with w := { s.w with ph := .resume } }
  have h2 := h1.trans (stepR1For_acts .k1 (stepR1For .k0 { s with w := { s.w with ph := .resume } }))
  have h3 := stepR2_acts (stepR1For .k1 (stepR1For .k0 { s with w := { s.w with ph := .resume } }))
  have h4 := stepR3_acts (stepR2 (stepR1For .k1 (stepR1For .k0 { s with w := { s.w with ph := .resume } })))
  have ha : (stepR3 (stepR2 (stepR1For .k1 (stepR1For .k0
      { s with w := { s.w with ph := .resume } })))).w.ar = s.w.ar :=
    h4.samePhase.ar.trans (h3.samePhase.ar.trans h2.samePhase.ar)
  have hc : (stepR3 (stepR2 (stepR1For .k1 (stepR1For .k0
      { s with w := { s.w with ph := .resume } })))).cfg = s.cfg :=
    h4.samePhase.cfg.trans (h3.samePhase.cfg.trans h2.samePhase.cfg)
  refine ⟨fun k => ?_, rfl, ?_⟩
  · cases k <;> rfl
  · simp only [passRecord_congr ha, hc]
    rfl

/-- Stops off, what was cleared for the transfer back, starts on, a Gen stop last (rule R139). -/
theorem enAfter_eq (e off tc on m : Byte) :
    ((e &&& ~~~(off ||| tc)) &&& ~~~m) ||| ((tc &&& e &&& ~~~off) &&& ~~~m) ||| (on &&& ~~~m) =
      ((e &&& ~~~off) ||| on) &&& ~~~m := by
  apply BitVec.eq_of_getLsbD_eq
  intro i hi
  simp only [BitVec.getLsbD_and, BitVec.getLsbD_or, BitVec.getLsbD_not, hi, decide_true,
    Bool.true_and]
  cases e.getLsbD i <;> cases off.getLsbD i <;> cases tc.getLsbD i <;> cases on.getLsbD i <;>
    cases m.getLsbD i <;> rfl

/-- What the rest of a pass past its waits leaves in group G. -/
theorem quiesceSilent_g (s : State) :
    (∀ k, (quiesceSilent s).g.en.get k = enAfter s.cfg (passRecord s).items
      ((passRecord s).off.get k) ((passRecord s).on.get k) (s.g.en.get k) k) ∧
    (quiesceSilent s).g.byp = s.g.byp &&& ~~~s.w.prec &&& ~~~s.w.xoff ∧
    (quiesceSilent s).g.master = masterAfter s.cfg (passRecord s).mdir s.g.master := by
  have h4 := stepQ4_acts s 0
  have hr : passRecord (stepQ4 s) = passRecord s := passRecord_congr h4.samePhase.ar
  have hd := phaseDownload_masked (stepQ4 s)
  rw [hr, h4.samePhase.cfg] at hd
  obtain ⟨r1, r2, r3⟩ := phaseResume_g (phaseDownload (stepQ4 s))
  have ha : passRecord (phaseDownload (stepQ4 s)) = passRecord s := by
    refine (passRecord_congr ?_).trans hr
    exact (triggerTransfer_acts _).samePhase.ar.trans (downloadItems_acts _ _).samePhase.ar
  have hc : (phaseDownload (stepQ4 s)).cfg = s.cfg :=
    ((triggerTransfer_acts _).samePhase.cfg.trans (downloadItems_acts _ _).samePhase.cfg).trans
      h4.samePhase.cfg
  refine ⟨fun k => ?_, ?_, ?_⟩
  · show (phaseResume (phaseDownload (stepQ4 s))).g.en.get k = _
    rw [r1, hd.en, hd.restore, hd.onw, stepQ4_restore, stepQ4_g, stepQ4_onw]
    have : ({ k0 := clearedEn s .k0, k1 := clearedEn s .k1 } : Two Byte).get k = clearedEn s k := by
      cases k <;> rfl
    rw [this]
    exact enAfter_eq _ _ _ _ _
  · show (phaseResume (phaseDownload (stepQ4 s))).g.byp = _
    rw [r2, hd.byp, hd.prec, hd.xoff, stepQ4_g, stepQ4_prec, stepQ4_xoff]
  · show (phaseResume (phaseDownload (stepQ4 s))).g.master = _
    rw [r3, hd.master, ha, hc, stepQ4_g]

end Sys2Proof.Machine
end

