-- ==== Sys2Proof/Laws/Accesses.lean ====
section
/-! SUPPORT. The register accesses of each step of a pass, without the flushes, and what a pass past its
waits emits as a whole (Safety.lean's `accessesPastWaits`). -/

namespace Sys2Proof.Machine

/-! ## Accesses of traces -/

theorem accesses_append (xs ys : List Event) : accesses (xs ++ ys) = accesses xs ++ accesses ys :=
  List.filter_append ..

@[simp] theorem eventsIn_append (p : Phase) (xs ys : List PortOp) :
    eventsIn p (xs ++ ys) = eventsIn p xs ++ eventsIn p ys := List.map_append

@[simp] theorem eventsIn_nil (p : Phase) : eventsIn p [] = [] := rfl

/-- Operations none of which is a flush are all accesses. -/
theorem accesses_eventsIn {p : Phase} {ops : List PortOp} (h : ∀ op ∈ ops, op ≠ .flush) :
    accesses (eventsIn p ops) = eventsIn p ops := by
  refine List.filter_eq_self.2 fun e he => ?_
  obtain ⟨op, hop, rfl⟩ := List.mem_map.1 he
  simpa using h op hop

/-- The accesses so far. -/
def accessed (s : State) : List Event := accesses s.io.trace

@[simp] theorem accessed_qw (g : Gate) (r : Reg) (v : Byte) (s : State) :
    accessed (qw g r v s) = accessed s ++ eventsIn s.w.ph [.qw g r v] := by
  simp [accessed, accesses, eventsIn]

@[simp] theorem accessed_syncQueue (s : State) : accessed (syncQueue s) = accessed s := by
  rw [accessed, syncQueue_trace, accesses_append]
  split <;> simp [accesses, accessed]

@[simp] theorem accessed_rdReg (r : Reg) (s : State) :
    accessed (rdReg r s) = accessed s ++ eventsIn s.w.ph [.rd r (rdReg r s).io.rdata] := by
  rw [accessed, rdReg_trace]
  split <;> simp [accessed, accesses, eventsIn]

@[simp] theorem accessed_finish (v : Word) (s : State) : accessed (finish v s) = accessed s := rfl

@[simp] theorem accessed_qwForced (ps : List (Reg × Byte)) (s : State) :
    accessed (qwForced ps s) = accessed s ++ eventsIn s.w.ph (ps.map fun p => .qw .forced p.1 p.2) := by
  rw [qwForced_eq]
  show accesses (s.io.trace ++ _) = _
  rw [accesses_append]
  congr 1
  have := accesses_eventsIn (p := s.w.ph) (ops := ps.map fun p => .qw .forced p.1 p.2)
    (by intro op h; obtain ⟨p, _, rfl⟩ := List.mem_map.1 h; simp)
  simpa [eventsIn, Function.comp_def] using this

theorem accessed_waitPoll (w : WaitName) (s : State) :
    accessed (waitPoll w s) = accessed s ++ waitEvents s.w.ph w (waitPoll w s).io.waitRes := by
  rw [accessed, waitPoll_trace, accesses_append]
  show accessed (syncQueue s) ++ _ = _
  rw [accessed_syncQueue]
  congr 1
  cases (waitPoll w s).io.waitRes <;> simp [waitEvents, accesses]

/-- A wait that returned OK. -/
theorem accessed_waitPoll_ok {w : WaitName} {s : State} (h : (waitPoll w s).io.waitRes = .ok) :
    accessed (waitPoll w s) = accessed s ++ eventsIn s.w.ph [.wait w true] := by
  rw [accessed_waitPoll, h]; rfl

@[simp] theorem accessed_writeEn (k : AeDom) (v : Byte) (s : State) :
    accessed (writeEn k v s) = accessed s ++ eventsIn s.w.ph [.qw .gated (s.cfg.rEn.get k) v] :=
  accessed_qw ..

/-! ## Phase 2 -/

theorem foldl_or {α : Type} (p : α → Prop) [DecidablePred p] (f : α → Byte) (l : List α) (z : Byte) :
    l.foldl (fun n x => if p x then n ||| f x else n) z =
      (l.map fun x => if p x then f x else 0).foldl (fun n m => n ||| m) z := by
  induction l generalizing z with
  | nil => rfl
  | cons x l ih =>
    rw [List.foldl_cons, ih, List.map_cons, List.foldl_cons]
    by_cases h : p x <;> simp [h]

/-- The model's masks are those of rule R123. -/
theorem askedBits_eq (c : Cfg) (r : AnalysisRecord) (d : Directive) :
    askedBits c r d = bypassAsked c r d := by
  unfold askedBits bypassAsked
  rw [foldl_or (fun k => r.bdir.get k = d)]
  simp only [List.map, List.foldl, BitVec.ofNat_eq_ofNat, BitVec.zero_or]
  rfl

theorem needBits_eq (c : Cfg) (r : AnalysisRecord) : needBits c r = bypassNeed c r := by
  unfold needBits bypassNeed changeMask
  simp only
  rw [foldl_or (fun k => r.on.get k ||| r.off.get k ||| r.gs.get k ≠ 0),
    foldl_or (fun d => r.ctgt.get d ≠ 0)]
  by_cases h : r.mode = .host <;> simp [h]

theorem sineAtStake_eq (c : Cfg) (r : AnalysisRecord) (src : SinSrc) :
    sineAtStake c r src = (decide (src = .reg) && genAffected c r) := rfl

theorem bypAfterQ1_eq (s : State) : bypAfterQ1 s.cfg (passRecord s) s.g.byp = bypassOn s := by
  rw [bypAfterQ1, needBits_eq, askedBits_eq]; rfl

theorem accessed_stepQ1 (s : State) :
    accessed (stepQ1 s) = accessed s ++
      eventsIn s.w.ph (if bypassOn s ≠ s.g.byp then [.qw .gated s.cfg.rByp (bypassOn s)] else []) := by
  unfold stepQ1 writeByp
  simp only
  split
  · rw [accessed_qw]; rfl
  · rw [eventsIn_nil, List.append_nil]; rfl

/-- Step Q2: the read if the sine is at stake, and the silencing if it was on (rule R126). -/
theorem stepQ2_cases (s : State) :
    ∃ v, (∀ u rest, s.orc.reads = u :: rest → v = u) ∧
      accessed (stepQ2 s) = accessed s ++ eventsIn s.w.ph
        ((if sineAtStake s.cfg (passRecord s) s.g.sinsrc then [.rd s.cfg.rSinout v] else []) ++
         (if sineAtStake s.cfg (passRecord s) s.g.sinsrc && decide (v ≠ s.cfg.vSinInactive) then
           [.qw .gated s.cfg.rSinout s.cfg.vSinInactive] else [])) ∧
      (stepQ2 s).w.sil =
        ((sineAtStake s.cfg (passRecord s) s.g.sinsrc && decide (v ≠ s.cfg.vSinInactive)) || s.w.sil) ∧
      ((sineAtStake s.cfg (passRecord s) s.g.sinsrc && decide (v ≠ s.cfg.vSinInactive)) = true →
        (stepQ2 s).w.sinsave = v) := by
  by_cases h : s.g.sinsrc = .reg ∧ genAffected s.cfg (passRecord s) = true
  · have hs : sineAtStake s.cfg (passRecord s) s.g.sinsrc = true := by
      rw [sineAtStake_eq]; simpa using h
    refine ⟨(rdReg s.cfg.rSinout s).io.rdata, fun u rest hu => (rdReg_answer _ s hu).1, ?_⟩
    simp only [stepQ2, if_pos h, hs, Bool.true_and, if_true, rdReg_cfg]
    by_cases hv : (rdReg s.cfg.rSinout s).io.rdata = s.cfg.vSinInactive
    · rw [if_neg (by simpa using hv), if_neg (by simpa using hv)]
      refine ⟨by rw [List.append_nil]; exact accessed_rdReg _ _, by simp [hv], by simp [hv]⟩
    · rw [if_pos hv, if_pos (by simpa using hv)]
      refine ⟨?_, by simp [hv], fun _ => rfl⟩
      rw [accessed_qw, eventsIn_append, ← List.append_assoc, ← accessed_rdReg]
      show accessed (rdReg s.cfg.rSinout s) ++ eventsIn (rdReg s.cfg.rSinout s).w.ph _ = _
      simp
  · have hs : sineAtStake s.cfg (passRecord s) s.g.sinsrc = false := by
      rw [sineAtStake_eq]
      rcases not_and_or.1 h with h | h <;> simp [h]
    obtain ⟨v, hv⟩ : ∃ v, ∀ u rest, s.orc.reads = u :: rest → v = u := by
      cases s.orc.reads with
      | nil => exact ⟨0, by simp⟩
      | cons u rest => exact ⟨u, by rintro _ _ ⟨⟩; rfl⟩
    exact ⟨v, hv, by simp [stepQ2, if_neg h, hs]⟩

theorem accessed_stepQ4For (k : AeDom) (s : State) :
    accessed (stepQ4For k s) = accessed s ++ eventsIn s.w.ph
      (if (passRecord s).off.get k ||| (xclr (passRecord s) k &&& s.g.en.get k) ≠ 0 then
        [.qw .gated (s.cfg.rEn.get k) (s.g.en.get k &&&
          ~~~((passRecord s).off.get k ||| (xclr (passRecord s) k &&& s.g.en.get k)))] else []) := by
  unfold stepQ4For writeEn
  simp only
  have : transferClear (passRecord s) k = xclr (passRecord s) k := rfl
  rw [this]
  split
  · rw [accessed_qw]; rfl
  · rw [eventsIn_nil, List.append_nil]; rfl

theorem stepQ4For_ph (k : AeDom) (s : State) : (stepQ4For k s).w.ph = s.w.ph := by
  unfold stepQ4For; simp only; split <;> rfl

theorem stepQ4For_sil (k : AeDom) (s : State) : (stepQ4For k s).w.sil = s.w.sil := by
  unfold stepQ4For; simp only; split <;> rfl

theorem stepQ4For_sinsave (k : AeDom) (s : State) : (stepQ4For k s).w.sinsave = s.w.sinsave := by
  unfold stepQ4For; simp only; split <;> rfl

theorem accessed_stepQ4 (s : State) :
    accessed (stepQ4 s) = accessed s ++
      eventsIn s.w.ph (clearAccesses s.cfg (passRecord s) s.g.en) := by
  have hr := passRecord_congr (stepQ4For_ar .k0 s)
  have he : (stepQ4For .k0 s).g.en.get .k1 = s.g.en.get .k1 := by rw [stepQ4For_g]; rfl
  rw [stepQ4, accessed_syncQueue, accessed_stepQ4For, accessed_stepQ4For, hr, he, stepQ4For_ph,
    stepQ4For_cfg, List.append_assoc, ← eventsIn_append]
  simp [clearAccesses]

theorem enAfterQ4_eq (s : State) : (stepQ4 s).g.en = enAfterQ4 (passRecord s) s.g.en := by
  rw [stepQ4_g]; rfl

/-! ## Phase 3 -/

theorem accessed_coefItem (addr : Word) (payload : List Byte) (a : AppId) (en : Two Byte) (s : State) :
    accessed (coefItem addr payload s) = accessed s ++ eventsIn s.w.ph
      (itemAccesses s.cfg (passRecord s).mode en (.coef a addr payload)) := by
  unfold coefItem itemAccesses
  cases h : (passRecord s).mode
  · simp
  · simp only [coefInternal, qwPayload, writeAddrRegs, accessed_syncQueue]
    show accessed (qwForced _ _) = _
    simp [List.append_assoc, eventsIn]
  · simp only [coefHost, qwPayload, writeAddrRegs, accessed_syncQueue]
    simp [List.append_assoc, eventsIn]

theorem accessed_auxWrite (flags : Byte) (vals : List Byte) (i : Fin 7) (s : State) :
    accessed (auxWrite flags vals i s) = accessed s ++ eventsIn s.w.ph
      (if flags.getLsbD i.val then [.qw .gated s.cfg.rAux[i] (byteAt vals i.val)] else []) := by
  unfold auxWrite
  have : bitSet flags (i.castLE (by decide)) = flags.getLsbD i.val := rfl
  rw [this]
  cases flags.getLsbD i.val
  · simp
  · simp only [if_true]
    split
    · exact accessed_qw ..
    · exact accessed_qw ..

theorem auxWrite_w (flags : Byte) (vals : List Byte) (i : Fin 7) (s : State) :
    (auxWrite flags vals i s).w.sil = (s.w.sil && !(decide (i = s.cfg.sinSlot) &&
      flags.getLsbD i.val && decide (byteAt vals i.val = s.cfg.vSinInactive))) ∧
    (auxWrite flags vals i s).w.sinsave = s.w.sinsave ∧
    (auxWrite flags vals i s).w.trigpend = s.w.trigpend ∧
    (auxWrite flags vals i s).w.ph = s.w.ph := by
  unfold auxWrite
  have : bitSet flags (i.castLE (by decide)) = flags.getLsbD i.val := rfl
  rw [this]
  cases flags.getLsbD i.val
  · simp
  · simp only [if_true]
    by_cases h : i = s.cfg.sinSlot ∧ byteAt vals i.val = s.cfg.vSinInactive
    · rw [if_pos (by simpa using h)]; simp [h.1 ▸ h.2, h]
    · rw [if_neg (by simpa using h)]
      rcases not_and_or.1 h with h | h <;> simp [h]

theorem auxWrites_facts (flags : Byte) (vals : List Byte) (is : List (Fin 7)) (s : State) :
    accessed (is.foldl (fun s i => auxWrite flags vals i s) s) = accessed s ++ eventsIn s.w.ph
      (is.filterMap fun i =>
        if flags.getLsbD i.val then some (.qw .gated s.cfg.rAux[i] (byteAt vals i.val)) else none) ∧
    (is.foldl (fun s i => auxWrite flags vals i s) s).w.sil = (s.w.sil && !is.any (fun i =>
      decide (i = s.cfg.sinSlot) && flags.getLsbD i.val &&
        decide (byteAt vals i.val = s.cfg.vSinInactive))) ∧
    (is.foldl (fun s i => auxWrite flags vals i s) s).w.sinsave = s.w.sinsave ∧
    (is.foldl (fun s i => auxWrite flags vals i s) s).w.trigpend = s.w.trigpend ∧
    (is.foldl (fun s i => auxWrite flags vals i s) s).w.ph = s.w.ph := by
  induction is generalizing s with
  | nil => simp
  | cons i is ih =>
    obtain ⟨h1, h2, h3, h4, h5⟩ := ih (auxWrite flags vals i s)
    obtain ⟨w1, w2, w3, w4⟩ := auxWrite_w flags vals i s
    have hc : (auxWrite flags vals i s).cfg = s.cfg := (auxWrite_acts flags vals i s).samePhase.cfg
    rw [List.foldl_cons, h1, h2, h3, h4, h5, w1, w2, w3, w4, hc, accessed_auxWrite]
    refine ⟨?_, ?_, rfl, rfl, rfl⟩
    · rw [List.append_assoc, ← eventsIn_append]
      cases h : flags.getLsbD i.val <;> simp [h]
    · simp [Bool.and_assoc]

theorem any_sinSlot (c : Cfg) (f : Fin 7 → Bool) :
    (List.finRange 7).any (fun i => decide (i = c.sinSlot) && f i) = f c.sinSlot := by
  cases h : f c.sinSlot
  · rw [List.any_eq_false]
    intro i _ hi
    simp only [Bool.and_eq_true, decide_eq_true_eq] at hi
    rw [hi.1, h] at hi
    exact absurd hi.2 (by simp)
  · exact List.any_eq_true.2 ⟨c.sinSlot, List.mem_finRange _, by simp [h]⟩

theorem accessed_genStop (s : State) :
    accessed (genStop s) = accessed s ++ eventsIn s.w.ph (match genEn s.cfg with
      | some (k, b) => if bitSet (s.g.en.get k) b = true then
          [.qw .gated (s.cfg.rEn.get k) (s.g.en.get k &&& ~~~bit b)] else []
      | none => []) := by
  unfold genStop
  rcases h : genEn s.cfg with _ | ⟨k, b⟩
  · simp
  · simp only
    split
    · rename_i hb
      rw [if_pos (show bitSet (s.g.en.get k) b = true from hb), accessed_writeEn]
      rfl
    · rename_i hb
      rw [if_neg (show ¬bitSet (s.g.en.get k) b = true from hb), eventsIn_nil, List.append_nil]
      rfl

theorem genStop_w (s : State) :
    (genStop s).w.sil = s.w.sil ∧ (genStop s).w.sinsave = s.w.sinsave ∧
    (genStop s).w.trigpend = s.w.trigpend := by
  unfold genStop
  rcases genEn s.cfg with _ | ⟨k, b⟩
  · simp
  · simp only [writeEn]; split <;> simp

/-- A REG item: its writes, and what it leaves of the silence bookkeeping (rules R155 to R157). -/
theorem regItem_facts (flags : Byte) (vals : List Byte) (m : Mode) (s : State) :
    accessed (regItem flags vals s) = accessed s ++
      eventsIn s.w.ph (itemAccesses s.cfg m s.g.en (.reg flags vals)) ∧
    (regItem flags vals s).w.sil = (s.w.sil && !cancelsSilence s.cfg (.reg flags vals)) ∧
    (regItem flags vals s).w.sinsave = s.w.sinsave ∧
    (regItem flags vals s).w.trigpend = s.w.trigpend := by
  obtain ⟨h1, h2, h3, h4, h5⟩ := auxWrites_facts flags vals (List.finRange 7) s
  change accessed (auxWrites flags vals s) = _ at h1
  change (auxWrites flags vals s).w.sil = _ at h2
  change (auxWrites flags vals s).w.sinsave = _ at h3
  change (auxWrites flags vals s).w.trigpend = _ at h4
  change (auxWrites flags vals s).w.ph = _ at h5
  simp only [Bool.and_assoc] at h2
  rw [any_sinSlot s.cfg (fun i => flags.getLsbD i.val && decide (byteAt vals i.val = s.cfg.vSinInactive))] at h2
  have hc : (auxWrites flags vals s).cfg = s.cfg := (auxWrites_acts flags vals s).samePhase.cfg
  have hg : (auxWrites flags vals s).g = s.g := by
    unfold auxWrites
    generalize List.finRange 7 = is
    clear h1 h2 h3 h4 h5 hc
    induction is generalizing s with
    | nil => rfl
    | cons i is ih => rw [List.foldl_cons, ih, auxWrite_g]
  unfold regItem itemAccesses
  simp only [hc, syncQueue_w, accessed_syncQueue]
  by_cases hf : bitSet flags s.cfg.stopFlag = true
  · obtain ⟨g1, g2, g3⟩ := genStop_w (auxWrites flags vals s)
    simp only [hf, if_true, true_and, g1, g2, g3, h2, h3, h4, accessed_genStop, h1, h5, hc, hg]
    rw [List.append_assoc, ← eventsIn_append]
    rcases genEn s.cfg with _ | ⟨k, b⟩ <;> simp [cancelsSilence]
  · simp only [hf, false_and, if_false, Bool.false_eq_true, h1, h2, h3, h4]
    rcases genEn s.cfg with _ | ⟨k, b⟩ <;> simp [cancelsSilence]

theorem Masked.en_eq {c : Cfg} {item : Item} {s t : State} (h : Masked (genStopped c [item]) s t) :
    t.g.en = itemEn c s.g.en item := by
  have h0 := h.en .k0
  have h1 := h.en .k1
  rcases he : t.g.en with ⟨e0, e1⟩
  rw [he] at h0 h1
  simp only [itemEn, Two.mk.injEq]
  exact ⟨h0, h1⟩

/-- An item of phase 3 on everything a pass carries on (rules R130, R151 to R158). -/
theorem downloadStep_facts (item : Item) (s : State) :
    accessed (downloadStep item s) = accessed s ++
      eventsIn s.w.ph (itemAccesses s.cfg (passRecord s).mode s.g.en item) ∧
    (downloadStep item s).w.sil = (s.w.sil && !cancelsSilence s.cfg item) ∧
    (downloadStep item s).w.sinsave = s.w.sinsave ∧
    (downloadStep item s).w.trigpend =
      (s.w.trigpend || (decide ((passRecord s).mode = .int) && isCoef item)) := by
  cases item with
  | fw => simp [downloadStep, downloadItem, itemAccesses, cancelsSilence, isCoef, accessed]
  | skip => simp [downloadStep, downloadItem, itemAccesses, cancelsSilence, isCoef, accessed]
  | reg flags vals =>
    obtain ⟨h1, h2, h3, h4⟩ := regItem_facts flags vals (passRecord s).mode s
    exact ⟨h1, h2, h3, h4.trans (by simp [isCoef])⟩
  | coef a addr payload =>
    refine ⟨accessed_coefItem addr payload a s.g.en s, ?_⟩
    simp only [downloadStep, downloadItem, coefItem, cancelsSilence, isCoef]
    cases (passRecord s).mode <;> simp [coefHost_w, coefInternal_w]

theorem downloadItems_facts (items : List Item) (s : State) :
    accessed (downloadItems items s) = accessed s ++
      eventsIn s.w.ph (downloadAccesses s.cfg (passRecord s).mode s.g.en items) ∧
    (downloadItems items s).w.sil = (s.w.sil && !items.any (cancelsSilence s.cfg)) ∧
    (downloadItems items s).w.sinsave = s.w.sinsave ∧
    (downloadItems items s).w.trigpend =
      (s.w.trigpend || (decide ((passRecord s).mode = .int) && items.any isCoef)) := by
  induction items generalizing s with
  | nil => simp [downloadItems, downloadAccesses]
  | cons item items ih =>
    obtain ⟨h1, h2, h3, h4⟩ := ih (downloadStep item s)
    obtain ⟨w1, w2, w3, w4⟩ := downloadStep_facts item s
    have ha := (downloadStep_acts item s).samePhase
    rw [passRecord_congr ha.ar] at h1 h4
    rw [downloadItems, h1, h2, h3, h4, w1, w2, w3, w4, ha.cfg, ha.ph,
      (downloadStep_masked s.cfg item s rfl).en_eq, List.append_assoc, ← eventsIn_append]
    refine ⟨rfl, by simp [Bool.and_assoc], rfl, ?_⟩
    cases s.w.trigpend <;> cases decide ((passRecord s).mode = .int) <;> simp

theorem accessed_triggerTransfer (s : State) :
    accessed (triggerTransfer s) = accessed s ++
      eventsIn s.w.ph (if s.w.trigpend then [.qw .forced s.cfg.rTrig s.cfg.vTrig] else []) := by
  unfold triggerTransfer
  split
  · show accessed (syncQueue (qw .forced s.cfg.rTrig s.cfg.vTrig s)) = _
    rw [accessed_syncQueue, accessed_qw]
  · simp

/-- Phase 3 as a whole, with no trigger owed before it (rules R130, R131). -/
theorem phaseDownload_facts {s : State} (ht : s.w.trigpend = false) :
    accessed (phaseDownload s) = accessed s ++ eventsIn .download
      (downloadAccesses s.cfg (passRecord s).mode s.g.en (passRecord s).items ++
        triggerAccesses s.cfg (passRecord s)) ∧
    (phaseDownload s).w.sil = (s.w.sil && !(passRecord s).items.any (cancelsSilence s.cfg)) ∧
    (phaseDownload s).w.sinsave = s.w.sinsave := by
  obtain ⟨h1, h2, h3, h4⟩ := downloadItems_facts (passRecord s).items
    { s with w := { s.w with ph := .download, ix := 0 } }
  have ha := (downloadItems_acts (passRecord s).items
    { s with w := { s.w with ph := .download, ix := 0 } }).samePhase
  have hr : passRecord { s with w := { s.w with ph := .download, ix := 0 } } = passRecord s := rfl
  rw [hr] at h1 h4
  rw [ht, Bool.false_or] at h4
  unfold phaseDownload
  refine ⟨?_, ?_, ?_⟩
  · rw [accessed_triggerTransfer, h1, h4, ha.ph, ha.cfg, eventsIn_append, ← List.append_assoc]
    simp only [triggerAccesses, Bool.and_eq_true, decide_eq_true_eq]
    rfl
  · unfold triggerTransfer
    split
    · show (syncQueue (qw _ _ _ _)).w.sil = _
      simp [h2]
    · exact h2
  · unfold triggerTransfer
    split
    · show (syncQueue (qw _ _ _ _)).w.sinsave = _
      simp [h3]
    · exact h3

/-! ## Phase 4, and all that is past the waits -/

theorem accessed_stepR2 (s : State) :
    accessed (stepR2 s) = accessed s ++
      eventsIn s.w.ph (if s.w.sil then [.qw .gated s.cfg.rSinout s.w.sinsave] else []) := by
  unfold stepR2
  split
  · exact accessed_qw ..
  · simp

theorem accessed_stepR3 (s : State) :
    accessed (stepR3 s) = accessed s ++ eventsIn s.w.ph
      (if s.g.byp &&& ~~~s.w.prec &&& ~~~s.w.xoff ≠ s.g.byp then
        [.qw .gated s.cfg.rByp (s.g.byp &&& ~~~s.w.prec &&& ~~~s.w.xoff)] else []) := by
  unfold stepR3
  simp only
  split
  · exact accessed_qw ..
  · simp

theorem accessed_stepR4 (s : State) :
    accessed (stepR4 s) = accessed s ++ eventsIn s.w.ph (match (passRecord s).mdir with
      | .start => [.qw .gated s.cfg.rMctl (s.g.master ||| s.cfg.mByp)]
      | .stop => [.qw .gated s.cfg.rMctl (s.g.master &&& ~~~s.cfg.mByp)]
      | .dc => []) := by
  unfold stepR4
  cases (passRecord s).mdir
  · exact accessed_qw ..
  · exact accessed_qw ..
  · simp

/-- Phase 4 as a whole (rules R132 to R136). -/
theorem accessed_phaseResume (s : State) :
    accessed (phaseResume s) = accessed s ++ eventsIn .resume
      ([.qw .gated s.cfg.rEn.k0 (s.g.en.k0 ||| s.w.restore.k0 ||| s.w.onw.k0),
        .qw .gated s.cfg.rEn.k1 (s.g.en.k1 ||| s.w.restore.k1 ||| s.w.onw.k1)] ++
       (if s.w.sil then [.qw .gated s.cfg.rSinout s.w.sinsave] else []) ++
       (if s.g.byp &&& ~~~s.w.prec &&& ~~~s.w.xoff ≠ s.g.byp then
          [.qw .gated s.cfg.rByp (s.g.byp &&& ~~~s.w.prec &&& ~~~s.w.xoff)] else []) ++
       (match (passRecord s).mdir with
        | .start => [.qw .gated s.cfg.rMctl (s.g.master ||| s.cfg.mByp)]
        | .stop => [.qw .gated s.cfg.rMctl (s.g.master &&& ~~~s.cfg.mByp)]
        | .dc => [])) := by
  have h2 := (stepR2_acts (stepR1For .k1 (stepR1For .k0 { s with w := { s.w with ph := .resume } }))).samePhase
  have h3 := (stepR3_acts (stepR2 (stepR1For .k1 (stepR1For .k0 { s with w := { s.w with ph := .resume } })))).samePhase
  have hph : (stepR1For .k1 (stepR1For .k0 { s with w := { s.w with ph := .resume } })).w.ph = .resume := rfl
  have hr : passRecord (stepR1For .k1 (stepR1For .k0 { s with w := { s.w with ph := .resume } })) = passRecord s := rfl
  have hcfg : (stepR1For .k1 (stepR1For .k0 { s with w := { s.w with ph := .resume } })).cfg = s.cfg := rfl
  simp only [phaseResume, accessed_finish, accessed_syncQueue]
  rw [accessed_stepR4, accessed_stepR3, accessed_stepR2, stepR3_g, stepR2_g, stepR2_prec, stepR2_xoff,
    passRecord_congr (h3.ar.trans h2.ar), hr, h3.cfg, h2.cfg, h3.ph, h2.ph, hph, hcfg]
  simp only [stepR1For, accessed_writeEn, List.append_assoc, ← eventsIn_append]
  rfl

/-- What a pass emits past its waits (rules R128 to R136). -/
theorem accessed_quiesceSilent {s : State} (hp : s.w.ph = .quiesce) (ht : s.w.trigpend = false) :
    accessed (quiesceSilent s) = accessed s ++ accessesPastWaits s.cfg (passRecord s) s.g
      (if s.w.sil then some s.w.sinsave else none) (s.g.byp &&& ~~~s.w.prec &&& ~~~s.w.xoff) := by
  have h4 := (stepQ4_acts s 0).samePhase
  have hr : passRecord (stepQ4 s) = passRecord s := passRecord_congr h4.ar
  obtain ⟨d1, d2, d3⟩ := phaseDownload_facts (s := stepQ4 s) (by rw [stepQ4_trigpend]; exact ht)
  have hd := phaseDownload_masked (stepQ4 s)
  have hdr : passRecord (phaseDownload (stepQ4 s)) = passRecord s := by
    refine (passRecord_congr ?_).trans hr
    exact (triggerTransfer_acts _).samePhase.ar.trans (downloadItems_acts _ _).samePhase.ar
  have hdc : (phaseDownload (stepQ4 s)).cfg = s.cfg :=
    ((triggerTransfer_acts _).samePhase.cfg.trans (downloadItems_acts _ _).samePhase.cfg).trans h4.cfg
  obtain ⟨g1, _, _⟩ := quiesceSilent_g s
  obtain ⟨p1, _, _⟩ := phaseResume_g (phaseDownload (stepQ4 s))
  have e0 : (phaseDownload (stepQ4 s)).g.en.k0 ||| (phaseDownload (stepQ4 s)).w.restore.k0 |||
      (phaseDownload (stepQ4 s)).w.onw.k0 = enAfter s.cfg (passRecord s).items (passRecord s).off.k0
        (passRecord s).on.k0 s.g.en.k0 .k0 := (p1 .k0).symm.trans (g1 .k0)
  have e1 : (phaseDownload (stepQ4 s)).g.en.k1 ||| (phaseDownload (stepQ4 s)).w.restore.k1 |||
      (phaseDownload (stepQ4 s)).w.onw.k1 = enAfter s.cfg (passRecord s).items (passRecord s).off.k1
        (passRecord s).on.k1 s.g.en.k1 .k1 := (p1 .k1).symm.trans (g1 .k1)
  have hsil : (stepQ4 s).w.sil = s.w.sil := by
    rw [stepQ4, syncQueue_w, stepQ4For_sil, stepQ4For_sil]
  have hsave : (stepQ4 s).w.sinsave = s.w.sinsave := by
    rw [stepQ4, syncQueue_w, stepQ4For_sinsave, stepQ4For_sinsave]
  rw [quiesceSilent, accessed_phaseResume, e0, e1, d1, accessed_stepQ4, d2, d3, hd.byp, hd.prec, hd.xoff,
    hd.master, hdr, hdc, hr, h4.cfg, hp, stepQ4_prec, stepQ4_xoff, enAfterQ4_eq, hsil, hsave]
  have hgb : (stepQ4 s).g.byp = s.g.byp := by rw [stepQ4_g]
  have hgm : (stepQ4 s).g.master = s.g.master := by rw [stepQ4_g]
  rw [hgb, hgm]
  simp only [accessesPastWaits, resumeAccesses, List.append_assoc]
  congr 4
  cases s.w.sil <;> cases (passRecord s).items.any (cancelsSilence s.cfg) <;> rfl

end Sys2Proof.Machine
end

