-- ==== Sys2Proof/Laws/Admissible.lean ====
section
/-! SUPPORT. What an admissible configuration gives a proof: registers that are apart, error codes that
are no success, an address width that the address registers fill. -/

namespace Sys2Proof.Machine

theorem admissible_parts {c : Cfg} (h : admissible c = true) :
    rangesOk c = true ∧ appsOk c = true ∧ masksOk c = true ∧ regsOk c = true ∧ tagsOk c = true ∧
      layoutOk c = true ∧ codesOk c = true := by
  simpa only [admissible, Bool.and_eq_true] using h

/-- The registers the block writes and R_TRANS are pairwise distinct (R6 (7)). -/
theorem admissible_regs_nodup {c : Cfg} (h : admissible c = true) :
    (c.rTrans :: writtenRegs c).Nodup := by
  obtain ⟨_, _, _, h, _⟩ := admissible_parts h
  simp only [regsOk, Bool.and_eq_true, decide_eq_true_eq] at h
  exact h.1.1

theorem admissible_sinout_mem_aux {c : Cfg} (h : admissible c = true) : c.rSinout ∈ c.rAux.toList := by
  obtain ⟨_, _, _, h, _⟩ := admissible_parts h
  simp only [regsOk, Bool.and_eq_true, decide_eq_true_eq] at h
  rw [← h.1.2]
  simp

/-- No register of a wait is written (R6 (7), R38). -/
theorem admissible_wait_unwritten {c : Cfg} (h : admissible c = true) (w : WaitName) :
    (c.wait w).reg ∉ writtenRegs c := by
  obtain ⟨_, _, _, h, _⟩ := admissible_parts h
  simp only [regsOk, Bool.and_eq_true, List.all_eq_true, decide_eq_true_eq] at h
  cases w <;> exact h.2 _ (by simp [waitRegs, Cfg.wait])

/-- A wait never moves the block-memory pointer. -/
theorem admissible_wait_rBmd {c : Cfg} (h : admissible c = true) (w : WaitName) :
    (c.wait w).reg ≠ c.rBmd := fun e =>
  admissible_wait_unwritten h w (by rw [e]; simp [writtenRegs])

/-- The device side of a wait's read does nothing. -/
theorem admissible_wait_blockPortRead {c : Cfg} (h : admissible c = true) (w : WaitName)
    (hw : Hardware) : blockPortRead c (c.wait w).reg hw = hw := by
  unfold blockPortRead
  rw [if_neg (admissible_wait_rBmd h w)]

/-- Every protection mask is a mask of bypass bits (R5, log 16). -/
theorem admissible_prot {c : Cfg} (h : admissible c = true) (d : Domain) :
    c.prot.get d &&& ~~~(c.bypBit.k0 ||| c.bypBit.k1) = 0 := by
  obtain ⟨_, _, h, _⟩ := admissible_parts h
  simp only [masksOk, bypassBitsOnly, Bool.and_eq_true, decide_eq_true_eq] at h
  obtain ⟨_, ⟨⟨h1, h2⟩, h3⟩, h4⟩ := h
  cases d <;> assumption

/-- The two error codes differ from success and from each other (R6 (11)). -/
theorem admissible_codes {c : Cfg} (h : admissible c = true) :
    c.eRuntime ≠ 0 ∧ c.eMalformed ≠ 0 ∧ c.eMalformed ≠ c.eRuntime := by
  obtain ⟨_, _, _, _, _, _, h⟩ := admissible_parts h
  simp [codesOk] at h
  obtain ⟨⟨⟨_, h1⟩, h2⟩, h3⟩ := h
  refine ⟨fun e => ?_, fun e => ?_, h3⟩
  · rw [e] at h2; simp at h2
  · rw [e] at h1; simp at h1

/-- The directive codes are apart (R6 (10)). -/
theorem admissible_directives {c : Cfg} (h : admissible c = true) :
    c.dirStop ≠ c.dirStart ∧ c.dirStop ≠ c.dirDc ∧ c.dirStart ≠ c.dirDc := by
  obtain ⟨_, _, _, _, _, _, h⟩ := admissible_parts h
  simp only [codesOk, Bool.and_eq_true, decide_eq_true_eq] at h
  obtain ⟨⟨⟨⟨⟨⟨_, h1⟩, h2⟩, h3⟩, _⟩, _⟩, _⟩ := h
  exact ⟨h1, h2, h3⟩

/-- No two apps share an enable bit (R6 (3)). -/
theorem admissible_en_nodup {c : Cfg} (h : admissible c = true) :
    (c.apps.toList.filterMap (·.en)).Nodup := by
  obtain ⟨_, h, _⟩ := admissible_parts h
  unfold appsOk at h
  simp only [Bool.and_eq_true] at h
  exact of_decide_eq_true h.1.1.1.1.2

theorem admissible_ranges {c : Cfg} (h : admissible c = true) :
    c.addrW % 8 = 0 ∧ 0 < c.addrW ∧ c.addrW ≤ 32 ∧ c.rBma.length = c.addrW / 8 := by
  have h := (admissible_parts h).1
  simp only [rangesOk, Bool.and_eq_true, decide_eq_true_eq] at h
  exact ⟨h.2.1, h.1, h.2.2.1, h.2.2.2.1⟩

/-- The registers of the block-memory port are apart. -/
theorem admissible_blockRegs {c : Cfg} (h : admissible c = true) :
    c.rBma.Nodup ∧ c.rBmd ∉ c.rBma ∧ c.rBmctl ∉ c.rBma ∧ c.rBmctl ≠ c.rBmd := by
  have hn := admissible_regs_nodup h
  simp only [writtenRegs] at hn
  have h1 := (List.nodup_cons.1 hn).2
  simp [List.nodup_append] at h1
  obtain ⟨_, _, _, _, _, ⟨h2, ⟨⟨h3, _⟩, _⟩, h4⟩, _⟩ := h1
  exact ⟨h2, fun h => (h4 _ h).2.1 rfl, fun h => (h4 _ h).1 rfl, h3⟩

end Sys2Proof.Machine
end

