-- ==== Sys2Proof/Laws/Analysis.lean ====
section
/-! SUPPORT. The analyser: what each rule of the walk can do, and induction over the walk. -/

namespace Sys2Proof.Machine

/-! ## The transition rule on single bits -/

theorem bitSet_or_bit (v : Byte) (b b' : Fin 8) :
    bitSet (v ||| bit b) b' = (bitSet v b' || decide (b = b')) := by
  simp only [bitSet, BitVec.getLsbD_or, bit_getLsbD]
  congr 1
  simp [Fin.ext_iff, eq_comm]

theorem bitSet_set_or_bit (t : Two Byte) (k k' : AeDom) (b b' : Fin 8) :
    bitSet ((t.set k (t.get k ||| bit b)).get k') b' =
      (bitSet (t.get k') b' || decide (k = k' ∧ b = b')) := by
  rw [Two.get_set]
  by_cases h : k' = k
  · subst h; simp [bitSet_or_bit]
  · simp [h, Ne.symm h]

/-- What the transition rule does to ON, bit by bit (rule R103). -/
theorem transition_on (en : Two Byte) (d : Directive) (k k' : AeDom) (b b' : Fin 8)
    (r : AnalysisRecord) :
    bitSet ((transition en d k b r).on.get k') b' =
      (bitSet (r.on.get k') b' ||
        decide (k = k' ∧ b = b' ∧ d = .start ∧ bitSet (en.get k') b' = false)) := by
  cases d <;> simp only [transition]
  · split <;> simp
  · split
    · rename_i h
      have h' : bitSet (en.get k) b = true := h
      have : ¬(k = k' ∧ b = b' ∧ True ∧ bitSet (en.get k') b' = false) := by
        rintro ⟨rfl, rfl, _, h2⟩; rw [h'] at h2; simp at h2
      simp only [decide_eq_false this, Bool.or_false]
    · rename_i h
      have h' : bitSet (en.get k) b = false := by simpa [appRunning] using h
      rw [bitSet_set_or_bit]
      congr 1
      apply decide_eq_decide.2
      constructor
      · rintro ⟨rfl, rfl⟩; exact ⟨rfl, rfl, trivial, h'⟩
      · rintro ⟨h1, h2, _⟩; exact ⟨h1, h2⟩
  · simp

/-- What the transition rule does to OFF, bit by bit (rule R103). -/
theorem transition_off (en : Two Byte) (d : Directive) (k k' : AeDom) (b b' : Fin 8)
    (r : AnalysisRecord) :
    bitSet ((transition en d k b r).off.get k') b' =
      (bitSet (r.off.get k') b' ||
        decide (k = k' ∧ b = b' ∧ d = .stop ∧ bitSet (en.get k') b' = true)) := by
  cases d <;> simp only [transition]
  · split
    · rename_i h
      have h' : bitSet (en.get k) b = true := h
      rw [bitSet_set_or_bit]
      congr 1
      apply decide_eq_decide.2
      constructor
      · rintro ⟨rfl, rfl⟩; exact ⟨rfl, rfl, trivial, h'⟩
      · rintro ⟨h1, h2, _⟩; exact ⟨h1, h2⟩
    · rename_i h
      have h' : bitSet (en.get k) b = false := by simpa [appRunning] using h
      have : ¬(k = k' ∧ b = b' ∧ True ∧ bitSet (en.get k') b' = true) := by
        rintro ⟨rfl, rfl, _, h2⟩; rw [h'] at h2; simp at h2
      simp only [decide_eq_false this, Bool.or_false]
  · split <;> simp
  · simp

/-- The transition rule changes ON and OFF only. -/
theorem transition_frame (en : Two Byte) (d : Directive) (k : AeDom) (b : Fin 8)
    (r : AnalysisRecord) : ∃ on off, transition en d k b r = { r with on := on, off := off } := by
  cases d <;> simp only [transition]
  · split
    · exact ⟨r.on, _, rfl⟩
    · exact ⟨r.on, r.off, rfl⟩
  · split
    · exact ⟨r.on, r.off, rfl⟩
    · exact ⟨_, r.off, rfl⟩
  · exact ⟨r.on, r.off, rfl⟩

/-- The directive of an app with a directive slot asks (k, b) for the transition `d` (rules R76, R102). -/
def asks (c : Cfg) (body : List Byte) (d : Directive) (k : AeDom) (b : Fin 8) (app : AppCfg) : Bool :=
  match app.dslot, app.en with
  | some s, some p => decide (p = (k, b) ∧ directiveAt c body s.val = d)
  | _, _ => false

/-- What the transitions of all apps do, bit by bit. -/
theorem fwFold_bits (c : Cfg) (en : Two Byte) (body : List Byte) (apps : List AppCfg)
    (r : AnalysisRecord) (k : AeDom) (b : Fin 8) :
    let t := apps.foldl
      (fun acc app =>
        match app.dslot, app.en with
        | some s, some (k, b) => transition en (directiveAt c body s.val) k b acc
        | _, _ => acc) r
    bitSet (t.on.get k) b = (bitSet (r.on.get k) b ||
        (apps.any (asks c body .start k b) && !bitSet (en.get k) b)) ∧
      bitSet (t.off.get k) b = (bitSet (r.off.get k) b ||
        (apps.any (asks c body .stop k b) && bitSet (en.get k) b)) ∧
      ∃ on off, t = { r with on := on, off := off } := by
  induction apps generalizing r with
  | nil => exact ⟨by simp, by simp, r.on, r.off, rfl⟩
  | cons app apps ih =>
    simp only [List.foldl_cons, List.any_cons]
    rcases hs : app.dslot with _ | s
    · simpa [asks, hs] using ih r
    · rcases he : app.en with _ | ⟨k', b'⟩
      · simpa [asks, hs, he] using ih r
      · obtain ⟨h1, h2, on, off, h3⟩ := ih (transition en (directiveAt c body s.val) k' b' r)
        simp only
        refine ⟨?_, ?_, ?_⟩
        · rw [h1, transition_on]
          simp only [asks, hs, he, Prod.mk.injEq, Bool.or_assoc]
          congr 1
          cases hb : bitSet (en.get k) b <;> simp [and_assoc]
        · rw [h2, transition_off]
          simp only [asks, hs, he, Prod.mk.injEq, Bool.or_assoc]
          congr 1
          cases hb : bitSet (en.get k) b <;> simp [and_assoc]
        · obtain ⟨on', off', h4⟩ := transition_frame en (directiveAt c body s.val) k' b' r
          exact ⟨on, off, by rw [h3, h4]⟩

theorem fwTransitions_bits (c : Cfg) (en : Two Byte) (body : List Byte) (r : AnalysisRecord)
    (k : AeDom) (b : Fin 8) :
    bitSet ((fwTransitions c en body r).on.get k) b = (bitSet (r.on.get k) b ||
        (c.apps.toList.any (asks c body .start k b) && !bitSet (en.get k) b)) ∧
      bitSet ((fwTransitions c en body r).off.get k) b = (bitSet (r.off.get k) b ||
        (c.apps.toList.any (asks c body .stop k b) && bitSet (en.get k) b)) :=
  have h := fwFold_bits c en body c.apps.toList r k b
  ⟨h.1, h.2.1⟩

theorem fwTransitions_frame (c : Cfg) (en : Two Byte) (body : List Byte) (r : AnalysisRecord) :
    ∃ on off, fwTransitions c en body r = { r with on := on, off := off } :=
  (fwFold_bits c en body c.apps.toList r .k0 0).2.2

/-! ## What each rule can do -/

/-- All that the FWCTRL_B rule can answer. -/
theorem analyseFwctrlB_some {c : Cfg} {en : Two Byte} {body : List Byte} {r r' : AnalysisRecord}
    (h : analyseFwctrlB c en body r = some r') :
    c.tagFwctrlB ∉ r.seen ∧ fwBodyOk c body = true ∧ r' = { fwTransitions c en body r with
      seen := c.tagFwctrlB :: (fwTransitions c en body r).seen
      mdir := directiveAt c body 14
      bdir := { k0 := directiveAt c body 15, k1 := directiveAt c body 16 }
      items := (fwTransitions c en body r).items ++ [.fw] } := by
  unfold analyseFwctrlB at h
  split at h
  · simp at h
  · split at h
    · exact ⟨‹_›, ‹_›, by simpa using h.symm⟩
    · simp at h

/-- All that the APPCOEF rule can answer. -/
theorem analyseAppcoef_some {c : Cfg} {a : AppId} {body : List Byte} {r r' : AnalysisRecord}
    (h : analyseAppcoef c a body r = some r') :
    appTag c.tagCoef a ∉ r.seen ∧ coefBodyOk c body = true ∧
      ((coefCount c body = 0 ∧
          r' = { r with seen := appTag c.tagCoef a :: r.seen, items := r.items ++ [.skip] }) ∨
        (coefCount c body ≠ 0 ∧
          r' = accumulateCoef c a (coefMode c body) (coefAddr c body) (coefPayload c body)
            { r with seen := appTag c.tagCoef a :: r.seen })) := by
  unfold analyseAppcoef at h
  split at h
  · simp at h
  · split at h
    · refine ⟨‹_›, ‹_›, ?_⟩
      simp only at h
      split at h
      · exact .inl ⟨‹_›, by simpa using h.symm⟩
      · exact .inr ⟨‹_›, by simpa using h.symm⟩
    · simp at h

/-- All that the APPREG rule can answer. -/
theorem analyseAppreg_some {c : Cfg} {a : AppId} {body : List Byte} {r r' : AnalysisRecord}
    (h : analyseAppreg c a body r = some r') :
    regBodyOk body = true ∧
      ((a = c.gen ∧ appTag c.tagReg a ∉ r.seen ∧ r' = { r with
          seen := appTag c.tagReg a :: r.seen
          genstop := r.genstop || bitSet (regFlags body) c.stopFlag
          items := r.items ++ [.reg (regFlags body) (regVals body)] }) ∨
        (a ≠ c.gen ∧ r' = { r with items := r.items ++ [.skip] })) := by
  unfold analyseAppreg at h
  split at h
  · refine ⟨‹_›, ?_⟩
    split at h
    · split at h
      · simp at h
      · exact .inl ⟨‹_›, ‹_›, by simpa using h.symm⟩
    · exact .inr ⟨‹_›, by simpa using h.symm⟩
  · simp at h

/-! ## Induction over the walk -/

/-- A property that each chunk keeps holds of what the walk leaves. -/
theorem walk_ind {P : AnalysisRecord → Prop} {c : Cfg} {en : Two Byte}
    (hstep : ∀ k r r', P r → analyseChunk c en k r = some r' → P r') :
    ∀ (fuel : Nat) (blob : List Byte) (r r' : AnalysisRecord), P r →
      walk c en fuel blob r = some r' → P r' := by
  intro fuel
  induction fuel with
  | zero =>
    intro blob r r' hr h
    cases blob with
    | nil => simp only [walk, Option.some.injEq] at h; exact h ▸ hr
    | cons => simp [walk] at h
  | succ fuel ih =>
    intro blob r r' hr h
    cases blob with
    | nil => simp only [walk, Option.some.injEq] at h; exact h ▸ hr
    | cons b bs =>
      simp only [walk] at h
      split at h
      · simp at h
      · rename_i k rest _
        split at h
        · simp at h
        · rename_i r1 h1
          exact ih rest r1 r' (hstep k r r1 hr h1) h

/-- The record an analysis completes, and the walk it comes from. -/
theorem analyse_record {c : Cfg} {blob : List Byte} {en : Two Byte} {r : AnalysisRecord}
    (h : analyse c blob en = .record r) :
    ∃ u, walk c en blob.length blob AnalysisRecord.initial = some u ∧ r = completeRecord c en u := by
  unfold analyse at h
  split at h
  · simp at h
  · exact ⟨_, ‹_›, by simpa using h.symm⟩

/-- A property of the initial record that each chunk keeps holds of what the walk of an analysis leaves. -/
theorem analyse_ind {P : AnalysisRecord → Prop} {c : Cfg} {en : Two Byte} {blob : List Byte}
    {r : AnalysisRecord} (h : analyse c blob en = .record r) (h0 : P AnalysisRecord.initial)
    (hstep : ∀ k u u', P u → analyseChunk c en k u = some u' → P u') :
    ∃ u, P u ∧ r = completeRecord c en u := by
  obtain ⟨u, hu, hr⟩ := analyse_record h
  exact ⟨u, walk_ind hstep _ _ _ _ h0 hu, hr⟩

end Sys2Proof.Machine
end

