-- ==== Sys2Proof/Laws/Decode.lean ====
section
/-! SUPPORT. The pieces of the decoder and of the encoder: fields, lengths, tags, port words. -/

namespace Sys2Proof

/-- Splitting a word into bytes and joining them gives the word back. -/
theorem be32_of_word (w : Word) :
    be32 (w.extractLsb' 24 8) (w.extractLsb' 16 8) (w.extractLsb' 8 8) (w.extractLsb' 0 8) = w := by
  unfold be32
  apply BitVec.eq_of_getLsbD_eq
  intro i hi
  simp only [BitVec.getLsbD_append, BitVec.getLsbD_extractLsb']
  by_cases h0 : i < 8
  · simp [h0]
  · by_cases h1 : i - 8 < 8
    · simp [h0, h1]; congr 1; omega
    · by_cases h2 : i - 8 - 8 < 8
      · simp [h0, h1, h2]; congr 1; omega
      · have h3 : i - 8 - 8 - 8 < 8 := by omega
        simp [h0, h1, h2, h3]; congr 1; omega

/-- Joining bytes and splitting the word gives the bytes back. -/
theorem bytes32_be32 (b3 b2 b1 b0 : Byte) : bytes32 (be32 b3 b2 b1 b0) = [b3, b2, b1, b0] := by
  unfold bytes32 be32
  simp only [List.cons.injEq, and_true]
  refine ⟨?_, ?_, ?_, ?_⟩ <;>
  · apply BitVec.eq_of_getLsbD_eq
    intro i hi
    simp only [BitVec.getLsbD_append, BitVec.getLsbD_extractLsb', hi, decide_true, Bool.true_and]
    repeat' split
    all_goals first | omega | (congr 1; omega)

/-- A length field and as many bytes are read back, with what follows them. -/
theorem splitBlob_bytes32 (n : Word) (bytes rest : List Byte) (h : n.toNat = bytes.length) :
    splitBlob (bytes32 n ++ (bytes ++ rest)) = some (bytes, rest) := by
  have hle : n.toNat ≤ (bytes ++ rest).length := by rw [h, List.length_append]; omega
  unfold bytes32
  simp only [List.cons_append, List.nil_append, splitBlob, be32_of_word, hle, if_true]
  rw [h]
  simp

theorem lengthWord_toNat {bytes : List Byte} (h : fitsLength bytes = true) :
    (BitVec.ofNat 32 bytes.length).toNat = bytes.length := by
  rw [BitVec.toNat_ofNat]
  exact Nat.mod_eq_of_lt (by simpa [fitsLength] using h)

theorem splitBlob_encodeBlob {bytes : List Byte} (h : fitsLength bytes = true) :
    splitBlob (encodeBlob bytes) = some (bytes, []) := by
  have := splitBlob_bytes32 (BitVec.ofNat 32 bytes.length) bytes [] (lengthWord_toNat h)
  rwa [List.append_nil] at this

/-- What a blob splits into, put together, is the blob. -/
theorem splitBlob_some {blob bytes rest : List Byte} (h : splitBlob blob = some (bytes, rest)) :
    ∃ n : Word, blob = bytes32 n ++ (bytes ++ rest) ∧ n.toNat = bytes.length := by
  unfold splitBlob at h
  split at h
  · rename_i b3 b2 b1 b0 tail
    split at h
    · rename_i hle
      simp only [Option.some.injEq, Prod.mk.injEq] at h
      obtain ⟨rfl, rfl⟩ := h
      refine ⟨be32 b3 b2 b1 b0, ?_, ?_⟩
      · rw [bytes32_be32, List.take_append_drop]; rfl
      · rw [List.length_take]; omega
    · simp at h
  · simp at h

/-- A chunk written from its tag and body is read back (rule R73). -/
theorem decodeChunk_encode (c : Cfg) (tag : Word) {body : List Byte} (h : fitsLength body = true) :
    decodeChunk c (bytes32 tag ++ encodeBlob body) = .ok (chunkOfTag c tag body, []) := by
  have hs := splitBlob_encodeBlob h
  unfold encodeBlob at hs ⊢
  unfold bytes32 at hs ⊢
  simp only [List.cons_append, List.nil_append, decodeChunk] at hs ⊢
  rw [hs]
  simp only [be32_of_word]

theorem portWord_fields (op : BitVec 2) (bank index value : Byte) :
    (portWord op bank index value).extractLsb' 24 6 = 0 ∧
    (portWord op bank index value).extractLsb' 30 2 = op ∧
    (portWord op bank index value).extractLsb' 16 8 = bank ∧
    (portWord op bank index value).extractLsb' 8 8 = index ∧
    (portWord op bank index value).extractLsb' 0 8 = value := by
  unfold portWord
  refine ⟨?_, ?_, ?_, ?_, ?_⟩ <;>
  · apply BitVec.eq_of_getLsbD_eq
    intro i hi
    simp only [BitVec.getLsbD_append, BitVec.getLsbD_extractLsb', hi, decide_true, Bool.true_and]
    repeat' split
    all_goals first | omega | (congr 1; omega)

theorem portWord_low (op : BitVec 2) : (portWord op 0 0 0).extractLsb' 0 24 = 0 := by
  unfold portWord
  apply BitVec.eq_of_getLsbD_eq
  intro i hi
  simp only [BitVec.getLsbD_append, BitVec.getLsbD_extractLsb', hi, decide_true, Bool.true_and]
  repeat' split
  all_goals first | omega | simp

/-- A port word whose bits 29:24 are 0 is written from its fields. -/
theorem portWord_of_fields (w : Word) (h : w.extractLsb' 24 6 = 0) :
    portWord (w.extractLsb' 30 2) (w.extractLsb' 16 8) (w.extractLsb' 8 8) (w.extractLsb' 0 8) = w := by
  unfold portWord
  apply BitVec.eq_of_getLsbD_eq
  intro i hi
  simp only [BitVec.getLsbD_append, BitVec.getLsbD_extractLsb']
  by_cases h0 : i < 8
  · simp [h0]
  · by_cases h1 : i - 8 < 8
    · simp [h0, h1]; congr 1; omega
    · by_cases h2 : i - 8 - 8 < 8
      · simp [h0, h1, h2]; congr 1; omega
      · by_cases h3 : i - 8 - 8 - 8 < 6
        · simp only [h0, h1, h2, h3, if_false, if_true]
          have := congrArg (fun x : BitVec 6 => x.getLsbD (i - 8 - 8 - 8)) h
          simp only [BitVec.getLsbD_extractLsb', h3, decide_true, Bool.true_and] at this
          rw [show 24 + (i - 8 - 8 - 8) = i by omega] at this
          rw [this]
          rfl
        · have h4 : i - 8 - 8 - 8 - 6 < 2 := by omega
          simp [h0, h1, h2, h3, h4]; congr 1; omega

/-- The tags of the two ranges are told apart, and from FWCTRL_B's (rule R6 (9)). -/
structure TagsApart (c : Cfg) : Prop where
  coefFits : c.tagCoef.toNat + 15 < 4294967296
  regFits : c.tagReg.toNat + 15 < 4294967296
  apart : c.tagCoef.toNat + 15 ≤ c.tagReg.toNat ∨ c.tagReg.toNat + 15 ≤ c.tagCoef.toNat
  fwCoef : c.tagFwctrlB.toNat < c.tagCoef.toNat ∨ c.tagCoef.toNat + 15 ≤ c.tagFwctrlB.toNat
  fwReg : c.tagFwctrlB.toNat < c.tagReg.toNat ∨ c.tagReg.toNat + 15 ≤ c.tagFwctrlB.toNat

theorem admissible_tags {c : Cfg} (h : Machine.admissible c = true) : TagsApart c := by
  obtain ⟨_, _, _, _, h, _⟩ := Machine.admissible_parts h
  simp only [Machine.tagsOk, Machine.tagRangesApart, Bool.and_eq_true,
    Bool.or_eq_true, decide_eq_true_eq, Bool.not_eq_true', Bool.and_eq_false_iff,
    decide_eq_false_iff_not, Nat.not_le, Nat.not_lt] at h
  obtain ⟨⟨⟨⟨h1, h2⟩, h3⟩, h4⟩, h5⟩ := h
  exact ⟨h1, h2, h3, h4, h5⟩

theorem appTag_toNat {base : Word} (h : base.toNat + 15 < 4294967296) (a : AppId) :
    (appTag base a).toNat = base.toNat + a.val := by
  unfold appTag
  have := a.isLt
  rw [BitVec.toNat_add, BitVec.toNat_ofNat]
  omega

theorem appOfTag_appTag {base : Word} (h : base.toNat + 15 < 4294967296) (a : AppId) :
    appOfTag base (appTag base a) = some a := by
  have ht := appTag_toNat h a
  have := a.isLt
  unfold appOfTag
  rw [dif_pos (by omega)]
  simp only [Option.some.injEq, Fin.ext_iff]
  omega

theorem appOfTag_none {base tag : Word}
    (h : tag.toNat < base.toNat ∨ base.toNat + 15 ≤ tag.toNat) : appOfTag base tag = none := by
  unfold appOfTag
  rw [dif_neg (by omega)]

end Sys2Proof
end

