-- ==== Sys2Proof/Laws/Gates.lean ====
section
/-! SUPPORT. What the machine's gates test is what rule R186 asks (Safety.lean's `mayIssue`): one lemma a
gate. -/

namespace Sys2Proof.Machine

theorem ifOpen_of {isOpen : Bool} (run : State → State) (s : State) (h : isOpen = true) :
    ifOpen isOpen run s = run s := if_pos h

theorem ifOpen_of_not {isOpen : Bool} (run : State → State) (s : State) (h : ¬isOpen = true) :
    ifOpen isOpen run s = s := if_neg h

theorem statusOpen_iff {s : State} : statusOpen s = true ↔ s.g.st = .inited := decide_eq_true_iff

theorem blockMemoryReg_iff {c : Cfg} {r : Reg} : blockMemoryReg c r = true ↔ isBlockMemory c r := by
  simp [blockMemoryReg, isBlockMemory, or_assoc]

theorem transferOpen_iff {s : State} : transferOpen s = true ↔
    ∃ e ∈ s.io.trace, e.op = .wait .xfer true ∧ (s.w.ph = .idle → e.phase = .idle) := by
  simp only [transferOpen, List.any_eq_true, Bool.and_eq_true, Bool.or_eq_true, decide_eq_true_eq,
    ne_eq, ← imp_iff_not_or]

/-- In a phase of a command the transfer gate asks for the wait of that command. -/
theorem transferOpen_iff_waited {s : State} (h : s.w.ph ≠ .idle) :
    transferOpen s = true ↔ transferWaited s.io.trace := by
  rw [transferOpen_iff]
  constructor
  · rintro ⟨⟨p, op⟩, he, rfl, _⟩
    exact ⟨p, he⟩
  · rintro ⟨p, he⟩
    exact ⟨_, he, rfl, fun h' => absurd h' h⟩

theorem regOpen_iff {r : Reg} {s : State} : regOpen r s = true ↔ (isBlockMemory s.cfg r →
    ∃ e ∈ s.io.trace, e.op = .wait .xfer true ∧ (s.w.ph = .idle → e.phase = .idle)) := by
  rw [regOpen, Bool.or_eq_true, Bool.not_eq_true', ← Bool.not_eq_true, blockMemoryReg_iff,
    transferOpen_iff, imp_iff_not_or]

theorem phaseWrites_iff {c : Cfg} {p : Phase} {r : Reg} :
    phaseWrites c p r = true ↔ (p ≠ .idle → mayWrite c p r) := by
  cases p <;> simp [phaseWrites, mayWrite, blockMemoryReg, or_assoc]
  rcases genEn c with _ | ⟨k, b⟩
  · simp
  · simp only [Option.some.injEq, Prod.mk.injEq, decide_eq_true_eq]
    refine or_congr_right (or_congr_right (or_congr_right (or_congr_right (or_congr_right ?_))))
    exact ⟨fun h => ⟨k, ⟨b, rfl, rfl⟩, h⟩, fun ⟨_, ⟨_, hk, _⟩, h⟩ => hk ▸ h⟩

theorem phaseWaits_iff {p : Phase} {w : WaitName} :
    phaseWaits p w = true ↔ (p ≠ .idle → mayWait p w) := by
  cases p <;> simp [phaseWaits, mayWait]

theorem phaseReads_iff {c : Cfg} {p : Phase} {r : Reg} {v : Byte} :
    phaseReads c p r = true ↔ (p ≠ .idle → phaseLets c p (.rd r v)) := by
  cases p <;> simp [phaseReads, phaseLets, mayRead, mayWait, Cfg.wait] <;> tauto

/-- A write is issued exactly if rule R186 lets it (whatever its kind and its byte). -/
theorem writeOpen_iff {r : Reg} {s : State} (g : Gate) (v : Byte) :
    writeOpen r s = true ↔ mayIssue s (.qw g r v) := by
  simp only [writeOpen, Bool.and_eq_true, statusOpen_iff, regOpen_iff, phaseWrites_iff, mayIssue,
    touchesBlockMemory, phaseLets, and_assoc]

theorem readOpen_iff {r : Reg} {s : State} (v : Byte) :
    readOpen r s = true ↔ mayIssue s (.rd r v) := by
  simp only [readOpen, Bool.and_eq_true, statusOpen_iff, regOpen_iff, phaseReads_iff (v := v), mayIssue,
    touchesBlockMemory, and_assoc]

theorem waitOpen_iff {w : WaitName} {s : State} (ok : Bool) :
    waitOpen w s = true ↔ mayIssue s (.wait w ok) := by
  simp only [waitOpen, Bool.and_eq_true, statusOpen_iff, phaseWaits_iff, mayIssue, touchesBlockMemory,
    phaseLets, false_imp_iff, true_and]

/-- `WriteAddr` is issued exactly if all its writes may be. -/
theorem addrOpen_iff {s : State} :
    addrOpen s = true ↔ ∀ r ∈ s.cfg.rBma, ∀ v, mayIssue s (.qw .forced r v) := by
  simp only [addrOpen, List.all_eq_true]
  exact forall₂_congr fun r _ =>
    ⟨fun h v => (writeOpen_iff .forced v).1 h, fun h => (writeOpen_iff .forced 0).2 (h 0)⟩

end Sys2Proof.Machine
end

