-- ==== Sys2Proof/Laws/Walk.lean ====
section
/-! SUPPORT. The walk of a blob chunk by chunk: what it does to a blob that begins with whole chunks. -/

namespace Sys2Proof.Machine

/-- A whole chunk at the front of a blob (rules R73, R75). -/
theorem decodeChunk_append (c : Cfg) (tag : Word) {body : List Byte} (rest : List Byte)
    (h : fitsLength body = true) :
    decodeChunk c (bytes32 tag ++ encodeBlob body ++ rest) = .ok (chunkOfTag c tag body, rest) := by
  have hs := splitBlob_bytes32 (BitVec.ofNat 32 body.length) body rest (lengthWord_toNat h)
  unfold encodeBlob
  unfold bytes32 at hs ⊢
  simp only [List.cons_append, List.nil_append, decodeChunk] at hs ⊢
  rw [hs, be32_of_word]

/-- What decodes leaves fewer bytes than it was given. -/
theorem decodeChunk_length {c : Cfg} {blob rest : List Byte} {k : Chunk}
    (h : decodeChunk c blob = .ok (k, rest)) : rest.length < blob.length := by
  unfold decodeChunk at h
  split at h
  · simp at h
  · split at h
    · rename_i body left hs
      obtain ⟨n, hn, _⟩ := splitBlob_some hs
      simp only [Except.ok.injEq, Prod.mk.injEq] at h
      have := congrArg List.length hn
      simp only [List.length_cons, List.length_append] at this ⊢
      rw [← h.2]
      omega
    · simp at h
  · simp at h

/-- The walk does not depend on its fuel, once there is a unit for each byte. -/
theorem walk_fuel (c : Cfg) (en : Two Byte) : ∀ (m n : Nat) (blob : List Byte) (r : AnalysisRecord),
    blob.length ≤ m → blob.length ≤ n → walk c en m blob r = walk c en n blob r
  | m, n, [], r, _, _ => by cases m <;> cases n <;> rfl
  | 0, _, _ :: _, _, h, _ => absurd h (by simp)
  | _ + 1, 0, _ :: _, _, _, h => absurd h (by simp)
  | m + 1, n + 1, b :: bs, r, hm, hn => by
    simp only [walk]
    split
    · rfl
    · rename_i k rest hk
      have := decodeChunk_length hk
      split
      · rfl
      · exact walk_fuel c en m n rest _ (by simp at *; omega) (by simp at *; omega)

/-- The rules of some chunks one after another (rule R101). -/
def chunkRules (c : Cfg) (en : Two Byte) : List (Word × List Byte) → AnalysisRecord →
    Option AnalysisRecord
  | [], r => some r
  | k :: ks, r => (analyseChunk c en (chunkOfTag c k.1 k.2) r).bind (chunkRules c en ks)

/-- The walk of a blob that begins with whole chunks: their rules, then the walk of the rest. -/
theorem walk_blobOf (c : Cfg) (en : Two Byte) (ks : List (Word × List Byte)) (tail : List Byte)
    (r : AnalysisRecord) (h : ∀ k ∈ ks, fitsLength k.2 = true) :
    walk c en (blobOf ks ++ tail).length (blobOf ks ++ tail) r =
      (chunkRules c en ks r).bind (walk c en tail.length tail) := by
  induction ks generalizing r with
  | nil => rfl
  | cons k ks ih =>
    have hd := decodeChunk_append c k.1 (blobOf ks ++ tail) (h k List.mem_cons_self)
    have he : blobOf (k :: ks) ++ tail = bytes32 k.1 ++ encodeBlob k.2 ++ (blobOf ks ++ tail) := by
      simp [blobOf]
    have hlen := decodeChunk_length hd
    rw [he]
    obtain ⟨b, bs, hb⟩ : ∃ b bs, bytes32 k.1 ++ encodeBlob k.2 ++ (blobOf ks ++ tail) = b :: bs :=
      ⟨_, _, rfl⟩
    rw [hb] at hd hlen ⊢
    rw [List.length_cons, walk, hd]
    simp only [chunkRules]
    cases analyseChunk c en (chunkOfTag c k.1 k.2) r with
    | none => rfl
    | some r' =>
      simp only [Option.bind_some]
      rw [← ih r' fun k' hk' => h k' (List.mem_cons_of_mem _ hk')]
      exact walk_fuel c en _ _ _ _ (by simp at hlen ⊢; omega) (Nat.le_refl _)

/-- The analysis of a blob that begins with whole chunks (rules R75, R113, R115). -/
theorem analyse_blobOf (c : Cfg) (en : Two Byte) (ks : List (Word × List Byte)) (tail : List Byte)
    (h : ∀ k ∈ ks, fitsLength k.2 = true) :
    analyse c (blobOf ks ++ tail) en =
      match (chunkRules c en ks AnalysisRecord.initial).bind (walk c en tail.length tail) with
      | none => .malformed
      | some r => .record (completeRecord c en r) := by
  have hw := walk_blobOf c en ks tail AnalysisRecord.initial h
  cases hb : (chunkRules c en ks AnalysisRecord.initial).bind (walk c en tail.length tail) <;>
    simp only [analyse, hw, hb]

end Sys2Proof.Machine
end

