-- ==== Sys2Proof/Tests/Slice0.lean ====
section
/-! SUPPORT. Tests. The expected values are the spec's: the encodings of 30_encoding.md and the worked
vectors and programs of 95_test_vectors.md, named beside each test. Then, for each statement with
hypotheses, a state and operands that meet them all. -/

namespace Sys2Proof.Tests

open Sys2Proof.Machine

-- One theorem after another: each kernel evaluation waits for those before it, and a thread with it.
set_option Elab.async false

/-! ## Helpers -/

/-- The step answers a next state that passes the check. -/
def nextIs (o : Host.Outcome State Fault Refusal) (check : State → Bool) : Bool :=
  match o with
  | .next t => check t
  | .fault _ => false
  | .refused _ => false

/-- The step refuses for the reason given. -/
def refusedAs (r : Refusal) (o : Host.Outcome State Fault Refusal) : Bool :=
  match o with
  | .next _ => false
  | .fault _ => false
  | .refused r' => decide (r' = r)

theorem of_nextIs {o : Host.Outcome State Fault Refusal} {check : State → Bool}
    (h : nextIs o check = true) : ∃ t, o = .next t ∧ check t = true := by
  cases o with
  | next t => exact ⟨t, rfl, h⟩
  | fault f => simp [nextIs] at h
  | refused r => simp [nextIs] at h

/-- The analysis is a record that passes the check. -/
def recordIs (a : Analysis) (check : AnalysisRecord → Bool) : Bool :=
  match a with
  | .record r => check r
  | .malformed => false

theorem of_recordIs {a : Analysis} {check : AnalysisRecord → Bool} (h : recordIs a check = true) :
    ∃ r, a = .record r ∧ check r = true := by
  cases a with
  | malformed => simp [recordIs] at h
  | record r => exact ⟨r, rfl, h⟩

/-- INITED, with the enable masks given and every wait seeing its flag. -/
def running (e0 e1 : Byte) : State :=
  { State.reset with
    g := { st := .inited, master := 0x01, en := { k0 := e0, k1 := e1 }, byp := 0, sinsrc := .reg }
    orc := { State.reset.orc with waits := [.seen 0, .seen 0, .seen 0] } }

def State.answering (reads : List Byte) (waits : List WaitAnswer) (s : State) : State :=
  { s with orc := { s.orc with reads := reads, waits := waits } }

def State.inPhase (p : Phase) (s : State) : State := { s with w := { s.w with ph := p } }

def State.polling (site : WaitSite) (s : State) : State :=
  { s with site := some site, w := { s.w with ph := sitePhase site } }

def State.withRecord (r : AnalysisRecord) (s : State) : State :=
  { s with w := { s.w with ar := .record r } }

/-- A transfer wait that was OK stands in the trace. -/
def State.waited (p : Phase) (s : State) : State :=
  { s with io := { s.io with trace := [{ phase := p, op := .wait .xfer true }] } }

/-- Phase 3 of a pass in the mode given, its transfer wait made. -/
def downloading (m : Mode) : State :=
  State.waited .wait
    (State.inPhase .download (State.withRecord { AnalysisRecord.initial with mode := m } (running 0x80 0)))

def opsOf (t : State) : List PortOp := t.io.trace.map (fun e => e.op)

/-- A FWCTRL_B chunk with its 17 bytes. -/
def fwChunk (dirs : List Byte) : List Byte := [0, 0, 1, 0, 0, 0, 0, 0x11] ++ dirs

def allStart : List Byte := [1, 1, 1, 1, 1, 1, 1, 1, 1, 1, 1, 1, 1, 1, 2, 2, 2]

def allDc : List Byte := [2, 2, 2, 2, 2, 2, 2, 2, 2, 2, 2, 2, 2, 2, 2, 2, 2]

/-- The blob of S-B: COEF(app=0, addr=0x0100, mb=1, 8 bytes). -/
def blobB : List Byte :=
  [0, 0, 2, 0, 0, 0, 0, 0x11, 0, 0, 1, 0, 1, 0, 0, 0, 8, 0x11, 0x22, 0x33, 0x44, 0x55, 0x66, 0x77, 0x88]

/-- The blob of S-C3: COEF(app=0, addr=0x0100, mb=0, 4 bytes). -/
def blobC3 : List Byte :=
  [0, 0, 2, 0, 0, 0, 0, 0x0D, 0, 0, 1, 0, 0, 0, 0, 0, 4, 1, 2, 3, 4]

/-- The same for app 1, of domain AE[0], whose bypass bit is 0x01. -/
def blobAe : List Byte :=
  [0, 0, 2, 1, 0, 0, 0, 0x0D, 0, 0, 1, 0, 0, 0, 0, 0, 4, 1, 2, 3, 4]

/-- The body of the chunk of V-M9: byte-count 6. -/
def bodyM9 : List Byte := [0, 0, 2, 0, 1, 0, 0, 0, 6, 1, 2, 3, 4, 5, 6]

/-- An APPCOEF body: address 0x0200, mode byte 0, 4 bytes. -/
def coefBody : List Byte := [0, 0, 2, 0, 0, 0, 0, 0, 4, 9, 8, 7, 6]

/-- The body of an APPREG chunk. -/
def regBody (flags v0 v1 : Byte) : List Byte := [flags, v0, v1, 0, 0, 0, 0, 0]

/-- A pass over `blob` held up at `site`, with the bypass bits it borrowed, the sine value it saved and the
operations of its phase 2. -/
def heldPass (site : WaitSite) (blob : List Byte) (prec : Byte) (saved : Option Byte) (ops : List PortOp)
    (s : State) : State :=
  { s with
    site := some site
    g := { s.g with byp := s.g.byp ||| prec }
    io := { s.io with
      trace := if site = .applyXfer then []
        else { phase := .wait, op := .wait .xfer true } :: eventsIn .quiesce ops }
    w := { s.w with
      ph := sitePhase site, ar := analyse s.cfg blob s.g.en, prec := prec, sil := saved.isSome,
      sinsave := saved.getD 0 } }

/-- An analysis and the exec of its APPLY, each passing its check. -/
theorem apply_met {s : State} {blob : List Byte} {rc : AnalysisRecord → Bool} {tc : State → Bool}
    (h : (recordIs (analyse s.cfg blob s.g.en) rc && nextIs (exec (.apply blob) s) tc) = true) :
    ∃ r t, analyse s.cfg blob s.g.en = .record r ∧ rc r = true ∧ exec (.apply blob) s = .next t ∧
      tc t = true := by
  rw [Bool.and_eq_true] at h
  obtain ⟨r, hr, hrc⟩ := of_recordIs h.1
  obtain ⟨t, ht, htc⟩ := of_nextIs h.2
  exact ⟨r, t, hr, hrc, ht, htc⟩

/-! ## The invariant in the test states -/

theorem shadowCoherent_of_empty (h : Hardware) (he : h.shadow = []) : ShadowCoherent h := by
  intro a v hr
  simp [he, Memory.read] at hr

theorem reset_shadowCoherent : ShadowCoherent State.reset.hw := shadowCoherent_of_empty _ rfl

theorem quiet_inv (s : State) (h : s.hw = State.reset.hw) (hp : s.w.ph = phaseOfSite s.site)
    (hq : s.w.qn = 0) (ht : s.w.trigpend = false)
    (hs : s.site = some .applyXfer → s.w.sil = false) (hi : s.site.isSome = true → s.g.st = .inited) :
    Inv s where
  regsWf := by rw [h]; decide
  shadowWf := by rw [h]; decide
  bmemWf := by rw [h]; decide
  shadowOk := by rw [h]; exact reset_shadowCoherent
  counted := by rw [h, hq]; rfl
  waitEmpty := by intro _; rw [h]; rfl
  phase := hp
  noTrigger := ht
  notSilenced := hs
  heldInited := hi

/-! ## Well-formedness: each check refuses an ill-formed term -/

theorem test_cfgEx_admissible : admissible Config.cfgEx = true := by decide +kernel

/-- A sequence one byte too long for a BE32 length field. -/
def overlong : List Byte := List.replicate (2 ^ 32) 0

theorem overlong_length : overlong.length = 4294967296 := List.length_replicate

theorem test_overlong_refused : fitsLength overlong = false := by
  unfold fitsLength
  rw [overlong_length]
  rfl

theorem test_longest_fits (bytes : List Byte) (h : bytes.length = 4294967295) :
    fitsLength bytes = true := by
  unfold fitsLength
  rw [h]
  rfl

theorem test_long_blobs_refused :
    WellFormed Config.cfgEx (.validate overlong) = false ∧
    WellFormed Config.cfgEx (.apply overlong) = false ∧
    WellFormed Config.cfgEx (.fwctrlB overlong) = false ∧
    WellFormed Config.cfgEx (.appcoef 0 overlong) = false ∧
    WellFormed Config.cfgEx (.appreg 0 overlong) = false ∧
    WellFormed Config.cfgEx (.skip 0 overlong) = false :=
  ⟨test_overlong_refused, test_overlong_refused, test_overlong_refused, test_overlong_refused,
    test_overlong_refused, by rw [WellFormed, test_overlong_refused]; rfl⟩

theorem test_skip_of_known_tag_refused :
    WellFormed Config.cfgEx (.skip 0x100 []) = false ∧ WellFormed Config.cfgEx (.skip 0x20E []) = false ∧
    WellFormed Config.cfgEx (.skip 0x300 []) = false ∧ WellFormed Config.cfgEx (.skip 0x20F []) = true := by
  decide

theorem test_wide_address_refused :
    WellFormed Config.cfgEx (.writeAddr 0x10000) = false ∧
    WellFormed Config.cfgEx (.writeAddr 0xFFFF) = true := by decide

/-! ## Decoding: a frame written out from the spec's encoding, for every constructor -/

/-- The instruction that the first bytes of a frame are. -/
def firstOf (f : Frame) : Option Instr :=
  match decodeFrame Config.cfgEx f with
  | .ok (i, _) => some i
  | .error _ => none

theorem test_decode_init : firstOf (.command [0x00]) = some .init := by decide
theorem test_decode_term : firstOf (.command [0x01]) = some .term := by decide
theorem test_decode_validate :
    firstOf (.command [0x02, 0, 0, 0, 3, 0, 0, 1]) = some (.validate [0, 0, 1]) := by decide
theorem test_decode_apply :
    firstOf (.command [0x03, 0, 0, 0, 2, 0xAA, 0xBB, 0x01]) = some (.apply [0xAA, 0xBB]) := by decide
theorem test_decode_mstart : firstOf (.command [0x04]) = some .mstart := by decide
theorem test_decode_mstop : firstOf (.command [0x05]) = some .mstop := by decide
theorem test_decode_query : firstOf (.command [0x06]) = some .query := by decide

/-- `UPLOAD D4 0x07FF 4` (95_test_vectors.md section 1). -/
theorem test_decode_upload :
    firstOf (.command [0x07, 0x01, 0, 0, 0x07, 0xFF, 0, 0, 0, 0x04]) = some (.upload 1 0x7FF 4) := by decide
theorem test_decode_reserved08 : firstOf (.command [0x0F]) = some (.reserved08 7) := by decide
theorem test_decode_reserved10 : firstOf (.command [0x1A]) = some (.reserved10 0xA) := by decide
theorem test_decode_reserved20 : firstOf (.command [0x20]) = some (.reserved20 0) := by decide
theorem test_decode_reserved40 : firstOf (.command [0x7F]) = some (.reserved40 0x3F) := by decide
theorem test_decode_reserved80 : firstOf (.command [0xFF]) = some (.reserved80 0x7F) := by decide
theorem test_decode_fwctrlB : firstOf (.chunk (fwChunk allStart)) = some (.fwctrlB allStart) := by decide
theorem test_decode_appcoef :
    firstOf (.chunk [0, 0, 0x02, 0x08, 0, 0, 0, 0x02, 0x55, 0x66]) = some (.appcoef 8 [0x55, 0x66]) := by
  decide
theorem test_decode_appreg :
    firstOf (.chunk [0, 0, 0x03, 0x0E, 0, 0, 0, 0x01, 0x55]) = some (.appreg 14 [0x55]) := by decide

/-- Tags 0x20F and 0x30F are in neither range (rule R74). -/
theorem test_decode_skip :
    firstOf (.chunk [0, 0, 0x02, 0x0F, 0, 0, 0, 0x00]) = some (.skip 0x20F []) ∧
    firstOf (.chunk [0, 0, 0x03, 0x0F, 0, 0, 0, 0x00]) = some (.skip 0x30F []) := by decide

/-- `QW_G(BYP,0x03)` = 0x00000303 (95_test_vectors.md section 1). -/
theorem test_decode_qwG : firstOf (.port 0x00000303) = some (.qwG 0 3 3) := by decide

/-- `QW_F(BMD,0xA0)` = 0x400013A0, and the bank in bits 23:16. -/
theorem test_decode_qwF :
    firstOf (.port 0x400013A0) = some (.qwF 0 0x13 0xA0) ∧
    firstOf (.port 0x40AB0000) = some (.qwF 0xAB 0 0) := by decide
theorem test_decode_flush : firstOf (.port 0x80000000) = some .flush := by decide

/-- `RD(SINOUT)` = 0xC0000500. -/
theorem test_decode_rd : firstOf (.port 0xC0000500) = some (.rd 0 5) := by decide
theorem test_decode_sync : firstOf (.composite .sync) = some .sync := by decide
theorem test_decode_wait : firstOf (.composite (.wait .fade)) = some (.wait .fade) := by decide
theorem test_decode_writeAddr : firstOf (.composite (.writeAddr 0x1234)) = some (.writeAddr 0x1234) := by
  decide

/-- Each refusal of the decoder, by its name. -/
theorem test_decode_errors :
    decodeFrame Config.cfgEx (.command []) = .error .emptyCommand ∧
    decodeFrame Config.cfgEx (.command [0x03, 0, 0, 0, 1]) = .error .truncatedCommand ∧
    decodeFrame Config.cfgEx (.chunk []) = .error .emptyChunk ∧
    decodeFrame Config.cfgEx (.chunk [0, 0, 1]) = .error .truncatedHeader ∧
    decodeFrame Config.cfgEx (.chunk [0, 0, 0x77, 0x77, 0, 0, 0, 5, 1, 2, 3]) = .error .overlongChunk ∧
    decodeFrame Config.cfgEx (.port 0x01000000) = .error .reservedPortBits ∧
    decodeFrame Config.cfgEx (.port 0x80000001) = .error .reservedPortBits ∧
    decodeFrame Config.cfgEx (.port 0xC0000501) = .error .reservedPortBits := ⟨rfl, rfl, rfl, rfl, rfl, rfl, rfl, rfl⟩

/-- A chunk frame of no byte is a blob of no chunk (rule R75): the frame is taken, nothing else happens. -/
theorem test_empty_chunk_frame :
    nextIs (step { State.reset with io := { State.reset.io with inbox := [.chunk []] } })
      (fun t => decide (t = State.reset)) = true := by decide +kernel

/-- A word of the table is read as the row's instruction, and the next step runs it. -/
theorem test_tableWord :
    decodeTableWord 8 0x05 = some .mstop ∧ decodeTableWord 32 0x20E = some (.appcoef 14 []) ∧
    decodeTableWord 32 0xC0120300 = some (.rd 0x12 3) := by decide

theorem test_withFetchWord :
    nextIs (step (State.reset.withFetchWord 8 0x00)) (fun t => decide (t.g.st = .inited)) = true := by
  decide +kernel

/-! ## One step of each instruction -/

/-- Program P1 step 1: `INIT` from reset. -/
theorem test_init : nextIs (exec .init State.reset) (fun t =>
    decide (t.g = { st := .inited, master := 0x00, en := { k0 := 0xFF, k1 := 0x3F }, byp := 0, sinsrc := .reg })
      && decide (t.io.trace = [])) = true := by decide +kernel

/-- `INIT` again: no change (95_test_vectors.md section 5). -/
theorem test_init_again : nextIs (exec .init (running 1 2))
    (fun t => decide (t.g = (running 1 2).g)) = true := by decide +kernel

/-- Program P1 step 5. -/
theorem test_term : nextIs (exec .term (running 1 2))
    (fun t => decide (t.g.st = .idle) && decide (t.w.result = 0)) = true := by decide +kernel

/-- V-M9's blob is malformed. -/
theorem test_validate_malformed :
    nextIs (exec (.validate ([0, 0, 2, 1, 0, 0, 0, 0x0F] ++ bodyM9)) State.reset)
      (fun t => decide (t.w.result = 0xFFFFFFFF) && decide (t.io.trace = [])) = true := by decide +kernel

/-- S-A's blob is accepted. -/
theorem test_validate_ok : nextIs (exec (.validate (fwChunk allStart)) State.reset)
    (fun t => decide (t.w.result = 0)) = true := by decide +kernel

/-- S-A2: app starts with a bypass. -/
theorem test_apply_starts : nextIs (exec (.apply (fwChunk allStart)) (running 0x81 0)) (fun t =>
    decide (opsOf t = [.wait .xfer true, .qw .gated (Reg.bank0 3) 0x03, .flush, .wait .fade true,
      .qw .gated (Reg.bank0 1) 0xFF, .qw .gated (Reg.bank0 2) 0x3F, .qw .gated (Reg.bank0 3) 0x00, .flush]))
    = true := by decide +kernel

/-- S-C3: the sine is silenced for the transfer and restored. -/
theorem test_apply_restores_sine :
    nextIs (exec (.apply blobC3) (State.answering [0x01] [.seen 0, .seen 0] (running 0x80 0))) (fun t =>
    decide (opsOf t = [.wait .xfer true, .rd (Reg.bank0 5) 0x01, .qw .gated (Reg.bank0 5) 0, .flush,
      .wait .sine true, .qw .gated (Reg.bank0 1) 0, .flush, .qw .forced (Reg.bank0 0x10) 0x01,
      .qw .forced (Reg.bank0 0x11) 0x00, .qw .forced (Reg.bank0 0x12) 0x01,
      .qw .forced (Reg.bank0 0x13) 1, .qw .forced (Reg.bank0 0x13) 2, .qw .forced (Reg.bank0 0x13) 3,
      .qw .forced (Reg.bank0 0x13) 4, .flush, .qw .gated (Reg.bank0 1) 0x80, .qw .gated (Reg.bank0 2) 0,
      .qw .gated (Reg.bank0 5) 0x01, .flush])) = true := by decide +kernel

/-- MSTART with `MASTER = 0x02` (95_test_vectors.md section 5). -/
theorem test_mstart : nextIs (exec .mstart { running 0 0 with g := { (running 0 0).g with master := 0x02 } })
    (fun t => decide (opsOf t = [.qw .gated (Reg.bank0 0) 0x03, .flush]) && decide (t.g.master = 0x03))
    = true := by decide +kernel

/-- MSTART while IDLE: -2. -/
theorem test_mstart_idle : nextIs (exec .mstart State.reset)
    (fun t => decide (t.w.result = 0xFFFFFFFE) && decide (t.io.trace = [])) = true := by decide +kernel

/-- MSTOP with `MASTER = 0x03`. -/
theorem test_mstop : nextIs (exec .mstop { running 0 0 with g := { (running 0 0).g with master := 0x03 } })
    (fun t => decide (opsOf t = [.qw .gated (Reg.bank0 0) 0x02, .flush]) && decide (t.g.master = 0x02))
    = true := by decide +kernel

/-- QUERY: `RD(STAT)=0xFA` returns 0x02. -/
theorem test_query : nextIs (exec .query (State.answering [0xFA] [] (running 0 0)))
    (fun t => decide (opsOf t = [.rd (Reg.bank0 4) 0xFA]) && decide (t.w.result = 0x02)) = true := by
  decide +kernel

/-- `UPLOAD D4 0x07FF 4`: clamped to one unit. -/
theorem test_upload : nextIs (exec (.upload 1 0x7FF 4) (State.answering [5, 6, 7, 8] [.seen 0] (running 0 0)))
    (fun t => decide (t.w.outbuf = [5, 6, 7, 8]) && decide ((opsOf t).take 5 = [.wait .xfer true,
      .qw .forced (Reg.bank0 0x10) 0x07, .qw .forced (Reg.bank0 0x11) 0xFF,
      .qw .forced (Reg.bank0 0x12) 0x05, .flush])) = true := by decide +kernel

/-- `UPLOAD D8 0x0400 1`: the address is not below `HI[D8]`. -/
theorem test_upload_range : nextIs (exec (.upload 0 0x400 1) (running 0 0))
    (fun t => decide (t.w.result = 0xFFFFFFFF) && decide (t.io.trace = [])) = true := by decide +kernel

/-- Rule R196: no side effect. -/
theorem test_reserved : nextIs (exec (.reserved40 5) (running 1 2))
    (fun t => decide (t.w.result = 0xFFFFFFFF) && decide (t.g = (running 1 2).g)) = true := by decide +kernel

/-- The transition vectors of 95_test_vectors.md section 3, app 3: START of a stopped app. -/
theorem test_fwctrlB_start :
    nextIs (exec (.fwctrlB [2, 2, 2, 1, 2, 2, 2, 2, 2, 2, 2, 2, 2, 2, 2, 2, 2]) (running 0 0))
      (fun t => recordIs t.w.ar (fun r => decide (r.on = { k0 := 0x04, k1 := 0 }) &&
        decide (r.off = { k0 := 0, k1 := 0 }))) = true := by decide +kernel

/-- The same, STOP of a running app. -/
theorem test_fwctrlB_stop :
    nextIs (exec (.fwctrlB [2, 2, 2, 0, 2, 2, 2, 2, 2, 2, 2, 2, 2, 2, 2, 2, 2]) (running 0x04 0))
      (fun t => recordIs t.w.ar (fun r => decide (r.off = { k0 := 0x04, k1 := 0 }))) = true := by
  decide +kernel

/-- Sine selection: `addr = 0x000F`, payload ending in 01: PIN. -/
theorem test_appcoef_sine :
    nextIs (exec (.appcoef 0 [0, 0, 0, 0x0F, 0, 0, 0, 0, 8, 0, 0, 0, 0, 0, 0, 0, 1]) (running 0 0))
      (fun t => recordIs t.w.ar (fun r => decide (r.sinsel = some .pin) && decide (r.ncoef = 1))) = true := by
  decide +kernel

/-- A payload byte in phase 3 goes to word `addr`, byte order kept (rules R55, R159). -/
theorem test_appcoef_download : nextIs (exec (.appcoef 1 coefBody) (downloading .host))
    (fun t => decide (t.hw.bmem = [(0x800, 9), (0x801, 8), (0x802, 7), (0x803, 6)])) = true := by
  decide +kernel

/-- Program P4's register chunk in phase 3: the stop request clears Gen's enable bit. -/
theorem test_appreg_stop : nextIs (exec (.appreg 0 (regBody 0x82 0 0x5A)) (downloading .none)) (fun t =>
    decide (opsOf t = [.wait .xfer true, .qw .gated (Reg.bank0 6) 0x5A, .qw .gated (Reg.bank0 1) 0x00,
      .flush])) = true := by decide +kernel

/-- V-M12: a 7-byte body of another app's chunk is malformed. -/
theorem test_appreg_short : nextIs (exec (.appreg 5 [0, 0, 0, 0, 0, 0, 0]) (running 1 0))
    (fun t => decide (t.w.ar = .malformed)) = true := by decide +kernel

/-- V-OK2: an unknown tag adds a SKIP item. -/
theorem test_skip : nextIs (exec (.skip 0x7777 [1, 2, 3]) (running 1 0))
    (fun t => recordIs t.w.ar (fun r => decide (r.items = [.skip]))) = true := by decide +kernel

theorem test_qwG : nextIs (exec (.qwG 0 3 0x55) (running 1 0))
    (fun t => decide (t.hw.queue = [{ gate := .gated, reg := Reg.bank0 3, value := 0x55 }]) &&
      decide (t.hw.regs = [])) = true := by decide +kernel

theorem test_qwF : nextIs (exec (.qwF 0 3 0x55) (running 1 0))
    (fun t => decide (t.hw.queue = [{ gate := .forced, reg := Reg.bank0 3, value := 0x55 }]) &&
      decide (t.w.qn = 1)) = true := by decide +kernel

/-- Two writes queued for BYP: the later one stands after delivery (rules R41, R179). -/
def twoQueued : State :=
  { running 1 0 with
    hw := { State.reset.hw with queue := [{ gate := .forced, reg := Reg.bank0 3, value := 1 },
      { gate := .gated, reg := Reg.bank0 3, value := 2 }] }
    w := { State.reset.w with qn := 2 } }

theorem test_flush : nextIs (exec .flush twoQueued)
    (fun t => decide (t.hw.regs = [(3, 2)]) && decide (t.hw.queue = []) && decide (t.w.qn = 0)) = true := by
  decide +kernel

/-- `QW` then `RD` flushes first (95_test_vectors.md section 5). -/
theorem test_rd : nextIs (exec (.rd 0 5) (State.answering [0x01] [] twoQueued))
    (fun t => decide (opsOf t = [.flush, .rd (Reg.bank0 5) 0x01]) && decide (t.io.rdata = 0x01)) = true := by
  decide +kernel

theorem test_sync : nextIs (exec .sync twoQueued) (fun t => decide (opsOf t = [.flush])) = true := by
  decide +kernel

/-- Rule R182: a poll reads, then tests the fault. -/
theorem test_wait_fails : nextIs (exec (.wait .fade) (State.answering [] [.fails 0x33] (running 1 0)))
    (fun t => decide (t.io.rdata = 0x33) && decide (opsOf t = [.wait .fade false])) = true := by decide +kernel

/-- A poll whose masked byte is not the wanted one goes on; one that is ends the wait (rule R182). -/
theorem test_wait_polls : nextIs (exec (.wait .fade) (State.answering [] [.seen 0x02] (running 1 0)))
    (fun t => decide (t.site = some (.alone .fade)) && decide (t.io.trace = [])) = true := by decide +kernel
theorem test_wait_shows : nextIs (exec (.wait .fade) (State.answering [] [.seen 0xFD] (running 1 0)))
    (fun t => decide (t.site = none) && decide (opsOf t = [.wait .fade true])) = true := by decide +kernel

theorem test_writeAddr : nextIs (exec (.writeAddr 0x07FF) (State.waited .idle (running 1 0)))
    (fun t => decide (opsOf t = [.wait .xfer true, .qw .forced (Reg.bank0 0x10) 0x07,
      .qw .forced (Reg.bank0 0x11) 0xFF])) = true := by decide +kernel

/-! ## The gates of rule R186 -/

/-- The instruction leaves the state as it was. -/
def heldBack (i : Instr) (s : State) : Bool := nextIs (exec i s) (fun t => decide (t = s))

/-- (1) No port operation while ST = IDLE. -/
theorem test_status_gate :
    [.qwG 0 3 1, .qwF 0 3 1, .flush, .rd 0 5, .sync, .wait .fade, .writeAddr 0x100].all
      (fun i => heldBack i { twoQueued with g := State.reset.g }) = true := by decide +kernel

/-- (2) Block memory and the trigger need a transfer wait that was OK, in this command. -/
theorem test_transfer_gate :
    [.qwF 0 0x14 1, .qwG 0 0x12 1, .rd 0 0x13, .writeAddr 0x100].all
      (fun i => heldBack i (running 1 0) && heldBack i (State.waited .wait (running 1 0)) &&
        !heldBack i (State.waited .idle (running 1 0))) = true := by decide +kernel

/-- (3) A phase touches the registers of its row of rule R140 only. -/
theorem test_phase_gate :
    heldBack (.qwG 0 3 1) (State.inPhase .wait (running 1 0)) = true ∧
    heldBack (.rd 0 0) (State.inPhase .quiesce (running 1 0)) = true ∧
    heldBack (.wait .fade) (State.inPhase .wait (running 1 0)) = true ∧
    heldBack (.qwG 0 3 1) (State.inPhase .quiesce (running 1 0)) = false ∧
    heldBack (.rd 0 4) (State.inPhase .wait (running 1 0)) = false := by decide +kernel

/-- An item of phase 3: neither kind that issues anything without its gates. -/
theorem test_item_gate :
    heldBack (.appcoef 1 coefBody) { downloading .host with g := State.reset.g } = true ∧
    heldBack (.appreg 0 (regBody 0x82 0 0x5A)) { downloading .none with g := State.reset.g } = true ∧
    heldBack (.appcoef 1 coefBody) { downloading .host with io := State.reset.io } = true := by decide +kernel

/-- A trigger delivered by a completed device-internal pass: the payload is pending (rules R43, R153). -/
theorem test_internal_pass_pending : nextIs (exec (.apply blobB) (running 0x81 0)) (fun t =>
    decide (t.hw.xfer = some { addr := 0x100, bytes := [0x11, 0x22, 0x33, 0x44, 0x55, 0x66, 0x77, 0x88] }) &&
      decide (t.hw.bmem = [])) = true := by decide +kernel

/-- INIT and TERM leave RESULT as it was (the table of rule R231). -/
theorem test_result_unchanged :
    [.init, .term].all (fun i => nextIs (exec i { running 1 0 with w := { (running 1 0).w with result := 7 } })
      (fun t => decide (t.w.result = 7) && decide (t.io.sport = [0, 0, 0, 0]))) = true := by decide +kernel

/-- V-X4: `WAIT(W_SINE)=FAIL` ends the pass where it stands. -/
theorem test_apply_aborts :
    nextIs (exec (.apply blobC3) (State.answering [0x01] [.seen 0, .fails 0x33] (running 0x80 0))) (fun t =>
      decide (opsOf t = [.wait .xfer true, .rd (Reg.bank0 5) 0x01, .qw .gated (Reg.bank0 5) 0, .flush,
        .wait .sine false]) && decide (t.w.result = 0xFFFFFFFE)) = true := by decide +kernel

/-! ## The statements' hypotheses can be met: for each, a state and operands that meet them together -/

theorem test_DecodeEncodeRoundTrip_met :
    admissible Config.cfgEx = true ∧ WellFormed Config.cfgEx (.upload 1 0x7FF 4) = true ∧
    WellFormed Config.cfgEx (.skip 0x20F [1]) = true ∧
    WellFormed Config.cfgEx (.writeAddr 0xFFFF) = true := by decide +kernel

/-- EncodedFormsHaveOneMeaning: port words, and commands with the longest and the shortest operands. -/
theorem test_EncodedFormsHaveOneMeaning_met :
    decodePort 0x40001401 = .ok (.qwF 0 0x14 1) ∧ decodePort 0x80000000 = .ok .flush ∧
    decodeCommand [0x03, 0, 0, 0, 1, 0xAA] = .ok (.apply [0xAA], []) ∧
    decodeCommand [0x02, 0, 0, 0, 0] = .ok (.validate [], []) ∧
    decodeCommand [0xFF] = .ok (.reserved80 0x7F, []) := ⟨rfl, rfl, rfl, rfl, rfl⟩

/-- MSTART then MSTOP on the command port. -/
def offered : State := { running 1 0 with io := { (running 1 0).io with inbox := [.command [4, 5]] } }

theorem test_StepRunsDecodedInstruction_met :
    admissible offered.cfg = true ∧ offered.site = none ∧ offered.io.inbox = .command [4, 5] :: [] ∧
    decodeFrame offered.cfg (.command [4, 5]) = .ok (.mstart, some (.command [5])) :=
  ⟨by decide +kernel, rfl, rfl, rfl⟩

/-- StepDuringWaitTakesNoFrame: a poll that shows no flag, at two of the sites. -/
theorem test_StepDuringWaitTakesNoFrame_met :
    ∀ site ∈ [WaitSite.applyFade, .alone .fade],
      let s := State.answering [] [.seen 0x02] (State.polling site (running 1 0))
      admissible s.cfg = true ∧ s.site = some site ∧ s.w.qn = 0 ∧ s.orc.waits = .seen 0x02 :: [] ∧
      0x02 &&& (s.cfg.wait (siteWait site)).mask ≠ (s.cfg.wait (siteWait site)).want ∧
      ∃ t, step s = .next t ∧ t.site = some site := by
  intro site h s
  obtain ⟨t, ht, hc⟩ := of_nextIs (o := step s) (check := fun t => decide (t.site = some site))
    (by revert site; decide +kernel)
  refine ⟨test_cfgEx_admissible, rfl, rfl, rfl, ?_, t, ht, of_decide_eq_true hc⟩
  clear ht hc
  revert site
  decide +kernel

theorem test_StepWaitsForACommand_met :
    admissible State.reset.cfg = true ∧ State.reset.site = none ∧ State.reset.io.inbox = [] :=
  ⟨by decide +kernel, rfl, rfl⟩

/-- Example configurations, each breaking one clause of rule R6, in its order, or of R5. -/
def broken : List Cfg :=
  [ { Config.cfgEx with apps := Config.cfgEx.apps.set 14 { cdom := .ae0, cbit := 0, dslot := none, en := none } },
    { Config.cfgEx with apps := Config.cfgEx.apps.set 1 { cdom := .ae0, cbit := 0, dslot := some 2, en := some (.k0, 0) } },
    { Config.cfgEx with apps := Config.cfgEx.apps.set 1 { cdom := .ae0, cbit := 0, dslot := some 1, en := none } },
    { Config.cfgEx with apps := Config.cfgEx.apps.set 13 { cdom := .ae1, cbit := 5, dslot := some 13, en := some (.k1, 6) } },
    { Config.cfgEx with gen := 14 },
    { Config.cfgEx with bypBit := { k0 := 0x02, k1 := 0x02 } },
    { Config.cfgEx with rTrig := Reg.bank0 0x13 },
    { Config.cfgEx with sinSlot := 1 },
    { Config.cfgEx with wFade := { Config.cfgEx.wFade with reg := Reg.bank0 0x13 } },
    { Config.cfgEx with stopFlag := 6 },
    { Config.cfgEx with tagReg := 0x20E },
    { Config.cfgEx with dirDc := 0 },
    { Config.cfgEx with eRuntime := 0 },
    { Config.cfgEx with addrW := 12 },
    { Config.cfgEx with addrW := 0, rBma := [] },
    { Config.cfgEx with prot := { ae0 := 0x04, ae1 := 0, gen := 0, base := 0 } },
    { Config.cfgEx with hiD4 := 0x10001 } ]

theorem test_broken_configs_refused : broken.all (fun c => !admissible c) = true := by decide +kernel

/-- A wait register may be R_TRANS and that of another wait; `TAG_REG` may follow `TAG_COEF` at once. -/
theorem test_edge_configs_admitted :
    admissible { Config.cfgEx with wSine := { Config.cfgEx.wSine with reg := Reg.bank0 0x0C } } = true ∧
    admissible { Config.cfgEx with tagReg := 0x20F } = true ∧
    admissible { Config.cfgEx with hiD4 := 0x10000 } = true := by decide +kernel

/-- InadmissibleConfigRefused in both directions. -/
theorem test_InadmissibleConfigRefused_met :
    (broken.all fun c => refusedAs .inadmissibleConfig (step (State.resetWith c))) = true ∧
    nextIs (step State.reset) (fun t => decide (t = State.reset)) = true := by decide +kernel

theorem test_StepKeepsConfiguration_met : ∃ t, step offered = .next t := by
  obtain ⟨t, h, _⟩ := of_nextIs (o := step offered) (check := fun _ => true) (by decide +kernel)
  exact ⟨t, h⟩

theorem test_StepKeepsInvariant_met : Inv offered ∧ ∃ t, step offered = .next t :=
  ⟨quiet_inv _ rfl rfl rfl rfl (by decide) (by decide), test_StepKeepsConfiguration_met⟩

/-- The commands' common hypothesis, in both values of ST (InitLoadsGlobalStateOnce, TermSetsIdle,
ValidateReturnsVerdict, StatusGateReturnsRuntimeFailure, ReservedOpcodesAnswerMalformed). -/
theorem test_ready_met :
    (ready State.reset = true ∧ State.reset.g.st = .idle) ∧
    (ready (running 1 0) = true ∧ (running 1 0).g.st = .inited) := by decide +kernel

/-- MstartMstopSetAndClearMasterEnable, for each of the two. -/
theorem test_MstartMstop_met :
    admissible (running 1 0).cfg = true ∧ ready (running 1 0) = true ∧ (running 1 0).g.st = .inited ∧
    (running 1 0).hw.queue = [] ∧ (running 1 0).w.qn = 0 ∧ ShadowCoherent (running 1 0).hw ∧
    (running 1 0).g.master ||| (running 1 0).cfg.mEn = 0x01 ∧
    (running 1 0).g.master &&& ~~~(running 1 0).cfg.mEn = 0x00 :=
  ⟨by decide +kernel, rfl, rfl, rfl, rfl, reset_shadowCoherent, rfl, rfl⟩

/-- QueryReturnsMaskedTransitions: the first clause; the second is met as in `test_ready_met`. -/
theorem test_QueryReturnsMaskedTransitions_met :
    ready (running 1 0) = true ∧ (running 1 0).g.st = .inited ∧ (running 1 0).hw.queue = [] ∧
    (running 1 0).w.qn = 0 := by decide +kernel

/-- A command offered in a phase of another, and one offered under a wait. -/
theorem test_BusyPortRefusesCommands_met :
    isCommand .init = true ∧ ready (State.inPhase .cmd State.reset) = false ∧
    ready (State.polling (.alone .xfer) State.reset) = false := by decide +kernel

/-- QueueWriteAppendsOneEntry, for a register of each kind: a plain one while INITED, one of block memory
after a transfer wait; and held back without them. -/
theorem test_QueueWriteAppendsOneEntry_met (g : Gate) (v : Byte) :
    mayIssue (running 1 0) (.qw g (Reg.bank0 3) v) ∧
    mayIssue (State.waited .idle (running 1 0)) (.qw g (Reg.bank0 0x14) v) ∧
    ¬mayIssue State.reset (.qw g (Reg.bank0 3) v) ∧ ¬mayIssue (running 1 0) (.qw g (Reg.bank0 0x14) v) :=
  ⟨(writeOpen_iff g v).1 (by decide +kernel), (writeOpen_iff g v).1 (by decide +kernel),
    fun h => absurd ((writeOpen_iff g v).2 h) (by decide +kernel),
    fun h => absurd ((writeOpen_iff g v).2 h) (by decide +kernel)⟩

theorem test_FlushDeliversTheQueue_met :
    State.reset.g.st = .idle ∧ twoQueued.g.st = .inited ∧ ShadowCoherent twoQueued.hw :=
  ⟨rfl, rfl, shadowCoherent_of_empty _ rfl⟩

theorem test_ForcedWriteAlwaysDelivered_met : admissible State.reset.cfg = true := test_cfgEx_admissible

theorem test_SyncFlushesOnlyIfQueued_met :
    (twoQueued.g.st = .inited ∧ 0 < twoQueued.w.qn) ∧ (running 1 0).w.qn = 0 ∧
    State.reset.g.st = .idle := by decide

/-- ReadFlushesThenReturnsTheAnswer: with writes queued, with none, and held back. -/
theorem test_ReadFlushesThenReturnsTheAnswer_met :
    (mayIssue twoQueued (.rd (Reg.bank0 5) 0) ∧ twoQueued.w.qn = twoQueued.hw.queue.length) ∧
    (mayIssue (running 1 0) (.rd (Reg.bank0 5) 0) ∧ (running 1 0).w.qn = (running 1 0).hw.queue.length) ∧
    ¬mayIssue State.reset (.rd (Reg.bank0 5) 0) :=
  ⟨⟨(readOpen_iff 0).1 (by decide +kernel), rfl⟩, ⟨(readOpen_iff 0).1 (by decide +kernel), rfl⟩,
    fun h => absurd ((readOpen_iff 0).2 h) (by decide +kernel)⟩

/-- WaitOutcomes: a byte that shows the flag and one that does not, each seen and each with a fault, and
with writes queued; and held back. -/
theorem test_WaitOutcomes_met :
    ¬mayIssue State.reset (.wait .fade true) ∧
    (running 1 0).w.qn = (running 1 0).hw.queue.length ∧ twoQueued.w.qn = twoQueued.hw.queue.length ∧
    0xFD &&& (State.reset.cfg.wait .fade).mask = (State.reset.cfg.wait .fade).want ∧
    0x02 &&& (State.reset.cfg.wait .fade).mask ≠ (State.reset.cfg.wait .fade).want ∧
    (∀ a ∈ [WaitAnswer.seen 0xFD, .seen 0x02, .fails 0xFD, .fails 0x02],
      mayIssue (State.answering [] [a] (running 1 0)) (.wait .fade true) ∧
      mayIssue (State.answering [] [a] twoQueued) (.wait .fade true) ∧
      (State.answering [] [a] (running 1 0)).orc.waits = a :: [] ∧
      ((∃ v, a = .seen v) ∨ ∃ v, a = .fails v)) ∧
    ShadowCoherent twoQueued.hw :=
  ⟨fun h => absurd ((waitOpen_iff true).2 h) (by decide +kernel), rfl, rfl, by decide +kernel,
    by decide +kernel,
    fun a _ => ⟨(waitOpen_iff true).1 rfl, (waitOpen_iff true).1 rfl, rfl,
      by cases a; exacts [.inl ⟨_, rfl⟩, .inr ⟨_, rfl⟩]⟩, shadowCoherent_of_empty _ rfl⟩

/-- Its second clause: the later poll of a WAIT offered by itself, with each kind of answer. -/
theorem test_WaitOutcomes_later_met :
    ∀ a ∈ [WaitAnswer.seen 0xFD, .seen 0x02, .fails 0xFD, .fails 0x02],
      let s := State.answering [] [a] (State.polling (.alone .fade) (running 1 0))
      admissible s.cfg = true ∧ Inv s ∧ s.site = some (.alone .fade) ∧ s.orc.waits = a :: [] :=
  fun _ _ => ⟨test_cfgEx_admissible, quiet_inv _ rfl rfl rfl rfl nofun (fun _ => rfl), rfl, rfl⟩

/-- What such a poll leaves: OK with its event, and FAIL with its event. -/
theorem test_later_poll_of_wait :
    nextIs (step (State.answering [] [.seen 0xFD] (State.polling (.alone .fade) (running 1 0))))
      (fun t => decide (t.site = none) && decide (t.io.waitRes = .ok) &&
        decide (t.io.trace = [{ phase := .idle, op := .wait .fade true }])) = true ∧
    nextIs (step (State.answering [] [.fails 0xFD] (State.polling (.alone .fade) (running 1 0))))
      (fun t => decide (t.site = none) && decide (t.io.waitRes = .failed) &&
        decide (t.io.trace = [{ phase := .idle, op := .wait .fade false }])) = true := by decide +kernel

/-- WriteAddrQueuesBytesMsbFirst: let through after a transfer wait, held back without it. -/
theorem test_WriteAddrQueuesBytesMsbFirst_met :
    (∀ r ∈ (State.waited .idle (running 1 0)).cfg.rBma, ∀ v,
      mayIssue (State.waited .idle (running 1 0)) (.qw .forced r v)) ∧
    ¬(∀ r ∈ (running 1 0).cfg.rBma, ∀ v, mayIssue (running 1 0) (.qw .forced r v)) :=
  ⟨addrOpen_iff.1 (by decide +kernel), fun h => absurd (addrOpen_iff.2 h) (by decide +kernel)⟩

/-- WriteAddrQueuesBytesMsbFirst, CoefficientChunksAtMostApps. -/
theorem test_admissible_met :
    admissible State.reset.cfg = true ∧
    ∃ r, analyse Config.cfgEx blobB { k0 := 0x80, k1 := 0 } = .record r := by
  obtain ⟨r, h, _⟩ := of_recordIs (a := analyse Config.cfgEx blobB { k0 := 0x80, k1 := 0 })
    (check := fun _ => true) (by decide +kernel)
  exact ⟨by decide +kernel, r, h⟩

/-- Every app with a slot and an enable bit, and an enable bit of no app (domain 1, bit 7). -/
theorem test_FwctrlSetsTransitions_met :
    admissible (running 1 0).cfg = true ∧ (running 1 0).w.ph ≠ .download ∧
    (running 1 0).w.ar = .record AnalysisRecord.initial ∧ (running 1 0).g.st = .inited ∧
    (running 1 0).cfg.tagFwctrlB ∉ AnalysisRecord.initial.seen ∧ 17 ≤ allStart.length ∧
    (∀ j < 17, byteAt allStart j ∈
      [(running 1 0).cfg.dirStop, (running 1 0).cfg.dirStart, (running 1 0).cfg.dirDc]) ∧
    ((running 1 0).cfg.app 13).dslot = some 13 ∧ ((running 1 0).cfg.app 13).en = some (.k1, 5) ∧
    (∀ a slot, ((running 1 0).cfg.app a).dslot = some slot →
      ((running 1 0).cfg.app a).en ≠ some (.k1, 7)) := by decide +kernel

/-- The same while IDLE. -/
theorem test_FwctrlSetsTransitions_idle_met :
    State.reset.w.ph ≠ .download ∧ State.reset.w.ar = .record AnalysisRecord.initial ∧
    State.reset.g.st = .idle := by decide

theorem test_AppcoefAccumulates_met :
    (running 1 0).w.ph ≠ .download ∧ (running 1 0).w.ar = .record AnalysisRecord.initial ∧
    (running 1 0).cfg.tagCoef + BitVec.ofNat 32 (1 : AppId).val ∉ AnalysisRecord.initial.seen ∧
    sbe32At coefBody (running 1 0).cfg.offCount = ((4 : Nat) : Int) ∧ 0 < 4 ∧ 4 % 4 = 0 ∧
    (running 1 0).cfg.offData + 4 ≤ coefBody.length ∧
    (be32At coefBody (running 1 0).cfg.offAddr).toNat < 2 ^ (running 1 0).cfg.addrW := by decide +kernel

/-- AppcoefAccumulates for Gen: the last payload byte is the control word's selection byte (offset 7 of 8),
and a payload of 4 bytes ends before it. -/
theorem test_AppcoefAccumulates_sine_met :
    (0 : AppId) = (running 1 0).cfg.gen ∧
    sbe32At [0, 0, 0, 0x0F, 0, 0, 0, 0, 8, 0, 0, 0, 0, 0, 0, 0, 1] (running 1 0).cfg.offCount = ((8 : Nat) : Int) ∧
    (0x0F : Nat) ≤ (running 1 0).cfg.scAddr ∧
    ((running 1 0).cfg.scAddr - 0x0F) * 4 + (running 1 0).cfg.scByte.val = 7 ∧
    (running 1 0).cfg.tagCoef + BitVec.ofNat 32 (0 : AppId).val ∉ AnalysisRecord.initial.seen := by decide +kernel

theorem test_ZeroLengthAppcoef_met :
    (running 1 0).w.ph ≠ .download ∧ (running 1 0).w.ar = .record AnalysisRecord.initial ∧
    sbe32At [0, 0, 2, 0, 0, 0, 0, 0, 0] (running 1 0).cfg.offCount = 0 ∧
    (running 1 0).cfg.offData ≤ [0, 0, 2, 0, 0, 0, 0, 0, (0 : Byte)].length ∧
    (be32At [0, 0, 2, 0, 0, 0, 0, 0, 0] (running 1 0).cfg.offAddr).toNat < 2 ^ (running 1 0).cfg.addrW := by
  decide +kernel

/-- AppregAndUnknownChunks: a body of 8 bytes for Gen, unseen, and for the next app. -/
theorem test_AppregAndUnknownChunks_met :
    (running 1 0).w.ph ≠ .download ∧ (running 1 0).w.ar = .record AnalysisRecord.initial ∧
    8 ≤ (regBody 0x82 0 0).length ∧ (0 : AppId) = (running 1 0).cfg.gen ∧
    (running 1 0).cfg.tagReg + BitVec.ofNat 32 (0 : AppId).val ∉ AnalysisRecord.initial.seen ∧
    (1 : AppId) ≠ (running 1 0).cfg.gen := by decide +kernel

/-- MalformedChunkEndsAnalysis: each cause M3 to M13 at the edge of its range. -/
theorem test_MalformedChunkEndsAnalysis_met :
    (allDc.take 16).length < 17 ∧
    byteAt (3 :: allDc.drop 1) 0 ∉ [Config.cfgEx.dirStop, Config.cfgEx.dirStart, Config.cfgEx.dirDc] ∧
    ([0, 0, 2, 0, 1, 0, 0, 0] : List Byte).length < Config.cfgEx.offData ∧
    2 ^ Config.cfgEx.addrW ≤ (be32At [0, 1, 0, 0, 1, 0, 0, 0, 0] Config.cfgEx.offAddr).toNat ∧
    sbe32At [0, 0, 2, 0, 1, 0xFF, 0xFF, 0xFF, 0xFC] Config.cfgEx.offCount < 0 ∧
    sbe32At bodyM9 Config.cfgEx.offCount % 4 ≠ 0 ∧
    (coefBody.length : Int) <
      Config.cfgEx.offData + sbe32At [0, 0, 2, 0, 0, 0, 0, 0, 8, 9, 8, 7, 6] Config.cfgEx.offCount ∧
    ([0, 0, 0, 0, 0, 0, 0] : List Byte).length < 8 ∧
    (0x100 : Word) ∈ ({ AnalysisRecord.initial with seen := [0x100] } : AnalysisRecord).seen := by decide +kernel

/-- TransferModeSelection, the first clause: a record in device-internal mode, and one of two chunks. -/
theorem test_TransferModeSelection_met :
    (∃ r, analyse Config.cfgEx blobB { k0 := 0x80, k1 := 0 } = .record r ∧ r.mode = .int) ∧
    (∃ r, analyse Config.cfgEx (blobB ++ [0, 0, 2, 1, 0, 0, 0, 0x0D] ++ coefBody)
      { k0 := 0x80, k1 := 0 } = .record r ∧ 2 ≤ r.ncoef) := by
  obtain ⟨r, h, hm⟩ := of_recordIs (a := analyse Config.cfgEx blobB { k0 := 0x80, k1 := 0 })
    (check := fun r => decide (r.mode = .int)) (by decide +kernel)
  obtain ⟨r', h', hm'⟩ := of_recordIs
    (a := analyse Config.cfgEx (blobB ++ [0, 0, 2, 1, 0, 0, 0, 0x0D] ++ coefBody) { k0 := 0x80, k1 := 0 })
    (check := fun r => decide (2 ≤ r.ncoef)) (by decide +kernel)
  exact ⟨⟨r, h, of_decide_eq_true hm⟩, r', h', of_decide_eq_true hm'⟩

/-- A body that asks for device-internal mode, of `n` bytes. -/
def internalBody (n : Nat) : List Byte := [0, 0, 2, 0, 1, 0, 0, 0, BitVec.ofNat 8 n] ++ List.replicate n 0

/-- Its second clause: 160 bytes, the most that device-internal mode takes, and 164. -/
theorem test_TransferModeSelection_one_chunk_met :
    ∀ n ∈ [160, 164], fitsLength (internalBody n) = true ∧
      sbe32At (internalBody n) Config.cfgEx.offCount = (n : Int) ∧ 0 < n ∧ n % 4 = 0 ∧
      Config.cfgEx.offData + n ≤ (internalBody n).length ∧
      (be32At (internalBody n) Config.cfgEx.offAddr).toNat < 2 ^ Config.cfgEx.addrW ∧
      byteAt (internalBody n) Config.cfgEx.offMode = Config.cfgEx.mbInt := by decide +kernel

/-- The blob of a register chunk that stops Gen, after directives. -/
def blobStopGen (dirs : List Byte) : List Byte :=
  fwChunk dirs ++ [0, 0, 3, 0, 0, 0, 0, 8] ++ regBody 0x82 0 0x5A

/-- TransitionAndGenStopMasks: Gen runs and a register chunk stops it; and a directive stops it first. -/
theorem test_TransitionAndGenStopMasks_met :
    (∃ r, analyse Config.cfgEx (blobStopGen allDc) { k0 := 0x80, k1 := 0 } = .record r ∧
      bitSet (r.gs.get .k0) 7 = true) ∧
    (∃ r, analyse Config.cfgEx (blobStopGen (0 :: allDc.drop 1)) { k0 := 0x80, k1 := 0 } = .record r ∧
      bitSet (r.off.get .k0) 7 = true ∧ r.gs.get .k0 = 0) := by
  obtain ⟨r, h, hm⟩ := of_recordIs (a := analyse Config.cfgEx (blobStopGen allDc) { k0 := 0x80, k1 := 0 })
    (check := fun r => bitSet (r.gs.get .k0) 7) (by decide +kernel)
  obtain ⟨r', h', hm'⟩ := of_recordIs
    (a := analyse Config.cfgEx (blobStopGen (0 :: allDc.drop 1)) { k0 := 0x80, k1 := 0 })
    (check := fun r => bitSet (r.off.get .k0) 7 && decide (r.gs.get .k0 = 0)) (by decide +kernel)
  rw [Bool.and_eq_true] at hm'
  exact ⟨⟨r, h, hm⟩, r', h', hm'.1, of_decide_eq_true hm'.2⟩

/-- Whole chunks: an unknown one, and a register chunk of 8 bytes for app 5. -/
def wholeChunks : List (Word × List Byte) := [(0x7777, [1, 2, 3]), (0x305, regBody 0 0 0)]

/-- FramingErrorsAreMalformed, after whole chunks: 1 and 7 bytes; a header alone with length 1, and one
with length 3 and 2 bytes; a malformed beginning. -/
theorem test_FramingErrors_met :
    (∀ k ∈ wholeChunks, fitsLength k.2 = true) ∧
    (0 < ([0] : List Byte).length ∧ ([0] : List Byte).length < 8) ∧
    ([0, 0, 0, 0, 0, 0, 0] : List Byte).length < 8 ∧
    (∀ tail ∈ [[0, 0, 0, 0, 0, 0, 0, (1 : Byte)], [0, 0, 0, 0, 0, 0, 0, 3, 5, 5]],
      8 ≤ tail.length ∧ tail.length - 8 < (be32At tail 4).toNat) ∧
    analyse Config.cfgEx (blobOf [(0x305, [0, 0, 0, 0, 0, 0, 0])]) { k0 := 0, k1 := 0 } = .malformed := by
  decide +kernel

/-- BlobMalformedIffAChunkIs, with both answers: whole chunks that are fine, a register chunk of 7 bytes
behind one, and one tag twice. -/
theorem test_BlobMalformedIffAChunkIs_met :
    admissible Config.cfgEx = true ∧ (∀ k ∈ wholeChunks, fitsLength k.2 = true) ∧
    recordIs (analyse Config.cfgEx (blobOf wholeChunks) { k0 := 0, k1 := 0 }) (fun _ => true) = true ∧
    analyse Config.cfgEx (blobOf (wholeChunks ++ [(0x305, [0, 0, 0, 0, 0, 0, 0])])) { k0 := 0, k1 := 0 } =
      .malformed ∧
    analyse Config.cfgEx (blobOf [(0x100, allDc), (0x7777, []), (0x100, allDc)]) { k0 := 0, k1 := 0 } =
      .malformed := by decide +kernel

/-- BlobAnalysisRunsItsItems, with a record and with Malformed at the end of the items. -/
theorem test_BlobAnalysisRunsItsItems_met :
    (running 1 0).w.ph ≠ .download ∧ (running 1 0).w.ar = .record AnalysisRecord.initial ∧
    (∀ k ∈ wholeChunks, fitsLength k.2 = true) ∧
    ((runItems (wholeChunks.map fun k => instrOfChunk (chunkOfTag (running 1 0).cfg k.1 k.2))
      (running 1 0)).map fun t => t.w.ar) =
        some (.record { AnalysisRecord.initial with items := [.skip, .skip] }) ∧
    ((runItems ([(0x305, [])].map fun k => instrOfChunk (chunkOfTag (running 1 0).cfg k.1 k.2))
      (running 1 0)).map fun t => t.w.ar) = some .malformed := by decide +kernel

/-- CoefItemWritesInOrder and CoefItemReachesTheDevice in both modes; without the wait the item is held
back. -/
theorem test_CoefItem_met :
    transferWaited (downloading .host).io.trace ∧
    ¬transferWaited ({ downloading .host with io := State.reset.io } : State).io.trace ∧
    (downloading .host).g.st = .inited ∧
    admissible (downloading .host).cfg = true ∧ (downloading .host).w.ph = .download ∧
    (downloading .host).hw.queue = [] ∧ (downloading .host).w.qn = 0 ∧
    sbe32At coefBody (downloading .host).cfg.offCount = ((4 : Nat) : Int) ∧
    (downloading .host).cfg.offData + 4 ≤ coefBody.length ∧
    (be32At coefBody (downloading .host).cfg.offAddr).toNat < 2 ^ (downloading .host).cfg.addrW ∧
    (passRecord (downloading .host)).mode = .host ∧ (passRecord (downloading .int)).mode = .int ∧
    (downloading .int).cfg.vCtlWrInt ≠ (downloading .int).cfg.vCtlWrHost := by
  refine ⟨⟨.wait, List.mem_singleton.2 rfl⟩, ?_, rfl, ?_⟩
  · rintro ⟨_, h⟩
    cases h
  · decide +kernel

theorem test_RegItemWritesSelectedRegisters_met :
    (downloading .none).w.ph = .download ∧ (downloading .none).g.st = .inited ∧
    ({ downloading .none with g := State.reset.g } : State).g.st = .idle ∧
    (downloading .none).w.qn = (downloading .none).hw.queue.length ∧ 8 ≤ (regBody 0x82 0 0x5A).length ∧
    genEn (downloading .none).cfg = some (.k0, 7) := by decide +kernel

/-- OtherItemsEmitNothing: each of its four forms. -/
theorem test_OtherItemsEmitNothing_met :
    (downloading .none).w.ph = .download ∧ fwBodyOk (downloading .none).cfg allDc = true ∧
    coefBodyOk (downloading .none).cfg [0, 0, 2, 0, 0, 0, 0, 0, 0] = true ∧
    sbe32At [0, 0, 2, 0, 0, 0, 0, 0, 0] (downloading .none).cfg.offCount = 0 ∧
    8 ≤ (regBody 0 0 0).length ∧ (5 : AppId) ≠ (downloading .none).cfg.gen := by decide +kernel

theorem test_MalformedApplyHasNoEffect_met :
    ready (running 1 0) = true ∧ (running 1 0).g.st = .inited ∧
    analyse (running 1 0).cfg [0, 0, 1] (running 1 0).g.en = .malformed := by decide +kernel

theorem test_FailedTransferWaitAbortsApply_met :
    ∃ r, ready (State.answering [] [.fails 0x33] (running 1 0)) = true ∧ (running 1 0).g.st = .inited ∧
      (running 1 0).hw.queue = [] ∧ (running 1 0).w.qn = 0 ∧
      analyse (running 1 0).cfg blobB (running 1 0).g.en = .record r ∧
      (State.answering [] [.fails 0x33] (running 1 0)).orc.waits = .fails 0x33 :: [] := by
  obtain ⟨r, h, _⟩ := of_recordIs (a := analyse (running 1 0).cfg blobB (running 1 0).g.en)
    (check := fun _ => true) (by decide +kernel)
  exact ⟨r, by decide +kernel, rfl, rfl, rfl, h, rfl⟩

/-- The waits that a pass may come to, from the state in which its APPLY is offered. -/
def waitsAhead (r : AnalysisRecord) (s : State) : List WaitName :=
  waitsFrom s.cfg r { s.g with sinsrc := r.sinsel.getD s.g.sinsrc }
    (mayWaitForSine r { s.g with sinsrc := r.sinsel.getD s.g.sinsrc } 0 .applyXfer s) .applyXfer

/-- The waits that a pass comes to, where that is known. -/
def waitsKnown (r : AnalysisRecord) (s : State) : List WaitName :=
  waitsFrom s.cfg r { s.g with sinsrc := r.sinsel.getD s.g.sinsrc }
    (willWaitForSine r { s.g with sinsrc := r.sinsel.getD s.g.sinsrc } 0 .applyXfer s) .applyXfer

/-- ApplyCompletes of a pass that waits for a fade, and of one that silences the sine. -/
theorem test_ApplyCompletes_met :
    ∀ p ∈ [(fwChunk allStart, (0x81 : Byte), [WaitName.xfer, .fade]), (blobC3, 0x80, [.xfer, .sine])],
      ∃ r, admissible (running p.2.1 0).cfg = true ∧ Inv (running p.2.1 0) ∧
        ready (running p.2.1 0) = true ∧ (running p.2.1 0).g.st = .inited ∧
        analyse (running p.2.1 0).cfg p.1 (running p.2.1 0).g.en = .record r ∧
        waitsAhead r (running p.2.1 0) = p.2.2 ∧
        answersShow (running p.2.1 0).cfg (waitsAhead r (running p.2.1 0)) (running p.2.1 0).orc.waits := by
  intro p hp
  obtain ⟨r, h, hw⟩ := of_recordIs (a := analyse (running p.2.1 0).cfg p.1 (running p.2.1 0).g.en)
    (check := fun r => decide (waitsAhead r (running p.2.1 0) = p.2.2)) (by revert p; decide +kernel)
  have hw := of_decide_eq_true hw
  refine ⟨r, test_cfgEx_admissible, quiet_inv _ rfl rfl rfl rfl nofun nofun, rfl, rfl, h, hw, ?_⟩
  rw [hw]
  rcases List.mem_cons.1 hp with rfl | hp
  · exact ⟨by decide, by decide, trivial⟩
  · rw [List.mem_singleton.1 hp]
    exact ⟨by decide, by decide, trivial⟩

/-- CompletedPassGuarantee, CompletedPassAccesses, TriggerWrittenOncePerInternalPass: a device-internal
pass, and one that is not. -/
theorem test_CompletedPass_met :
    (∃ r t, admissible (running 0x81 0).cfg = true ∧ (running 0x81 0).g.st = .inited ∧
      Inv (running 0x81 0) ∧ (running 0x81 0).cfg.vCtlWrInt ≠ (running 0x81 0).cfg.vCtlWrHost ∧
      analyse (running 0x81 0).cfg blobB (running 0x81 0).g.en = .record r ∧ r.mode = .int ∧
      Item.coef 0 0x100 [0x11, 0x22, 0x33, 0x44, 0x55, 0x66, 0x77, 0x88] ∈ r.items ∧
      exec (.apply blobB) (running 0x81 0) = .next t ∧ t.site = none ∧ t.w.result = 0) ∧
    (∃ r t, analyse (running 0x80 0).cfg blobAe (running 0x80 0).g.en = .record r ∧ r.mode ≠ .int ∧
      exec (.apply blobAe) (running 0x80 0) = .next t ∧ t.site = none ∧ t.w.result = 0) := by
  obtain ⟨r, t, h, hm, ht, hc⟩ := apply_met (s := running 0x81 0) (blob := blobB)
    (rc := fun r => decide (r.mode = .int) &&
      decide (Item.coef 0 0x100 [0x11, 0x22, 0x33, 0x44, 0x55, 0x66, 0x77, 0x88] ∈ r.items))
    (tc := fun t => decide (t.site = none) && decide (t.w.result = 0)) (by decide +kernel)
  obtain ⟨r', t', h', hm', ht', hc'⟩ := apply_met (s := running 0x80 0) (blob := blobAe)
    (rc := fun r => decide (r.mode ≠ .int))
    (tc := fun t => decide (t.site = none) && decide (t.w.result = 0)) (by decide +kernel)
  simp only [Bool.and_eq_true, decide_eq_true_eq] at hm hc hm' hc'
  exact ⟨⟨r, t, by decide +kernel, rfl, quiet_inv _ rfl rfl rfl rfl (by decide) (by decide), by decide, h, hm.1,
    hm.2, ht, hc⟩, r', t', h', hm', ht', hc'⟩

/-- The pass of S-B held up at its transfer wait, one to an app of domain AE[0] at its fade wait, the pass of
S-C3 at its sine wait. -/
def heldAt (site : WaitSite) : State :=
  match site with
  | .applySine => heldPass .applySine blobC3 0 (some 0x01)
      [.rd (Reg.bank0 5) 0x01, .qw .gated (Reg.bank0 5) 0, .flush] (running 0x80 0)
  | .applyFade => heldPass .applyFade blobAe 0x01 none [.qw .gated (Reg.bank0 3) 0x01, .flush] (running 0x81 0)
  | .applyXfer => heldPass .applyXfer blobB 0 none [] (running 0x81 0)
  | .upload m a n => State.polling (.upload m a n) (running 0x81 0)
  | .alone w => State.polling (.alone w) (running 0x81 0)

theorem heldAt_inv (site : WaitSite) (h : site = .applyXfer ∨ site = .applyFade ∨ site = .applySine) :
    Inv (heldAt site) := by
  rcases h with rfl | rfl | rfl <;> exact quiet_inv _ rfl rfl rfl rfl (by decide) (by decide)

/-- The global state before the pass of `heldAt`. -/
def beforeHeld (site : WaitSite) : Globals :=
  if site = .applySine then (running 0x80 0).g else (running 0x81 0).g

/-- The three states are held passes as HeldPass describes them, with the byte 0x01 of R_SINOUT. -/
theorem heldAt_held (site : WaitSite) (h : site = .applyXfer ∨ site = .applyFade ∨ site = .applySine) :
    HeldPass (passRecord (heldAt site)) (beforeHeld site) 0x01 site (heldAt site) := by
  rcases h with rfl | rfl | rfl <;>
    exact {
      isPass := by decide
      held := rfl
      record := by decide +kernel
      inited := rfl
      globals := by decide +kernel
      faded := by decide +kernel
      silenced := by decide +kernel
      prec := by decide +kernel
      xoff := by decide +kernel
      sil := by decide +kernel
      sinsave := by decide +kernel
      loaded := by decide +kernel
      emitted := by decide +kernel }

theorem answering_held {r : AnalysisRecord} {g : Globals} {v : Byte} {site : WaitSite} {s : State}
    (reads : List Byte) (waits : List WaitAnswer) (h : HeldPass r g v site s) :
    HeldPass r g v site (State.answering reads waits s) :=
  ⟨h.isPass, h.held, h.record, h.inited, h.globals, h.faded, h.silenced, h.prec, h.xoff, h.sil, h.sinsave,
    h.loaded, h.emitted⟩

/-- HeldPassState: APPLY held up in its fade wait (S-A2), and a held pass that a poll leaves there. -/
theorem test_HeldPassState_met :
    (∃ r t, admissible (running 0x81 0).cfg = true ∧ (running 0x81 0).g.st = .inited ∧
      analyse (running 0x81 0).cfg (fwChunk allStart) (running 0x81 0).g.en = .record r ∧
      exec (.apply (fwChunk allStart)) (State.answering [] [.seen 0, .seen 2] (running 0x81 0)) = .next t ∧
      t.site = some .applyFade) ∧
    ∀ site ∈ [WaitSite.applyXfer, .applyFade, .applySine],
      let s := State.answering [] [.seen 7] (heldAt site)
      HeldPass (passRecord (heldAt site)) (beforeHeld site) 0x01 site s ∧ Inv s ∧
      ∃ t, step s = .next t ∧ t.site = some site := by
  obtain ⟨r, t, h, _, ht, hc⟩ := apply_met (s := State.answering [] [.seen 0, .seen 2] (running 0x81 0))
    (blob := fwChunk allStart) (rc := fun _ => true) (tc := fun t => decide (t.site = some .applyFade))
    (by decide +kernel)
  refine ⟨⟨r, t, test_cfgEx_admissible, rfl, h, ht, of_decide_eq_true hc⟩, ?_⟩
  intro site hs s
  have hp : site = .applyXfer ∨ site = .applyFade ∨ site = .applySine := by revert site; decide
  obtain ⟨u, hu, hd⟩ := of_nextIs (o := step s) (check := fun t => decide (t.site = some site))
    (by revert site; decide +kernel)
  refine ⟨answering_held _ _ (heldAt_held site hp), ?_, u, hu, of_decide_eq_true hd⟩
  rcases hp with rfl | rfl | rfl <;> exact quiet_inv _ rfl rfl rfl rfl (by decide) (by decide)

/-- The second clauses of CompletedPassGuarantee, CompletedPassAccesses and
TriggerWrittenOncePerInternalPass, and with `heldAt_held` the third ones of the first two, at each of the
three sites: the pass completes. -/
theorem test_ResumedPass_met (site : WaitSite)
    (h : site = .applyXfer ∨ site = .applyFade ∨ site = .applySine) :
    admissible (heldAt site).cfg = true ∧ Inv (heldAt site) ∧ (heldAt site).site = some site ∧
    ∃ t, step (heldAt site) = .next t ∧ t.site = none ∧ t.w.result = 0 := by
  have hi := heldAt_inv site h
  obtain ⟨t, ht, hc⟩ := of_nextIs (o := step (heldAt site))
    (check := fun t => decide (t.site = none) && decide (t.w.result = 0))
    (by rcases h with rfl | rfl | rfl <;> decide +kernel)
  simp only [Bool.and_eq_true, decide_eq_true_eq] at hc
  refine ⟨?_, hi, ?_, t, ht, hc.1, hc.2⟩
  · rcases h with rfl | rfl | rfl <;> exact test_cfgEx_admissible
  · rcases h with rfl | rfl | rfl <;> rfl

/-- Its second clause, at each of the three sites. -/
theorem test_ApplyCompletes_held_met (site : WaitSite)
    (h : site = .applyXfer ∨ site = .applyFade ∨ site = .applySine) :
    admissible (heldAt site).cfg = true ∧ Inv (heldAt site) ∧
    HeldPass (passRecord (heldAt site)) (beforeHeld site) 0x01 site (heldAt site) ∧
    answersShow (heldAt site).cfg
      (waitsFrom (heldAt site).cfg (passRecord (heldAt site)) (beforeHeld site)
        (mayWaitForSine (passRecord (heldAt site)) (beforeHeld site) 0x01 site (heldAt site)) site)
      (heldAt site).orc.waits := by
  refine ⟨(test_ResumedPass_met site h).1, heldAt_inv site h, heldAt_held site h, ?_⟩
  have hw : waitsFrom (heldAt site).cfg (passRecord (heldAt site)) (beforeHeld site)
      (mayWaitForSine (passRecord (heldAt site)) (beforeHeld site) 0x01 site (heldAt site)) site =
        [siteWait site] := by rcases h with rfl | rfl | rfl <;> decide +kernel
  rw [hw]
  rcases h with rfl | rfl | rfl <;> exact ⟨by decide, trivial⟩

/-- The pass to an app of domain AE[0], held up at its transfer wait: the fade wait is still to come. -/
def heldEarly : State := heldPass .applyXfer blobAe 0 none [] (running 0x81 0)

theorem heldEarly_held :
    HeldPass (passRecord heldEarly) (running 0x81 0).g 0 .applyXfer heldEarly ∧ Inv heldEarly ∧
    waitsFrom heldEarly.cfg (passRecord heldEarly) (running 0x81 0).g
      (willWaitForSine (passRecord heldEarly) (running 0x81 0).g 0 .applyXfer heldEarly) .applyXfer =
        [.xfer, .fade] := by
  refine ⟨?_, quiet_inv _ rfl rfl rfl rfl (by decide) (by decide), by decide +kernel⟩
  exact {
    isPass := .inl rfl
    held := rfl
    record := by decide +kernel
    inited := rfl
    globals := rfl
    faded := nofun
    silenced := nofun
    prec := rfl
    xoff := rfl
    sil := rfl
    sinsave := nofun
    loaded := by decide +kernel
    emitted := rfl }

/-- AbortedPassState and HeldPassState over a held pass: the wait at hand shows, the next one fails; or it
polls on. -/
theorem test_later_wait_met :
    answersFail heldEarly.cfg [.xfer, .fade] [.seen 0, .fails 0] ∧
    answersHold heldEarly.cfg .fade [.xfer, .fade] [.seen 0, .seen 2] ∧
    ∀ l, HeldPass (passRecord heldEarly) (running 0x81 0).g 0 .applyXfer (State.answering [] l heldEarly) ∧
      Inv (State.answering [] l heldEarly) :=
  ⟨⟨by decide, trivial⟩, .inl ⟨by decide, .inr ⟨rfl, by decide⟩⟩,
    fun l => ⟨answering_held [] l heldEarly_held.1, quiet_inv _ rfl rfl rfl rfl (fun _ => rfl) (fun _ => rfl)⟩⟩

/-- AbortedPassState and HeldPassState of an APPLY: a wait after the first fails, or polls on. -/
theorem test_later_wait_of_apply_met :
    ∀ p ∈ [(fwChunk allStart, WaitName.fade, (0x02 : Byte)), (blobC3, .sine, 0x04)],
      ∃ r, ready (running 0x81 0) = true ∧ Inv (running 0x81 0) ∧ (running 0x81 0).g.st = .inited ∧
        analyse (running 0x81 0).cfg p.1 (running 0x81 0).g.en = .record r ∧
        waitsKnown r (State.answering [0x01] [.seen 0, .fails 0] (running 0x81 0)) = [.xfer, p.2.1] ∧
        answersFail (running 0x81 0).cfg [.xfer, p.2.1] [.seen 0, .fails 0] ∧
        answersHold (running 0x81 0).cfg p.2.1 [.xfer, p.2.1] [.seen 0, .seen p.2.2] := by
  intro p hp
  obtain ⟨r, h, hw⟩ := of_recordIs (a := analyse (running 0x81 0).cfg p.1 (running 0x81 0).g.en)
    (check := fun r => decide
      (waitsKnown r (State.answering [0x01] [.seen 0, .fails 0] (running 0x81 0)) = [.xfer, p.2.1]))
    (by revert p; decide +kernel)
  refine ⟨r, rfl, quiet_inv _ rfl rfl rfl rfl nofun nofun, rfl, h, of_decide_eq_true hw,
    ⟨by decide, trivial⟩, .inl ⟨by decide, .inr ⟨rfl, ?_⟩⟩⟩
  clear h hw
  revert p
  decide

/-- HeldPassState: the wait at hand polls on, at each of the three sites. -/
theorem test_HeldPassState_polls_met :
    ∀ site ∈ [WaitSite.applyXfer, .applyFade, .applySine],
      waitsFrom (heldAt site).cfg (passRecord (heldAt site)) (beforeHeld site)
        (willWaitForSine (passRecord (heldAt site)) (beforeHeld site) 0x01 site (heldAt site)) site =
          [siteWait site] ∧
      answersHold (heldAt site).cfg (siteWait site) [siteWait site] [.seen 7] ∧
      passSite (siteWait site) = site := by
  intro site h
  have hp : site = .applyXfer ∨ site = .applyFade ∨ site = .applySine := by revert site; decide
  rcases hp with rfl | rfl | rfl <;> exact ⟨by decide +kernel, .inr ⟨rfl, by decide⟩, rfl⟩

/-- AbortedPassState: the wait at hand fails, at each of the three sites. -/
theorem test_AbortedPassState_held_met (site : WaitSite)
    (h : site = .applyXfer ∨ site = .applyFade ∨ site = .applySine) :
    HeldPass (passRecord (heldAt site)) (beforeHeld site) 0x01 site
      (State.answering [] [.fails 0x33] (heldAt site)) ∧
    (State.answering [] [.fails 0x33] (heldAt site)).orc.waits = .fails 0x33 :: [] ∧
    answersFail (heldAt site).cfg [siteWait site] [.fails 0x33] :=
  ⟨answering_held [] _ (heldAt_held site h), rfl, trivial⟩

/-- TriggerWrittenOncePerInternalPass over a held pass: the device-internal pass of S-B. -/
theorem test_TriggerWritten_held_met :
    HeldPass (passRecord (heldAt .applyXfer)) (beforeHeld .applyXfer) 0x01 .applyXfer (heldAt .applyXfer) ∧
    analyse (heldAt .applyXfer).cfg blobB (beforeHeld .applyXfer).en =
      .record (passRecord (heldAt .applyXfer)) ∧
    (passRecord (heldAt .applyXfer)).mode = .int ∧
    (heldAt .applyXfer).cfg.vCtlWrInt ≠ (heldAt .applyXfer).cfg.vCtlWrHost ∧
    Item.coef 0 0x100 [0x11, 0x22, 0x33, 0x44, 0x55, 0x66, 0x77, 0x88] ∈
      (passRecord (heldAt .applyXfer)).items ∧
    ∃ t, step (heldAt .applyXfer) = .next t ∧ t.site = none ∧ t.w.result = 0 :=
  ⟨heldAt_held _ (.inl rfl), by decide +kernel, by decide +kernel, by decide, by decide +kernel,
    (test_ResumedPass_met _ (.inl rfl)).2.2.2⟩

/-- TargetsAreMutedBeforeTransfer: a host-driven pass to a running app whose bypass bit is clear writes an
address register. -/
theorem test_TargetsAreMutedBeforeTransfer_met :
    ∃ r t pre post, admissible (running 0x81 0).cfg = true ∧ (running 0x81 0).g.st = .inited ∧
      analyse (running 0x81 0).cfg blobAe (running 0x81 0).g.en = .record r ∧ r.mode = .host ∧
      Item.coef 1 0x100 [1, 2, 3, 4] ∈ r.items ∧ exec (.apply blobAe) (running 0x81 0) = .next t ∧
      t.io.trace = pre ++ { phase := .download, op := .qw .forced (Reg.bank0 0x10) 0x01 } :: post ∧
      Reg.bank0 0x10 ∈ (running 0x81 0).cfg.rBma ∧
      (running 0x81 0).cfg.prot.get ((running 0x81 0).cfg.app 1).cdom &&& (running 0x81 0).g.byp ≠
        (running 0x81 0).cfg.prot.get ((running 0x81 0).cfg.app 1).cdom ∧
      ((running 0x81 0).cfg.app 1).en = some (.k0, 0) ∧ bitSet ((running 0x81 0).g.en.get .k0) 0 = true := by
  obtain ⟨r, t, h, hr, ht, hc⟩ := apply_met (s := running 0x81 0) (blob := blobAe)
    (rc := fun r => decide (r.mode = .host) && decide (Item.coef 1 0x100 [1, 2, 3, 4] ∈ r.items))
    (tc := fun t => decide (({ phase := .download, op := .qw .forced (Reg.bank0 0x10) 0x01 } : Event) ∈
      t.io.trace)) (by decide +kernel)
  simp only [Bool.and_eq_true, decide_eq_true_eq] at hr
  obtain ⟨pre, post, hpp⟩ := List.append_of_mem (of_decide_eq_true hc)
  exact ⟨r, t, pre, post, test_cfgEx_admissible, rfl, h, hr.1, hr.2, ht, hpp, by decide, by decide, rfl,
    by decide⟩

/-- Its second clause: the same pass held up in its fade wait. -/
theorem test_TargetsAreMuted_held_met :
    HeldPass (passRecord (heldAt .applyFade)) (beforeHeld .applyFade) 0x01 .applyFade (heldAt .applyFade) ∧
    Inv (heldAt .applyFade) ∧
    analyse (heldAt .applyFade).cfg blobAe (beforeHeld .applyFade).en =
      .record (passRecord (heldAt .applyFade)) ∧
    (passRecord (heldAt .applyFade)).mode = .host ∧
    Item.coef 1 0x100 [1, 2, 3, 4] ∈ (passRecord (heldAt .applyFade)).items ∧
    Reg.bank0 0x10 ∈ (heldAt .applyFade).cfg.rBma ∧
    ∃ t pre post, step (heldAt .applyFade) = .next t ∧
      t.io.trace = pre ++ { phase := .download, op := .qw .forced (Reg.bank0 0x10) 0x01 } :: post := by
  obtain ⟨t, ht, hc⟩ := of_nextIs (o := step (heldAt .applyFade))
    (check := fun t => decide (({ phase := .download, op := .qw .forced (Reg.bank0 0x10) 0x01 } : Event) ∈
      t.io.trace)) (by decide +kernel)
  obtain ⟨pre, post, hpp⟩ := List.append_of_mem (of_decide_eq_true hc)
  exact ⟨heldAt_held _ (by decide), heldAt_inv _ (by decide), by decide +kernel, by decide +kernel,
    by decide +kernel, by decide, t, pre, post, ht, hpp⟩

/-- AbortedPassState, the first clause: the transfer wait, the fade wait (program P5), the sine wait
(V-X4) fails. -/
theorem test_AbortedPassState_met :
    ∀ p ∈ [(blobC3, [WaitAnswer.fails 0x33]), (fwChunk allStart, [.seen 0, .fails 0]),
        (blobC3, [.seen 0, .fails 4])],
      ∃ r t, admissible (running 0x81 0).cfg = true ∧
        Inv (State.answering [0x01] p.2 (running 0x81 0)) ∧ (running 0x81 0).g.st = .inited ∧
        (running 0x81 0).hw.queue = [] ∧
        analyse (running 0x81 0).cfg p.1 (running 0x81 0).g.en = .record r ∧
        exec (.apply p.1) (State.answering [0x01] p.2 (running 0x81 0)) = .next t ∧
        t.w.result = (running 0x81 0).cfg.eRuntime ∧ t.site = none := by
  intro p hp
  obtain ⟨r, t, h, _, ht, hc⟩ := apply_met (s := State.answering [0x01] p.2 (running 0x81 0)) (blob := p.1)
    (rc := fun _ => true)
    (tc := fun t => decide (t.w.result = 0xFFFFFFFE) && decide (t.site = none))
    (by revert p; decide +kernel)
  simp only [Bool.and_eq_true, decide_eq_true_eq] at hc
  exact ⟨r, t, test_cfgEx_admissible, quiet_inv _ rfl rfl rfl rfl (by intro h; cases h) nofun, rfl, rfl, h, ht, hc⟩

/-- Its second clause, at each of the three sites. -/
theorem test_AbortedPassState_resumed_met (site : WaitSite)
    (h : site = .applyXfer ∨ site = .applyFade ∨ site = .applySine) :
    admissible (State.answering [] [.fails 0x33] (heldAt site)).cfg = true ∧
    Inv (State.answering [] [.fails 0x33] (heldAt site)) ∧
    (State.answering [] [.fails 0x33] (heldAt site)).site = some site ∧
    ∃ t, step (State.answering [] [.fails 0x33] (heldAt site)) = .next t ∧
      t.w.result = Config.cfgEx.eRuntime ∧ t.site = none := by
  obtain ⟨t, ht, hc⟩ := of_nextIs (o := step (State.answering [] [.fails 0x33] (heldAt site)))
    (check := fun t => decide (t.w.result = 0xFFFFFFFE) && decide (t.site = none))
    (by rcases h with rfl | rfl | rfl <;> decide +kernel)
  simp only [Bool.and_eq_true, decide_eq_true_eq] at hc
  rcases h with rfl | rfl | rfl <;>
    exact ⟨test_cfgEx_admissible, quiet_inv _ rfl rfl rfl rfl (by decide) (by decide), rfl, t, ht, hc⟩

/-- PhaseGateHolds and PhasesGoForward for a command that has events, for one while IDLE, for one left in a
wait, and for a resumed pass; PhaseGateHolds for an item offered by itself that touches block memory. -/
theorem test_PhaseGateHolds_met :
    (isCommand (.apply (fwChunk allStart)) = true ∧ admissible (running 0x80 0).cfg = true ∧
      ∃ t, exec (.apply (fwChunk allStart)) (running 0x80 0) = .next t ∧ t.io.trace ≠ []) ∧
    (isCommand .init = true ∧ State.reset.g.st = .idle ∧ ∃ t, exec .init State.reset = .next t) ∧
    (Inv (heldAt .applyXfer) ∧ (∀ w, WaitSite.applyXfer ≠ .alone w) ∧
      (∀ e ∈ (heldAt .applyXfer).io.trace, gateOk (heldAt .applyXfer).cfg e) ∧
      transferGate (heldAt .applyXfer) ∧ forwardSoFar (heldAt .applyXfer) ∧
      ∃ t, step (heldAt .applyXfer) = .next t) ∧
    (Inv (State.answering [] [.seen 1] (running 0x80 0)) ∧
      ∃ t, exec (.apply (fwChunk allStart)) (State.answering [] [.seen 1] (running 0x80 0)) = .next t ∧
        t.site.isSome = true) ∧
    (isCommand (.appcoef 1 coefBody) = false ∧ (downloading .host).w.ph ≠ .idle ∧
      ∃ t, exec (.appcoef 1 coefBody) (downloading .host) = .next t ∧
        t.io.trace ≠ (downloading .host).io.trace) := by
  obtain ⟨x, hx, hxc⟩ := of_nextIs
    (o := exec (.apply (fwChunk allStart)) (State.answering [] [.seen 1] (running 0x80 0)))
    (check := fun t => t.site.isSome) (by decide +kernel)
  obtain ⟨y, hy, hyc⟩ := of_nextIs (o := exec (.appcoef 1 coefBody) (downloading .host))
    (check := fun t => decide (t.io.trace ≠ (downloading .host).io.trace)) (by decide +kernel)
  obtain ⟨t, ht, hc⟩ := of_nextIs (o := exec (.apply (fwChunk allStart)) (running 0x80 0))
    (check := fun t => decide (t.io.trace ≠ [])) (by decide +kernel)
  obtain ⟨t', ht', _⟩ := of_nextIs (o := exec .init State.reset) (check := fun _ => true) (by decide +kernel)
  obtain ⟨u, hu, _⟩ := of_nextIs (o := step (heldAt .applyXfer)) (check := fun _ => true) (by decide +kernel)
  refine ⟨⟨rfl, by decide +kernel, t, ht, of_decide_eq_true hc⟩, ⟨rfl, rfl, t', ht'⟩,
    ⟨heldAt_inv _ (.inl rfl), ?_, ?_, ⟨?_, ?_⟩, ⟨List.Pairwise.nil, ?_⟩, u, hu⟩,
    ⟨quiet_inv _ rfl rfl rfl rfl (by decide) (by decide), x, hx, hxc⟩,
    rfl, by decide, y, hy, of_decide_eq_true hyc⟩
  · intro w h
    cases h
  · intro e he
    cases he
  · intro pre e post h
    have : ([] : List Event) = pre ++ e :: post := h
    simp at this
  · intro h
    rcases h with h | h <;> cases h
  · intro _ e he
    cases he

/-- QuiesceOnlyMutes: passes whose phase 2 writes R_BYP (S-A2), and R_SINOUT and R_EN (S-C3). -/
theorem test_QuiesceOnlyMutes_met :
    admissible (running 0x81 0).cfg = true ∧
    (∃ t, exec (.apply (fwChunk allStart)) (running 0x81 0) = .next t ∧
      ({ phase := .quiesce, op := .qw .gated (Reg.bank0 3) 0x03 } : Event) ∈ t.io.trace) ∧
    ∃ t, exec (.apply blobC3) (State.answering [0x01] [.seen 0, .seen 0] (running 0x81 0)) = .next t ∧
      ({ phase := .quiesce, op := .qw .gated (Reg.bank0 5) 0 } : Event) ∈ t.io.trace ∧
      ({ phase := .quiesce, op := .qw .gated (Reg.bank0 1) 0x01 } : Event) ∈ t.io.trace := by
  obtain ⟨t, ht, hc⟩ := of_nextIs (o := exec (.apply (fwChunk allStart)) (running 0x81 0))
    (check := fun t =>
      decide (({ phase := .quiesce, op := .qw .gated (Reg.bank0 3) 0x03 } : Event) ∈ t.io.trace))
    (by decide +kernel)
  obtain ⟨u, hu, hd⟩ := of_nextIs
    (o := exec (.apply blobC3) (State.answering [0x01] [.seen 0, .seen 0] (running 0x81 0)))
    (check := fun t =>
      decide (({ phase := .quiesce, op := .qw .gated (Reg.bank0 5) 0 } : Event) ∈ t.io.trace) &&
      decide (({ phase := .quiesce, op := .qw .gated (Reg.bank0 1) 0x01 } : Event) ∈ t.io.trace))
    (by decide +kernel)
  rw [Bool.and_eq_true] at hd
  exact ⟨by decide +kernel, ⟨t, ht, of_decide_eq_true hc⟩, u, hu, of_decide_eq_true hd.1,
    of_decide_eq_true hd.2⟩

/-- Its second clause: from the transfer wait, a resumed pass writes R_BYP in phase 2. -/
theorem test_QuiesceOnlyMutes_resumed_met :
    Inv (heldPass .applyXfer blobAe 0 none [] (running 0x81 0)) ∧
    ∃ t, step (heldPass .applyXfer blobAe 0 none [] (running 0x81 0)) = .next t ∧
      ({ phase := .quiesce, op := .qw .gated (Reg.bank0 3) 0x01 } : Event) ∈ t.io.trace := by
  obtain ⟨t, ht, hc⟩ := of_nextIs (o := step (heldPass .applyXfer blobAe 0 none [] (running 0x81 0)))
    (check := fun t =>
      decide (({ phase := .quiesce, op := .qw .gated (Reg.bank0 3) 0x01 } : Event) ∈ t.io.trace))
    (by decide +kernel)
  exact ⟨quiet_inv _ rfl rfl rfl rfl (by decide) (by decide), t, ht, of_decide_eq_true hc⟩

/-- EmptyPassTrace: S-A, all apps running. -/
theorem test_EmptyPassTrace_met :
    ∃ r, Inv (running 0xFF 0x3F) ∧ (running 0xFF 0x3F).hw.queue = [] ∧
      ready (running 0xFF 0x3F) = true ∧ (running 0xFF 0x3F).g.st = .inited ∧
      analyse (running 0xFF 0x3F).cfg (fwChunk allStart) (running 0xFF 0x3F).g.en = .record r ∧
      (∀ k, r.on.get k = 0 ∧ r.off.get k = 0 ∧ r.gs.get k = 0) ∧ r.mode = .none ∧
      r.mdir = .dc ∧ r.bdir = { k0 := .dc, k1 := .dc } ∧ (∀ i ∈ r.items, ∀ f vals, i ≠ .reg f vals) ∧
      (running 0xFF 0x3F).orc.waits = .seen 0 :: [.seen 0, .seen 0] ∧
      0 &&& (running 0xFF 0x3F).cfg.wXfer.mask = (running 0xFF 0x3F).cfg.wXfer.want := by
  obtain ⟨r, h, hc⟩ := of_recordIs
    (a := analyse (running 0xFF 0x3F).cfg (fwChunk allStart) (running 0xFF 0x3F).g.en)
    (check := fun r => decide (r.on = { k0 := 0, k1 := 0 }) && decide (r.off = { k0 := 0, k1 := 0 }) &&
      decide (r.gs = { k0 := 0, k1 := 0 }) && decide (r.mode = .none) && decide (r.mdir = .dc) &&
      decide (r.bdir = { k0 := .dc, k1 := .dc }) && decide (r.items = [.fw])) (by decide +kernel)
  simp only [Bool.and_eq_true, decide_eq_true_eq] at hc
  obtain ⟨⟨⟨⟨⟨⟨h1, h2⟩, h3⟩, h4⟩, h5⟩, h6⟩, h7⟩ := hc
  refine ⟨r, quiet_inv _ rfl rfl rfl rfl (by decide) (by decide), rfl, rfl, rfl, h, ?_, h4, h5, h6, ?_, rfl, by decide +kernel⟩
  · intro k
    rw [h1, h2, h3]
    cases k <;> decide
  · intro i hi f vals
    rw [h7] at hi
    simp at hi
    rw [hi]
    simp

/-- The device registers hold the block's copies: R_MCTL and R_EN[0] at cells 0 and 1, R_EN[1] and R_BYP
at 0. -/
def coherentState : State :=
  { running 0x80 0 with
    hw := { (running 0x80 0).hw with regs := [(0, 0x01), (1, 0x80)] } }

theorem coherent_of (s : State) (h : s.hw = coherentState.hw) (hc : s.cfg = Config.cfgEx)
    (hg : s.g = (running 0x80 0).g) : Coherent s := by
  constructor <;> rw [h, hc, hg] <;> decide +kernel

theorem coherent_inv (s : State) (h : s.hw = coherentState.hw) (hp : s.w.ph = phaseOfSite s.site)
    (hq : s.w.qn = 0) (ht : s.w.trigpend = false)
    (hs : s.site = some .applyXfer → s.w.sil = false) (hi : s.site.isSome = true → s.g.st = .inited) :
    Inv s where
  regsWf := by rw [h]; decide
  shadowWf := by rw [h]; decide
  bmemWf := by rw [h]; decide
  shadowOk := by rw [h]; exact shadowCoherent_of_empty _ rfl
  counted := by rw [h, hq]; rfl
  waitEmpty := by intro _; rw [h]; rfl
  phase := hp
  noTrigger := ht
  notSilenced := hs
  heldInited := hi

theorem test_CommandsKeepCopiesCoherent_met :
    (admissible coherentState.cfg = true ∧ Inv coherentState ∧
      isCommand (.apply blobC3) = true ∧ coherentState.hw.queue = [] ∧ coherentState.g.st = .inited ∧
      Coherent coherentState ∧
      ∃ t, exec (.apply blobC3) coherentState = .next t) ∧
    (Inv (State.polling .applySine coherentState) ∧
      Coherent (State.polling .applySine coherentState) ∧
      ∃ t, step (State.polling .applySine coherentState) = .next t) := by
  obtain ⟨t, ht, _⟩ := of_nextIs
    (o := exec (.apply blobC3) coherentState)
    (check := fun _ => true) (by decide +kernel)
  obtain ⟨u, hu, _⟩ := of_nextIs
    (o := step (State.polling .applySine coherentState))
    (check := fun _ => true) (by decide +kernel)
  exact ⟨⟨by decide +kernel, coherent_inv _ rfl rfl rfl rfl (by decide) (by decide), rfl, rfl, rfl, coherent_of _ rfl rfl rfl,
    t, ht⟩,
    coherent_inv _ rfl rfl rfl rfl (by decide) (by decide), coherent_of _ rfl rfl rfl, u, hu⟩

/-- UploadTestsItsArgumentsFirst: the domain byte next to the last legal one, and each end of the legal
ranges; and an address in its range. -/
theorem test_UploadTestsItsArgumentsFirst_met :
    (ready (running 1 0) = true ∧ (running 1 0).g.st = .inited ∧
      ((2 : Byte) ≠ 0 ∧ (2 : Byte) ≠ 1) ∧
      ((0 : Byte) = 0 ∧ (running 1 0).cfg.hiD8 ≤ (0x400 : Word).toNat) ∧
      ((1 : Byte) = 1 ∧ (running 1 0).cfg.hiD4 ≤ (0x800 : Word).toNat) ∧
      (0 : Word).toNat < ({ Config.cfgEx with loD8 := 1, loD4 := 1 } : Cfg).loD8) ∧
    (memDomOf 1 = some .d4 ∧ (running 1 0).cfg.lo .d4 ≤ (0 : Word).toNat ∧
      (0 : Word).toNat < (running 1 0).cfg.hi .d4) := by decide +kernel

theorem test_UploadReturnsClampedBytes_met :
    admissible (running 1 0).cfg = true ∧ ready (running 1 0) = true ∧ (running 1 0).g.st = .inited ∧
    (running 1 0).hw.queue = [] ∧ (running 1 0).w.qn = 0 ∧
    memDomOf 1 = some .d4 ∧ (running 1 0).cfg.lo .d4 ≤ (0x7FF : Word).toNat ∧
    (0x7FF : Word).toNat < (running 1 0).cfg.hi .d4 ∧ (4 : Word) ≠ 0 ∧
    (running 1 0).orc.waits = .seen 0 :: [.seen 0, .seen 0] ∧
    0 &&& (running 1 0).cfg.wXfer.mask = (running 1 0).cfg.wXfer.want := by decide +kernel

/-- Its second clause: an UPLOAD held up in its wait. -/
theorem test_UploadReturnsClampedBytes_held_met :
    Inv (heldAt (.upload .d4 0x7FF 1)) ∧
    (heldAt (.upload .d4 0x7FF 1)).site = some (.upload .d4 0x7FF 1) ∧
    (heldAt (.upload .d4 0x7FF 1)).orc.waits = .seen 0 :: [.seen 0, .seen 0] ∧
    0 &&& (running 1 0).cfg.wXfer.mask = (running 1 0).cfg.wXfer.want :=
  ⟨quiet_inv _ rfl rfl rfl rfl (by decide) (by decide), rfl, rfl, by decide +kernel⟩

/-- Its third and fourth clauses: an UPLOAD whose first poll does not show the flag. -/
theorem test_UploadReturnsClampedBytes_polls_met :
    ready (State.answering [] [.seen 1] (running 1 0)) = true ∧ (running 1 0).g.st = .inited ∧
    memDomOf 1 = some .d4 ∧ (4 : Word) ≠ 0 ∧
    (State.answering [] [.seen 1] (running 1 0)).orc.waits = .seen 1 :: [] ∧
    1 &&& (running 1 0).cfg.wXfer.mask ≠ (running 1 0).cfg.wXfer.want ∧
    ∃ t, exec (.upload 1 0x7FF 4) (State.answering [] [.seen 1] (running 1 0)) = .next t ∧
      t.site = some (.upload .d4 0x7FF 1) := by
  obtain ⟨t, ht, hc⟩ := of_nextIs
    (o := exec (.upload 1 0x7FF 4) (State.answering [] [.seen 1] (running 1 0)))
    (check := fun t => decide (t.site = some (.upload .d4 0x7FF 1))) (by decide +kernel)
  exact ⟨rfl, rfl, rfl, by decide, rfl, by decide, t, ht, of_decide_eq_true hc⟩

/-- FailedTransferWaitEndsUpload, the second clause: a later poll of an UPLOAD fails. -/
theorem test_FailedTransferWaitEndsUpload_held_met :
    admissible (State.answering [] [.fails 0x33] (heldAt (.upload .d4 0x7FF 1))).cfg = true ∧
    Inv (State.answering [] [.fails 0x33] (heldAt (.upload .d4 0x7FF 1))) ∧
    (State.answering [] [.fails 0x33] (heldAt (.upload .d4 0x7FF 1))).site = some (.upload .d4 0x7FF 1) ∧
    (State.answering [] [.fails 0x33] (heldAt (.upload .d4 0x7FF 1))).orc.waits = .fails 0x33 :: [] :=
  ⟨test_cfgEx_admissible, quiet_inv _ rfl rfl rfl rfl nofun (fun _ => rfl), rfl, rfl⟩

theorem test_FailedTransferWaitEndsUpload_met :
    ready (running 1 0) = true ∧ (running 1 0).g.st = .inited ∧ (running 1 0).hw.queue = [] ∧
    (running 1 0).w.qn = 0 ∧ memDomOf 0 = some .d8 ∧ (running 1 0).cfg.lo .d8 ≤ (0x3FF : Word).toNat ∧
    (0x3FF : Word).toNat < (running 1 0).cfg.hi .d8 ∧ (1 : Word) ≠ 0 ∧
    (State.answering [] [.fails 0x33] (running 1 0)).orc.waits = .fails 0x33 :: [] := by decide +kernel

/-- UPLOAD behind a device-internal pass whose transfer is still pending: the read finds it done, and so
does UploadReturnsClampedBytes. -/
theorem test_upload_after_internal_pass :
    nextIs (exec (.upload 1 0x100 1) { running 1 0 with
        hw := { (running 1 0).hw with xfer := some { addr := 0x100, bytes := [1, 2, 3, 4] } } })
      (fun t => decide (t.hw.bmem = [(0x400, 1), (0x401, 2), (0x402, 3), (0x403, 4)]) &&
        decide (t.hw.xfer = none)) = true := by decide +kernel

/-- UploadIsReadOnly: the step that starts it, and the step after its wait. -/
theorem test_UploadIsReadOnly_met :
    (∃ t, exec (.upload 1 0x7FF 4) (running 1 0) = .next t) ∧
    ∃ t, (heldAt (.upload .d4 0x7FF 1)).site = some (.upload .d4 0x7FF 1) ∧
      step (heldAt (.upload .d4 0x7FF 1)) = .next t ∧ t.io.trace ≠ [] := by
  obtain ⟨t, ht, _⟩ := of_nextIs (o := exec (.upload 1 0x7FF 4) (running 1 0))
    (check := fun _ => true) (by decide +kernel)
  obtain ⟨u, hu, hc⟩ := of_nextIs (o := step (heldAt (.upload .d4 0x7FF 1)))
    (check := fun t => decide (t.io.trace ≠ [])) (by decide +kernel)
  exact ⟨⟨t, ht⟩, u, rfl, hu, of_decide_eq_true hc⟩

end Sys2Proof.Tests
end

section
/-! The configuration of 00_scope.md: what the checks of `admissible` say as clauses of rules R5 and R6,
and that a step refuses a configuration only by them. -/

namespace Sys2Proof.Machine

/-! ## When a step refuses the configuration -/

/-- A command runs behind the command port; everything else answers a next state. -/
theorem exec_onCommand_or_next (i : Instr) (s : State) :
    (isCommand i = true ∧ ∃ run, exec i s = onCommand s run) ∨
      (isCommand i = false ∧ ∃ t, exec i s = .next t) := by
  cases i with
  | init | term | validate | apply | mstart | mstop | query | upload =>
    refine .inl ⟨rfl, ?_⟩
    simp only [exec, execInit, execTerm, execValidate, execApply, execMstart, execMstop, execQuery, execUpload]
    exact ⟨_, rfl⟩
  | reserved08 | reserved10 | reserved20 | reserved40 | reserved80 =>
    refine .inl ⟨rfl, ?_⟩
    simp only [exec, execReserved08, execReserved10, execReserved20, execReserved40, execReserved80,
      reservedAnswer]
    exact ⟨_, rfl⟩
  | fwctrlB | appcoef | appreg | skip
  | qwG | qwF | flush | rd | sync | wait | writeAddr => exact .inr ⟨rfl, _, rfl⟩

theorem onCommand_refused {s : State} {run : State → State} {r : Refusal}
    (h : onCommand s run = .refused r) : r = .commandPortBusy := by
  unfold onCommand at h
  split at h <;> cases h
  rfl

/-- The one refusal an instruction raises is that of the busy command port (U9). -/
theorem exec_refused {i : Instr} {s : State} {r : Refusal} (h : exec i s = .refused r) :
    r = .commandPortBusy := by
  obtain ⟨_, run, hrun⟩ | ⟨_, t, hnext⟩ := exec_onCommand_or_next i s
  · exact onCommand_refused (hrun ▸ h)
  · cases hnext ▸ h

theorem undecoded_ne_refused (e : DecodeError) (s : State) (r : Refusal) :
    undecoded e s ≠ .refused r := by
  cases e <;> nofun

theorem step_of_not_admissible {s : State} (h : ¬admissible s.cfg = true) :
    step s = .refused .inadmissibleConfig := if_neg h

theorem step_refused_of_admissible {s : State} {r : Refusal} (ha : admissible s.cfg = true)
    (h : step s = .refused r) : r = .commandPortBusy := by
  rw [step, if_pos ha] at h
  split at h
  · cases h
  · split at h
    · cases h
    · split at h
      · exact exec_refused h
      · exact absurd h (undecoded_ne_refused _ _ _)

theorem step_inadmissibleConfig_iff {s : State} :
    step s = .refused .inadmissibleConfig ↔ ¬admissible s.cfg = true :=
  ⟨fun h ha => Refusal.noConfusion (step_refused_of_admissible ha h), step_of_not_admissible⟩

/-! ## The apps: R6 (1) to (5) -/

theorem apps_toList (c : Cfg) : c.apps.toList = List.ofFn c.app := by
  rw [← Vector.toList_ofFn]
  exact congrArg Vector.toList Vector.ofFn_getElem.symm

theorem forall_mem_apps_iff {c : Cfg} {p : AppCfg → Prop} :
    (∀ a ∈ c.apps.toList, p a) ↔ ∀ a, p (c.app a) := by
  rw [apps_toList, List.forall_mem_ofFn_iff]

/-- Of what an app may have or not, no two apps have the same. -/
theorem apps_filterMap_nodup_iff {c : Cfg} {β : Type} (f : AppCfg → Option β) :
    (c.apps.toList.filterMap f).Nodup ↔
      ∀ a b x, f (c.app a) = some x → f (c.app b) = some x → a = b := by
  rw [apps_toList, List.Nodup, List.pairwise_filterMap, List.pairwise_ofFn]
  constructor
  · intro h a b x ha hb
    rcases lt_trichotomy a b with hab | hab | hab
    · exact absurd rfl (h hab x ha x hb)
    · exact hab
    · exact absurd rfl (h hab x hb x ha)
  · rintro h a b hab x ha _ hb rfl
    exact hab.ne (h a b x ha hb)

/-- R6 (1). -/
theorem apps_domainBit_nodup_iff {c : Cfg} : (c.apps.toList.map domainBit).Nodup ↔
    ∀ a b, (c.app a).cdom = (c.app b).cdom → (c.app a).cbit = (c.app b).cbit → a = b := by
  rw [apps_toList, List.map_ofFn, List.nodup_ofFn]
  simp only [Function.Injective, Function.comp_apply, domainBit, Prod.mk.injEq, and_imp]

/-- Without repetition, a list of slots holds them all exactly if it is as long as their number. -/
theorem nodup_length_eq_iff_forall_mem {n : Nat} {l : List (Fin n)} (h : l.Nodup) :
    l.length = n ↔ ∀ x, x ∈ l := by
  have hcard := Finset.card_eq_iff_eq_univ l.toFinset
  rw [List.toFinset_card_of_nodup h, Fintype.card_fin] at hcard
  simp only [hcard, Finset.eq_univ_iff_forall, List.mem_toFinset]

/-- R6 (2): the 14 slots are used, each by one app. -/
theorem apps_dslot_iff {c : Cfg} :
    ((c.apps.toList.filterMap (·.dslot)).Nodup ∧ (c.apps.toList.filterMap (·.dslot)).length = 14) ↔
      (∀ slot, ∃ a, (c.app a).dslot = some slot) ∧
      (∀ a b slot, (c.app a).dslot = some slot → (c.app b).dslot = some slot → a = b) := by
  rw [← apps_filterMap_nodup_iff, and_comm]
  refine and_congr_left fun hnodup => ?_
  rw [nodup_length_eq_iff_forall_mem hnodup]
  simp only [apps_toList, List.mem_filterMap, List.mem_ofFn, exists_exists_eq_and]

/-- R6 (4): the enable bit that an app of an AE domain may have. -/
theorem enableBit_eq_iff {dom d : Domain} {en : Option (AeDom × Fin 8)} {own : AeDom × Fin 8} :
    (dom = d → en.isSome = true → en = some own) ↔ (∀ p, dom = d → en = some p → p = own) := by
  cases en <;> simp [eq_comm]

theorem appsOk_iff {c : Cfg} : appsOk c = true ↔
    (∀ a b, (c.app a).cdom = (c.app b).cdom → (c.app a).cbit = (c.app b).cbit → a = b) ∧
    ((∀ slot, ∃ a, (c.app a).dslot = some slot) ∧
      (∀ a b slot, (c.app a).dslot = some slot → (c.app b).dslot = some slot → a = b)) ∧
    (∀ a, (c.app a).en.isSome = (c.app a).dslot.isSome) ∧
    (∀ a b p, (c.app a).en = some p → (c.app b).en = some p → a = b) ∧
    (∀ a p, (c.app a).cdom = .ae0 → (c.app a).en = some p → p = (.k0, (c.app a).cbit)) ∧
    (∀ a p, (c.app a).cdom = .ae1 → (c.app a).en = some p → p = (.k1, (c.app a).cbit)) ∧
    (∀ a, (c.app a).cdom = .gen ↔ a = c.gen) ∧ (c.app c.gen).en ≠ none := by
  rw [← apps_domainBit_nodup_iff, ← apps_dslot_iff, ← apps_filterMap_nodup_iff,
    ← Option.isSome_iff_ne_none]
  simp only [appsOk, Bool.and_eq_true, decide_eq_true_eq, List.all_eq_true, forall_mem_apps_iff,
    List.mem_finRange, true_imp_iff, beq_iff_eq, enableBit_eq_iff, and_assoc]

/-! ## The masks: R6 (6) -/

theorem oneHot_iff {m : Byte} : oneHot m = true ↔ ∃ b, m = bit b := by
  simp [oneHot, bit]

theorem bit_injective : Function.Injective bit := by decide

/-- Two masks of one bit each, and not the same bit. -/
theorem oneHot_pair_iff {m n : Byte} :
    (oneHot m = true ∧ oneHot n = true ∧ m ≠ n) ↔ ∃ i j : Fin 8, i ≠ j ∧ m = bit i ∧ n = bit j := by
  simp only [oneHot_iff]
  constructor
  · rintro ⟨⟨i, rfl⟩, ⟨j, rfl⟩, hne⟩
    exact ⟨i, j, fun hij => hne (congrArg bit hij), rfl, rfl⟩
  · rintro ⟨i, j, hij, rfl, rfl⟩
    exact ⟨⟨i, rfl⟩, ⟨j, rfl⟩, bit_injective.ne hij⟩

theorem two_eq_mk_iff {α : Type} {t : Two α} {x y : α} :
    t = { k0 := x, k1 := y } ↔ t.k0 = x ∧ t.k1 = y := by
  cases t; simp

theorem forall_domain_iff {p : Domain → Prop} :
    (∀ d, p d) ↔ p .ae0 ∧ p .ae1 ∧ p .gen ∧ p .base :=
  ⟨fun h => ⟨h _, h _, h _, h _⟩, fun ⟨h0, h1, hg, hb⟩ d => by cases d <;> assumption⟩

theorem masksOk_iff {c : Cfg} : masksOk c = true ↔
    (∃ i j : Fin 8, i ≠ j ∧ c.bypBit = { k0 := bit i, k1 := bit j }) ∧
    (∃ i j : Fin 8, i ≠ j ∧ c.mEn = bit i ∧ c.mByp = bit j) ∧
    (∀ d, c.prot.get d &&& ~~~(c.bypBit.k0 ||| c.bypBit.k1) = 0) := by
  simp only [two_eq_mk_iff, ← oneHot_pair_iff, forall_domain_iff, Four.get]
  simp only [masksOk, bypassBitsOnly, Bool.and_eq_true, decide_eq_true_eq, and_assoc]

/-! ## The registers: R6 (7) -/

/-- The written registers in the order of the statement: those there is one of first. -/
theorem writtenRegs_perm (c : Cfg) : (writtenRegs c).Perm
    (c.rMctl :: c.rEn.k0 :: c.rEn.k1 :: c.rByp :: c.rBmctl :: c.rBmd :: c.rTrig ::
      (c.rAux.toList ++ c.rBma)) := by
  rw [writtenRegs, List.append_assoc, List.append_assoc, ← List.append_assoc c.rAux.toList]
  exact List.perm_append_comm.append_left [c.rMctl, c.rEn.k0, c.rEn.k1, c.rByp]

theorem forall_waitName_iff {p : WaitName → Prop} : (∀ w, p w) ↔ p .xfer ∧ p .fade ∧ p .sine :=
  ⟨fun h => ⟨h _, h _, h _⟩, fun ⟨hx, hf, hs⟩ w => by cases w <;> assumption⟩

theorem regsOk_iff {c : Cfg} : regsOk c = true ↔
    (c.rTrans :: c.rMctl :: c.rEn.k0 :: c.rEn.k1 :: c.rByp :: c.rBmctl :: c.rBmd :: c.rTrig ::
      (c.rAux.toList ++ c.rBma)).Nodup ∧
    c.rAux[c.sinSlot] = c.rSinout ∧
    (∀ w : WaitName, (c.wait w).reg ∉
      c.rMctl :: c.rEn.k0 :: c.rEn.k1 :: c.rByp :: c.rBmctl :: c.rBmd :: c.rTrig ::
        (c.rAux.toList ++ c.rBma)) := by
  simp only [← ((writtenRegs_perm c).cons c.rTrans).nodup_iff, ← (writtenRegs_perm c).mem_iff,
    forall_waitName_iff, Cfg.wait]
  simp only [regsOk, waitRegs, Bool.and_eq_true, decide_eq_true_eq, List.all_eq_true,
    List.forall_mem_cons, List.not_mem_nil, false_imp_iff, implies_true, and_true, and_assoc]

/-! ## The numbers: R5, R6 (8) to (11) -/

theorem forall_memDom_iff {p : MemDom → Prop} : (∀ m, p m) ↔ p .d8 ∧ p .d4 :=
  ⟨fun h => ⟨h _, h _⟩, fun ⟨h8, h4⟩ m => by cases m <;> assumption⟩

theorem rangesOk_iff {c : Cfg} : rangesOk c = true ↔
    0 < c.addrW ∧ c.addrW % 8 = 0 ∧ c.addrW ≤ 32 ∧ c.rBma.length = c.addrW / 8 ∧
    (∀ m, c.lo m ≤ c.hi m ∧ c.hi m ≤ 2 ^ c.addrW) := by
  simp only [rangesOk, Bool.and_eq_true, decide_eq_true_eq, forall_memDom_iff, Cfg.lo, Cfg.hi, and_assoc]

/-- Two ranges of 15 numbers lie apart exactly if no number is in both: else the larger of the two bases
is. -/
theorem ranges_apart_iff {a b : Nat} :
    (a + 15 ≤ b ∨ b + 15 ≤ a) ↔ ∀ x y : Nat, x < 15 → y < 15 → a + x ≠ b + y := by
  constructor
  · omega
  · intro h
    have hleft := h (b - a) 0
    have hright := h 0 (a - b)
    omega

/-- A number outside the 15 from a base on. -/
theorem not_in_range_iff {a t : Nat} :
    ¬(a ≤ t ∧ t < a + 15) ↔ ∀ x : Nat, x < 15 → a + x ≠ t := by
  constructor
  · omega
  · intro h
    have hoffset := h (t - a)
    omega

theorem tagsOk_iff {c : Cfg} : tagsOk c = true ↔
    c.tagCoef.toNat + 15 < 2 ^ 32 ∧ c.tagReg.toNat + 15 < 2 ^ 32 ∧
    (∀ x y : Nat, x < 15 → y < 15 → c.tagCoef.toNat + x ≠ c.tagReg.toNat + y) ∧
    (∀ x : Nat, x < 15 → c.tagCoef.toNat + x ≠ c.tagFwctrlB.toNat ∧
      c.tagReg.toNat + x ≠ c.tagFwctrlB.toNat) := by
  simp only [imp_and, forall_and, ← ranges_apart_iff, ← not_in_range_iff]
  simp only [tagsOk, tagRangesApart, Bool.and_eq_true, Bool.or_eq_true, Bool.not_eq_true',
    ← Bool.not_eq_true, decide_eq_true_eq, and_assoc, Nat.reducePow]

theorem layoutOk_iff {c : Cfg} : layoutOk c = true ↔
    c.offAddr + 4 ≤ c.offData ∧ c.offMode + 1 ≤ c.offData ∧ c.offCount + 4 ≤ c.offData := by
  simp only [layoutOk, Bool.and_eq_true, decide_eq_true_eq, and_assoc]

theorem codesOk_iff {c : Cfg} : codesOk c = true ↔
    7 ≤ c.stopFlag.val ∧
    (c.dirStop ≠ c.dirStart ∧ c.dirStop ≠ c.dirDc ∧ c.dirStart ≠ c.dirDc) ∧
    (c.eMalformed.toInt < 0 ∧ c.eRuntime.toInt < 0 ∧ c.eMalformed ≠ c.eRuntime) := by
  simp only [codesOk, Bool.and_eq_true, decide_eq_true_eq, BitVec.msb_eq_toInt, and_assoc]

/-- Settles O7: a step refuses exactly what `admissible` rejects, and the checks of `admissible` are the
clauses of the statement in another order. -/
theorem inadmissibleConfigRefused : Obligations.InadmissibleConfigRefused := by
  intro s
  rw [step_inadmissibleConfig_iff, not_iff_not]
  simp only [admissible, Bool.and_eq_true, rangesOk_iff, appsOk_iff, masksOk_iff, regsOk_iff, tagsOk_iff,
    layoutOk_iff, codesOk_iff]
  constructor
  · rintro ⟨⟨haddr, hmod, hmax, hlen, hrange⟩,
      ⟨hdom, ⟨hused, hslot⟩, hsome, hen, hae0, hae1, hgen, hgenEn⟩, ⟨hbyp, hmaster, hprot⟩,
      ⟨hnodup, hsin, hwait⟩, ⟨hcoef, hreg, hapart, hfw⟩, hlayout, hstop, ⟨hd1, hd2, hd3⟩, he1, he2, he3⟩
    exact ⟨hdom, hused, hslot, hsome, hen, hae0, hae1, hgen, hgenEn, hbyp, hmaster, hnodup, hsin, hwait,
      hstop, hcoef, hreg, hapart, hfw, hd1, hd2, hd3, he1, he2, he3, hmod, hmax, hlen, hrange, haddr, hprot,
      hlayout⟩
  · rintro ⟨hdom, hused, hslot, hsome, hen, hae0, hae1, hgen, hgenEn, hbyp, hmaster, hnodup, hsin, hwait,
      hstop, hcoef, hreg, hapart, hfw, hd1, hd2, hd3, he1, he2, he3, hmod, hmax, hlen, hrange, haddr, hprot,
      hlayout⟩
    exact ⟨⟨haddr, hmod, hmax, hlen, hrange⟩,
      ⟨hdom, ⟨hused, hslot⟩, hsome, hen, hae0, hae1, hgen, hgenEn⟩, ⟨hbyp, hmaster, hprot⟩,
      ⟨hnodup, hsin, hwait⟩, ⟨hcoef, hreg, hapart, hfw⟩, hlayout, hstop, ⟨hd1, hd2, hd3⟩, he1, he2, he3⟩

end Sys2Proof.Machine
end

section
/-! The state between commands (10_state.md): the values of reset, and the invariant that every step keeps. A
command either ends without a wait, or is APPLY or UPLOAD past its gate; everything else leaves the block
standing in P_IDLE, or waiting by itself. -/

namespace Sys2Proof.Machine

/-! ## Reset -/

/-- Settles O10: every memory is empty, the queue too, and no wait is in progress. -/
theorem resetMeetsInvariant : Obligations.ResetMeetsInvariant := by
  intro c
  have hdevice : DeviceOk (State.resetWith c) := {
    memories := ⟨⟨.nil, nofun⟩, .nil, .nil⟩
    shadow := nofun
    counted := rfl }
  exact hdevice.inv (.inl ⟨rfl, rfl⟩) rfl

/-- Settles O11: the fields of the reset state, read off. -/
theorem resetValues : Obligations.ResetValues :=
  fun _ => ⟨rfl, rfl, rfl, rfl, rfl⟩

/-! ## What a command without a wait can do -/

theorem ready_iff {s : State} : ready s = true ↔ s.w.ph = .idle ∧ s.site = none := by
  simp [ready]

/-- A command answers a next state exactly if the port is ready (rule R197). -/
theorem onCommand_next_iff {s t : State} {run : State → State} :
    onCommand s run = .next t ↔ ready s = true ∧ t = run s := by
  unfold onCommand
  cases ready s
  · exact ⟨nofun, nofun⟩
  · simp only [if_true, Host.Outcome.next.injEq, true_and, eq_comm]

/-- What a command has done so far, from the state `s` that it was offered in: it has emitted in its own phase
only, and touched neither TRIGPEND nor the wait in progress. -/
structure Running (s u : State) : Prop where
  device : DeviceOk s → DeviceOk u
  trigpend : u.w.trigpend = s.w.trigpend
  site : u.site = s.site
  events : ∀ e ∈ u.io.trace, e.phase = u.w.ph

/-- A command has ended without a wait: PH is back at P_IDLE, its events are all of one phase. -/
structure Ended (s t : State) : Prop where
  device : DeviceOk s → DeviceOk t
  trigpend : t.w.trigpend = s.w.trigpend
  site : t.site = s.site
  ph : t.w.ph = .idle
  events : ∃ p, ∀ e ∈ t.io.trace, e.phase = p

/-- The facts about the device speak of the hardware and of QN only. -/
theorem DeviceOk.congr {s t : State} (h : DeviceOk s) (hhw : t.hw = s.hw) (hqn : t.w.qn = s.w.qn) :
    DeviceOk t :=
  ⟨hhw ▸ h.memories, hhw ▸ h.shadow, by rw [hhw, hqn, h.counted]⟩

theorem accept_running (p : Phase) (s : State) : Running s (accept p s) :=
  ⟨fun h => h.congr rfl rfl, rfl, rfl, nofun⟩

theorem Running.withG {s u : State} (h : Running s u) (g : Globals) : Running s { u with g := g } :=
  ⟨fun hs => (h.device hs).congr rfl rfl, h.trigpend, h.site, h.events⟩

theorem Running.latchAnalyse {s u : State} (h : Running s u) (blob : List Byte) :
    Running s (latchAnalyse blob u) :=
  ⟨fun hs => (h.device hs).congr rfl rfl, h.trigpend, h.site, h.events⟩

theorem Running.acts {al : Allowed} {s u v : State} (h : Running s u) (ha : Acts al u v)
    (hv : v.w.trigpend = u.w.trigpend) : Running s v where
  device hs := ha.deviceOk (h.device hs)
  trigpend := hv.trans h.trigpend
  site := ha.samePhase.site.trans h.site
  events := by
    obtain ⟨evs, htrace, hevs⟩ := ha.trace
    intro e he
    rw [htrace, List.mem_append] at he
    rw [ha.samePhase.ph]
    exact he.elim (h.events e) fun he => (hevs e he).1

theorem Running.answer {s u : State} (h : Running s u) (v : Word) : Ended s (answer v u) :=
  ⟨fun hs => (h.device hs).congr rfl rfl, h.trigpend, h.site, rfl, u.w.ph, h.events⟩

theorem Running.finish {s u : State} (h : Running s u) (v : Word) : Ended s (finish v u) :=
  ⟨fun hs => (h.device hs).congr rfl rfl, h.trigpend, h.site, rfl, u.w.ph, h.events⟩

theorem Running.earlyEnd {s u : State} (h : Running s u) (k : ErrorKind) : Ended s (earlyEnd k u) :=
  h.finish _

theorem Running.finishUpload {s u : State} (h : Running s u) (bytes : List Byte) :
    Ended s (finishUpload bytes u) :=
  ⟨fun hs => (h.device hs).congr rfl rfl, h.trigpend, h.site, rfl, u.w.ph, h.events⟩

/-- MSTART and MSTOP past their status gate (rules R193, R194). -/
theorem Running.writeMaster {s u : State} (h : Running s u) (v : Byte) :
    Ended s (Machine.finish 0 (syncQueue (Machine.writeMaster v u))) :=
  (h.acts (al := cmdAllowed u.cfg) (Acts.refl.master trivial).sync (by simp [Machine.writeMaster])).finish 0

theorem Running.readTrans {s u : State} (h : Running s u) : Running s (rdReg u.cfg.rTrans u) :=
  h.acts (al := cmdAllowed u.cfg) (Acts.refl.read rfl) (by simp)

theorem gated_ended {run : State → State} {s u : State} (h : Running s u) (hrun : Ended s (run u)) :
    Ended s (gated run u) := by
  unfold gated
  split
  · exact hrun
  · exact h.earlyEnd _

/-- A command ends without a wait, or is an APPLY or an UPLOAD past its status gate. -/
theorem exec_command_cases {s t : State} {i : Instr} (hi : isCommand i = true) (h : exec i s = .next t) :
    ready s = true ∧ (Ended s t ∨
      (∃ blob, s.g.st = .inited ∧ t = applyBlob blob (accept .cmd s)) ∨
      ∃ dom addr size, s.g.st = .inited ∧ t = uploadChecked dom addr size (accept .upload s)) := by
  have hcmd := accept_running .cmd s
  have hreserved : reservedAnswer s = .next t → ready s = true ∧ Ended s t := by
    rw [reservedAnswer, onCommand_next_iff]
    exact And.imp_right fun ht => ht ▸ hcmd.earlyEnd _
  cases i with
  | init =>
    rw [exec, execInit, onCommand_next_iff] at h
    obtain ⟨hr, rfl⟩ := h
    refine ⟨hr, .inl (Running.answer ?_ 0)⟩
    split
    · exact hcmd
    · exact hcmd.withG _
  | term =>
    rw [exec, execTerm, onCommand_next_iff] at h
    obtain ⟨hr, rfl⟩ := h
    exact ⟨hr, .inl ((hcmd.withG _).answer 0)⟩
  | validate blob =>
    rw [exec, execValidate, onCommand_next_iff] at h
    obtain ⟨hr, rfl⟩ := h
    refine ⟨hr, .inl ?_⟩
    have hlatched := hcmd.latchAnalyse blob
    simp only
    split
    · exact hlatched.earlyEnd _
    · exact hlatched.finish 0
  | apply blob =>
    rw [exec, execApply, onCommand_next_iff] at h
    obtain ⟨hr, rfl⟩ := h
    refine ⟨hr, ?_⟩
    simp only
    split
    · exact .inr (.inl ⟨blob, ‹_›, rfl⟩)
    · exact .inl (hcmd.earlyEnd _)
  | mstart =>
    rw [exec, execMstart, onCommand_next_iff] at h
    obtain ⟨hr, rfl⟩ := h
    exact ⟨hr, .inl (gated_ended hcmd (hcmd.writeMaster _))⟩
  | mstop =>
    rw [exec, execMstop, onCommand_next_iff] at h
    obtain ⟨hr, rfl⟩ := h
    exact ⟨hr, .inl (gated_ended hcmd (hcmd.writeMaster _))⟩
  | query =>
    rw [exec, execQuery, onCommand_next_iff] at h
    obtain ⟨hr, rfl⟩ := h
    refine ⟨hr, .inl ?_⟩
    simp only
    split
    · exact hcmd.readTrans.finish _
    · exact hcmd.finish 0
  | upload dom addr size =>
    rw [exec, execUpload, onCommand_next_iff] at h
    obtain ⟨hr, rfl⟩ := h
    refine ⟨hr, ?_⟩
    simp only
    split
    · exact .inr (.inr ⟨dom, addr, size, ‹_›, rfl⟩)
    · exact .inl ((accept_running .upload s).earlyEnd _)
  | reserved08 | reserved10 | reserved20 | reserved40 | reserved80 =>
    exact (hreserved h).imp_right .inl
  | fwctrlB | appcoef | appreg | skip | qwG | qwF | flush | rd | sync | wait | writeAddr =>
    cases hi

/-! ## The invariant: between instructions -/

/-- Between two instructions: in order, no trigger owed, no wait in progress, PH at P_IDLE. -/
structure Standing (s : State) : Prop where
  going : Going s
  site : s.site = none
  ph : s.w.ph = .idle

theorem Standing.rested {s : State} (h : Standing s) : Rested s :=
  ⟨h.going.device, h.going.noTrigger, .inl ⟨h.site, h.ph⟩⟩

theorem Rested.inv {t : State} (h : Rested t) : Inv t := h.device.inv h.settled h.noTrigger

theorem Inv.going {s : State} (h : Inv s) : Going s := ⟨h.deviceOk, h.noTrigger⟩

theorem Inv.standing {s : State} (h : Inv s) (hsite : s.site = none) : Standing s :=
  ⟨h.going, hsite, by rw [h.phase, hsite]; rfl⟩

theorem Ended.standing {s t : State} (h : Ended s t) (hs : Standing s) : Standing t :=
  ⟨⟨h.device hs.going.device, h.trigpend.trans hs.going.noTrigger⟩, h.site.trans hs.site, h.ph⟩

theorem Standing.acts {al : Allowed} {s t : State} (h : Standing s) (ha : Acts al s t)
    (ht : t.w.trigpend = s.w.trigpend) : Standing t :=
  ⟨⟨ha.deviceOk h.going.device, ht.trans h.going.noTrigger⟩, ha.samePhase.site.trans h.site,
    ha.samePhase.ph.trans h.ph⟩

/-- An operation offered by itself: any write, no other kind of write, any read. -/
def aloneAllowed : Allowed where
  write _ _ _ := True
  en _ _ := False
  byp _ := False
  master _ := False
  read _ := True

theorem Standing.qw {s : State} (h : Standing s) (g : Gate) (r : Reg) (v : Byte) :
    Standing (qw g r v s) :=
  h.acts (al := aloneAllowed) (Acts.refl.write trivial) rfl

theorem Standing.syncQueue {s : State} (h : Standing s) : Standing (syncQueue s) :=
  h.acts (al := aloneAllowed) Acts.refl.sync (by simp)

theorem Standing.rdReg {s : State} (h : Standing s) (r : Reg) : Standing (rdReg r s) :=
  h.acts (al := aloneAllowed) (Acts.refl.read trivial) (by simp)

theorem Standing.writeAddrRegs {s : State} (h : Standing s) (addr : Word) :
    Standing (writeAddrRegs addr s) :=
  h.acts (writeAddrRegs_acts aloneAllowed addr s fun _ _ _ => trivial) (qwForced_trigpend _ s)

theorem Standing.flushQueue {s : State} (h : Standing s) : Standing (flushQueue s) :=
  ⟨⟨flushQueue_deviceOk h.going.device, by simpa using h.going.noTrigger⟩, by simpa using h.site,
    by simpa using h.ph⟩

theorem Standing.withAr {s : State} (h : Standing s) (ar : Analysis) :
    Standing { s with w := { s.w with ar := ar } } :=
  ⟨⟨h.going.device.congr rfl rfl, h.going.noTrigger⟩, h.site, h.ph⟩

theorem Standing.earlyEnd {s : State} (h : Standing s) (k : ErrorKind) : Standing (earlyEnd k s) :=
  ⟨⟨h.going.device.congr rfl rfl, h.going.noTrigger⟩, h.site, rfl⟩

theorem Standing.ifOpen {s : State} {run : State → State} (isOpen : Bool) (h : Standing s)
    (hrun : Standing (run s)) : Standing (ifOpen isOpen run s) := by
  cases isOpen
  · exact h
  · exact hrun

theorem Standing.takeFrame {s : State} (h : Standing s) (rest : Option Frame) (frames : List Frame) :
    Standing (takeFrame rest frames s) :=
  ⟨⟨h.going.device.congr rfl rfl, h.going.noTrigger⟩,
    h.site, h.ph⟩

/-- Outside phase 3 an item is the analyser's: it leaves a record, or the analysis ends early. -/
theorem itemStage_standing (rule : AnalysisRecord → Option AnalysisRecord) (item : Option Item) {s : State}
    (h : Standing s) : Standing (itemStage rule item s) := by
  have hph : s.w.ph ≠ .download := by simp [h.ph]
  unfold itemStage analyseItem
  rw [if_neg hph]
  split
  · exact h.earlyEnd _
  · split
    · exact (h.withAr _).earlyEnd _
    · exact h.withAr _

/-- A wait offered by itself ends, or polls with nothing queued. -/
theorem waitAlone_rested (w : WaitName) {s : State} (hs : Going s) (hph : s.w.ph = .idle)
    (hst : s.g.st = .inited) : Rested (waitAlone w s) := by
  have hdevice := fun x => withSite_deviceOk x (waitPoll_deviceOk w hs.device)
  have hend : Rested { waitPoll w s with site := none } :=
    ⟨hdevice _, by simpa using hs.noTrigger, .inl ⟨rfl, by simpa using hph⟩⟩
  unfold waitAlone
  split
  · exact hend
  · exact hend
  · exact ⟨hdevice _, by simpa using hs.noTrigger,
      .inr ⟨.alone w, rfl, by simpa [sitePhase] using hph, waitPoll_queue w hs.device.counted, nofun,
        by simpa using hst⟩⟩

/-! ## The invariant: an instruction, a poll, a step -/

theorem exec_command_rested {s t : State} {i : Instr} (hi : isCommand i = true) (hs : Standing s)
    (h : exec i s = .next t) : Rested t := by
  obtain ⟨_, hend | ⟨blob, hst, rfl⟩ | ⟨dom, addr, size, hst, rfl⟩⟩ := exec_command_cases hi h
  · exact (hend.standing hs).rested
  · exact applyBlob_rested blob (accept_going .cmd hs.going) hs.site hst
  · exact uploadChecked_rested dom addr size (accept_going .upload hs.going) hs.site rfl hst

theorem exec_rested {s t : State} {i : Instr} (hs : Standing s) (h : exec i s = .next t) : Rested t := by
  cases i with
  | init | term | validate | apply | mstart | mstop | query | upload
  | reserved08 | reserved10 | reserved20 | reserved40 | reserved80 => exact exec_command_rested rfl hs h
  | fwctrlB | appcoef | appreg | skip => cases h; exact (itemStage_standing _ _ hs).rested
  | qwG | qwF => cases h; exact (hs.ifOpen _ (hs.qw _ _ _)).rested
  | flush => cases h; exact (hs.ifOpen _ hs.flushQueue).rested
  | rd => cases h; exact (hs.ifOpen _ (hs.rdReg _)).rested
  | sync => cases h; exact (hs.ifOpen _ hs.syncQueue).rested
  | writeAddr => cases h; exact (hs.ifOpen _ (hs.writeAddrRegs _)).rested
  | wait w =>
    cases h
    by_cases hopen : waitOpen w s = true
    · rw [ifOpen_of _ _ hopen]
      exact waitAlone_rested w hs.going hs.ph ((waitOpen_iff true).1 hopen).1
    · rw [ifOpen_of_not _ _ hopen]
      exact hs.rested

theorem resumeWait_rested {s : State} {site : WaitSite} (hs : Inv s) (hsite : s.site = some site) :
    Rested (resumeWait site s) := by
  have hph : s.w.ph = sitePhase site := by rw [hs.phase, hsite]; rfl
  have hst : s.g.st = .inited := hs.heldInited (by simp [hsite])
  cases site with
  | applyXfer =>
    exact waitThen_rested _ _ _ hs.going hph (fun _ => hs.notSilenced hsite) hst
      fun _ hu hsite _ _ hst => quiesceBegin_rested hu hsite hst
  | applyFade =>
    exact waitThen_rested _ _ _ hs.going hph nofun hst
      fun _ hu hsite hph' _ hst => quiesceFaded_rested hu hsite (hph'.trans hph) hst
  | applySine =>
    exact waitThen_rested _ _ _ hs.going hph nofun hst
      fun _ hu hsite _ _ _ => quiesceSilent_rested hu hsite
  | upload m addr units =>
    exact waitThen_rested _ _ _ hs.going hph nofun hst
      fun _ hu hsite _ _ _ => uploadRead_rested m addr units hu hsite
  | alone w => exact waitAlone_rested w hs.going hph hst

theorem undecoded_standing {e : DecodeError} {s t : State} (hs : Standing s)
    (h : undecoded e s = .next t) : Standing t := by
  cases e with
  | emptyCommand | emptyChunk => cases h; exact hs
  | truncatedHeader | overlongChunk => cases h; exact (hs.withAr _).earlyEnd _
  | truncatedCommand | reservedPortBits => cases h

/-- With a wait in progress, the next state of a step is what its poll comes to. -/
theorem step_of_site {s t : State} {site : WaitSite} (hsite : s.site = some site)
    (h : step s = .next t) : admissible s.cfg = true ∧ t = resumeWait site s := by
  by_cases ha : admissible s.cfg = true
  · rw [step, if_pos ha, hsite] at h
    cases h
    exact ⟨ha, rfl⟩
  · rw [step_of_not_admissible ha] at h
    cases h

/-- Settles O9: a wait in progress comes to rest by `resumeWait_rested`; with none, the block stands in P_IDLE
and `exec_rested` says the same of the instruction it takes. -/
theorem stepKeepsInvariant : Obligations.StepKeepsInvariant := by
  intro s t hs h
  rcases hsite : s.site with _ | site
  · have hstanding := hs.standing hsite
    by_cases ha : admissible s.cfg = true
    · rw [step, if_pos ha, hsite] at h
      simp only at h
      split at h
      · cases h
        exact hs
      · split at h
        · exact (exec_rested (hstanding.takeFrame _ _) h).inv
        · exact (undecoded_standing (hstanding.takeFrame _ _) h).rested.inv
    · rw [step_of_not_admissible ha] at h
      cases h
  · obtain ⟨_, rfl⟩ := step_of_site hsite h
    exact (resumeWait_rested hs hsite).inv

end Sys2Proof.Machine
end

section
/-! The order of the phases (rules R28, R138): PH never goes back while a command runs, and each event carries
the PH of its moment. -/

namespace Sys2Proof.Machine

/-- A command's events so far stand in the order of the phases, none of a later phase than PH. -/
structure Onward (s : State) : Prop where
  forward : phasesForward s.io.trace
  bounded : ∀ e ∈ s.io.trace, phaseRank e.phase ≤ phaseRank s.w.ph

theorem onward_of_empty {s : State} (h : s.io.trace = []) : Onward s :=
  ⟨by rw [h]; exact .nil, by rw [h]; exact nofun⟩

/-- Events of the phase PH is in now, and PH not moved back. -/
theorem Onward.append {s t : State} {evs : List Event} (h : Onward s)
    (htrace : t.io.trace = s.io.trace ++ evs) (hevs : ∀ e ∈ evs, e.phase = t.w.ph)
    (hph : phaseRank s.w.ph ≤ phaseRank t.w.ph) : Onward t := by
  have hold : ∀ e ∈ s.io.trace, phaseRank e.phase ≤ phaseRank t.w.ph :=
    fun e he => (h.bounded e he).trans hph
  constructor
  · rw [htrace, phasesForward, List.pairwise_append]
    refine ⟨h.forward, List.pairwise_of_forall_mem_list fun e he f hf => ?_, fun e he f hf => ?_⟩
    · rw [hevs e he, hevs f hf]
    · rw [hevs f hf]
      exact hold e he
  · intro e he
    rw [htrace, List.mem_append] at he
    exact he.elim (hold e) fun he => (congrArg phaseRank (hevs e he)).le

theorem Onward.moved {s t : State} (h : Onward s) (htrace : t.io.trace = s.io.trace)
    (hph : phaseRank s.w.ph ≤ phaseRank t.w.ph) : Onward t :=
  h.append (evs := []) (by simp [htrace]) nofun hph

theorem Onward.acts {al : Allowed} {s t : State} (h : Onward s) (ha : Acts al s t) : Onward t := by
  obtain ⟨evs, htrace, hevs⟩ := ha.trace
  have hph := ha.samePhase.ph
  exact h.append htrace (fun e he => (hevs e he).1.trans hph.symm) (hph ▸ le_rfl)

theorem waitEvents_phase {p : Phase} {w : WaitName} {res : WaitResult} :
    ∀ e ∈ waitEvents p w res, e.phase = p := by
  cases res <;> simp [waitEvents]

theorem Onward.waitPoll {s : State} (h : Onward s) (w : WaitName) : Onward (waitPoll w s) :=
  (h.acts (al := cmdAllowed s.cfg) Acts.refl.sync).append (waitPoll_trace w s)
    (by simpa using waitEvents_phase) (by simp)

theorem Onward.finish {s : State} (h : Onward s) (hsite : s.site = none) (v : Word) :
    forwardSoFar (finish v s) :=
  ⟨h.forward, fun hsome => by simp [hsite] at hsome⟩

/-- A wait inside a command: it may poll on in its phase, or the command goes on from the same phase. -/
theorem waitThen_forward (w : WaitName) (site : WaitSite) {next : State → State} {s : State}
    (h : Onward s)
    (hnext : ∀ u, Onward u → u.site = none → u.w.ph = s.w.ph → forwardSoFar (next u)) :
    forwardSoFar (waitThen w site next s) := by
  have hpolled : ∀ x, Onward { waitPoll w s with site := x } :=
    fun _ => (h.waitPoll w).moved rfl le_rfl
  apply waitThen_ind
  · exact fun _ => hnext _ (hpolled _) rfl (by simp)
  · exact fun _ => (hpolled none).finish rfl _
  · exact fun _ => ⟨(hpolled none).forward, fun _ => (hpolled (some site)).bounded⟩

/-! ## The phases of a pass -/

/-- PH moved on to a phase. -/
def enter (p : Phase) (s : State) : State := { s with w := { s.w with ph := p } }

/-- Phase 3 before its first item (rule R130). -/
def downloadStart (s : State) : State := { s with w := { s.w with ph := .download, ix := 0 } }

@[simp] theorem enter_w (p : Phase) (s : State) : (enter p s).w = { s.w with ph := p } := rfl

@[simp] theorem downloadStart_w (s : State) :
    (downloadStart s).w = { s.w with ph := .download, ix := 0 } := rfl

theorem quiesceBegin_eq (s : State) :
    quiesceBegin s = if bypassOn (enter .quiesce s) ≠ s.g.byp then
      waitThen .fade .applyFade quiesceFaded (stepQ2 (stepQ1 (enter .quiesce s)))
    else quiesceFaded (stepQ2 (stepQ1 (enter .quiesce s))) := rfl

theorem phaseDownload_eq (s : State) :
    phaseDownload s = triggerTransfer (downloadItems (passRecord s).items (downloadStart s)) := rfl

theorem phaseResume_forward {s : State} (h : Onward s) (hph : s.w.ph = .download)
    (hsite : s.site = none) : forwardSoFar (phaseResume s) := by
  have hresume : Onward (enter .resume s) := h.moved rfl (by simp [hph, phaseRank])
  have ha := resume_acts (enter .resume s)
  exact (hresume.acts ha).finish (ha.samePhase.site.trans hsite) 0

theorem phaseDownload_onward {s : State} (h : Onward s) (hph : s.w.ph = .quiesce) :
    Onward (phaseDownload s) ∧ (phaseDownload s).w.ph = .download := by
  have hdownload : Onward (downloadStart s) := h.moved rfl (by simp [hph, phaseRank])
  have hitems := downloadItems_acts (passRecord s).items (downloadStart s)
  have htrigger := triggerTransfer_acts (downloadItems (passRecord s).items (downloadStart s))
  rw [phaseDownload_eq]
  exact ⟨(hdownload.acts hitems).acts htrigger, htrigger.samePhase.ph.trans hitems.samePhase.ph⟩

theorem phaseDownload_site (s : State) : (phaseDownload s).site = s.site :=
  (triggerTransfer_acts _).samePhase.site.trans (downloadItems_acts _ _).samePhase.site

theorem quiesceSilent_forward {s : State} (h : Onward s) (hsite : s.site = none)
    (hph : s.w.ph = .quiesce) : forwardSoFar (quiesceSilent s) := by
  have ha := stepQ4_acts s 0
  obtain ⟨hdownload, hphase⟩ := phaseDownload_onward (h.acts ha) (ha.samePhase.ph.trans hph)
  exact phaseResume_forward hdownload hphase
    ((phaseDownload_site _).trans (ha.samePhase.site.trans hsite))

theorem quiesceFaded_forward {s : State} (h : Onward s) (hsite : s.site = none)
    (hph : s.w.ph = .quiesce) : forwardSoFar (quiesceFaded s) := by
  unfold quiesceFaded
  split
  · exact waitThen_forward _ _ h fun _ hu hsite hph' => quiesceSilent_forward hu hsite (hph'.trans hph)
  · exact quiesceSilent_forward h hsite hph

/-- Steps Q1 and Q2 from the entry of phase 2. -/
theorem stepQ1Q2_acts (s : State) :
    Acts (quiesceAllowed s.cfg s.g.en s.g.byp) (enter .quiesce s) (stepQ2 (stepQ1 (enter .quiesce s))) := by
  have hq1 := stepQ1_acts (enter .quiesce s) s.g.en
  have hq2 := stepQ2_acts (stepQ1 (enter .quiesce s)) s.g.en s.g.byp
  rw [hq1.samePhase.cfg] at hq2
  exact hq1.trans hq2

theorem quiesceBegin_forward {s : State} (h : Onward s) (hsite : s.site = none)
    (hph : s.w.ph = .wait) : forwardSoFar (quiesceBegin s) := by
  have ha := stepQ1Q2_acts s
  have hentered : Onward (enter .quiesce s) := h.moved rfl (by simp [hph, phaseRank])
  have hmuted := hentered.acts ha
  have hphase := ha.samePhase.ph
  rw [quiesceBegin_eq]
  split
  · exact waitThen_forward _ _ hmuted
      fun _ hu hsite hph' => quiesceFaded_forward hu hsite (hph'.trans hphase)
  · exact quiesceFaded_forward hmuted (ha.samePhase.site.trans hsite) hphase

/-! ## Commands -/

theorem applyBlob_forward (blob : List Byte) {s : State} (htrace : s.io.trace = []) (hsite : s.site = none) :
    forwardSoFar (applyBlob blob s) := by
  unfold applyBlob
  simp only
  split
  · exact (onward_of_empty htrace).finish hsite _
  · exact waitThen_forward _ _ (onward_of_empty htrace)
      fun _ hu hsite hph => quiesceBegin_forward hu hsite hph

theorem uploadRead_forward (m : MemDom) (addr : Word) (units : Nat) {s : State} (h : Onward s)
    (hsite : s.site = none) : forwardSoFar (uploadRead m addr units s) := by
  obtain ⟨t, ha, ht⟩ := uploadRead_acts m addr units s
  rw [ht]
  exact (h.acts ha).finish (ha.samePhase.site.trans hsite) 0

theorem uploadChecked_forward (dom : Byte) (addr size : Word) {s : State} (htrace : s.io.trace = [])
    (hsite : s.site = none) : forwardSoFar (uploadChecked dom addr size s) := by
  have h := onward_of_empty htrace
  unfold uploadChecked
  split
  · exact h.finish hsite _
  · split
    · unfold uploadUnits
      split
      · exact h.finish hsite 0
      · exact waitThen_forward _ _ h fun _ hu hsite _ => uploadRead_forward _ _ _ hu hsite
    · exact h.finish hsite _

theorem Ended.forward {s t : State} (h : Ended s t) (hsite : s.site = none) : forwardSoFar t := by
  obtain ⟨p, hevents⟩ := h.events
  refine ⟨List.pairwise_of_forall_mem_list fun e he f hf => ?_, fun hsome => ?_⟩
  · rw [hevents e he, hevents f hf]
  · rw [h.site, hsite] at hsome
    cases hsome

theorem resumeWait_forward {s : State} {site : WaitSite} (h : Onward s) (hph : s.w.ph = sitePhase site)
    (halone : ∀ w, site ≠ .alone w) : forwardSoFar (resumeWait site s) := by
  cases site with
  | applyXfer =>
    exact waitThen_forward _ _ h fun _ hu hsite hph' => quiesceBegin_forward hu hsite (hph'.trans hph)
  | applyFade =>
    exact waitThen_forward _ _ h fun _ hu hsite hph' => quiesceFaded_forward hu hsite (hph'.trans hph)
  | applySine =>
    exact waitThen_forward _ _ h fun _ hu hsite hph' => quiesceSilent_forward hu hsite (hph'.trans hph)
  | upload m addr units =>
    exact waitThen_forward _ _ h fun _ hu hsite _ => uploadRead_forward m addr units hu hsite
  | alone w => exact absurd rfl (halone w)

/-- Settles O52: a command starts with an empty trace, so that its first phase is in order, and a command held
up in a wait is in the phase of its wait (`Inv.phase`), so that what it adds is. -/
theorem phasesGoForward : Obligations.PhasesGoForward := by
  constructor
  · intro s t i hi h
    obtain ⟨hready, hcases⟩ := exec_command_cases hi h
    have hsite : s.site = none := (ready_iff.1 hready).2
    obtain hend | ⟨blob, _, rfl⟩ | ⟨dom, addr, size, _, rfl⟩ := hcases
    · exact hend.forward hsite
    · exact applyBlob_forward blob rfl hsite
    · exact uploadChecked_forward dom addr size rfl hsite
  · intro s t site hs hsite halone hforward h
    obtain ⟨_, rfl⟩ := step_of_site hsite h
    have honward : Onward s := ⟨hforward.1, hforward.2 (by simp [hsite])⟩
    exact resumeWait_forward honward (by rw [hs.phase, hsite]; rfl) halone

end Sys2Proof.Machine
end

section
/-! What a delivery leaves in the device: a flush of the queue (rules R41, R177 to R179), a forced write (rule
R178) and the writes of the block-memory port (rules R60, R152, R153). -/

namespace Sys2Proof.Machine

/-! ## A flush -/

theorem flushQueue_io (s : State) :
    (flushQueue s).io =
      { s.io with trace := s.io.trace ++ [{ phase := s.w.ph, op := .flush }] } := by
  simp only [flushQueue, deliverAll_io, emit]

/-- Settles O22: the status gate, then the laws of `flushQueue`. -/
theorem flushDeliversTheQueue : Obligations.FlushDeliversTheQueue := by
  intro s
  constructor
  · intro hidle
    have hclosed : ¬statusOpen s = true := by simp [statusOpen_iff, hidle]
    exact congrArg Host.Outcome.next (ifOpen_of_not _ _ hclosed)
  · intro hst hshadow
    exact ⟨flushQueue s, congrArg Host.Outcome.next (ifOpen_of _ _ (statusOpen_iff.2 hst)), rfl,
      flushQueue_w s, flushQueue_read hshadow, flushQueue_shadowCoherent hshadow, flushQueue_bmem s,
      flushQueue_io s, flushQueue_g s, flushQueue_site s, flushQueue_cfg s⟩

/-! ## The registers of the block-memory port -/

/-- The registers of the block-memory port are pairwise distinct, and the block writes no other of them under
another name (rule R6 (7)). -/
theorem admissible_blockMemory {c : Cfg} (h : admissible c = true) :
    (c.rBma ++ [c.rBmctl, c.rBmd, c.rTrig]).Nodup ∧
      ∀ r ∈ [c.rMctl, c.rEn.k0, c.rEn.k1, c.rByp] ++ c.rAux.toList, ¬isBlockMemory c r := by
  have hwritten := (admissible_regs_nodup h).of_cons
  rw [writtenRegs, List.append_assoc, List.nodup_append] at hwritten
  obtain ⟨_, hblock, hapart⟩ := hwritten
  exact ⟨hblock, fun r hr hmem => hapart r hr r (by simpa [isBlockMemory] using hmem) rfl⟩

theorem admissible_rTrig {c : Cfg} (h : admissible c = true) :
    c.rTrig ∉ c.rBma ∧ c.rTrig ≠ c.rBmctl ∧ c.rTrig ≠ c.rBmd := by
  have hblock := (admissible_blockMemory h).1
  simp only [List.nodup_append, List.nodup_cons, List.mem_cons, List.not_mem_nil, or_false, not_or] at hblock
  obtain ⟨_, ⟨⟨_, hctl⟩, hdata, _⟩, haddr⟩ := hblock
  exact ⟨fun hmem => haddr _ hmem _ (.inr (.inr rfl)) rfl, Ne.symm hctl, Ne.symm hdata⟩

/-! ## One write of the block-memory port -/

/-- What a device-internal transfer rests on: the pointer's address and control byte, the staged bytes, the
pending transfer. -/
structure TransferState where
  addr : Word
  ctl : Byte
  staging : List Byte
  xfer : Option Transfer

def transferState (h : Hardware) : TransferState :=
  { addr := h.bmp.addr, ctl := h.bmp.ctl, staging := h.staging, xfer := h.xfer }

theorem blockPortWrite_rBma (c : Cfg) {r : Reg} (v : Byte) (h : Hardware) (hr : r ∈ c.rBma) :
    transferState (blockPortWrite c r v h) =
      { transferState h with addr := setAddrByte c h.bmp.addr (c.rBma.idxOf r) v } := by
  rw [blockPortWrite, if_pos hr]
  rfl

theorem blockPortWrite_rBmctl {c : Cfg} (hc : admissible c = true) (v : Byte) (h : Hardware) :
    transferState (blockPortWrite c c.rBmctl v h) = { transferState h with ctl := v, staging := [] } := by
  obtain ⟨_, _, haddr, _⟩ := admissible_blockRegs hc
  rw [blockPortWrite, if_neg haddr, if_pos rfl]
  rfl

/-- Rule R152: with the device-internal control value a data byte is staged. -/
theorem blockPortWrite_rBmd {c : Cfg} (hc : admissible c = true) (v : Byte) {h : Hardware}
    (hctl : h.bmp.ctl = c.vCtlWrInt) (hne : c.vCtlWrInt ≠ c.vCtlWrHost) :
    transferState (blockPortWrite c c.rBmd v h) =
      { transferState h with staging := h.staging ++ [v] } := by
  obtain ⟨_, haddr, _, hapart⟩ := admissible_blockRegs hc
  have hhost : ¬h.bmp.ctl = c.vCtlWrHost := hctl ▸ hne
  rw [blockPortWrite, if_neg haddr, if_neg hapart.symm, if_pos rfl, blockDataWrite]
  simp only [if_neg hhost, if_pos hctl]
  rfl

/-- Rule R153: the trigger makes the staged bytes the pending transfer. -/
theorem blockPortWrite_rTrig {c : Cfg} (hc : admissible c = true) (v : Byte) (h : Hardware) :
    blockPortWrite c c.rTrig v h = { h with xfer := some { addr := h.bmp.addr, bytes := h.staging } } := by
  obtain ⟨haddr, hctl, hdata⟩ := admissible_rTrig hc
  rw [blockPortWrite, if_neg haddr, if_neg hctl, if_neg hdata, if_pos rfl]

theorem blockPortWrite_of_not_blockMemory {c : Cfg} {r : Reg} (v : Byte) (h : Hardware)
    (hr : ¬isBlockMemory c r) : blockPortWrite c r v h = h := by
  simp only [isBlockMemory, not_or] at hr
  obtain ⟨haddr, hctl, hdata, htrig⟩ := hr
  rw [blockPortWrite, if_neg haddr, if_neg hctl, if_neg hdata, if_neg htrig]

@[simp] theorem transferState_blockPortRead (c : Cfg) (r : Reg) (h : Hardware) :
    transferState (blockPortRead c r h) = transferState h := by
  unfold blockPortRead
  split <;> rfl

/-- Settles O23: delivery of a forced entry is the device write, whatever the shadow holds, and of the trigger
register the device write is `blockPortWrite_rTrig`. -/
theorem forcedWriteAlwaysDelivered : Obligations.ForcedWriteAlwaysDelivered := by
  intro s r v
  refine ⟨fun a => ?_, rfl, ?_⟩
  · show RegFile.read (deviceWrite r v s).hw.regs a = _
    rw [deviceWrite_hw_regs, RegFile.read_write]
  · rintro hc rfl
    show (blockPortWrite s.cfg s.cfg.rTrig v _).xfer = _ ∧ (blockPortWrite s.cfg s.cfg.rTrig v _).bmem = _
    rw [blockPortWrite_rTrig hc]
    exact ⟨rfl, rfl⟩

/-! ## Delivery of entries that spare block memory -/

/-- Nothing queued is for a register of block memory. -/
def QueueSpares (s : State) : Prop := ∀ e ∈ s.hw.queue, ¬isBlockMemory s.cfg e.reg

theorem deliver_transferState {e : QEntry} {s : State} (he : ¬isBlockMemory s.cfg e.reg) :
    transferState (deliver e s).hw = transferState s.hw := by
  rcases deliver_cases e s with ⟨o, h⟩ | ⟨_, _, o, h⟩ <;> rw [h]
  simp only [deviceWrite, blockPortWrite_of_not_blockMemory _ _ he]
  rfl

theorem deliverAll_transferState {es : List QEntry} {s : State}
    (hes : ∀ e ∈ es, ¬isBlockMemory s.cfg e.reg) :
    transferState (deliverAll es s).hw = transferState s.hw := by
  induction es generalizing s with
  | nil => rfl
  | cons e es ih =>
    rw [deliverAll, ih (by simpa using fun f hf => hes f (List.mem_cons_of_mem _ hf)),
      deliver_transferState (hes e List.mem_cons_self)]

theorem flushQueue_transferState {s : State} (h : QueueSpares s) :
    transferState (flushQueue s).hw = transferState s.hw :=
  deliverAll_transferState (s := emit .flush s) h

theorem syncQueue_spares {s : State} (h : QueueSpares s) :
    QueueSpares (syncQueue s) ∧ transferState (syncQueue s).hw = transferState s.hw := by
  unfold syncQueue
  split
  · exact ⟨nofun, flushQueue_transferState h⟩
  · exact ⟨h, rfl⟩

theorem qw_spares (g : Gate) {r : Reg} (v : Byte) {s : State} (h : QueueSpares s)
    (hr : ¬isBlockMemory s.cfg r) :
    QueueSpares (qw g r v s) ∧ transferState (qw g r v s).hw = transferState s.hw := by
  refine ⟨fun e he => ?_, rfl⟩
  rcases List.mem_append.1 he with he | he
  · exact h e he
  · rw [List.mem_singleton.1 he]
    exact hr

theorem rdReg_spares (r : Reg) {s : State} (h : QueueSpares s) :
    QueueSpares (rdReg r s) ∧ transferState (rdReg r s).hw = transferState s.hw := by
  obtain ⟨hqueue, hstate⟩ := syncQueue_spares h
  refine ⟨fun e he => ?_, ?_⟩
  · rw [rdReg_cfg, ← syncQueue_cfg]
    exact hqueue e (by simpa [rdReg] using he)
  · rw [← hstate]
    simp [rdReg, readNow]

/-- The allowance lets no register of block memory be written. -/
def Allowed.sparesBlockMemory (al : Allowed) (c : Cfg) : Prop :=
  ∀ g r v, al.admits c (.qw g r v) → ¬isBlockMemory c r

theorem Acts.spares {al : Allowed} {s t : State} (h : Acts al s t) (hal : al.sparesBlockMemory s.cfg)
    (hs : QueueSpares s) : QueueSpares t ∧ transferState t.hw = transferState s.hw := by
  induction h with
  | refl => exact ⟨hs, rfl⟩
  | write h ha ih =>
    rw [← ih.2]
    exact qw_spares _ _ ih.1 (h.samePhase.cfg ▸ hal _ _ _ (.inl ha))
  | @en t k v h ha ih =>
    rw [← ih.2]
    rw [← h.samePhase.cfg] at hal
    exact qw_spares .gated v (s := { t with g := _ }) ih.1
      (hal _ _ _ (.inr ⟨rfl, .inl ⟨k, rfl, ha⟩⟩))
  | @byp t v h ha ih =>
    rw [← ih.2]
    rw [← h.samePhase.cfg] at hal
    exact qw_spares .gated v (s := { t with g := _ }) ih.1
      (hal _ _ _ (.inr ⟨rfl, .inr (.inl ⟨rfl, ha⟩)⟩))
  | @master t v h ha ih =>
    rw [← ih.2]
    rw [← h.samePhase.cfg] at hal
    exact qw_spares .gated v (s := { t with g := _ }) ih.1
      (hal _ _ _ (.inr ⟨rfl, .inr (.inr ⟨rfl, ha⟩)⟩))
  | sync _ ih =>
    rw [← ih.2]
    exact syncQueue_spares ih.1
  | read _ _ ih =>
    rw [← ih.2]
    exact rdReg_spares _ ih.1
  | note _ _ _ _ _ ih => exact ih

/-- The copied registers and the auxiliary ones are none of block memory's. -/
theorem sparesBlockMemory_of {al : Allowed} {c : Cfg} (hc : admissible c = true)
    (hwrite : ∀ g r v, al.write g r v → r ∈ c.rAux.toList) : al.sparesBlockMemory c := by
  obtain ⟨_, hapart⟩ := admissible_blockMemory hc
  rintro g r v (h | ⟨_, ⟨k, rfl, _⟩ | ⟨rfl, _⟩ | ⟨rfl, _⟩⟩)
  · exact hapart r (List.mem_append_right _ (hwrite g r v h))
  · cases k <;> exact hapart _ (by simp [Two.get])
  · exact hapart _ (by simp)
  · exact hapart _ (by simp)

theorem quiesceAllowed_spares {c : Cfg} (hc : admissible c = true) (en : Two Byte) (byp : Byte) :
    (quiesceAllowed c en byp).sparesBlockMemory c :=
  sparesBlockMemory_of hc fun _ _ _ h => h.2.1 ▸ admissible_sinout_mem_aux hc

theorem regAllowed_spares {c : Cfg} (hc : admissible c = true) : (regAllowed c).sparesBlockMemory c :=
  sparesBlockMemory_of hc fun _ _ _ h => h.2

theorem resumeAllowed_spares {c : Cfg} (hc : admissible c = true) :
    (resumeAllowed c).sparesBlockMemory c :=
  sparesBlockMemory_of hc fun _ _ _ h => h.2 ▸ admissible_sinout_mem_aux hc

/-! ## A coefficient item in device-internal mode -/

/-- Forced writes as the queue holds them. -/
def forcedEntries (ps : List (Reg × Byte)) : List QEntry :=
  ps.map fun p => { gate := .forced, reg := p.1, value := p.2 }

theorem deliverAll_forcedEntries_cons (r : Reg) (v : Byte) (ps : List (Reg × Byte)) (s : State) :
    deliverAll (forcedEntries ((r, v) :: ps)) s = deliverAll (forcedEntries ps) (deviceWrite r v s) := rfl

/-- Rule R152: the payload is staged byte by byte. -/
theorem deliverAll_payload {c : Cfg} (hc : admissible c = true) (hne : c.vCtlWrInt ≠ c.vCtlWrHost)
    (payload : List Byte) {s : State} (hcfg : s.cfg = c) (hctl : s.hw.bmp.ctl = c.vCtlWrInt) :
    transferState (deliverAll (forcedEntries (payload.map fun v => (c.rBmd, v))) s).hw =
      { transferState s.hw with staging := s.hw.staging ++ payload } := by
  induction payload generalizing s with
  | nil => simp [forcedEntries, deliverAll, transferState]
  | cons v payload ih =>
    subst hcfg
    have hwrite : transferState (deviceWrite s.cfg.rBmd v s).hw = _ := blockPortWrite_rBmd hc v hctl hne
    simp only [transferState, TransferState.mk.injEq] at hwrite
    obtain ⟨haddr, hctl', hstaging, hxfer⟩ := hwrite
    rw [List.map_cons, deliverAll_forcedEntries_cons,
      ih (s := deviceWrite s.cfg.rBmd v s) rfl (hctl'.trans hctl)]
    simp only [transferState, haddr, hctl', hstaging, hxfer, List.append_assoc, List.singleton_append]

/-- The first `k` bytes of the address are in the pointer; one write of it or more, and there is nothing above
the address width (rule R56). -/
structure AddrWritten (c : Cfg) (addr : Word) (k : Nat) (p : Word) : Prop where
  inside : ∀ i, c.addrW - 8 * k ≤ i → i < c.addrW → p.getLsbD i = addr.getLsbD i
  outside : 0 < k → ∀ i, c.addrW ≤ i → p.getLsbD i = false

theorem AddrWritten.succ {c : Cfg} {addr p : Word} {k : Nat} (h : AddrWritten c addr k p)
    (hwidth : c.addrW ≤ 32) (hk : 8 * k + 8 ≤ c.addrW) :
    AddrWritten c addr (k + 1)
      (setAddrByte c p k ((addr >>> (c.addrW - 8 - 8 * k)).setWidth 8)) := by
  constructor
  · intro i hlow hhigh
    rw [setAddrByte_getLsbD c p k _ i hwidth hk]
    by_cases hbyte : i < c.addrW - 8 * k
    · have hin : c.addrW - 8 - 8 * k ≤ i := by omega
      have hoff : i - (c.addrW - 8 - 8 * k) < 8 := by omega
      have hback : c.addrW - 8 - 8 * k + (i - (c.addrW - 8 - 8 * k)) = i := by omega
      simp [hhigh, hin, hbyte, hoff, hback]
    · simp [hhigh, hbyte, h.inside i (by omega) hhigh]
  · intro _ i hi
    rw [setAddrByte_getLsbD c p k _ i hwidth hk]
    simp [Nat.not_lt.2 hi]

/-- All the bytes written, the pointer holds the address. -/
theorem AddrWritten.eq {c : Cfg} {addr p : Word} (h : AddrWritten c addr (c.addrW / 8) p)
    (hc : admissible c = true) (haddr : addr.toNat < 2 ^ c.addrW) : p = addr := by
  obtain ⟨hmod, hpos, _, _⟩ := admissible_ranges hc
  apply BitVec.eq_of_getLsbD_eq
  intro i _
  by_cases hi : i < c.addrW
  · exact h.inside i (by omega) hi
  · rw [h.outside (by omega) i (by omega), ← BitVec.testBit_toNat]
    exact (Nat.testBit_lt_two_pow (haddr.trans_le (Nat.pow_le_pow_right (by decide) (by omega)))).symm

/-- The writes of `WriteAddr` one by one. -/
theorem deliverAll_addr_take {c : Cfg} (hc : admissible c = true) (addr : Word) {s : State}
    (hcfg : s.cfg = c) (k : Nat) (hk : k ≤ c.addrW / 8) :
    ∃ p, AddrWritten c addr k p ∧
      transferState (deliverAll (forcedEntries ((c.rBma.zip (addrBytes c addr)).take k)) s).hw =
        { transferState s.hw with addr := p } := by
  obtain ⟨hmod, _, hwidth, hlen⟩ := admissible_ranges hc
  induction k with
  | zero => exact ⟨s.hw.bmp.addr, ⟨by omega, nofun⟩, rfl⟩
  | succ k ih =>
    obtain ⟨p, hp, hstate⟩ := ih (by omega)
    have hbma : k < c.rBma.length := by omega
    have hzip : k < (c.rBma.zip (addrBytes c addr)).length := by simp [addrBytes]; omega
    refine ⟨_, hp.succ hwidth (by omega), ?_⟩
    generalize hu : deliverAll (forcedEntries ((c.rBma.zip (addrBytes c addr)).take k)) s = u at hstate
    have hucfg : u.cfg = c := by rw [← hu, deliverAll_cfg, hcfg]
    have hentry : (c.rBma.zip (addrBytes c addr))[k] =
        (c.rBma[k], (addr >>> (c.addrW - 8 - 8 * k)).setWidth 8) := by simp [addrBytes]
    have hindex : c.rBma.idxOf c.rBma[k] = k := (admissible_blockRegs hc).1.idxOf_getElem k hbma
    rw [← List.take_append_getElem hzip, hentry, forcedEntries, List.map_append, deliverAll_append]
    change transferState (deviceWrite c.rBma[k] _ (deliverAll (forcedEntries _) s)).hw = _
    rw [hu, deviceWrite, hucfg, blockPortWrite_rBma c _ _ (List.getElem_mem hbma), hindex]
    simp only [transferState, TransferState.mk.injEq] at hstate ⊢
    obtain ⟨rfl, hctl, hstaging, hxfer⟩ := hstate
    exact ⟨rfl, hctl, hstaging, hxfer⟩

/-- `WriteAddr` delivered: the pointer is at the address, whatever it was. -/
theorem deliverAll_addr {c : Cfg} (hc : admissible c = true) {addr : Word}
    (haddr : addr.toNat < 2 ^ c.addrW) {s : State} (hcfg : s.cfg = c) :
    transferState (deliverAll (forcedEntries (c.rBma.zip (addrBytes c addr))) s).hw =
      { transferState s.hw with addr := addr } := by
  obtain ⟨_, _, _, hlen⟩ := admissible_ranges hc
  obtain ⟨p, hp, hstate⟩ := deliverAll_addr_take hc addr hcfg _ le_rfl
  rw [List.take_of_length_le (by simp [addrBytes, hlen])] at hstate
  rw [hstate, hp.eq hc haddr]

/-- A control write delivered: the byte qualifies the pointer, and the staging area is empty. -/
theorem deviceWrite_rBmctl {c : Cfg} (hc : admissible c = true) (v : Byte) {s : State} (hcfg : s.cfg = c) :
    transferState (deviceWrite c.rBmctl v s).hw =
      { transferState s.hw with ctl := v, staging := [] } := by
  subst hcfg
  exact blockPortWrite_rBmctl hc v _

theorem syncQueue_of_pos {s : State} (h : 0 < s.w.qn) : syncQueue s = flushQueue s := if_pos h

/-- The item is one flush of its writes behind what was queued before. -/
theorem coefInternal_eq_flush (addr : Word) (payload : List Byte) (s : State) :
    ∃ u, coefInternal addr payload s = flushQueue u ∧ u.cfg = s.cfg ∧ u.hw = { s.hw with
      queue := s.hw.queue ++ (forcedEntries (s.cfg.rBma.zip (addrBytes s.cfg addr)) ++
        (forcedEntries [(s.cfg.rBmctl, s.cfg.vCtlWrInt)] ++
          forcedEntries (payload.map fun v => (s.cfg.rBmd, v)))) } := by
  refine ⟨_, syncQueue_of_pos ?_, ?_, ?_⟩
  · simp only [qwPayload, qwForced_w, qw_w]
    omega
  · simp [qwPayload]
  · simp [qwPayload, writeAddrRegs, qwForced_eq, forcedEntries]

/-- Rules R152, R153: a coefficient item in device-internal mode leaves the device ready to copy its payload to
its address once it is triggered. -/
theorem coefInternal_transferState {addr : Word} (payload : List Byte) {s : State}
    (hc : admissible s.cfg = true) (hne : s.cfg.vCtlWrInt ≠ s.cfg.vCtlWrHost)
    (haddr : addr.toNat < 2 ^ s.cfg.addrW) (hs : QueueSpares s) :
    QueueSpares (coefInternal addr payload s) ∧ transferState (coefInternal addr payload s).hw =
      { addr := addr, ctl := s.cfg.vCtlWrInt, staging := payload, xfer := s.hw.xfer } := by
  obtain ⟨u, hflush, hcfg, hhw⟩ := coefInternal_eq_flush addr payload s
  rw [hflush]
  refine ⟨nofun, ?_⟩
  have hqueued : transferState (deliverAll s.hw.queue (emit .flush u)).hw = transferState s.hw := by
    rw [deliverAll_transferState (by rw [emit_cfg, hcfg]; exact hs), emit_hw, hhw]
    rfl
  generalize hbefore : deliverAll s.hw.queue (emit .flush u) = v at hqueued
  have hvcfg : v.cfg = s.cfg := by rw [← hbefore, deliverAll_cfg, emit_cfg, hcfg]
  have haddressed := deliverAll_addr hc haddr hvcfg
  generalize hwritten : deliverAll (forcedEntries (s.cfg.rBma.zip (addrBytes s.cfg addr))) v = x
    at haddressed
  have hxcfg : x.cfg = s.cfg := by rw [← hwritten, deliverAll_cfg, hvcfg]
  have hcontrolled := deviceWrite_rBmctl hc s.cfg.vCtlWrInt hxcfg
  have hdata := deliverAll_payload hc hne payload (s := deviceWrite s.cfg.rBmctl s.cfg.vCtlWrInt x) hxcfg
    (congrArg TransferState.ctl hcontrolled)
  have hall : transferState (flushQueue u).hw = transferState (deliverAll u.hw.queue (emit .flush u)).hw :=
    rfl
  rw [hall, hhw, deliverAll_append, hbefore, deliverAll_append, hwritten, deliverAll_append]
  simp only [forcedEntries, List.map_cons, List.map_nil, deliverAll]
  refine hdata.trans ?_
  have hstaging : (deviceWrite s.cfg.rBmctl s.cfg.vCtlWrInt x).hw.staging = [] :=
    congrArg TransferState.staging hcontrolled
  rw [hcontrolled, haddressed, hqueued, hstaging]
  rfl

end Sys2Proof.Machine
end

section
/-! The device-internal trigger (rules R131, R153): an analysis in device-internal mode has one coefficient
item; a completed pass comes to its part past the waits; that part writes the trigger once and leaves the item's
payload pending. -/

namespace Sys2Proof.Machine

/-! ## The coefficient items of a record -/

/-- What the walk keeps of its coefficient items: NCOEF counts them, a second one forces host-driven mode, and
each address fits the address registers (rules R104 to R106). -/
structure CoefsCounted (c : Cfg) (r : AnalysisRecord) : Prop where
  counted : r.ncoef = r.items.countP isCoef
  forced : 1 < r.ncoef → r.force = true
  fits : ∀ a addr payload, Item.coef a addr payload ∈ r.items → addr.toNat < 2 ^ c.addrW

/-- An item of another kind at the end. -/
theorem CoefsCounted.append {c : Cfg} {r r' : AnalysisRecord} {item : Item} (h : CoefsCounted c r)
    (hitems : r'.items = r.items ++ [item]) (hitem : isCoef item = false) (hncoef : r'.ncoef = r.ncoef)
    (hforce : r'.force = r.force) : CoefsCounted c r' where
  counted := by simp [hncoef, hitems, h.counted, hitem]
  forced := by rw [hncoef, hforce]; exact h.forced
  fits a addr payload hmem := by
    rw [hitems, List.mem_append, List.mem_singleton] at hmem
    rcases hmem with hmem | rfl
    · exact h.fits a addr payload hmem
    · cases hitem

theorem accumulateCoef_coefsCounted {c : Cfg} {r : AnalysisRecord} (h : CoefsCounted c r) (a : AppId)
    (mb : Byte) {addr : Word} (payload : List Byte) (haddr : addr.toNat < 2 ^ c.addrW) :
    CoefsCounted c (accumulateCoef c a mb addr payload r) where
  counted := by simp [accumulateCoef, h.counted, isCoef]
  forced hmany := by
    have hsecond : decide (r.ncoef + 1 > 1) = true := by simpa [accumulateCoef] using hmany
    simp only [accumulateCoef, hsecond, Bool.or_true, Bool.true_or]
  fits b addr' payload' hmem := by
    rcases List.mem_append.1 hmem with hmem | hmem
    · exact h.fits b addr' payload' hmem
    · cases List.mem_singleton.1 hmem
      exact haddr

theorem coefBodyOk_addr {c : Cfg} {body : List Byte} (h : coefBodyOk c body = true) :
    (coefAddr c body).toNat < 2 ^ c.addrW := by
  simp only [coefBodyOk, Bool.and_eq_true, decide_eq_true_eq] at h
  exact h.1.1.1.2

theorem analyseChunk_coefsCounted {c : Cfg} {en : Two Byte} {k : Chunk} {r r' : AnalysisRecord}
    (h : CoefsCounted c r) (hk : analyseChunk c en k r = some r') : CoefsCounted c r' := by
  cases k with
  | fwctrlB body =>
    obtain ⟨_, _, rfl⟩ := analyseFwctrlB_some hk
    obtain ⟨on, off, hframe⟩ := fwTransitions_frame c en body r
    rw [hframe]
    exact h.append rfl rfl rfl rfl
  | appcoef a body =>
    obtain ⟨_, hbody, ⟨_, rfl⟩ | ⟨_, rfl⟩⟩ := analyseAppcoef_some hk
    · exact h.append rfl rfl rfl rfl
    · have hseen : CoefsCounted c { r with seen := appTag c.tagCoef a :: r.seen } :=
        ⟨h.counted, h.forced, h.fits⟩
      exact accumulateCoef_coefsCounted hseen a _ _ (coefBodyOk_addr hbody)
  | appreg a body =>
    obtain ⟨_, ⟨_, _, rfl⟩ | ⟨_, rfl⟩⟩ := analyseAppreg_some hk
    · exact h.append rfl rfl rfl rfl
    · exact h.append rfl rfl rfl rfl
  | skip tag body =>
    cases hk
    exact h.append rfl rfl rfl rfl

theorem selectMode_eq_int_iff {r : AnalysisRecord} :
    selectMode r = .int ↔ r.ncoef ≠ 0 ∧ r.force = false := by
  unfold selectMode
  by_cases hn : r.ncoef = 0 <;> cases r.force <;> simp [hn]

/-- Rule R106: in device-internal mode there is exactly one coefficient item. -/
theorem analyse_int {c : Cfg} {blob : List Byte} {en : Two Byte} {r : AnalysisRecord}
    (h : analyse c blob en = .record r) (hmode : r.mode = .int) :
    r.items.countP isCoef = 1 ∧
      ∀ a addr payload, Item.coef a addr payload ∈ r.items → addr.toNat < 2 ^ c.addrW := by
  obtain ⟨u, hu, rfl⟩ := analyse_ind (P := CoefsCounted c) h ⟨rfl, nofun, nofun⟩
    fun _ _ _ hu hk => analyseChunk_coefsCounted hu hk
  obtain ⟨hsome, hfree⟩ := selectMode_eq_int_iff.1 hmode
  have hatMost : ¬1 < u.ncoef := fun hmany => by simp [hu.forced hmany] at hfree
  refine ⟨?_, hu.fits⟩
  show u.items.countP isCoef = 1
  rw [← hu.counted]
  omega

theorem analyse_int_any_isCoef {c : Cfg} {blob : List Byte} {en : Two Byte} {r : AnalysisRecord}
    (h : analyse c blob en = .record r) (hmode : r.mode = .int) : r.items.any isCoef = true := by
  have hone := (analyse_int h hmode).1
  obtain ⟨item, hmem, hcoef⟩ := List.countP_pos_iff.1 (hone ▸ Nat.one_pos)
  exact List.any_eq_true.2 ⟨item, hmem, hcoef⟩

/-- The items around the only coefficient item. -/
theorem split_at_coef {items : List Item} {a : AppId} {addr : Word} {payload : List Byte}
    (hone : items.countP isCoef = 1) (hmem : Item.coef a addr payload ∈ items) :
    ∃ before after, items = before ++ Item.coef a addr payload :: after ∧
      (∀ item ∈ before, isCoef item = false) ∧ ∀ item ∈ after, isCoef item = false := by
  obtain ⟨before, after, rfl⟩ := List.append_of_mem hmem
  have hcoef : isCoef (.coef a addr payload) = true := rfl
  rw [List.countP_append, List.countP_cons_of_pos hcoef] at hone
  have hbefore : before.countP isCoef = 0 := by omega
  have hafter : after.countP isCoef = 0 := by omega
  exact ⟨before, after, rfl, by simpa using List.countP_eq_zero.1 hbefore,
    by simpa using List.countP_eq_zero.1 hafter⟩

/-! ## A completed pass -/

/-- `u` is reached from `s` inside a pass, past some of its waits: the same record, the trigger neither owed
nor written in between. -/
structure Past (s u : State) : Prop where
  cfg : u.cfg = s.cfg
  ar : u.w.ar = s.w.ar
  trigpend : u.w.trigpend = s.w.trigpend
  device : DeviceOk s → DeviceOk u
  writes : countWrites s.cfg.rTrig u.io.trace = countWrites s.cfg.rTrig s.io.trace

theorem Past.refl (s : State) : Past s s := ⟨rfl, rfl, rfl, id, rfl⟩

theorem Past.trans {s t u : State} (h : Past s t) (h' : Past t u) : Past s u :=
  ⟨h'.cfg.trans h.cfg, h'.ar.trans h.ar, h'.trigpend.trans h.trigpend, h'.device ∘ h.device,
    (h.cfg ▸ h'.writes).trans h.writes⟩

/-- Acts within an allowance that admits no write of a register leave the count of its writes alone. -/
theorem Acts.countWrites {al : Allowed} {s t : State} (h : Acts al s t) {r : Reg}
    (hr : ∀ g v, ¬al.admits s.cfg (.qw g r v)) :
    countWrites r t.io.trace = countWrites r s.io.trace := by
  obtain ⟨evs, htrace, hevs⟩ := h.trace
  have hnone : Machine.countWrites r evs = 0 :=
    countWrites_eq_zero r evs fun e he g v hop => hr g v (hop ▸ (hevs e he).2)
  rw [htrace, countWrites_append, hnone, Nat.add_zero]

theorem isBlockMemory_rTrig (c : Cfg) : isBlockMemory c c.rTrig := .inr (.inr (.inr rfl))

theorem Acts.countWrites_rTrig {al : Allowed} {s t : State} (h : Acts al s t)
    (hal : al.sparesBlockMemory s.cfg) :
    Machine.countWrites s.cfg.rTrig t.io.trace = Machine.countWrites s.cfg.rTrig s.io.trace :=
  h.countWrites fun g v hadmits => hal g _ v hadmits (isBlockMemory_rTrig _)

theorem Acts.past {al : Allowed} {s t : State} (h : Acts al s t) (hal : al.sparesBlockMemory s.cfg)
    (ht : t.w.trigpend = s.w.trigpend) : Past s t :=
  ⟨h.samePhase.cfg, h.samePhase.ar, ht, h.deviceOk, h.countWrites_rTrig hal⟩

theorem countWrites_syncQueue (r : Reg) (s : State) :
    countWrites r (syncQueue s).io.trace = countWrites r s.io.trace := by
  rw [syncQueue_trace, countWrites_append]
  split <;> rfl

theorem waitPoll_past (w : WaitName) (s : State) (x : Option WaitSite) :
    Past s { waitPoll w s with site := x } where
  cfg := by simp
  ar := by simp
  trigpend := by simp
  device hs := withSite_deviceOk x (waitPoll_deviceOk w hs)
  writes := by
    show countWrites _ (waitPoll w s).io.trace = _
    rw [waitPoll_trace, countWrites_append, countWrites_syncQueue]
    cases (waitPoll w s).io.waitRes <;> rfl

/-- A command that answers 0 with no wait left in progress has got past this wait. -/
theorem waitThen_completed {w : WaitName} {site : WaitSite} {next : State → State} {s : State}
    (hc : admissible s.cfg = true) (hsite : (waitThen w site next s).site = none)
    (hresult : (waitThen w site next s).w.result = 0) :
    waitThen w site next s = next { waitPoll w s with site := none } := by
  rcases waitThen_cases w site next s with ⟨h, _⟩ | ⟨h, _⟩ | ⟨h, _⟩
  · exact h
  · rw [h, earlyEnd_w] at hresult
    have hcode : s.cfg.eRuntime = 0 := by simpa [errorCode] using hresult
    exact absurd hcode (admissible_codes hc).1
  · rw [h] at hsite
    cases hsite

/-- The pass has completed: what it left is what its part past the waits left. -/
def Completes (s t : State) : Prop := ∃ u, t = quiesceSilent u ∧ Past s u

theorem Completes.after {s u t : State} (h : Past s u) (hu : Completes u t) : Completes s t := by
  obtain ⟨v, ht, hv⟩ := hu
  exact ⟨v, ht, h.trans hv⟩

theorem quiesceFaded_completes {s : State} (hc : admissible s.cfg = true)
    (hsite : (quiesceFaded s).site = none) (hresult : (quiesceFaded s).w.result = 0) :
    Completes s (quiesceFaded s) := by
  by_cases hsil : s.w.sil = true
  · have hwait : quiesceFaded s = waitThen .sine .applySine quiesceSilent s := if_pos hsil
    rw [hwait] at hsite hresult ⊢
    exact ⟨_, waitThen_completed hc hsite hresult, waitPoll_past _ s none⟩
  · exact ⟨s, if_neg hsil, .refl s⟩

theorem quiesceBegin_completes {s : State} (hc : admissible s.cfg = true)
    (hsite : (quiesceBegin s).site = none) (hresult : (quiesceBegin s).w.result = 0) :
    Completes s (quiesceBegin s) := by
  have hentered : Past s (enter .quiesce s) := ⟨rfl, rfl, rfl, fun hs => hs.congr rfl rfl, rfl⟩
  have hmuted := hentered.trans
    ((stepQ1Q2_acts s).past (quiesceAllowed_spares hc _ _) (by simp))
  have hc' := hmuted.cfg.symm ▸ hc
  by_cases hbyp : bypassOn (enter .quiesce s) ≠ s.g.byp
  · rw [quiesceBegin_eq, if_pos hbyp] at hsite hresult ⊢
    have hfaded := waitThen_completed hc' hsite hresult
    have hpast := hmuted.trans (waitPoll_past .fade _ none)
    rw [hfaded] at hsite hresult ⊢
    exact (quiesceFaded_completes (hpast.cfg.symm ▸ hc) hsite hresult).after hpast
  · rw [quiesceBegin_eq, if_neg hbyp] at hsite hresult ⊢
    exact (quiesceFaded_completes hc' hsite hresult).after hmuted

/-- From any of its three waits, a pass that answers 0 has come to its part past the waits. -/
theorem resumeWait_completes {s : State} {site : WaitSite} (hc : admissible s.cfg = true)
    (hpass : site = .applyXfer ∨ site = .applyFade ∨ site = .applySine)
    (hsite : (resumeWait site s).site = none) (hresult : (resumeWait site s).w.result = 0) :
    Completes s (resumeWait site s) := by
  have hpast := fun w => waitPoll_past w s none
  have hc' := fun w => (hpast w).cfg.symm ▸ hc
  rcases hpass with rfl | rfl | rfl
  · have hended : resumeWait .applyXfer s = _ := waitThen_completed hc hsite hresult
    rw [hended] at hsite hresult ⊢
    exact (quiesceBegin_completes (hc' _) hsite hresult).after (hpast _)
  · have hended : resumeWait .applyFade s = _ := waitThen_completed hc hsite hresult
    rw [hended] at hsite hresult ⊢
    exact (quiesceFaded_completes (hc' _) hsite hresult).after (hpast _)
  · exact ⟨_, waitThen_completed hc hsite hresult, hpast _⟩

theorem phaseDownload_cfg (s : State) : (phaseDownload s).cfg = s.cfg :=
  (triggerTransfer_acts _).samePhase.cfg.trans (downloadItems_acts _ _).samePhase.cfg

/-! ## The trigger write -/

theorem itemAllowed_not_rTrig {c : Cfg} (hc : admissible c = true) (g : Gate) (v : Byte) :
    ¬(itemAllowed c).admits c (.qw g c.rTrig v) := by
  obtain ⟨haddr, hctl, hdata⟩ := admissible_rTrig hc
  rintro ((⟨_, hport⟩ | ⟨rfl, haux⟩) | hcopy)
  · rcases hport with h | h | h
    · exact haddr h
    · exact hctl h
    · exact hdata h
  · exact regAllowed_spares hc .gated c.rTrig v (.inl ⟨rfl, haux⟩) (isBlockMemory_rTrig c)
  · exact regAllowed_spares hc g c.rTrig v (.inr hcopy) (isBlockMemory_rTrig c)

theorem countWrites_triggerTransfer (s : State) :
    countWrites s.cfg.rTrig (triggerTransfer s).io.trace =
      countWrites s.cfg.rTrig s.io.trace + if s.w.trigpend = true then 1 else 0 := by
  unfold triggerTransfer
  split
  · show countWrites _ (syncQueue (qw .forced s.cfg.rTrig s.cfg.vTrig s)).io.trace = _
    rw [countWrites_syncQueue, qw_io_trace, countWrites_append]
    simp [countWrites]
  · rfl

/-- After the items of phase 3 the trigger is owed if one of them was staged. -/
theorem downloadItems_trigpend (items : List Item) (s : State) :
    (downloadItems items (downloadStart s)).w.trigpend =
      (s.w.trigpend || (decide ((passRecord s).mode = .int) && items.any isCoef)) := by
  obtain ⟨_, _, _, howed⟩ := downloadItems_facts items (downloadStart s)
  exact howed

/-- Rules R131, R153: phase 3 writes the trigger once if it staged a coefficient item. -/
theorem countWrites_phaseDownload {s : State} (hc : admissible s.cfg = true)
    (htrig : s.w.trigpend = false) :
    countWrites s.cfg.rTrig (phaseDownload s).io.trace = countWrites s.cfg.rTrig s.io.trace +
      if (passRecord s).mode = .int ∧ (passRecord s).items.any isCoef = true then 1 else 0 := by
  have ha := downloadItems_acts (passRecord s).items (downloadStart s)
  have hcount := countWrites_triggerTransfer (downloadItems (passRecord s).items (downloadStart s))
  rw [ha.samePhase.cfg, ha.countWrites (itemAllowed_not_rTrig hc), downloadItems_trigpend, htrig,
    Bool.false_or] at hcount
  simp only [Bool.and_eq_true, decide_eq_true_eq] at hcount
  exact hcount

theorem countWrites_quiesceSilent {s : State} (hc : admissible s.cfg = true)
    (htrig : s.w.trigpend = false) :
    countWrites s.cfg.rTrig (quiesceSilent s).io.trace = countWrites s.cfg.rTrig s.io.trace +
      if (passRecord s).mode = .int ∧ (passRecord s).items.any isCoef = true then 1 else 0 := by
  have hclear := stepQ4_acts s 0
  have hclearCount := hclear.countWrites_rTrig (quiesceAllowed_spares hc _ _)
  have hdownload := countWrites_phaseDownload (s := stepQ4 s) (hclear.samePhase.cfg.symm ▸ hc)
    ((stepQ4_trigpend s).trans htrig)
  have hcfg := (phaseDownload_cfg (stepQ4 s)).trans hclear.samePhase.cfg
  have hresume := (resume_acts (enter .resume (phaseDownload (stepQ4 s)))).countWrites_rTrig
      (resumeAllowed_spares (hcfg.symm ▸ hc))
  rw [hclear.samePhase.cfg, passRecord_congr hclear.samePhase.ar, hclearCount] at hdownload
  rw [← hdownload, ← hcfg]
  exact hresume

/-- Over a completed pass the trigger is written once if the pass is device-internal and has a coefficient item,
else never. -/
theorem Completes.countWrites {s t : State} (h : Completes s t) (hc : admissible s.cfg = true)
    (htrig : s.w.trigpend = false) :
    Machine.countWrites s.cfg.rTrig t.io.trace = Machine.countWrites s.cfg.rTrig s.io.trace +
      if (passRecord s).mode = .int ∧ (passRecord s).items.any isCoef = true then 1 else 0 := by
  obtain ⟨u, rfl, hpast⟩ := h
  have hrest := countWrites_quiesceSilent (hpast.cfg.symm ▸ hc) (hpast.trigpend.trans htrig)
  rwa [hpast.cfg, hpast.writes, passRecord_congr hpast.ar] at hrest

/-! ## The pending transfer -/

/-- Items with no coefficient chunk among them touch block memory in no way. -/
theorem downloadItems_acts_of_no_coef {items : List Item} (h : ∀ item ∈ items, isCoef item = false)
    (s : State) : Acts (regAllowed s.cfg) s (downloadItems items s) := by
  induction items generalizing s with
  | nil => exact .refl
  | cons item items ih =>
    have hstep : Acts (regAllowed s.cfg) s (downloadStep item s) := by
      cases item with
      | fw | skip => exact Acts.refl.note rfl rfl rfl rfl
      | reg flags vals => exact (regItem_acts flags vals s).note rfl rfl rfl rfl
      | coef a addr payload => exact absurd (h _ List.mem_cons_self) (by simp [isCoef])
    have hrest := ih (fun other hmem => h other (List.mem_cons_of_mem _ hmem)) (downloadStep item s)
    rw [hstep.samePhase.cfg] at hrest
    exact hstep.trans hrest

theorem downloadItems_append (before after : List Item) (s : State) :
    downloadItems (before ++ after) s = downloadItems after (downloadItems before s) := by
  induction before generalizing s with
  | nil => rfl
  | cons item items ih => exact ih _

theorem coefItem_of_int {s : State} (h : (passRecord s).mode = .int) (addr : Word) (payload : List Byte) :
    coefItem addr payload s = coefInternal addr payload s := by
  unfold coefItem
  rw [h]

/-- Phase 3's items in device-internal mode, one of them a coefficient item: its payload is staged for its
address, whatever the others are. -/
theorem downloadItems_transferState {before after : List Item} {a : AppId} {addr : Word}
    {payload : List Byte} {s : State} (hc : admissible s.cfg = true)
    (hne : s.cfg.vCtlWrInt ≠ s.cfg.vCtlWrHost) (hmode : (passRecord s).mode = .int)
    (hbefore : ∀ item ∈ before, isCoef item = false) (hafter : ∀ item ∈ after, isCoef item = false)
    (haddr : addr.toNat < 2 ^ s.cfg.addrW) (hs : QueueSpares s) :
    QueueSpares (downloadItems (before ++ .coef a addr payload :: after) s) ∧
      transferState (downloadItems (before ++ .coef a addr payload :: after) s).hw =
        { addr := addr, ctl := s.cfg.vCtlWrInt, staging := payload, xfer := s.hw.xfer } := by
  have hfirst := downloadItems_acts_of_no_coef hbefore s
  have hstep := downloadStep_acts (.coef a addr payload) (downloadItems before s)
  have hlast := downloadItems_acts_of_no_coef hafter
    (downloadStep (.coef a addr payload) (downloadItems before s))
  obtain ⟨hqueue, hkept⟩ := hfirst.spares (regAllowed_spares hc) hs
  have hcfg := hfirst.samePhase.cfg
  have hint : (passRecord (downloadItems before s)).mode = .int := by
    rw [passRecord_congr hfirst.samePhase.ar, hmode]
  have hcoef := coefInternal_transferState (addr := addr) payload (s := downloadItems before s)
    (by rw [hcfg]; exact hc) (by rw [hcfg]; exact hne) (by rw [hcfg]; exact haddr) hqueue
  rw [← coefItem_of_int hint, hcfg] at hcoef
  obtain ⟨hqueue', hstaged⟩ := hcoef
  obtain ⟨hqueue'', hkept'⟩ := hlast.spares
    (regAllowed_spares (by rw [hstep.samePhase.cfg, hcfg]; exact hc)) hqueue'
  rw [downloadItems_append, downloadItems]
  refine ⟨hqueue'', hkept'.trans (hstaged.trans ?_)⟩
  rw [show (downloadItems before s).hw.xfer = s.hw.xfer from congrArg TransferState.xfer hkept]

theorem deviceWrite_rTrig {c : Cfg} (hc : admissible c = true) (v : Byte) {s : State} (hcfg : s.cfg = c) :
    (deviceWrite c.rTrig v s).hw.xfer = some { addr := s.hw.bmp.addr, bytes := s.hw.staging } := by
  subst hcfg
  exact congrArg Hardware.xfer (blockPortWrite_rTrig hc v _)

/-- The trigger delivered: what is staged is the pending transfer. -/
theorem triggerTransfer_xfer {s : State} (hc : admissible s.cfg = true) (htrig : s.w.trigpend = true)
    (hs : QueueSpares s) :
    QueueSpares (triggerTransfer s) ∧
      (triggerTransfer s).hw.xfer = some { addr := s.hw.bmp.addr, bytes := s.hw.staging } := by
  have hflush : syncQueue (qw .forced s.cfg.rTrig s.cfg.vTrig s) =
      flushQueue (qw .forced s.cfg.rTrig s.cfg.vTrig s) := syncQueue_of_pos (Nat.succ_pos _)
  rw [triggerTransfer, if_pos htrig, hflush]
  refine ⟨nofun, ?_⟩
  have hqueued := deliverAll_transferState (s := emit .flush (qw .forced s.cfg.rTrig s.cfg.vTrig s)) hs
  change (deliverAll (s.hw.queue ++ [_]) (emit .flush (qw .forced s.cfg.rTrig s.cfg.vTrig s))).hw.xfer = _
  rw [deliverAll_append]
  generalize hbefore :
    deliverAll s.hw.queue (emit .flush (qw .forced s.cfg.rTrig s.cfg.vTrig s)) = u at hqueued ⊢
  have hcfg : u.cfg = s.cfg := by rw [← hbefore, deliverAll_cfg, emit_cfg, qw_cfg]
  simp only [transferState, TransferState.mk.injEq] at hqueued
  obtain ⟨haddr, _, hstaging, _⟩ := hqueued
  refine (deviceWrite_rTrig hc s.cfg.vTrig hcfg).trans ?_
  rw [haddr, hstaging]
  rfl

/-- Phase 3 in device-internal mode leaves its payload pending for its address. -/
theorem phaseDownload_xfer {s : State} {before after : List Item} {a : AppId} {addr : Word}
    {payload : List Byte} (hc : admissible s.cfg = true) (hne : s.cfg.vCtlWrInt ≠ s.cfg.vCtlWrHost)
    (hmode : (passRecord s).mode = .int)
    (hitems : (passRecord s).items = before ++ .coef a addr payload :: after)
    (hbefore : ∀ item ∈ before, isCoef item = false) (hafter : ∀ item ∈ after, isCoef item = false)
    (haddr : addr.toNat < 2 ^ s.cfg.addrW) (hs : QueueSpares s) :
    QueueSpares (phaseDownload s) ∧
      (phaseDownload s).hw.xfer = some { addr := addr, bytes := payload } := by
  rw [phaseDownload_eq, hitems]
  have hentered : QueueSpares (downloadStart s) := hs
  obtain ⟨hqueue, hstate⟩ := downloadItems_transferState (a := a) (s := downloadStart s) hc hne hmode
    hbefore hafter haddr hentered
  have ha := downloadItems_acts (before ++ .coef a addr payload :: after) (downloadStart s)
  have howed : (downloadItems (before ++ .coef a addr payload :: after) (downloadStart s)).w.trigpend =
      true := by
    rw [downloadItems_trigpend, hmode]
    simp [isCoef]
  obtain ⟨hqueue', hxfer⟩ := triggerTransfer_xfer (ha.samePhase.cfg.symm ▸ hc) howed hqueue
  simp only [transferState, TransferState.mk.injEq] at hstate
  obtain ⟨haddr', _, hstaging, _⟩ := hstate
  rw [haddr', hstaging] at hxfer
  exact ⟨hqueue', hxfer⟩

theorem stepQ4_queue {s : State} (hs : DeviceOk s) : (stepQ4 s).hw.queue = [] := by
  have hfirst := (stepQ4For_acts .k0 s s.g.en 0 rfl).deviceOk hs
  have hboth := (stepQ4For_acts .k1 (stepQ4For .k0 s) _ 0 rfl).deviceOk hfirst
  exact syncQueue_queue hboth.counted

/-- Past its waits a device-internal pass leaves the payload of its coefficient item pending. -/
theorem quiesceSilent_xfer {s : State} {a : AppId} {addr : Word} {payload : List Byte}
    (hc : admissible s.cfg = true) (hne : s.cfg.vCtlWrInt ≠ s.cfg.vCtlWrHost) (hs : DeviceOk s)
    (hmode : (passRecord s).mode = .int) (hone : (passRecord s).items.countP isCoef = 1)
    (hmem : Item.coef a addr payload ∈ (passRecord s).items) (haddr : addr.toNat < 2 ^ s.cfg.addrW) :
    (quiesceSilent s).hw.xfer = some { addr := addr, bytes := payload } := by
  obtain ⟨before, after, hitems, hbefore, hafter⟩ := split_at_coef hone hmem
  have hclear := stepQ4_acts s 0
  have hcfg := hclear.samePhase.cfg
  have hrecord := passRecord_congr hclear.samePhase.ar
  have hempty : QueueSpares (stepQ4 s) := by
    rw [QueueSpares, stepQ4_queue hs]
    exact nofun
  obtain ⟨hqueue, hxfer⟩ := phaseDownload_xfer (a := a) (hcfg.symm ▸ hc) (hcfg.symm ▸ hne)
    (hrecord.symm ▸ hmode) (hrecord.symm ▸ hitems) hbefore hafter (hcfg.symm ▸ haddr) hempty
  have hcfg' := (phaseDownload_cfg (stepQ4 s)).trans hcfg
  have hentered : QueueSpares (enter .resume (phaseDownload (stepQ4 s))) := hqueue
  have hresume := (resume_acts (enter .resume (phaseDownload (stepQ4 s)))).spares
      (resumeAllowed_spares (hcfg'.symm ▸ hc)) hentered
  exact (congrArg TransferState.xfer hresume.2).trans hxfer

/-- A completed device-internal pass leaves the payload of its coefficient item pending (rule R153). -/
theorem Completes.xfer {s t : State} {blob : List Byte} {en : Two Byte} {r : AnalysisRecord} {a : AppId}
    {addr : Word} {payload : List Byte} (h : Completes s t) (hc : admissible s.cfg = true)
    (hne : s.cfg.vCtlWrInt ≠ s.cfg.vCtlWrHost) (hs : DeviceOk s) (hr : passRecord s = r)
    (hanalyse : analyse s.cfg blob en = .record r) (hmode : r.mode = .int)
    (hmem : Item.coef a addr payload ∈ r.items) :
    t.hw.xfer = some { addr := addr, bytes := payload } := by
  obtain ⟨u, rfl, hpast⟩ := h
  obtain ⟨hone, hfits⟩ := analyse_int hanalyse hmode
  have hru : passRecord u = r := (passRecord_congr hpast.ar).trans hr
  exact quiesceSilent_xfer (a := a) (hpast.cfg.symm ▸ hc) (hpast.cfg.symm ▸ hne) (hpast.device hs)
    (hru.symm ▸ hmode) (hru.symm ▸ hone) (hru.symm ▸ hmem) (hpast.cfg.symm ▸ hfits a addr payload hmem)

/-- Of an analysed record, the count of `Completes.countWrites` asks for the mode only. -/
theorem analyse_triggerCount {c : Cfg} {blob : List Byte} {en : Two Byte} {r : AnalysisRecord}
    (h : analyse c blob en = .record r) :
    (if r.mode = .int ∧ r.items.any isCoef = true then 1 else 0) = if r.mode = .int then 1 else 0 := by
  by_cases hmode : r.mode = .int
  · rw [if_pos ⟨hmode, analyse_int_any_isCoef h hmode⟩, if_pos hmode]
  · rw [if_neg (fun hboth => hmode hboth.1), if_neg hmode]

/-! ## APPLY, and a pass held up in a wait -/

/-- Where an APPLY of a well-formed blob begins: the request committed, in phase 1 (rules R121, R122). -/
def applyStart (blob : List Byte) (r : AnalysisRecord) (s : State) : State :=
  let t := commitPass r (latchAnalyse blob (accept .cmd s))
  { t with w := { t.w with ph := .wait } }

theorem exec_apply_record {s t : State} {blob : List Byte} {r : AnalysisRecord} (hst : s.g.st = .inited)
    (hanalyse : analyse s.cfg blob s.g.en = .record r) (h : exec (.apply blob) s = .next t) :
    t = resumeWait .applyXfer (applyStart blob r s) ∧ passRecord (applyStart blob r s) = r := by
  have har : (latchAnalyse blob (accept .cmd s)).w.ar = .record r := by
    simp only [latchAnalyse, analysisEn, accept_g, accept_cfg, hst, if_true, hanalyse]
  rw [exec, execApply, onCommand_next_iff] at h
  obtain ⟨_, rfl⟩ := h
  refine ⟨?_, congrArg recordOf har⟩
  simp only [accept_g, hst, if_true, applyBlob, har]
  rfl

theorem countWrites_accesses (r : Reg) (trace : List Event) :
    countWrites r (accesses trace) = countWrites r trace := by
  induction trace with
  | nil => rfl
  | cons e es ih =>
    obtain ⟨p, op⟩ := e
    cases op with
    | flush => simpa [accesses, countWrites] using ih
    | qw | rd | wait => simpa [accesses, countWrites] using ih

/-- Steps Q1 and Q2 write the bypass and the sine register only. -/
theorem rTrig_not_mem_mutingAccesses {c : Cfg} (hc : admissible c = true) (r : AnalysisRecord)
    (g : Globals) (v : Byte) (gate : Gate) (x : Byte) :
    PortOp.qw gate c.rTrig x ∉ mutingAccesses c r g v := by
  obtain ⟨_, hapart⟩ := admissible_blockMemory hc
  have hbyp : c.rTrig ≠ c.rByp := fun h => hapart c.rByp (by simp) (h ▸ isBlockMemory_rTrig c)
  have hsinout : c.rTrig ≠ c.rSinout := fun h =>
    hapart c.rSinout (List.mem_append_right _ (admissible_sinout_mem_aux hc)) (h ▸ isBlockMemory_rTrig c)
  simp [mutingAccesses, hbyp, hsinout]

/-- Up to each of its waits, a pass has not written the trigger. -/
theorem countWrites_accessesBeforeWait {c : Cfg} (hc : admissible c = true) (r : AnalysisRecord)
    (g : Globals) (v : Byte) (site : WaitSite) :
    countWrites c.rTrig (accessesBeforeWait c r g v site) = 0 := by
  have hmuting := rTrig_not_mem_mutingAccesses hc r g v
  refine countWrites_eq_zero _ _ fun e he gate x hop => ?_
  obtain ⟨p, _⟩ := e
  subst hop
  cases site with
  | applyXfer | upload | alone => cases he
  | applyFade | applySine => simp [accessesBeforeWait, eventsIn, hmuting] at he

/-- Settles O55: a completed pass is its part past the waits after steps that spare the trigger
(`resumeWait_completes`), so that `Completes.countWrites` counts the trigger writes and `Completes.xfer` gives
the pending payload, from the start of APPLY and from each wait. -/
theorem triggerWrittenOncePerInternalPass : Obligations.TriggerWrittenOncePerInternalPass := by
  refine ⟨?_, ?_, ?_, ?_⟩
  · intro s t blob r hc hst hanalyse h hsite hresult
    obtain ⟨rfl, hr⟩ := exec_apply_record hst hanalyse h
    have hdone := resumeWait_completes (s := applyStart blob r s) hc (.inl rfl) hsite hresult
    have hcount := hdone.countWrites hc rfl
    rw [hr, analyse_triggerCount hanalyse] at hcount
    exact hcount.trans (Nat.zero_add _)
  · intro s t site hc hs hheld hpass h hsite hresult
    obtain ⟨_, rfl⟩ := step_of_site hheld h
    exact (resumeWait_completes hc hpass hsite hresult).countWrites hc hs.noTrigger
  · intro s t blob r a addr payload hc hs hst hne hanalyse hmode hmem h hsite hresult
    obtain ⟨rfl, hr⟩ := exec_apply_record hst hanalyse h
    have hdone := resumeWait_completes (s := applyStart blob r s) hc (.inl rfl) hsite hresult
    exact hdone.xfer hc hne (hs.deviceOk.congr rfl rfl) hr hanalyse hmode hmem
  · intro s t site blob r g v hc hs hheld hanalyse h hsite hresult
    obtain ⟨_, rfl⟩ := step_of_site hheld.held h
    have hr : passRecord s = r := congrArg recordOf hheld.record
    have hdone := resumeWait_completes hc hheld.isPass hsite hresult
    constructor
    · have hbefore : countWrites s.cfg.rTrig s.io.trace = 0 := by
        rw [← countWrites_accesses, hheld.emitted, countWrites_accessesBeforeWait hc]
      rw [hdone.countWrites hc hs.noTrigger, hbefore, hr, analyse_triggerCount hanalyse, Nat.zero_add]
    · intro hne hmode a addr payload hmem
      exact hdone.xfer hc hne hs.deviceOk hr hanalyse hmode hmem

end Sys2Proof.Machine
end

section
/-! The block's copies of device registers (rules R67, R245): every act of a command writes a copied register
together with its copy, so that the copies are right once the queue is delivered, and a command comes to rest
with nothing queued. -/

namespace Sys2Proof.Machine

/-! ## The copied registers are written with their copies only -/

/-- The copied registers are pairwise distinct, and the block writes none of them under another name (rule
R6 (7)). -/
theorem admissible_copies {c : Cfg} (h : admissible c = true) :
    [c.rMctl, c.rEn.k0, c.rEn.k1, c.rByp].Nodup ∧
      ∀ r, r ∈ c.rAux.toList ∨ isBlockMemory c r → r ∉ [c.rMctl, c.rEn.k0, c.rEn.k1, c.rByp] := by
  have hwritten := (admissible_regs_nodup h).of_cons
  rw [writtenRegs, List.append_assoc, List.append_assoc, List.nodup_append] at hwritten
  obtain ⟨hcopies, _, hapart⟩ := hwritten
  exact ⟨hcopies, fun r hr hmem => hapart r hmem r (by simpa [isBlockMemory] using hr) rfl⟩

theorem admissible_copiesApart {c : Cfg} (h : admissible c = true) : CopiesApart c := by
  have hcopies := (admissible_copies h).1
  simp only [List.nodup_cons, List.mem_cons, List.not_mem_nil, or_false, not_or] at hcopies
  obtain ⟨⟨hm0, hm1, hmb⟩, ⟨h01, h0b⟩, h1b, _⟩ := hcopies
  exact {
    en := h01
    enByp := fun
      | .k0 => h0b
      | .k1 => h1b
    enMctl := fun
      | .k0 => Ne.symm hm0
      | .k1 => Ne.symm hm1
    bypMctl := Ne.symm hmb }

theorem sparesCopies_of {al : Allowed} {c : Cfg} (hc : admissible c = true)
    (hwrite : ∀ g r v, al.write g r v → r ∈ c.rAux.toList ∨ isBlockMemory c r) :
    al.sparesCopies c := by
  intro g r v h
  have hother := (admissible_copies hc).2 r (hwrite g r v h)
  simp only [List.mem_cons, List.not_mem_nil, or_false, not_or] at hother
  obtain ⟨hmaster, h0, h1, hbyp⟩ := hother
  exact ⟨hmaster, hbyp, fun
    | .k0 => h0
    | .k1 => h1⟩

theorem quiesceAllowed_sparesCopies {c : Cfg} (hc : admissible c = true) (en : Two Byte) (byp : Byte) :
    (quiesceAllowed c en byp).sparesCopies c :=
  sparesCopies_of hc fun _ _ _ h => .inl (h.2.1 ▸ admissible_sinout_mem_aux hc)

theorem itemAllowed_sparesCopies {c : Cfg} (hc : admissible c = true) : (itemAllowed c).sparesCopies c := by
  refine sparesCopies_of hc fun g r v h => ?_
  rcases h with ⟨_, haddr | hctl | hdata⟩ | ⟨_, haux⟩
  · exact .inr (.inl haddr)
  · exact .inr (.inr (.inl hctl))
  · exact .inr (.inr (.inr (.inl hdata)))
  · exact .inl haux

theorem triggerAllowed_sparesCopies {c : Cfg} (hc : admissible c = true) :
    (triggerAllowed c).sparesCopies c :=
  sparesCopies_of hc fun _ _ _ h => .inr (h.2 ▸ isBlockMemory_rTrig c)

theorem resumeAllowed_sparesCopies {c : Cfg} (hc : admissible c = true) : (resumeAllowed c).sparesCopies c :=
  sparesCopies_of hc fun _ _ _ h => .inl (h.2 ▸ admissible_sinout_mem_aux hc)

theorem uploadAllowed_sparesCopies {c : Cfg} (hc : admissible c = true) :
    (uploadAllowed c).sparesCopies c :=
  sparesCopies_of hc fun _ _ _ h => .inr (h.2.imp_right .inl)

theorem cmdAllowed_sparesCopies (c : Cfg) : (cmdAllowed c).sparesCopies c := nofun

/-! ## What a command keeps while it runs, and has when it rests -/

/-- The device is in order, and the copies are right once the queue is delivered. -/
structure Copied (s : State) : Prop where
  config : admissible s.cfg = true
  device : DeviceOk s
  pending : CoherentPending s

/-- The copies are right as they stand: nothing is queued. -/
structure Delivered (s : State) : Prop where
  copied : Copied s
  queue : s.hw.queue = []

theorem Copied.acts {al : Allowed} {s t : State} (h : Copied s) (ha : Acts al s t)
    (hal : al.sparesCopies s.cfg) : Copied t :=
  ⟨ha.samePhase.cfg.symm ▸ h.config, ha.deviceOk h.device,
    ha.coherentPending (admissible_copiesApart h.config) hal h.device h.pending⟩

/-- Of the state, the copies and their registers are all that counts. -/
theorem Copied.congr {s t : State} (h : Copied s) (hcfg : t.cfg = s.cfg) (hhw : t.hw = s.hw)
    (hqn : t.w.qn = s.w.qn) (hmaster : t.g.master = s.g.master) (hen : t.g.en = s.g.en)
    (hbyp : t.g.byp = s.g.byp) : Copied t where
  config := hcfg ▸ h.config
  device := h.device.congr hhw hqn
  pending := by
    have hpending : ∀ a, pendingValue t a = pendingValue s a := fun a => by simp only [pendingValue, hhw]
    exact ⟨by rw [hpending, hcfg, hmaster, h.pending.master],
      fun k => by rw [hpending, hcfg, hen, h.pending.en],
      by rw [hpending, hcfg, hbyp, h.pending.byp]⟩

theorem Delivered.congr {s t : State} (h : Delivered s) (hcfg : t.cfg = s.cfg) (hhw : t.hw = s.hw)
    (hqn : t.w.qn = s.w.qn) (hmaster : t.g.master = s.g.master) (hen : t.g.en = s.g.en)
    (hbyp : t.g.byp = s.g.byp) : Delivered t :=
  ⟨h.copied.congr hcfg hhw hqn hmaster hen hbyp, hhw ▸ h.queue⟩

theorem coherentPending_iff {s : State} (hq : s.hw.queue = []) : CoherentPending s ↔ Coherent s := by
  constructor
  · rintro ⟨hmaster, hen, hbyp⟩
    simp only [pendingValue_empty hq] at hmaster hen hbyp
    exact ⟨hmaster, hen .k0, hen .k1, hbyp⟩
  · rintro ⟨hmaster, hen0, hen1, hbyp⟩
    refine ⟨?_, fun k => ?_, ?_⟩ <;> rw [pendingValue_empty hq]
    · exact hmaster
    · cases k
      · exact hen0
      · exact hen1
    · exact hbyp

theorem Delivered.coherent {s : State} (h : Delivered s) : Coherent s ∧ s.hw.queue = [] :=
  ⟨(coherentPending_iff h.queue).1 h.copied.pending, h.queue⟩

theorem Coherent.delivered {s : State} (h : Coherent s) (hc : admissible s.cfg = true) (hs : Inv s)
    (hq : s.hw.queue = []) : Delivered s :=
  ⟨⟨hc, hs.deviceOk, (coherentPending_iff hq).2 h⟩, hq⟩

theorem Delivered.finish {s : State} (h : Delivered s) (v : Word) : Delivered (finish v s) :=
  h.congr rfl rfl rfl rfl rfl rfl

theorem Delivered.accept {s : State} (h : Delivered s) (p : Phase) : Delivered (accept p s) :=
  h.congr rfl rfl rfl rfl rfl rfl

theorem Delivered.latchAnalyse {s : State} (h : Delivered s) (blob : List Byte) :
    Delivered (latchAnalyse blob s) :=
  h.congr rfl rfl rfl rfl rfl rfl

/-- QN counts the queue. -/
theorem Copied.delivered {s : State} (h : Copied s) (hqn : s.w.qn = 0) : Delivered s :=
  ⟨h, List.eq_nil_of_length_eq_zero (h.device.counted.symm.trans hqn)⟩

/-! ## Flushes and waits -/

theorem Copied.syncQueue {s : State} (h : Copied s) : Delivered (syncQueue s) :=
  (h.acts Acts.refl.sync (cmdAllowed_sparesCopies _)).delivered (by simp)

theorem Copied.readTrans {s : State} (h : Copied s) : Delivered (rdReg s.cfg.rTrans s) :=
  (h.acts (al := cmdAllowed s.cfg) (Acts.refl.read rfl) (cmdAllowed_sparesCopies _)).delivered (by simp)

theorem Copied.waitPoll {s : State} (h : Copied s) (w : WaitName) (x : Option WaitSite) :
    Delivered { waitPoll w s with site := x } := by
  have hpending := pendingValue_waitPoll w h.device.shadow
  have hpolled : Copied (Machine.waitPoll w s) := {
    config := by simpa using h.config
    device := waitPoll_deviceOk w h.device
    pending := ⟨by simpa [hpending] using h.pending.master, by simpa [hpending] using h.pending.en,
      by simpa [hpending] using h.pending.byp⟩ }
  exact (hpolled.delivered (by simp)).congr rfl rfl rfl rfl rfl rfl

/-- A wait inside a command: whatever it comes to, the queue has been delivered. -/
theorem waitThen_delivered (w : WaitName) (site : WaitSite) {next : State → State} {s : State}
    (h : Copied s) (hnext : ∀ u, Delivered u → Delivered (next u)) :
    Delivered (waitThen w site next s) := by
  apply waitThen_ind
  · exact fun _ => hnext _ (h.waitPoll w none)
  · exact fun _ => (h.waitPoll w none).finish _
  · exact fun _ => h.waitPoll w (some site)

theorem waitAlone_delivered (w : WaitName) {s : State} (h : Copied s) : Delivered (waitAlone w s) := by
  unfold waitAlone
  split
  · exact h.waitPoll w none
  · exact h.waitPoll w none
  · exact h.waitPoll w (some (.alone w))

/-! ## The phases of a pass -/

theorem phaseDownload_copied {s : State} (h : Copied s) : Copied (phaseDownload s) := by
  have hstart : Copied (downloadStart s) := h.congr rfl rfl rfl rfl rfl rfl
  have hitems := hstart.acts (downloadItems_acts (passRecord s).items (downloadStart s))
    (itemAllowed_sparesCopies hstart.config)
  exact hitems.acts (triggerTransfer_acts _) (triggerAllowed_sparesCopies hitems.config)

theorem phaseResume_delivered {s : State} (h : Copied s) : Delivered (phaseResume s) := by
  have hstart : Copied (enter .resume s) := h.congr rfl rfl rfl rfl rfl rfl
  have hresumed := hstart.acts (resume_acts (enter .resume s)) (resumeAllowed_sparesCopies hstart.config)
  exact (hresumed.delivered (by simp)).finish 0

theorem quiesceSilent_delivered {s : State} (h : Copied s) : Delivered (quiesceSilent s) :=
  phaseResume_delivered (phaseDownload_copied
    (h.acts (stepQ4_acts s 0) (quiesceAllowed_sparesCopies h.config _ _)))

theorem quiesceFaded_delivered {s : State} (h : Copied s) : Delivered (quiesceFaded s) := by
  unfold quiesceFaded
  split
  · exact waitThen_delivered _ _ h fun _ hu => quiesceSilent_delivered hu.copied
  · exact quiesceSilent_delivered h

theorem quiesceBegin_delivered {s : State} (h : Copied s) : Delivered (quiesceBegin s) := by
  have hstart : Copied (enter .quiesce s) := h.congr rfl rfl rfl rfl rfl rfl
  have hmuted := hstart.acts (stepQ1Q2_acts s) (quiesceAllowed_sparesCopies h.config _ _)
  rw [quiesceBegin_eq]
  split
  · exact waitThen_delivered _ _ hmuted fun _ hu => quiesceFaded_delivered hu.copied
  · exact quiesceFaded_delivered hmuted

theorem applyBlob_delivered (blob : List Byte) {s : State} (h : Delivered s) :
    Delivered (applyBlob blob s) := by
  unfold applyBlob
  simp only
  split
  · exact (h.latchAnalyse blob).finish _
  · exact waitThen_delivered _ _ (h.copied.congr rfl rfl rfl rfl rfl rfl)
      fun _ hu => quiesceBegin_delivered hu.copied

/-! ## UPLOAD -/

theorem drain_qn (n : Nat) {s : State} (h : s.w.qn = 0) : (drain n s).w.qn = 0 := by
  induction n generalizing s with
  | zero => exact h
  | succ n ih => exact ih (by simp)

theorem uploadRead_delivered (m : MemDom) (addr : Word) (units : Nat) {s : State} (h : Copied s) :
    Delivered (uploadRead m addr units s) := by
  obtain ⟨t, ha, ht⟩ := uploadRead_acts m addr units s
  have hcopied := h.acts ha (uploadAllowed_sparesCopies h.config)
  have hqn : (uploadRead m addr units s).w.qn = 0 := drain_qn _ (by simp)
  rw [ht] at hqn ⊢
  exact (hcopied.delivered hqn).congr rfl rfl rfl rfl rfl rfl

theorem uploadChecked_delivered (dom : Byte) (addr size : Word) {s : State} (h : Delivered s) :
    Delivered (uploadChecked dom addr size s) := by
  unfold uploadChecked
  split
  · exact h.finish _
  · split
    · unfold uploadUnits
      split
      · exact h.congr rfl rfl rfl rfl rfl rfl
      · exact waitThen_delivered _ _ h.copied fun _ hu => uploadRead_delivered _ _ _ hu.copied
    · exact h.finish _

/-! ## Commands, and the later polls of a wait -/

/-- MSTART and MSTOP (rules R193, R194). -/
theorem writeMaster_delivered {s : State} (h : Copied s) (v : Byte) :
    Delivered (finish 0 (syncQueue (writeMaster v s))) :=
  (h.acts (Acts.refl.master (al := cmdAllowed s.cfg) trivial) (cmdAllowed_sparesCopies _)).syncQueue.finish 0

theorem gated_delivered {run : State → State} {s : State} (h : Delivered s) (hrun : Delivered (run s)) :
    Delivered (gated run s) := by
  unfold gated
  split
  · exact hrun
  · exact h.finish _

/-- A command keeps the copies; an INIT that loads the global state is not one that does (rule R233). -/
theorem exec_command_delivered {s t : State} {i : Instr} (hi : isCommand i = true)
    (hinit : i = .init → s.g.st = .inited) (hs : Delivered s) (h : exec i s = .next t) : Delivered t := by
  have hcmd := hs.accept .cmd
  have hreserved : reservedAnswer s = .next t → Delivered t := by
    rw [reservedAnswer, onCommand_next_iff]
    rintro ⟨_, rfl⟩
    exact hcmd.finish _
  cases i with
  | init =>
    rw [exec, execInit, onCommand_next_iff] at h
    obtain ⟨_, rfl⟩ := h
    simp only [accept_g, hinit rfl, if_true]
    exact hcmd.congr rfl rfl rfl rfl rfl rfl
  | term =>
    rw [exec, execTerm, onCommand_next_iff] at h
    obtain ⟨_, rfl⟩ := h
    exact hcmd.congr rfl rfl rfl rfl rfl rfl
  | validate blob =>
    rw [exec, execValidate, onCommand_next_iff] at h
    obtain ⟨_, rfl⟩ := h
    simp only
    split
    · exact (hcmd.latchAnalyse blob).finish _
    · exact (hcmd.latchAnalyse blob).finish 0
  | apply blob =>
    rw [exec, execApply, onCommand_next_iff] at h
    obtain ⟨_, rfl⟩ := h
    simp only
    split
    · exact applyBlob_delivered blob hcmd
    · exact hcmd.finish _
  | mstart =>
    rw [exec, execMstart, onCommand_next_iff] at h
    obtain ⟨_, rfl⟩ := h
    exact gated_delivered hcmd (writeMaster_delivered hcmd.copied _)
  | mstop =>
    rw [exec, execMstop, onCommand_next_iff] at h
    obtain ⟨_, rfl⟩ := h
    exact gated_delivered hcmd (writeMaster_delivered hcmd.copied _)
  | query =>
    rw [exec, execQuery, onCommand_next_iff] at h
    obtain ⟨_, rfl⟩ := h
    simp only
    split
    · exact hcmd.copied.readTrans.finish _
    · exact hcmd.finish 0
  | upload dom addr size =>
    rw [exec, execUpload, onCommand_next_iff] at h
    obtain ⟨_, rfl⟩ := h
    simp only
    split
    · exact uploadChecked_delivered dom addr size (hs.accept .upload)
    · exact (hs.accept .upload).finish _
  | reserved08 | reserved10 | reserved20 | reserved40 | reserved80 => exact hreserved h
  | fwctrlB | appcoef | appreg | skip | qwG | qwF | flush | rd | sync | wait | writeAddr => cases hi

theorem resumeWait_delivered {s : State} (site : WaitSite) (h : Copied s) :
    Delivered (resumeWait site s) := by
  cases site with
  | applyXfer => exact waitThen_delivered _ _ h fun _ hu => quiesceBegin_delivered hu.copied
  | applyFade => exact waitThen_delivered _ _ h fun _ hu => quiesceFaded_delivered hu.copied
  | applySine => exact waitThen_delivered _ _ h fun _ hu => quiesceSilent_delivered hu.copied
  | upload m addr units =>
    exact waitThen_delivered _ _ h fun _ hu => uploadRead_delivered m addr units hu.copied
  | alone w => exact waitAlone_delivered w h

/-- Settles O56: with nothing queued the copies are coherent exactly if they are right once the queue is
delivered (`coherentPending_iff`), which every act of a command keeps; a command and a held step come to rest
with nothing queued. -/
theorem commandsKeepCopiesCoherent : Obligations.CommandsKeepCopiesCoherent := by
  constructor
  · intro s t i hc hs hi hq hinit hcoherent h
    exact (exec_command_delivered hi hinit (hcoherent.delivered hc hs hq) h).coherent
  · intro s t site hs hsite hcoherent h
    obtain ⟨hc, rfl⟩ := step_of_site hsite h
    have hq := hs.waitEmpty (by simp [hsite])
    exact (resumeWait_delivered site (hcoherent.delivered hc hs hq).copied).coherent

end Sys2Proof.Machine
end

section
/-! Port operations offered by themselves (rules R56, R181, R182, R186): a read, a wait, `WriteAddr`. -/

namespace Sys2Proof.Machine

/-! ## What a gate lets through, and what it holds back (rule R186) -/

theorem next_of_open {isOpen : Bool} {run : State → State} {s : State} (h : isOpen = true) :
    (.next (ifOpen isOpen run s) : Host.Outcome State Fault Refusal) = .next (run s) :=
  congrArg Host.Outcome.next (ifOpen_of run s h)

theorem next_of_closed {isOpen : Bool} {run : State → State} {s : State} (h : ¬isOpen = true) :
    (.next (ifOpen isOpen run s) : Host.Outcome State Fault Refusal) = .next s :=
  congrArg Host.Outcome.next (ifOpen_of_not run s h)

/-! ## Sync and a read -/

theorem syncQueue_of_qn_zero {s : State} (h : s.w.qn = 0) : syncQueue s = s := if_neg (by omega)

/-- After Sync each register holds the last value queued for it, or what it held (rules R41, R179). -/
theorem syncQueue_read {s : State} (hcount : s.w.qn = s.hw.queue.length) (h : ShadowCoherent s.hw) (a : Nat) :
    RegFile.read (syncQueue s).hw.regs a =
      (lastQueued a s.hw.queue).getD (RegFile.read s.hw.regs a) := by
  rw [← pendingValue_empty (syncQueue_queue hcount), pendingValue_syncQueue h]
  rfl

/-- Settles O25: the read gate, then the laws of `rdReg`. -/
theorem readFlushesThenReturnsTheAnswer : Obligations.ReadFlushesThenReturnsTheAnswer := by
  intro s bank index
  have hgate := readOpen_iff (r := { bank := bank, index := index }) (s := s) 0
  refine ⟨fun hclosed => next_of_closed (mt hgate.1 hclosed), fun hopen hcount =>
    ⟨_, rdReg _ s, next_of_open (hgate.2 hopen), ?_, rfl, ?_⟩⟩
  · exact fun u rest hreads => (rdReg_answer _ s hreads).1
  · refine ⟨rdReg_queue _ hcount, rdReg_w _ s, rdReg_trace _ s, fun hshadow a => ?_, fun hqn => ?_,
      rdReg_g _ s, rdReg_site _ s, rdReg_cfg _ s, rdReg_io_inbox _ s⟩
    · rw [rdReg, readNow_hw_regs, syncQueue_read hcount hshadow]
    · rw [rdReg, syncQueue_of_qn_zero hqn]
      exact ⟨readNow_hw_regs _ s, readNow_hw_bmem _ s⟩

/-! ## A wait -/

theorem waitAlone_eq (w : WaitName) (s : State) :
    waitAlone w s = { waitPoll w s with
      site := if (waitPoll w s).io.waitRes = .polling then some (.alone w) else none } := by
  unfold waitAlone
  split <;> rename_i h <;> rw [h] <;> rfl

theorem waitAlone_polled {w : WaitName} {s : State} {before : List Event} {res : WaitResult}
    (hbefore : (syncQueue s).io.trace = before) (h : (waitPoll w s).io.waitRes = res) :
    (waitAlone w s).io.waitRes = res ∧
      (waitAlone w s).site = (if res = .polling then some (.alone w) else none) ∧
      (waitAlone w s).io.trace = before ++ waitEvents s.w.ph w res := by
  subst hbefore h
  rw [waitAlone_eq]
  exact ⟨rfl, rfl, waitPoll_trace w s⟩

/-- What one poll of a wait by itself comes to, by the answer at the head of the tape (rule R182). -/
theorem waitAlone_outcomes (w : WaitName) {s : State} {v : Byte} {a : WaitAnswer} {rest : List WaitAnswer}
    {before : List Event} (hbefore : (syncQueue s).io.trace = before) (hwaits : s.orc.waits = a :: rest)
    (ha : a = .seen v ∨ a = .fails v) :
    (waitAlone w s).io.rdata = v ∧ (waitAlone w s).orc.waits = rest ∧
    (a = .seen v → v &&& (s.cfg.wait w).mask = (s.cfg.wait w).want →
      (waitAlone w s).io.waitRes = .ok ∧ (waitAlone w s).site = none ∧
      (waitAlone w s).io.trace = before ++ [{ phase := s.w.ph, op := .wait w true }]) ∧
    (a = .seen v → v &&& (s.cfg.wait w).mask ≠ (s.cfg.wait w).want →
      (waitAlone w s).io.waitRes = .polling ∧ (waitAlone w s).site = some (.alone w) ∧
      (waitAlone w s).io.trace = before) ∧
    (a = .fails v → (waitAlone w s).io.waitRes = .failed ∧ (waitAlone w s).site = none ∧
      (waitAlone w s).io.trace = before ++ [{ phase := s.w.ph, op := .wait w false }]) := by
  have hio : (waitAlone w s).io.rdata = (waitPoll w s).io.rdata := by rw [waitAlone_eq]
  have horc : (waitAlone w s).orc = (waitPoll w s).orc := by rw [waitAlone_eq]
  rw [hio, horc]
  rcases ha with rfl | rfl
  · by_cases hflag : v &&& (s.cfg.wait w).mask = (s.cfg.wait w).want
    · obtain ⟨hres, hdata, hrest⟩ := waitPoll_shows w s hwaits hflag
      exact ⟨hdata, hrest, fun _ _ => waitAlone_polled hbefore hres, fun _ h => absurd hflag h, nofun⟩
    · obtain ⟨hres, hdata, hrest⟩ := waitPoll_polls w s hwaits hflag
      refine ⟨hdata, hrest, fun _ h => absurd h hflag, fun _ _ => ?_, nofun⟩
      simpa [waitEvents] using waitAlone_polled hbefore hres
  · have hfailed := waitPoll_fails w s hwaits
    have hres : (waitPoll w s).io.waitRes = .failed := by rw [hfailed]; rfl
    refine ⟨?_, ?_, nofun, nofun, fun _ => waitAlone_polled hbefore hres⟩
    · rw [hfailed]; rfl
    · rw [hfailed]; rfl

/-- What a wait by itself leaves alone, and what it delivers. -/
theorem waitAlone_frame (w : WaitName) (s : State) :
    (waitAlone w s).hw.queue = (syncQueue s).hw.queue ∧ (waitAlone w s).hw.regs = (syncQueue s).hw.regs ∧
    (waitAlone w s).w = { s.w with qn := 0 } ∧ (waitAlone w s).g = s.g ∧ (waitAlone w s).cfg = s.cfg ∧
    (waitAlone w s).io.inbox = s.io.inbox := by
  rw [waitAlone_eq]
  exact ⟨poll_hw_queue w _, poll_hw_regs w _, waitPoll_w w s, waitPoll_g w s, waitPoll_cfg w s,
    waitPoll_io_inbox w s⟩

theorem step_resumes {s : State} {site : WaitSite} (hc : admissible s.cfg = true)
    (hsite : s.site = some site) : step s = .next (resumeWait site s) := by
  rw [step, if_pos hc, hsite]

/-- Settles O26: both a first and a later poll are `waitAlone`, whose outcome is read off the tape
(`waitAlone_outcomes`); a later one has nothing to flush (rule R65). -/
theorem waitOutcomes : Obligations.WaitOutcomes := by
  constructor
  · intro s w v a rest
    have hgate := waitOpen_iff (w := w) (s := s) true
    refine ⟨fun hclosed => next_of_closed (mt hgate.1 hclosed), fun hopen hcount hwaits ha =>
      ⟨waitAlone w s, next_of_open (hgate.2 hopen), ?_⟩⟩
    obtain ⟨hqueue, hregs, hw, hg, hcfg, hinbox⟩ := waitAlone_frame w s
    obtain ⟨hdata, hrest, houtcome⟩ := waitAlone_outcomes w (syncQueue_trace s) hwaits ha
    refine ⟨hqueue.trans (syncQueue_queue hcount), hw, hdata, hrest, hg, hcfg, hinbox, fun hshadow x => ?_,
      houtcome⟩
    rw [hregs, syncQueue_read hcount hshadow]
  · intro s w v a rest hc hs hheld hwaits ha
    have hqueued : s.hw.queue = [] := hs.waitEmpty (by simp [hheld])
    have hqn : s.w.qn = 0 := by rw [hs.counted, hqueued]; rfl
    have hsync := syncQueue_of_qn_zero hqn
    obtain ⟨hqueue, hregs, hw, hg, hcfg, hinbox⟩ := waitAlone_frame w s
    obtain ⟨hdata, hrest, houtcome⟩ := waitAlone_outcomes w (congrArg (·.io.trace) hsync) hwaits ha
    rw [hsync] at hqueue hregs
    rw [← syncQueue_w, hsync] at hw
    exact ⟨_, step_resumes hc hheld, hqueue.trans hqueued, hregs, hw, hdata, hrest, hg, hcfg, hinbox,
      houtcome⟩

/-! ## `WriteAddr` -/

/-- Forced writes in terms of the entries they queue. -/
theorem qwForced_eq_entries (ps : List (Reg × Byte)) (s : State) :
    qwForced ps s = { s with
      hw := { s.hw with queue := s.hw.queue ++ forcedEntries ps }
      w := { s.w with qn := s.w.qn + (forcedEntries ps).length }
      io := { s.io with trace := s.io.trace ++
        (forcedEntries ps).map (fun e => { phase := s.w.ph, op := .qw e.gate e.reg e.value }) } } := by
  simp only [qwForced_eq, forcedEntries, List.length_map, List.map_map, Function.comp_def]

/-- Byte `j` of the address, most significant first (rule R56). -/
theorem addrBytes_getElem? (c : Cfg) (addr : Word) {j : Nat} (hj : j < c.addrW / 8) :
    (addrBytes c addr)[j]? = some (addr.extractLsb' (c.addrW - 8 - 8 * j) 8) := by
  simp [addrBytes, hj, BitVec.setWidth_ushiftRight_eq_extractLsb]

/-- Settles O27: the address gate, then `WriteAddr` as forced writes of the address registers zipped with the
bytes of the address. -/
theorem writeAddrQueuesBytesMsbFirst : Obligations.WriteAddrQueuesBytesMsbFirst := by
  intro s addr hc
  obtain ⟨_, _, _, hlen⟩ := admissible_ranges hc
  refine ⟨fun hclosed => next_of_closed (mt addrOpen_iff.1 hclosed), fun hopen =>
    ⟨writeAddrRegs addr s, forcedEntries (s.cfg.rBma.zip (addrBytes s.cfg addr)),
      next_of_open (addrOpen_iff.2 hopen), ?_, fun j r hr => ?_, qwForced_eq_entries _ s⟩⟩
  · simp [forcedEntries, addrBytes, hlen]
  · have hj : j < s.cfg.addrW / 8 := hlen ▸ (List.getElem?_eq_some_iff.1 hr).1
    have hzip := (List.getElem?_zip_eq_some (z := (r, _))).2 ⟨hr, addrBytes_getElem? s.cfg addr hj⟩
    rw [forcedEntries, List.getElem?_map, hzip]
    rfl

end Sys2Proof.Machine
end

section
/-! A coefficient item of phase 3 offered by itself (rules R151, R152, R186): its gate, and its writes as one
list of forced writes that a flush delivers. -/

namespace Sys2Proof.Machine

/-! ## The writes of a coefficient item -/

/-- The address bytes, the control byte, the payload (rules R55, R151, R152). -/
def coefPairs (c : Cfg) (ctl : Byte) (addr : Word) (payload : List Byte) : List (Reg × Byte) :=
  c.rBma.zip (addrBytes c addr) ++ [(c.rBmctl, ctl)] ++ payload.map fun v => (c.rBmd, v)

theorem qwForced_append (ps qs : List (Reg × Byte)) (s : State) :
    qwForced (ps ++ qs) s = qwForced qs (qwForced ps s) := by
  induction ps generalizing s with
  | nil => rfl
  | cons p ps ih => exact ih _

theorem qwForced_coefPairs (ctl : Byte) (addr : Word) (payload : List Byte) (s : State) :
    qwForced (coefPairs s.cfg ctl addr payload) s =
      qwPayload (qw .forced s.cfg.rBmctl ctl (writeAddrRegs addr s)) payload := by
  rw [coefPairs, qwForced_append, qwForced_append, qwPayload, qw_cfg, writeAddrRegs_cfg]
  rfl

theorem coefHost_eq_flush (addr : Word) (payload : List Byte) (s : State) :
    coefHost addr payload s = flushQueue (qwForced (coefPairs s.cfg s.cfg.vCtlWrHost addr payload) s) := by
  rw [← syncQueue_of_pos (by simp [coefPairs]), qwForced_coefPairs]
  simp only [coefHost, writeAddrRegs_cfg]

/-- The trigger is owed (rule R152). -/
def oweTrigger (s : State) : State := { s with w := { s.w with trigpend := true } }

theorem qwForced_oweTrigger (ps : List (Reg × Byte)) (s : State) :
    qwForced ps (oweTrigger s) = oweTrigger (qwForced ps s) := by
  simp only [qwForced_eq, oweTrigger]

theorem coefInternal_eq_flush_owed (addr : Word) (payload : List Byte) (s : State) :
    coefInternal addr payload s =
      flushQueue (qwForced (coefPairs s.cfg s.cfg.vCtlWrInt addr payload) (oweTrigger s)) := by
  rw [← syncQueue_of_pos (by simp [coefPairs]), qwForced_oweTrigger, qwForced_coefPairs]
  simp only [coefInternal, writeAddrRegs_cfg, oweTrigger]

/-- The control value and the owed trigger by the mode of the pass. -/
theorem coefItem_eq_flush {s : State} (addr : Word) (payload : List Byte)
    (h : (passRecord s).mode ≠ .none) :
    coefItem addr payload s = flushQueue (qwForced
      (coefPairs s.cfg (if (passRecord s).mode = .host then s.cfg.vCtlWrHost else s.cfg.vCtlWrInt)
        addr payload)
      { s with w := { s.w with trigpend := if (passRecord s).mode = .host then s.w.trigpend else true } }) := by
  unfold coefItem
  split
  · rename_i hmode
    rw [hmode, coefHost_eq_flush]
    rfl
  · rename_i hmode
    rw [hmode, coefInternal_eq_flush_owed]
    rfl
  · exact absurd ‹_› h

/-! ## The item as an instruction -/

theorem coefItemOpen_iff {s : State} (a : AppId) (addr : Word) (payload : List Byte)
    (h : s.w.ph = .download) :
    itemOpen (.coef a addr payload) s = true ↔ s.g.st = .inited ∧ transferWaited s.io.trace := by
  rw [itemOpen, Bool.and_eq_true, statusOpen_iff, transferOpen_iff_waited (by simp [h])]

/-- A well-formed coefficient chunk at PH = P_DOWNLOAD (rules R104, R130, R186; log 15). -/
theorem exec_appcoef_download {s : State} {body : List Byte} {n : Nat} (a : AppId)
    (hph : s.w.ph = .download) (hcount : sbe32At body s.cfg.offCount = (n : Int)) (hpos : 0 < n)
    (hmod : n % 4 = 0) (hlen : s.cfg.offData + n ≤ body.length)
    (haddr : (be32At body s.cfg.offAddr).toNat < 2 ^ s.cfg.addrW) :
    exec (.appcoef a body) s =
      let item := .coef a (be32At body s.cfg.offAddr) ((body.drop s.cfg.offData).take n)
      .next (ifOpen (itemOpen item s) (downloadStep item) s) := by
  have hn : coefCount s.cfg body = n := hcount
  have hok : coefBodyOk s.cfg body = true := by
    simp only [coefBodyOk, hn, Bool.and_eq_true, decide_eq_true_eq, Int.toNat_natCast]
    exact ⟨⟨⟨⟨by omega, haddr⟩, by omega⟩, hmod⟩, hlen⟩
  have hsome : ¬coefCount s.cfg body = 0 := by omega
  have hpayload : coefPayload s.cfg body = (body.drop s.cfg.offData).take n := by
    rw [coefPayload, hn, Int.toNat_natCast]
  simp only [exec, execAppcoef, itemStage, if_pos hph, if_pos hok, if_neg hsome, hpayload, coefAddr]

/-- Settles O39: past its gate the item is one list of forced writes that a flush delivers
(`coefItem_eq_flush`). -/
theorem coefItemWritesInOrder : Obligations.CoefItemWritesInOrder := by
  intro s a body n hph _ hcount hpos hmod hlen haddr hmode
  have hexec := exec_appcoef_download a hph hcount hpos hmod hlen haddr
  have hgate := coefItemOpen_iff a (be32At body s.cfg.offAddr) ((body.drop s.cfg.offData).take n) hph
  rw [hexec]
  constructor
  · intro hclosed
    refine next_of_closed (mt hgate.1 ?_)
    rintro ⟨hst, hwaited⟩
    rcases hclosed with hidle | hno
    · rw [hst] at hidle
      cases hidle
    · exact hno hwaited
  · intro hst hwaited
    refine ⟨_, next_of_open (hgate.2 ⟨hst, hwaited⟩), ?_⟩
    simp only [downloadStep, downloadItem, coefItem_eq_flush _ _ hmode]
    refine ⟨?_, rfl, by simp, by simp, by simp [qwForced_eq], by simp, by simp [qwForced_eq]⟩
    simp [qwForced_eq, coefPairs, hph, Function.comp_def]

end Sys2Proof.Machine
end

section
/-! The encoding of 30_encoding.md: the decoder reads back what the encoder writes, command by command, chunk
by chunk and word by word, and what it reads has no second encoding. -/

namespace Sys2Proof.Machine

/-! ## Commands: the opcodes and their operands (rules R71, R72) -/

/-- A field of `k` low bits above a base with those bits clear is read back. -/
theorem extractLsb'_base_add {k base : Nat} (hk : k ≤ 8) (hbase : 2 ^ k ∣ base) (low : BitVec k) :
    (BitVec.ofNat 8 (base + low.toNat)).extractLsb' 0 k = low := by
  apply BitVec.eq_of_toNat_eq
  rw [BitVec.extractLsb'_toNat, BitVec.toNat_ofNat, Nat.shiftRight_zero,
    Nat.mod_mod_of_dvd _ (Nat.pow_dvd_pow 2 hk), Nat.add_mod, Nat.mod_eq_zero_of_dvd hbase, Nat.zero_add,
    Nat.mod_mod, Nat.mod_eq_of_lt low.isLt]

theorem opcode_toNat {k base : Nat} (hfits : base + 2 ^ k ≤ 256) (low : BitVec k) :
    (BitVec.ofNat 8 (base + low.toNat)).toNat = base + low.toNat := by
  rw [BitVec.toNat_ofNat]
  exact Nat.mod_eq_of_lt (by have := low.isLt; omega)

/-- From 0x08 on an opcode has no operands (rule R72). -/
theorem decodeCommand_reserved {op : Byte} (h : 8 ≤ op.toNat) (rest : List Byte) :
    decodeCommand (op :: rest) = .ok (decodeReserved op, rest) := by
  have hne : op ≠ 0 ∧ op ≠ 1 ∧ op ≠ 2 ∧ op ≠ 3 ∧ op ≠ 4 ∧ op ≠ 5 ∧ op ≠ 6 ∧ op ≠ 7 := by
    bv_omega
  simp only [decodeCommand, hne, if_false]

/-- A reserved opcode is the one its row and its low bits say (rules R72, R196). -/
theorem encode_decodeReserved (c : Cfg) {op : Byte} (h : 8 ≤ op.toNat) :
    encode c (decodeReserved op) = .command [op] := by
  have hlt := op.isLt
  unfold decodeReserved
  split_ifs <;>
  · simp only [encode, Frame.command.injEq, List.cons.injEq, and_true]
    apply BitVec.eq_of_toNat_eq
    simp only [BitVec.toNat_ofNat, BitVec.extractLsb'_toNat, Nat.shiftRight_zero]
    omega

theorem decodeBlobCommand_encodeBlob (mk : List Byte → Instr) {blob : List Byte}
    (h : fitsLength blob = true) : decodeBlobCommand mk (encodeBlob blob) = .ok (mk blob, []) := by
  rw [decodeBlobCommand, splitBlob_encodeBlob h]

/-- A length field is the only one for its bytes. -/
theorem encodeBlob_of_splitBlob {operands blob : List Byte} (h : splitBlob operands = some (blob, [])) :
    encodeBlob blob = operands := by
  obtain ⟨n, rfl, hn⟩ := splitBlob_some h
  rw [encodeBlob, ← hn, BitVec.ofNat_toNat, BitVec.setWidth_eq, List.append_nil]

theorem decodeBlobCommand_ok {mk : List Byte → Instr} {operands rest : List Byte} {i : Instr}
    (h : decodeBlobCommand mk operands = .ok (i, rest)) :
    ∃ blob, i = mk blob ∧ splitBlob operands = some (blob, rest) := by
  unfold decodeBlobCommand at h
  split at h
  · cases h
    exact ⟨_, rfl, ‹_›⟩
  · cases h

theorem decodeUpload_bytes32 (dom : Byte) (addr size : Word) :
    decodeUpload (dom :: (bytes32 addr ++ bytes32 size)) = .ok (.upload dom addr size, []) := by
  simp only [bytes32, List.cons_append, List.nil_append, decodeUpload, be32_of_word]

theorem decodeUpload_ok {operands rest : List Byte} {i : Instr} (h : decodeUpload operands = .ok (i, rest)) :
    ∃ dom addr size, i = .upload dom addr size ∧
      operands = dom :: (bytes32 addr ++ bytes32 size ++ rest) := by
  unfold decodeUpload at h
  split at h
  · cases h
    exact ⟨_, _, _, rfl, by simp only [bytes32_be32, List.cons_append, List.nil_append]⟩
  · cases h

/-- The eight commands, and the reserved opcodes (rules R71, R72). -/
theorem opcode_cases (op : Byte) :
    op = 0 ∨ op = 1 ∨ op = 2 ∨ op = 3 ∨ op = 4 ∨ op = 5 ∨ op = 6 ∨ op = 7 ∨ 8 ≤ op.toNat := by
  bv_omega

/-- A command that decodes with nothing left has no other encoding. -/
theorem encode_of_decodeCommand (c : Cfg) {bytes : List Byte} {i : Instr}
    (h : decodeCommand bytes = .ok (i, [])) : encode c i = .command bytes := by
  cases bytes with
  | nil => cases h
  | cons op operands =>
    obtain rfl | rfl | rfl | rfl | rfl | rfl | rfl | rfl | hop := opcode_cases op
    · cases h; rfl
    · cases h; rfl
    · obtain ⟨blob, rfl, hsplit⟩ := decodeBlobCommand_ok h
      rw [encode, encodeBlob_of_splitBlob hsplit]
    · obtain ⟨blob, rfl, hsplit⟩ := decodeBlobCommand_ok h
      rw [encode, encodeBlob_of_splitBlob hsplit]
    · cases h; rfl
    · cases h; rfl
    · cases h; rfl
    · obtain ⟨dom, addr, size, rfl, rfl⟩ := decodeUpload_ok h
      rw [encode, List.append_nil]
    · rw [decodeCommand_reserved hop] at h
      cases h
      exact encode_decodeReserved c hop

/-! ## Chunks: the tags (rules R73, R74, R83) -/

theorem tagInRange_iff {base tag : Word} (h : base.toNat + 15 < 4294967296) :
    tagInRange base tag = true ↔ ∃ a : AppId, tag = appTag base a := by
  simp only [tagInRange, Bool.and_eq_true, decide_eq_true_eq]
  constructor
  · rintro ⟨hlo, hhi⟩
    refine ⟨⟨tag.toNat - base.toNat, by omega⟩, BitVec.eq_of_toNat_eq ?_⟩
    rw [appTag_toNat h, Nat.add_sub_cancel' hlo]
  · rintro ⟨a, rfl⟩
    rw [appTag_toNat h]
    omega

theorem chunkOfTag_fwctrlB (c : Cfg) (body : List Byte) :
    chunkOfTag c c.tagFwctrlB body = .fwctrlB body := if_pos rfl

theorem chunkOfTag_appcoef {c : Cfg} (h : TagsApart c) (a : AppId) (body : List Byte) :
    chunkOfTag c (appTag c.tagCoef a) body = .appcoef a body := by
  have htag := appTag_toNat h.coefFits a
  have hfw : appTag c.tagCoef a ≠ c.tagFwctrlB := fun e => by
    rw [e] at htag
    have := h.fwCoef
    omega
  rw [chunkOfTag, if_neg hfw, appOfTag_appTag h.coefFits]

/-- No APPREG tag is FWCTRL_B's or an APPCOEF's (rule R6 (9)). -/
theorem appTag_tagReg_apart {c : Cfg} (h : TagsApart c) (a : AppId) :
    appTag c.tagReg a ≠ c.tagFwctrlB ∧ tagInRange c.tagCoef (appTag c.tagReg a) = false := by
  have htag := appTag_toNat h.regFits a
  constructor
  · intro e
    rw [e] at htag
    have := h.fwReg
    omega
  · have := h.apart
    simp only [tagInRange, Bool.and_eq_false_iff, decide_eq_false_iff_not]
    omega

theorem appOfTag_of_not_inRange {base tag : Word} (h : tagInRange base tag = false) :
    appOfTag base tag = none := by
  apply appOfTag_none
  simp only [tagInRange, Bool.and_eq_false_iff, decide_eq_false_iff_not] at h
  omega

theorem chunkOfTag_appreg {c : Cfg} (h : TagsApart c) (a : AppId) (body : List Byte) :
    chunkOfTag c (appTag c.tagReg a) body = .appreg a body := by
  obtain ⟨hfw, hcoef⟩ := appTag_tagReg_apart h a
  rw [chunkOfTag, if_neg hfw, appOfTag_of_not_inRange hcoef, appOfTag_appTag h.regFits]

theorem chunkOfTag_skip {c : Cfg} {tag : Word} (h : tagKnown c tag = false) (body : List Byte) :
    chunkOfTag c tag body = .skip tag body := by
  simp only [tagKnown, Bool.or_eq_false_iff, decide_eq_false_iff_not] at h
  obtain ⟨⟨hfw, hcoef⟩, hreg⟩ := h
  rw [chunkOfTag, if_neg hfw, appOfTag_of_not_inRange hcoef, appOfTag_of_not_inRange hreg]

theorem decodeFrame_encodeChunk (c : Cfg) (tag : Word) {body : List Byte} (h : fitsLength body = true) :
    decodeFrame c (encodeChunk tag body) = .ok (instrOfChunk (chunkOfTag c tag body), none) := by
  rw [encodeChunk, decodeFrame, decodeChunk_encode c tag h]
  rfl

/-! ## Port words (rule R85) -/

/-- The byte fields of a word are 0 if its low 24 bits are. -/
theorem extractLsb'_byte_of_low {w : Word} (h : w.extractLsb' 0 24 = 0) {start : Nat} (hstart : start ≤ 16) :
    w.extractLsb' start 8 = 0 := by
  apply BitVec.eq_of_getLsbD_eq
  intro i hi
  have hbit := congrArg (fun x : BitVec 24 => x.getLsbD (start + i)) h
  simpa [hi, show start + i < 24 by omega] using hbit

/-- A port word that decodes has no other encoding. -/
theorem encode_of_decodePort (c : Cfg) {w : Word} {i : Instr} (h : decodePort w = .ok i) :
    encode c i = .port w := by
  unfold decodePort at h
  split_ifs at h with hzero hop0 hop1 hop2 hlow hvalue
  all_goals
    cases h
    have hw := portWord_of_fields w hzero
  · rwa [hop0, ← Frame.port.injEq] at hw
  · rwa [hop1, ← Frame.port.injEq] at hw
  · rwa [hop2, extractLsb'_byte_of_low hlow (by omega), extractLsb'_byte_of_low hlow (by omega),
      extractLsb'_byte_of_low hlow (by omega), ← Frame.port.injEq] at hw
  · have hop3 : w.extractLsb' 30 2 = 3 := by bv_omega
    rwa [hop3, hvalue, ← Frame.port.injEq] at hw

/-! ## The statements -/

theorem decodeFrame_command (c : Cfg) {bytes : List Byte} {i : Instr}
    (h : decodeCommand bytes = .ok (i, [])) : decodeFrame c (.command bytes) = .ok (i, none) := by
  rw [decodeFrame, h]
  rfl

/-- A reserved opcode of `k` free low bits above `base` is a command by itself (rules R72, R196). -/
theorem decodeFrame_reserved (c : Cfg) {k base : Nat} (hbase : 8 ≤ base) (hfits : base + 2 ^ k ≤ 256)
    (low : BitVec k) :
    decodeFrame c (.command [BitVec.ofNat 8 (base + low.toNat)]) =
      .ok (decodeReserved (BitVec.ofNat 8 (base + low.toNat)), none) :=
  decodeFrame_command c (decodeCommand_reserved (by rw [opcode_toNat hfits]; omega) [])

/-- Settles O1, by the kind of instruction: each kind's own read-back lemma. -/
theorem decodeEncodeRoundTrip : Obligations.DecodeEncodeRoundTrip := by
  intro c i hc hi
  have htags := admissible_tags hc
  cases i with
  | init | term | mstart | mstop | query => rfl
  | validate blob => exact decodeFrame_command c (decodeBlobCommand_encodeBlob .validate hi)
  | apply blob => exact decodeFrame_command c (decodeBlobCommand_encodeBlob .apply hi)
  | upload dom addr size => exact decodeFrame_command c (decodeUpload_bytes32 dom addr size)
  | reserved08 low | reserved10 low | reserved20 low | reserved40 low | reserved80 low =>
    have hlow := low.isLt
    rw [encode, decodeFrame_reserved c (by omega) (by omega), decodeReserved, opcode_toNat (by omega),
      extractLsb'_base_add (by omega) (by decide)]
    simp (disch := omega) only [if_pos, if_neg]
  | fwctrlB body => rw [encode, decodeFrame_encodeChunk c _ hi, chunkOfTag_fwctrlB]; rfl
  | appcoef a body => rw [encode, decodeFrame_encodeChunk c _ hi, chunkOfTag_appcoef htags]; rfl
  | appreg a body => rw [encode, decodeFrame_encodeChunk c _ hi, chunkOfTag_appreg htags]; rfl
  | skip tag body =>
    simp only [WellFormed, Bool.and_eq_true, Bool.not_eq_true'] at hi
    obtain ⟨hfits, hunknown⟩ := hi
    rw [encode, decodeFrame_encodeChunk c _ hfits, chunkOfTag_skip hunknown]
    rfl
  | flush => rfl
  | qwG | qwF | rd => simp [encode, decodeFrame, decodePort, portWord_fields]
  | sync | wait | writeAddr => rfl

/-- Settles O2: the decoders of the two forms answer only what encodes to the form they read. -/
theorem encodedFormsHaveOneMeaning : Obligations.EncodedFormsHaveOneMeaning :=
  ⟨fun c _ _ h => encode_of_decodePort c h, fun c _ _ h => encode_of_decodeCommand c h⟩

/-- Settles O3: the decoder run on each of the six words. -/
theorem writtenWordsDecode : Obligations.WrittenWordsDecode :=
  ⟨rfl, rfl, rfl, rfl, rfl, rfl⟩

end Sys2Proof.Machine
end

section
/-! Taking a frame (rules R70, R197; log 13), and the configuration that no step changes (rule R93): the acts
of a phase keep it (`Acts.samePhase`), so each phase, each command and each poll of a wait does. -/

namespace Sys2Proof.Machine

/-! ## The frame a step takes -/

theorem inboxAfter_eq (rest : Option Frame) (frames : List Frame) :
    inboxAfter rest frames = rest.toList ++ frames := by
  cases rest <;> rfl

/-- Settles O4, by the branch of `step` that fetches. -/
theorem stepRunsDecodedInstruction : Obligations.StepRunsDecodedInstruction := by
  intro s f frames i rest hc hsite hinbox hdecode
  rw [step, if_pos hc, hsite, hinbox]
  simp only [hdecode, takeFrame, inboxAfter_eq, hsite]

theorem takeFrame_cfg (rest : Option Frame) (frames : List Frame) (s : State) :
    (takeFrame rest frames s).cfg = s.cfg := rfl

theorem undecoded_cfg {e : DecodeError} {s t : State} (h : undecoded e s = .next t) : t.cfg = s.cfg := by
  cases e with
  | emptyCommand | emptyChunk | truncatedHeader | overlongChunk => cases h; rfl
  | truncatedCommand | reservedPortBits => cases h

/-! ## Waits and phases keep the configuration -/

theorem waitThen_cfg (w : WaitName) (site : WaitSite) {next : State → State} (s : State)
    (hnext : ∀ u, (next u).cfg = u.cfg) : (waitThen w site next s).cfg = s.cfg := by
  obtain ⟨h, _⟩ | ⟨h, _⟩ | ⟨h, _⟩ := waitThen_cases w site next s
  · simp [h, hnext]
  · simp [h]
  · simp [h]

theorem waitAlone_cfg (w : WaitName) (s : State) : (waitAlone w s).cfg = s.cfg := by
  unfold waitAlone
  split <;> exact waitPoll_cfg w s

theorem phaseResume_cfg (s : State) : (phaseResume s).cfg = s.cfg :=
  (resume_acts (enter .resume s)).samePhase.cfg

theorem quiesceSilent_cfg (s : State) : (quiesceSilent s).cfg = s.cfg :=
  (phaseResume_cfg _).trans ((phaseDownload_cfg _).trans (stepQ4_acts s 0).samePhase.cfg)

theorem quiesceFaded_cfg (s : State) : (quiesceFaded s).cfg = s.cfg := by
  unfold quiesceFaded
  split
  · exact waitThen_cfg _ _ s quiesceSilent_cfg
  · exact quiesceSilent_cfg s

theorem quiesceBegin_cfg (s : State) : (quiesceBegin s).cfg = s.cfg := by
  have hmuted := (stepQ1Q2_acts s).samePhase.cfg
  rw [quiesceBegin_eq]
  split
  · exact (waitThen_cfg _ _ _ quiesceFaded_cfg).trans hmuted
  · exact (quiesceFaded_cfg _).trans hmuted

theorem applyBlob_cfg (blob : List Byte) (s : State) : (applyBlob blob s).cfg = s.cfg := by
  unfold applyBlob
  simp only
  split
  · rfl
  · exact waitThen_cfg _ _ _ quiesceBegin_cfg

theorem uploadRead_cfg (m : MemDom) (addr : Word) (units : Nat) (s : State) :
    (uploadRead m addr units s).cfg = s.cfg := by
  obtain ⟨t, ha, ht⟩ := uploadRead_acts m addr units s
  rw [ht]
  exact ha.samePhase.cfg

theorem uploadChecked_cfg (dom : Byte) (addr size : Word) (s : State) :
    (uploadChecked dom addr size s).cfg = s.cfg := by
  unfold uploadChecked
  split
  · rfl
  · split
    · unfold uploadUnits
      split
      · rfl
      · exact waitThen_cfg _ _ s (uploadRead_cfg _ _ _)
    · rfl

theorem resumeWait_cfg (site : WaitSite) (s : State) : (resumeWait site s).cfg = s.cfg := by
  cases site with
  | applyXfer => exact waitThen_cfg _ _ s quiesceBegin_cfg
  | applyFade => exact waitThen_cfg _ _ s quiesceFaded_cfg
  | applySine => exact waitThen_cfg _ _ s quiesceSilent_cfg
  | upload m addr units => exact waitThen_cfg _ _ s (uploadRead_cfg m addr units)
  | alone w => exact waitAlone_cfg w s

/-! ## Instructions keep the configuration -/

theorem analyseItem_cfg (rule : AnalysisRecord → Option AnalysisRecord) (s : State) :
    (analyseItem rule s).cfg = s.cfg := by
  unfold analyseItem
  split
  · rfl
  · split <;> rfl

theorem ifOpen_cfg (isOpen : Bool) {run : State → State} {s : State} (hrun : (run s).cfg = s.cfg) :
    (ifOpen isOpen run s).cfg = s.cfg := by
  cases isOpen
  · rfl
  · exact hrun

theorem itemStage_cfg (rule : AnalysisRecord → Option AnalysisRecord) (item : Option Item) (s : State) :
    (itemStage rule item s).cfg = s.cfg := by
  unfold itemStage
  split
  · split
    · exact ifOpen_cfg _ (downloadStep_acts _ s).samePhase.cfg
    · rfl
  · exact analyseItem_cfg rule s

theorem gated_cfg {run : State → State} {s : State} (hrun : (run s).cfg = s.cfg) :
    (gated run s).cfg = s.cfg := by
  unfold gated
  split
  · exact hrun
  · rfl

theorem writeMaster_sync_cfg (v : Byte) (s : State) :
    (finish 0 (syncQueue (writeMaster v s))).cfg = s.cfg := by
  simp [writeMaster]

theorem onCommand_cfg {run : State → State} {s t : State} (h : onCommand s run = .next t)
    (hrun : (run s).cfg = s.cfg) : t.cfg = s.cfg := by
  obtain ⟨_, rfl⟩ := onCommand_next_iff.1 h
  exact hrun

theorem exec_cfg {i : Instr} {s t : State} (h : exec i s = .next t) : t.cfg = s.cfg := by
  cases i with
  | init =>
    rw [exec, execInit] at h
    refine onCommand_cfg h ?_
    simp only [answer_cfg]
    split <;> rfl
  | term => rw [exec, execTerm] at h; exact onCommand_cfg h rfl
  | validate blob =>
    rw [exec, execValidate] at h
    refine onCommand_cfg h ?_
    simp only
    split <;> rfl
  | apply blob =>
    rw [exec, execApply] at h
    exact onCommand_cfg h (gated_cfg (run := applyBlob blob) (applyBlob_cfg blob _))
  | mstart => rw [exec, execMstart] at h; exact onCommand_cfg h (gated_cfg (writeMaster_sync_cfg _ _))
  | mstop => rw [exec, execMstop] at h; exact onCommand_cfg h (gated_cfg (writeMaster_sync_cfg _ _))
  | query =>
    rw [exec, execQuery] at h
    refine onCommand_cfg h ?_
    simp only
    split
    · exact rdReg_cfg s.cfg.rTrans (accept .cmd s)
    · rfl
  | upload dom addr size =>
    rw [exec, execUpload] at h
    exact onCommand_cfg h (gated_cfg (run := uploadChecked dom addr size) (uploadChecked_cfg dom addr size _))
  | reserved08 | reserved10 | reserved20 | reserved40 | reserved80 =>
    exact onCommand_cfg (run := fun s => earlyEnd .malformed (accept .cmd s)) h rfl
  | fwctrlB | appcoef | appreg | skip => cases h; exact itemStage_cfg _ _ s
  | qwG | qwF => cases h; exact ifOpen_cfg _ rfl
  | flush => cases h; exact ifOpen_cfg _ (flushQueue_cfg s)
  | rd => cases h; exact ifOpen_cfg _ (rdReg_cfg _ s)
  | sync => cases h; exact ifOpen_cfg _ (syncQueue_cfg s)
  | wait w => cases h; exact ifOpen_cfg _ (waitAlone_cfg w s)
  | writeAddr addr => cases h; exact ifOpen_cfg _ (writeAddrRegs_cfg addr s)

/-- Settles O8, by the branches of `step`: a wait polls, nothing is offered, or a frame is taken and either run
or found to hold no instruction. -/
theorem stepKeepsConfiguration : Obligations.StepKeepsConfiguration := by
  intro s t h
  rcases hsite : s.site with _ | site
  · by_cases hc : admissible s.cfg = true
    · rw [step, if_pos hc, hsite] at h
      simp only at h
      split at h
      · cases h
        rfl
      · split at h
        · exact (exec_cfg h).trans (takeFrame_cfg _ _ s)
        · exact (undecoded_cfg h).trans (takeFrame_cfg _ _ s)
    · rw [step_of_not_admissible hc] at h
      cases h
  · obtain ⟨_, rfl⟩ := step_of_site hsite h
    exact resumeWait_cfg site s

end Sys2Proof.Machine
end

section
/-! The walk of a blob (rules R75, R100 to R115): framing errors, which chunks are malformed, and the items of
a blob run one after another. -/

namespace Sys2Proof.Machine

/-! ## Framing (rules R75, R113; M1 and M2 of rule R208) -/

theorem decodeChunk_short (c : Cfg) {blob : List Byte} (hpos : 0 < blob.length) (hshort : blob.length < 8) :
    decodeChunk c blob = .error .truncatedHeader := by
  unfold decodeChunk
  split
  · simp at hpos
  · simp only [List.length_cons] at hshort
    omega
  · rfl

/-- Eight bytes are a tag and a length. -/
theorem exists_header {blob : List Byte} (h : 8 ≤ blob.length) : ∃ t3 t2 t1 t0 l3 l2 l1 l0 rest,
    blob = t3 :: t2 :: t1 :: t0 :: l3 :: l2 :: l1 :: l0 :: rest := by
  rcases blob with _ | ⟨t3, _ | ⟨t2, _ | ⟨t1, _ | ⟨t0, _ | ⟨l3, _ | ⟨l2, _ | ⟨l1, _ | ⟨l0, rest⟩⟩⟩⟩⟩⟩⟩⟩
  iterate 8 · simp at h
  exact ⟨t3, t2, t1, t0, l3, l2, l1, l0, rest, rfl⟩

theorem decodeChunk_overlong (c : Cfg) {blob : List Byte} (hheader : 8 ≤ blob.length)
    (hlong : blob.length - 8 < (be32At blob 4).toNat) : decodeChunk c blob = .error .overlongChunk := by
  obtain ⟨t3, t2, t1, t0, l3, l2, l1, l0, rest, rfl⟩ := exists_header hheader
  have hrest : ¬(be32 l3 l2 l1 l0).toNat ≤ rest.length := by
    simpa [be32At, byteAt] using hlong
  rw [decodeChunk, splitBlob, if_neg hrest]

theorem walk_of_undecoded {c : Cfg} {blob : List Byte} {e : DecodeError} (en : Two Byte) (r : AnalysisRecord)
    (hpos : 0 < blob.length) (h : decodeChunk c blob = .error e) : walk c en blob.length blob r = none := by
  cases blob with
  | nil => cases hpos
  | cons b bs => rw [List.length_cons, walk, h]

theorem analyse_malformed_of_bind {c : Cfg} {en : Two Byte} {ks : List (Word × List Byte)} {tail : List Byte}
    (hks : ∀ k ∈ ks, fitsLength k.2 = true)
    (h : (chunkRules c en ks AnalysisRecord.initial).bind (walk c en tail.length tail) = none) :
    analyse c (blobOf ks ++ tail) en = .malformed := by
  rw [analyse_blobOf c en ks tail hks, h]

theorem analyse_wholeChunks_malformed_iff {c : Cfg} {en : Two Byte} {ks : List (Word × List Byte)}
    (hks : ∀ k ∈ ks, fitsLength k.2 = true) :
    analyse c (blobOf ks) en = .malformed ↔ chunkRules c en ks AnalysisRecord.initial = none := by
  rw [← List.append_nil (blobOf ks), analyse_blobOf c en ks [] hks]
  cases chunkRules c en ks AnalysisRecord.initial <;> simp [walk]

theorem analyse_wholeChunks_of_some {c : Cfg} {en : Two Byte} {ks : List (Word × List Byte)}
    {r : AnalysisRecord} (hks : ∀ k ∈ ks, fitsLength k.2 = true)
    (h : chunkRules c en ks AnalysisRecord.initial = some r) :
    analyse c (blobOf ks) en = .record (completeRecord c en r) := by
  rw [← List.append_nil (blobOf ks), analyse_blobOf c en ks [] hks, h]
  rfl

/-- Settles O36: the walk of whole chunks is that of their rules, then the walk of the rest
(`analyse_blobOf`), and a rest whose framing is broken has none. -/
theorem framingErrorsAreMalformed : Obligations.FramingErrorsAreMalformed := by
  intro c en ks tail hks
  have hbroken : ∀ e, 0 < tail.length → decodeChunk c tail = .error e →
      analyse c (blobOf ks ++ tail) en = .malformed := fun e hpos h =>
    analyse_malformed_of_bind hks (Option.bind_eq_none_iff.2 fun r _ => walk_of_undecoded en r hpos h)
  refine ⟨fun hpos hshort => hbroken _ hpos (decodeChunk_short c hpos hshort),
    fun hheader hlong => hbroken _ (by omega) (decodeChunk_overlong c hheader hlong), fun hmalformed => ?_,
    nofun⟩
  apply analyse_malformed_of_bind hks
  rw [(analyse_wholeChunks_malformed_iff hks).1 hmalformed, Option.bind_none]

/-! ## Which chunks are malformed (M3 to M13 of rule R208) -/

/-- The body checks of a chunk's kind (M3, M4, M6 to M10, M12 of rule R208). -/
def chunkBodyOk (c : Cfg) : Chunk → Bool
  | .fwctrlB body => fwBodyOk c body
  | .appcoef _ body => coefBodyOk c body
  | .appreg _ body => regBodyOk body
  | .skip _ _ => true

/-- A tag that may stand once in a blob (rules R102, R104, R109, R112). -/
def onceTag (c : Cfg) (tag : Word) : Bool :=
  decide (tag = c.tagFwctrlB) || tagInRange c.tagCoef tag || decide (tag = appTag c.tagReg c.gen)

/-- The four kinds of chunk by their tags (rule R74). -/
theorem chunkOfTag_cases {c : Cfg} (h : TagsApart c) (tag : Word) (body : List Byte) :
    (tag = c.tagFwctrlB ∧ chunkOfTag c tag body = .fwctrlB body) ∨
    (∃ a, tag = appTag c.tagCoef a ∧ chunkOfTag c tag body = .appcoef a body) ∨
    (∃ a, tag = appTag c.tagReg a ∧ chunkOfTag c tag body = .appreg a body) ∨
    (tagKnown c tag = false ∧ chunkOfTag c tag body = .skip tag body) := by
  by_cases hfw : tag = c.tagFwctrlB
  · exact .inl ⟨hfw, by rw [hfw, chunkOfTag_fwctrlB]⟩
  by_cases hcoef : tagInRange c.tagCoef tag = true
  · obtain ⟨a, rfl⟩ := (tagInRange_iff h.coefFits).1 hcoef
    exact .inr (.inl ⟨a, rfl, chunkOfTag_appcoef h a body⟩)
  by_cases hreg : tagInRange c.tagReg tag = true
  · obtain ⟨a, rfl⟩ := (tagInRange_iff h.regFits).1 hreg
    exact .inr (.inr (.inl ⟨a, rfl, chunkOfTag_appreg h a body⟩))
  · have hunknown : tagKnown c tag = false := by simp [tagKnown, hfw, hcoef, hreg]
    exact .inr (.inr (.inr ⟨hunknown, chunkOfTag_skip hunknown body⟩))

theorem appTag_inj {base : Word} (h : base.toNat + 15 < 4294967296) {a b : AppId}
    (hab : appTag base a = appTag base b) : a = b := by
  have := congrArg BitVec.toNat hab
  rw [appTag_toNat h, appTag_toNat h] at this
  exact Fin.ext (by omega)

theorem onceTag_fwctrlB (c : Cfg) : onceTag c c.tagFwctrlB = true := by
  simp [onceTag]

theorem onceTag_appcoef {c : Cfg} (h : TagsApart c) (a : AppId) : onceTag c (appTag c.tagCoef a) = true := by
  simp [onceTag, (tagInRange_iff h.coefFits).2 ⟨a, rfl⟩]

/-- Of the APPREG chunks only Gen's may stand once (rule R109). -/
theorem onceTag_appreg {c : Cfg} (h : TagsApart c) (a : AppId) :
    onceTag c (appTag c.tagReg a) = decide (a = c.gen) := by
  obtain ⟨hfw, hcoef⟩ := appTag_tagReg_apart h a
  have hgen : appTag c.tagReg a = appTag c.tagReg c.gen ↔ a = c.gen :=
    ⟨appTag_inj h.regFits, congrArg _⟩
  simp only [onceTag, hfw, hcoef, hgen, decide_false, Bool.false_or]

theorem onceTag_unknown {c : Cfg} (h : TagsApart c) {tag : Word} (hunknown : tagKnown c tag = false) :
    onceTag c tag = false := by
  simp only [tagKnown, Bool.or_eq_false_iff] at hunknown
  obtain ⟨⟨hfw, hcoef⟩, hreg⟩ := hunknown
  have hgen : tag ≠ appTag c.tagReg c.gen := fun e =>
    Bool.eq_false_iff.1 hreg ((tagInRange_iff h.regFits).2 ⟨_, e⟩)
  simp only [onceTag, hfw, hcoef, hgen, decide_false, Bool.or_false]

theorem fwTransitions_seen (c : Cfg) (en : Two Byte) (body : List Byte) (r : AnalysisRecord) :
    (fwTransitions c en body r).seen = r.seen := by
  obtain ⟨on, off, h⟩ := fwTransitions_frame c en body r
  rw [h]

/-! What each rule does to the tags seen, which is all that a later chunk's answer depends on (rule R112). -/

theorem analyseFwctrlB_seen (c : Cfg) (en : Two Byte) (body : List Byte) (r : AnalysisRecord) :
    (analyseFwctrlB c en body r).map (·.seen) =
      if fwBodyOk c body ∧ c.tagFwctrlB ∉ r.seen then some (c.tagFwctrlB :: r.seen) else none := by
  unfold analyseFwctrlB
  split_ifs <;> simp_all [fwTransitions_seen]

theorem analyseAppcoef_seen (c : Cfg) (a : AppId) (body : List Byte) (r : AnalysisRecord) :
    (analyseAppcoef c a body r).map (·.seen) =
      if coefBodyOk c body ∧ appTag c.tagCoef a ∉ r.seen then some (appTag c.tagCoef a :: r.seen)
      else none := by
  unfold analyseAppcoef
  split_ifs <;> simp_all [accumulateCoef]

theorem analyseAppreg_seen (c : Cfg) (a : AppId) (body : List Byte) (r : AnalysisRecord) :
    (analyseAppreg c a body r).map (·.seen) =
      if regBodyOk body ∧ (a = c.gen → appTag c.tagReg a ∉ r.seen) then
        some (if a = c.gen then appTag c.tagReg a :: r.seen else r.seen)
      else none := by
  unfold analyseAppreg
  split_ifs <;> simp_all

/-- A chunk's rule answers exactly if its body passes and its tag, where it may stand once, has not been seen
(M3 to M13 of rule R208); it then notes the tag. -/
theorem analyseChunk_seen {c : Cfg} (h : TagsApart c) (en : Two Byte) (tag : Word) (body : List Byte)
    (r : AnalysisRecord) :
    (analyseChunk c en (chunkOfTag c tag body) r).map (·.seen) =
      if chunkBodyOk c (chunkOfTag c tag body) ∧ (onceTag c tag → tag ∉ r.seen) then
        some (if onceTag c tag then tag :: r.seen else r.seen)
      else none := by
  obtain ⟨rfl, hk⟩ | ⟨a, rfl, hk⟩ | ⟨a, rfl, hk⟩ | ⟨hunknown, hk⟩ := chunkOfTag_cases h tag body
  · simp only [hk, analyseChunk, chunkBodyOk, analyseFwctrlB_seen, onceTag_fwctrlB, if_true, forall_const]
  · simp only [hk, analyseChunk, chunkBodyOk, analyseAppcoef_seen, onceTag_appcoef h, if_true, forall_const]
  · simp only [hk, analyseChunk, chunkBodyOk, analyseAppreg_seen, onceTag_appreg h, decide_eq_true_eq]
  · simp [hk, analyseChunk, chunkBodyOk, analyseSkip, onceTag_unknown h hunknown]

/-- The tags of a blob's chunks that may stand once. -/
def onceTags (c : Cfg) (ks : List (Word × List Byte)) : List Word :=
  (ks.map (fun k => k.1)).filter (onceTag c)

theorem onceTags_cons (c : Cfg) (k : Word × List Byte) (ks : List (Word × List Byte)) :
    onceTags c (k :: ks) = if onceTag c k.1 then k.1 :: onceTags c ks else onceTags c ks := by
  rw [onceTags, List.map_cons, List.filter_cons]
  rfl

/-- The rules of some chunks all answer exactly if every body passes and no tag that may stand once stands
twice, or has been seen before. -/
theorem chunkRules_isSome_iff {c : Cfg} (h : TagsApart c) (en : Two Byte) (ks : List (Word × List Byte))
    (r : AnalysisRecord) :
    (chunkRules c en ks r).isSome ↔
      (∀ k ∈ ks, chunkBodyOk c (chunkOfTag c k.1 k.2)) ∧ (onceTags c ks).Nodup ∧
        ∀ tag ∈ onceTags c ks, tag ∉ r.seen := by
  induction ks generalizing r with
  | nil => simp [chunkRules, onceTags]
  | cons k ks ih =>
    have hseen := analyseChunk_seen h en k.1 k.2 r
    rw [chunkRules, onceTags_cons, List.forall_mem_cons]
    by_cases hok : chunkBodyOk c (chunkOfTag c k.1 k.2) ∧ (onceTag c k.1 → k.1 ∉ r.seen)
    · rw [if_pos hok] at hseen
      obtain ⟨r', hr', hseen'⟩ := Option.map_eq_some_iff.1 hseen
      obtain ⟨hbody, hnew⟩ := hok
      rw [hr', Option.bind_some, ih, hseen']
      by_cases honce : onceTag c k.1 = true
      · have hfresh := hnew honce
        simp only [if_pos honce, hbody, List.nodup_cons, List.mem_cons, not_or, true_and]
        grind
      · simp only [if_neg honce, hbody, true_and]
    · rw [if_neg hok] at hseen
      rw [Option.map_eq_none_iff.1 hseen, Option.bind_none]
      refine iff_of_false nofun ?_
      rintro ⟨⟨hbody, _⟩, _, hnew⟩
      refine hok ⟨hbody, fun honce => hnew k.1 ?_⟩
      rw [if_pos honce]
      exact List.mem_cons_self

theorem directiveOf_isSome_iff {c : Cfg} {b : Byte} :
    (directiveOf c b).isSome ↔ b ∈ [c.dirStop, c.dirStart, c.dirDc] := by
  unfold directiveOf
  split_ifs <;> simp_all

theorem fwBodyOk_iff {c : Cfg} {body : List Byte} :
    fwBodyOk c body ↔ ¬(body.length < 17 ∨ ∃ j < 17, byteAt body j ∉ [c.dirStop, c.dirStart, c.dirDc]) := by
  simp only [fwBodyOk, Bool.and_eq_true, decide_eq_true_eq, List.all_eq_true, List.mem_range,
    directiveOf_isSome_iff, not_or, Nat.not_lt, not_exists, not_and, not_not]

theorem coefBodyOk_iff {c : Cfg} {body : List Byte} :
    coefBodyOk c body ↔ ¬(body.length < c.offData ∨ 2 ^ c.addrW ≤ (be32At body c.offAddr).toNat ∨
      sbe32At body c.offCount < 0 ∨ sbe32At body c.offCount % 4 ≠ 0 ∨
      (body.length : Int) < c.offData + sbe32At body c.offCount) := by
  simp only [coefBodyOk, Bool.and_eq_true, decide_eq_true_eq]
  simp only [coefAddr, coefCount, and_assoc, not_or, Nat.not_lt, Nat.not_le]
  refine and_congr_right fun _ => and_congr_right fun _ => ?_
  generalize sbe32At body c.offCount = n
  omega

theorem regBodyOk_iff {body : List Byte} : regBodyOk body ↔ ¬body.length < 8 := by
  rw [regBodyOk, decide_eq_true_eq, Nat.not_lt]

/-- The causes M3, M4, M6 to M10 and M12 of rule R208, by the chunk's tag. -/
theorem not_chunkBodyOk_iff {c : Cfg} (h : TagsApart c) (tag : Word) (body : List Byte) :
    ¬chunkBodyOk c (chunkOfTag c tag body) ↔
      (tag = c.tagFwctrlB ∧
        (body.length < 17 ∨ ∃ j < 17, byteAt body j ∉ [c.dirStop, c.dirStart, c.dirDc])) ∨
      (∃ a : AppId, tag = appTag c.tagCoef a ∧
        (body.length < c.offData ∨ 2 ^ c.addrW ≤ (be32At body c.offAddr).toNat ∨
          sbe32At body c.offCount < 0 ∨ sbe32At body c.offCount % 4 ≠ 0 ∨
          (body.length : Int) < c.offData + sbe32At body c.offCount)) ∨
      (∃ a : AppId, tag = appTag c.tagReg a ∧ body.length < 8) := by
  constructor
  · obtain ⟨htag, hk⟩ | ⟨a, htag, hk⟩ | ⟨a, htag, hk⟩ | ⟨_, hk⟩ := chunkOfTag_cases h tag body
    · rw [hk, chunkBodyOk, fwBodyOk_iff, not_not]
      exact fun hbad => .inl ⟨htag, hbad⟩
    · rw [hk, chunkBodyOk, coefBodyOk_iff, not_not]
      exact fun hbad => .inr (.inl ⟨a, htag, hbad⟩)
    · rw [hk, chunkBodyOk, regBodyOk_iff, not_not]
      exact fun hbad => .inr (.inr ⟨a, htag, hbad⟩)
    · rw [hk]
      exact fun hbad => absurd rfl hbad
  · rintro (⟨rfl, hbad⟩ | ⟨a, rfl, hbad⟩ | ⟨a, rfl, hbad⟩)
    · rwa [chunkOfTag_fwctrlB, chunkBodyOk, fwBodyOk_iff, not_not]
    · rwa [chunkOfTag_appcoef h, chunkBodyOk, coefBodyOk_iff, not_not]
    · rwa [chunkOfTag_appreg h, chunkBodyOk, regBodyOk_iff, not_not]

/-- Settles O37: the rules of whole chunks do not all answer exactly if a body fails or a tag that may stand
once stands twice (`chunkRules_isSome_iff`); the failing bodies are those of `not_chunkBodyOk_iff`. -/
theorem blobMalformedIffAChunkIs : Obligations.BlobMalformedIffAChunkIs := by
  intro c en ks hc hks
  have htags := admissible_tags hc
  have hsome := chunkRules_isSome_iff htags en ks AnalysisRecord.initial
  have hnew : ∀ tag ∈ onceTags c ks, tag ∉ AnalysisRecord.initial.seen := fun _ _ => nofun
  rw [analyse_wholeChunks_malformed_iff hks, ← Option.not_isSome_iff_eq_none, hsome, and_iff_left hnew,
    not_and_or]
  refine or_congr_left ?_
  simp only [not_forall, exists_prop]
  exact exists_congr fun k => and_congr_right fun _ => not_chunkBodyOk_iff htags k.1 k.2

/-! ## The items of a blob by themselves (log 15) -/

/-- Outside phase 3 a chunk offered by itself is the analyser's (rule R101; log 15). -/
theorem exec_instrOfChunk {s : State} (hph : s.w.ph ≠ .download) (k : Chunk) :
    exec (instrOfChunk k) s = .next (analyseItem (analyseChunk s.cfg (analysisEn s) k) s) := by
  cases k with
  | fwctrlB | appcoef | appreg | skip => exact congrArg Host.Outcome.next (if_neg hph)

/-- An analysis that goes on with some chunks: after a parse error later chunks are not looked at (rules R101,
R115). -/
def analysisAfter (c : Cfg) (en : Two Byte) (ks : List (Word × List Byte)) : Analysis → Analysis
  | .malformed => .malformed
  | .record r => (chunkRules c en ks r).elim .malformed .record

/-- What an item offered to the analyser leaves: its rule's answer in AR, and otherwise nothing that a later
item's rule depends on (rules R115, R212). -/
theorem analyseItem_leaves (c : Cfg) (en : Two Byte) (k : Word × List Byte)
    (ks : List (Word × List Byte)) {s : State} (hph : s.w.ph ≠ .download) :
    let t := analyseItem (analyseChunk c en (chunkOfTag c k.1 k.2)) s
    analysisAfter c en ks t.w.ar = analysisAfter c en (k :: ks) s.w.ar ∧
      t.g = s.g ∧ t.cfg = s.cfg ∧ t.w.ph ≠ .download := by
  simp only [analyseItem]
  split
  · rename_i har
    exact ⟨by simp [har, analysisAfter], rfl, rfl, nofun⟩
  · rename_i r har
    split
    · rename_i hnone
      exact ⟨by simp [har, analysisAfter, chunkRules, hnone], rfl, rfl, nofun⟩
    · rename_i r' hsome
      exact ⟨by simp [har, analysisAfter, chunkRules, hsome], rfl, rfl, hph⟩

theorem analysisEn_congr {s t : State} (h : t.g = s.g) : analysisEn t = analysisEn s := by
  simp only [analysisEn, h]

/-- The items of whole chunks run one after another: AR holds what their rules leave. -/
theorem runItems_chunks (c : Cfg) (en : Two Byte) (ks : List (Word × List Byte)) (s : State)
    (hph : s.w.ph ≠ .download) (hcfg : s.cfg = c) (hen : analysisEn s = en) :
    ∃ t, runItems (ks.map (fun k => instrOfChunk (chunkOfTag c k.1 k.2))) s = some t ∧
      t.w.ar = analysisAfter c en ks s.w.ar := by
  induction ks generalizing s with
  | nil =>
    refine ⟨s, rfl, ?_⟩
    cases s.w.ar <;> rfl
  | cons k ks ih =>
    obtain ⟨har, hg, hcfg', hph'⟩ := analyseItem_leaves c en k ks hph
    rw [List.map_cons, runItems, exec_instrOfChunk hph, hcfg, hen]
    obtain ⟨t, ht, htar⟩ := ih _ hph' (hcfg'.trans hcfg) ((analysisEn_congr hg).trans hen)
    exact ⟨t, ht, htar.trans har⟩

/-- Settles O38: the items leave in AR what the rules of the blob's chunks leave (`runItems_chunks`), and the
analysis of the blob completes that record (`analyse_wholeChunks_of_some`). -/
theorem blobAnalysisRunsItsItems : Obligations.BlobAnalysisRunsItsItems := by
  intro s ks hph har hks en
  obtain ⟨t, ht, htar⟩ := runItems_chunks s.cfg en ks s hph rfl rfl
  rw [har, analysisAfter] at htar
  cases hrules : chunkRules s.cfg en ks AnalysisRecord.initial with
  | none =>
    rw [hrules, Option.elim_none] at htar
    exact ⟨t, ht, fun _ => (analyse_wholeChunks_malformed_iff hks).2 hrules,
      fun _ hrecord => absurd (htar.symm.trans hrecord) nofun⟩
  | some r =>
    rw [hrules, Option.elim_some] at htar
    refine ⟨t, ht, fun hmalformed => absurd (htar.symm.trans hmalformed) nofun, fun _ hrecord => ?_⟩
    cases htar.symm.trans hrecord
    rw [analyse_wholeChunks_of_some hks hrules]
    rcases hgen : (s.cfg.app s.cfg.gen).en with _ | ⟨k, b⟩
    · simp only [completeRecord, selectMode, genStopMask, genEn, hgen]
    · simp only [completeRecord, selectMode, genStopMask, genEn, hgen, appRunning, Bool.and_eq_true,
        Bool.not_eq_true', and_assoc]

end Sys2Proof.Machine
end

section
/-! The rules of the four kinds of item, offered to the analyser by themselves (rules R101 to R109, R114; log
15): when a well-formed chunk's rule answers, and with which record. And APPLY of a malformed request (rules
R113, R121, R205). -/

namespace Sys2Proof.Machine

/-- Outside phase 3 an item whose rule answers leaves that answer in AR, and nothing else (rule R101; log 15). -/
theorem exec_instrOfChunk_some {s : State} {k : Chunk} {r r' : AnalysisRecord} (hph : s.w.ph ≠ .download)
    (har : s.w.ar = .record r) (hk : analyseChunk s.cfg (analysisEn s) k r = some r') :
    exec (instrOfChunk k) s = .next { s with w := { s.w with ar := .record r' } } := by
  rw [exec_instrOfChunk hph, analyseItem, har]
  simp only [hk]

/-! ## Directives (rules R76, R77) -/

theorem directiveOf_start_iff {c : Cfg} (hc : admissible c = true) {b : Byte} :
    directiveOf c b = some .start ↔ b = c.dirStart := by
  obtain ⟨hne, _, _⟩ := admissible_directives hc
  unfold directiveOf
  split_ifs <;> simp_all

theorem directiveOf_stop_iff {c : Cfg} {b : Byte} : directiveOf c b = some .stop ↔ b = c.dirStop := by
  unfold directiveOf
  split_ifs <;> simp_all

/-- A checked body has a directive at each of its 17 places. -/
theorem directiveOf_of_fwBodyOk {c : Cfg} {body : List Byte} (h : fwBodyOk c body = true) {j : Nat}
    (hj : j < 17) : directiveOf c (byteAt body j) = some (directiveAt c body j) := by
  simp only [fwBodyOk, Bool.and_eq_true, List.all_eq_true, List.mem_range] at h
  obtain ⟨d, hd⟩ := Option.isSome_iff_exists.1 (h.2 j hj)
  simp only [directiveAt, hd, Option.getD_some]

theorem asks_iff {c : Cfg} {body : List Byte} {d : Directive} {k : AeDom} {b : Fin 8} {app : AppCfg} :
    asks c body d k b app = true ↔
      ∃ slot, app.dslot = some slot ∧ app.en = some (k, b) ∧ directiveAt c body slot.val = d := by
  rcases hs : app.dslot with _ | slot <;> rcases he : app.en with _ | p <;> simp [asks, hs, he]

/-- The apps of an admissible configuration have enable bits of their own, so only the app of (k, b) asks for a
transition of it (rule R6 (3)). -/
theorem any_asks_eq {c : Cfg} (hc : admissible c = true) (body : List Byte) (d : Directive) {a : AppId}
    {slot : Fin 14} {k : AeDom} {b : Fin 8} (hslot : (c.app a).dslot = some slot)
    (hen : (c.app a).en = some (k, b)) :
    c.apps.toList.any (asks c body d k b) = decide (directiveAt c body slot.val = d) := by
  rw [apps_toList, Bool.eq_iff_iff, decide_eq_true_eq]
  simp only [List.any_eq_true, List.mem_ofFn, exists_exists_eq_and, asks_iff]
  constructor
  · rintro ⟨a', slot', hslot', hen', hd⟩
    cases (apps_filterMap_nodup_iff (·.en)).1 (admissible_en_nodup hc) a' a _ hen' hen
    cases hslot.symm.trans hslot'
    exact hd
  · exact fun hd => ⟨a, slot, hslot, hen, hd⟩

/-- No app with a directive slot has the enable bit (k, b), so none asks for a transition of it. -/
theorem any_asks_eq_false {c : Cfg} (body : List Byte) (d : Directive) {k : AeDom} {b : Fin 8}
    (h : ∀ a slot, (c.app a).dslot = some slot → (c.app a).en ≠ some (k, b)) :
    c.apps.toList.any (asks c body d k b) = false := by
  rw [apps_toList, List.any_eq_false]
  rintro app happ hasks
  obtain ⟨a, rfl⟩ := List.mem_ofFn.1 happ
  obtain ⟨slot, hslot, hen, _⟩ := asks_iff.1 hasks
  exact h a slot hslot hen

/-! ## FWCTRL_B (rules R102, R103) -/

theorem analyseFwctrlB_of_ok {c : Cfg} (en : Two Byte) {body : List Byte} {r : AnalysisRecord}
    (hseen : c.tagFwctrlB ∉ r.seen) (hbody : fwBodyOk c body = true) :
    analyseFwctrlB c en body r = some { r with
      on := (fwTransitions c en body r).on
      off := (fwTransitions c en body r).off
      mdir := directiveAt c body 14
      bdir := { k0 := directiveAt c body 15, k1 := directiveAt c body 16 }
      seen := c.tagFwctrlB :: r.seen
      items := r.items ++ [.fw] } := by
  obtain ⟨on, off, hframe⟩ := fwTransitions_frame c en body r
  simp only [analyseFwctrlB, if_neg hseen, if_pos hbody, hframe]

/-- Settles O28: the transitions of all apps bit by bit (`fwTransitions_bits`), of which one app's directive
decides each bit, or none (`any_asks_eq`, `any_asks_eq_false`). -/
theorem fwctrlSetsTransitions : Obligations.FwctrlSetsTransitions := by
  intro s r body hc hph har hseen hlen hbytes en
  have hbody : fwBodyOk s.cfg body = true := fwBodyOk_iff.2 fun hbad =>
    hbad.elim (Nat.not_lt.2 hlen) fun ⟨j, hj, hnot⟩ => hnot (hbytes j hj)
  have hbits := fwTransitions_bits s.cfg en body r
  have hstart : ∀ j < 17, directiveAt s.cfg body j = .start ↔ byteAt body j = s.cfg.dirStart := fun j hj => by
    rw [← directiveOf_start_iff hc, directiveOf_of_fwBodyOk hbody hj, Option.some.injEq]
  have hstop : ∀ j < 17, directiveAt s.cfg body j = .stop ↔ byteAt body j = s.cfg.dirStop := fun j hj => by
    rw [← directiveOf_stop_iff, directiveOf_of_fwBodyOk hbody hj, Option.some.injEq]
  refine ⟨_, exec_instrOfChunk_some (k := .fwctrlB body) hph har (analyseFwctrlB_of_ok en hseen hbody),
    fun a slot k b hslot hen => ?_, fun k b hnone => ?_, directiveOf_of_fwBodyOk hbody (by decide),
    directiveOf_of_fwBodyOk hbody (by decide), directiveOf_of_fwBodyOk hbody (by decide), rfl⟩
  · obtain ⟨hon, hoff⟩ := hbits k b
    simp only [any_asks_eq hc body _ hslot hen, hstart slot (by omega), hstop slot (by omega)] at hon hoff
    exact ⟨hon, hoff⟩
  · obtain ⟨hon, hoff⟩ := hbits k b
    simp only [any_asks_eq_false body _ hnone, Bool.false_and, Bool.or_false] at hon hoff
    exact ⟨hon, hoff⟩

/-! ## APPCOEF (rules R104, R105, R107, R108) -/

/-- The checks of a body whose count is the number `n`. -/
theorem coefBodyOk_of_count {c : Cfg} {body : List Byte} {n : Nat} (hcount : sbe32At body c.offCount = (n : Int))
    (hmod : n % 4 = 0) (hlen : c.offData + n ≤ body.length)
    (haddr : (be32At body c.offAddr).toNat < 2 ^ c.addrW) : coefBodyOk c body = true := by
  rw [coefBodyOk_iff, hcount]
  omega

theorem coefPayload_of_count {c : Cfg} {body : List Byte} {n : Nat}
    (hcount : sbe32At body c.offCount = (n : Int)) : coefPayload c body = (body.drop c.offData).take n := by
  rw [coefPayload, coefCount, hcount, Int.toNat_natCast]

theorem length_take_drop {body : List Byte} {start n : Nat} (h : start + n ≤ body.length) :
    ((body.drop start).take n).length = n := by
  rw [List.length_take, List.length_drop]
  omega

theorem byteAt_take_drop (body : List Byte) (start : Nat) {n i : Nat} (hi : i < n) :
    byteAt ((body.drop start).take n) i = byteAt body (start + i) := by
  simp only [byteAt, List.getD_eq_getElem?_getD, List.getElem?_take_of_lt hi, List.getElem?_drop]

theorem analyseAppcoef_of_count {c : Cfg} {a : AppId} {body : List Byte} {n : Nat} {r : AnalysisRecord}
    (hseen : appTag c.tagCoef a ∉ r.seen) (hcount : sbe32At body c.offCount = (n : Int)) (hpos : 0 < n)
    (hmod : n % 4 = 0) (hlen : c.offData + n ≤ body.length)
    (haddr : (be32At body c.offAddr).toNat < 2 ^ c.addrW) :
    analyseAppcoef c a body r = some (accumulateCoef c a (coefMode c body) (coefAddr c body)
      ((body.drop c.offData).take n) { r with seen := appTag c.tagCoef a :: r.seen }) := by
  have hsome : coefCount c body ≠ 0 := by
    rw [coefCount, hcount]
    omega
  simp only [analyseAppcoef, if_neg hseen, if_pos (coefBodyOk_of_count hcount hmod hlen haddr), if_neg hsome,
    coefPayload_of_count hcount]

/-- The sine selection of a payload that stands in the body from OFF_DATA on, by the body's own bytes (rule
R108). -/
theorem sineSelect_of_body (c : Cfg) (addr : Word) {body : List Byte} {n : Nat}
    (hlen : c.offData + n ≤ body.length) :
    sineSelect c addr ((body.drop c.offData).take n) =
      if addr.toNat ≤ c.scAddr ∧ sineOffset c addr < n then
        if bitSet (byteAt body (c.offData + sineOffset c addr)) c.scBit = c.scPin then some .pin else some .reg
      else none := by
  rw [sineSelect, length_take_drop hlen, ite_and]
  by_cases hcovers : sineOffset c addr < n
  · rw [byteAt_take_drop body c.offData hcovers]
  · simp only [if_neg hcovers]

/-- Only Gen's payload can choose the sine source, and where it does not the earlier choice stands (rules R105,
R108). -/
theorem accumulateCoef_sinsel (c : Cfg) (a : AppId) (mb : Byte) (addr : Word) {body : List Byte} {n : Nat}
    (r : AnalysisRecord) (hlen : c.offData + n ≤ body.length) :
    (accumulateCoef c a mb addr ((body.drop c.offData).take n) r).sinsel =
      if a = c.gen ∧ addr.toNat ≤ c.scAddr ∧ sineOffset c addr < n then
        if bitSet (byteAt body (c.offData + sineOffset c addr)) c.scBit = c.scPin then some .pin else some .reg
      else r.sinsel := by
  simp only [accumulateCoef, sineSelect_of_body c addr hlen]
  by_cases hgen : a = c.gen
  · simp only [if_pos hgen, and_iff_right hgen]
    split_ifs <;> rfl
  · rw [if_neg hgen, if_neg fun h => hgen h.1]

/-- A second chunk, a payload past CAP_BYTES and a mode byte other than MB_INT force host-driven mode (rule
R105). -/
theorem accumulateCoef_force (c : Cfg) (a : AppId) (mb : Byte) (addr : Word) {body : List Byte} {n : Nat}
    (r : AnalysisRecord) (hlen : c.offData + n ≤ body.length) :
    (accumulateCoef c a mb addr ((body.drop c.offData).take n) r).force =
      (r.force || decide (0 < r.ncoef) || decide (160 < n) || decide (mb ≠ c.mbInt)) := by
  simp only [accumulateCoef, length_take_drop hlen, gt_iff_lt, Nat.lt_add_left_iff_pos, Cfg.capBytes]

/-- Settles O29: the rule of a non-empty chunk (`analyseAppcoef_of_count`); its sine selection is read in place
(`accumulateCoef_sinsel`), and the payload's length is the count (`accumulateCoef_force`). -/
theorem appcoefAccumulates : Obligations.AppcoefAccumulates := by
  intro s r a body n hph har hseen hcount hpos hmod hlen haddr addr off r'
  let payload := (body.drop s.cfg.offData).take n
  let u := accumulateCoef s.cfg a (coefMode s.cfg body) (coefAddr s.cfg body) payload
    { r with seen := appTag s.cfg.tagCoef a :: r.seen }
  have hsinsel : u.sinsel = r'.sinsel := accumulateCoef_sinsel s.cfg a _ _ _ hlen
  have hforce : u.force = r'.force := accumulateCoef_force s.cfg a _ _ _ hlen
  have hrecord : u = r' :=
    congrArg₂ (fun sinsel force => { u with sinsel := sinsel, force := force }) hsinsel hforce
  have hrule : analyseAppcoef s.cfg a body r = some u :=
    analyseAppcoef_of_count hseen hcount hpos hmod hlen haddr
  exact exec_instrOfChunk_some (k := .appcoef a body) hph har (hrule.trans (congrArg some hrecord))

theorem analyseAppcoef_of_empty {c : Cfg} {a : AppId} {body : List Byte} {r : AnalysisRecord}
    (hseen : appTag c.tagCoef a ∉ r.seen) (hcount : sbe32At body c.offCount = 0)
    (hlen : c.offData ≤ body.length) (haddr : (be32At body c.offAddr).toNat < 2 ^ c.addrW) :
    analyseAppcoef c a body r =
      some { r with seen := appTag c.tagCoef a :: r.seen, items := r.items ++ [.skip] } := by
  have hbody : coefBodyOk c body = true := coefBodyOk_of_count (n := 0) hcount rfl hlen haddr
  have hnone : coefCount c body = 0 := hcount
  simp only [analyseAppcoef, if_neg hseen, if_pos hbody, if_pos hnone]

/-- Settles O30: the rule of a chunk whose count is 0 (`analyseAppcoef_of_empty`). -/
theorem zeroLengthAppcoefContributesNothing : Obligations.ZeroLengthAppcoefContributesNothing := by
  intro s r a body hph har hseen hcount hlen haddr
  exact exec_instrOfChunk_some (k := .appcoef a body) hph har (analyseAppcoef_of_empty hseen hcount hlen haddr)

/-! ## APPREG and unknown tags (rules R109, R114) -/

theorem analyseAppreg_of_gen {c : Cfg} {a : AppId} {body : List Byte} {r : AnalysisRecord}
    (hlen : 8 ≤ body.length) (hgen : a = c.gen) (hseen : appTag c.tagReg a ∉ r.seen) :
    analyseAppreg c a body r = some { r with
      seen := appTag c.tagReg a :: r.seen
      genstop := r.genstop || bitSet (regFlags body) c.stopFlag
      items := r.items ++ [.reg (regFlags body) (regVals body)] } := by
  have hbody : regBodyOk body = true := decide_eq_true hlen
  rw [analyseAppreg, if_pos hbody, if_pos hgen, if_neg hseen]

theorem analyseAppreg_of_other {c : Cfg} {a : AppId} {body : List Byte} (r : AnalysisRecord)
    (hlen : 8 ≤ body.length) (hother : a ≠ c.gen) :
    analyseAppreg c a body r = some { r with items := r.items ++ [.skip] } := by
  have hbody : regBodyOk body = true := decide_eq_true hlen
  rw [analyseAppreg, if_pos hbody, if_neg hother]

/-- Settles O31: each of the three rules answers (`analyseAppreg_of_gen`, `analyseAppreg_of_other`; that of an
unknown tag always does). -/
theorem appregAndUnknownChunks : Obligations.AppregAndUnknownChunks := by
  intro s r a tag body hph har gen skipped
  refine ⟨fun hlen hgen hseen => ?_, fun hlen hother => ?_, ?_⟩
  · exact exec_instrOfChunk_some (k := .appreg a body) hph har (analyseAppreg_of_gen hlen hgen hseen)
  · exact exec_instrOfChunk_some (k := .appreg a body) hph har (analyseAppreg_of_other r hlen hother)
  · exact exec_instrOfChunk_some (k := .skip tag body) hph har rfl

/-! ## A malformed request (rules R113, R121, R205) -/

/-- Settles O43: the analysis is malformed, so APPLY ends early right after it (rule R121). -/
theorem malformedApplyHasNoEffect : Obligations.MalformedApplyHasNoEffect := by
  intro s blob hready hst hanalyse
  rw [exec, execApply, onCommand_next_iff]
  refine ⟨hready, ?_⟩
  have hlatched : latchAnalyse blob (accept .cmd s) =
      { accept .cmd s with w := { (accept .cmd s).w with desc := blob, ar := .malformed } } := by
    simp only [latchAnalyse, analysisEn, accept_g, accept_cfg, hst, if_true, hanalyse]
  simp only [accept_g, hst, if_true, applyBlob, hlatched]
  rfl

end Sys2Proof.Machine
end

section
/-! What the analysis of a blob leaves (rules R101 to R112): what every chunk adds to the record, the invariant
of the walk that follows from it, and the transfer mode, the masks and the coefficient items it gives. -/

namespace Sys2Proof.Machine

/-! ## What a chunk adds to the record -/

/-- What a chunk's rule adds to the record `r`, with `item` as its item, where the rule answers with `r'`. -/
structure Adds (c : Cfg) (en : Two Byte) (item : Item) (r r' : AnalysisRecord) : Prop where
  items : r'.items = r.items ++ [item]
  genstop : r'.genstop = (r.genstop || itemStopsGen c item)
  /-- The directives ask for a start only of an app that is stopped, for a stop only of one that runs (R103). -/
  on : ∀ k b, bitSet (r'.on.get k) b = true → bitSet (r.on.get k) b = true ∨ bitSet (en.get k) b = false
  off : ∀ k b, bitSet (r'.off.get k) b = true → bitSet (r.off.get k) b = true ∨ bitSet (en.get k) b = true
  seen : ∀ tag ∈ r.seen, tag ∈ r'.seen
  forced : r.force = true → r'.force = true
  /-- A coefficient item's tag is new, and a long payload forces host-driven mode (R104, R105). -/
  coef : ∀ a addr payload, item = .coef a addr payload → appTag c.tagCoef a ∉ r.seen ∧
    appTag c.tagCoef a ∈ r'.seen ∧ (160 < payload.length → r'.force = true)

/-- A rule that leaves the masks as they are, and whose item is no coefficient chunk's. -/
theorem Adds.of_other {c : Cfg} (en : Two Byte) {item : Item} {r r' : AnalysisRecord}
    (hitem : isCoef item = false) (hitems : r'.items = r.items ++ [item])
    (hgenstop : r'.genstop = (r.genstop || itemStopsGen c item)) (hon : r'.on = r.on) (hoff : r'.off = r.off)
    (hforce : r'.force = r.force) (hseen : ∀ tag ∈ r.seen, tag ∈ r'.seen) : Adds c en item r r' where
  items := hitems
  genstop := hgenstop
  on k b h := .inl (hon ▸ h)
  off k b h := .inl (hoff ▸ h)
  seen := hseen
  forced h := hforce.trans h
  coef a addr payload h := by
    rw [h] at hitem
    cases hitem

theorem analyseFwctrlB_adds {c : Cfg} {en : Two Byte} {body : List Byte} {r r' : AnalysisRecord}
    (h : analyseFwctrlB c en body r = some r') : Adds c en .fw r r' := by
  obtain ⟨hseen, hbody, _⟩ := analyseFwctrlB_some h
  cases (analyseFwctrlB_of_ok en hseen hbody).symm.trans h
  have hbits := fwTransitions_bits c en body r
  exact {
    items := rfl
    genstop := (Bool.or_false _).symm
    on := fun k b hbit => by
      simp only [(hbits k b).1, Bool.or_eq_true, Bool.and_eq_true, Bool.not_eq_true'] at hbit
      exact hbit.imp_right And.right
    off := fun k b hbit => by
      simp only [(hbits k b).2, Bool.or_eq_true, Bool.and_eq_true] at hbit
      exact hbit.imp_right And.right
    seen := fun _ => List.mem_cons_of_mem _
    forced := id
    coef := nofun }

theorem accumulateCoef_adds {c : Cfg} (en : Two Byte) {a : AppId} (mb : Byte) (addr : Word)
    (payload : List Byte) {r : AnalysisRecord} (hseen : appTag c.tagCoef a ∉ r.seen) :
    Adds c en (.coef a addr payload) r
      (accumulateCoef c a mb addr payload { r with seen := appTag c.tagCoef a :: r.seen }) where
  items := rfl
  genstop := (Bool.or_false _).symm
  on _ _ := .inl
  off _ _ := .inl
  seen _ := List.mem_cons_of_mem _
  forced h := by simp only [accumulateCoef, h, Bool.true_or]
  coef a' addr' payload' hitem := by
    cases hitem
    refine ⟨hseen, List.mem_cons_self, fun hlong => ?_⟩
    have hlong' : decide (payload.length > Cfg.capBytes) = true := decide_eq_true hlong
    simp only [accumulateCoef, hlong', Bool.or_true, Bool.true_or]

theorem analyseChunk_adds {c : Cfg} {en : Two Byte} {k : Chunk} {r r' : AnalysisRecord}
    (h : analyseChunk c en k r = some r') : ∃ item, Adds c en item r r' := by
  have hskip : ∀ seen, (∀ tag ∈ r.seen, tag ∈ seen) →
      Adds c en .skip r { r with seen := seen, items := r.items ++ [.skip] } := fun _ hsub =>
    .of_other en rfl rfl (Bool.or_false _).symm rfl rfl rfl hsub
  cases k with
  | fwctrlB body => exact ⟨_, analyseFwctrlB_adds h⟩
  | appcoef a body =>
    obtain ⟨hseen, _, ⟨_, rfl⟩ | ⟨_, rfl⟩⟩ := analyseAppcoef_some h
    · exact ⟨_, hskip _ fun _ => List.mem_cons_of_mem _⟩
    · exact ⟨_, accumulateCoef_adds en _ _ _ hseen⟩
  | appreg a body =>
    obtain ⟨_, ⟨_, _, rfl⟩ | ⟨_, rfl⟩⟩ := analyseAppreg_some h
    · exact ⟨_, .of_other en rfl rfl rfl rfl rfl rfl fun _ => List.mem_cons_of_mem _⟩
    · exact ⟨_, hskip _ fun _ => id⟩
  | skip tag body =>
    cases h
    exact ⟨_, hskip _ fun _ => id⟩

/-! ## The invariant of the walk -/

/-- The app of a coefficient item. -/
def coefApp : Item → Option AppId
  | .coef a _ _ => some a
  | .fw => none
  | .reg _ _ => none
  | .skip => none

theorem coefApp_eq_some_iff {item : Item} {a : AppId} :
    coefApp item = some a ↔ ∃ addr payload, item = .coef a addr payload := by
  cases item <;> simp [coefApp]

theorem isSome_coefApp (item : Item) : (coefApp item).isSome = isCoef item := by
  cases item <;> rfl

/-- The apps of the coefficient items, in blob order. -/
def coefApps (r : AnalysisRecord) : List AppId := r.items.filterMap coefApp

theorem length_coefApps (r : AnalysisRecord) : (coefApps r).length = r.items.countP isCoef := by
  simp only [coefApps, List.length_filterMap_eq_countP, isSome_coefApp]

/-- What the walk keeps of the record: the masks hold only apps whose state must change (R103), GENSTOP is that
of a register item (R109), no app has two coefficient items, since the tag of each has been seen (R112), and
while nothing forces host-driven mode each payload is short (R105). -/
structure Walked (c : Cfg) (en : Two Byte) (r : AnalysisRecord) : Prop where
  on : ∀ k b, bitSet (r.on.get k) b = true → bitSet (en.get k) b = false
  off : ∀ k b, bitSet (r.off.get k) b = true → bitSet (en.get k) b = true
  genstop : r.genstop = r.items.any (itemStopsGen c)
  coefSeen : ∀ a ∈ coefApps r, appTag c.tagCoef a ∈ r.seen
  coefOnce : (coefApps r).Nodup
  short : r.force = false → ∀ a addr payload, Item.coef a addr payload ∈ r.items → payload.length ≤ 160

theorem bitSet_zeros (k : AeDom) (b : Fin 8) : bitSet (({ k0 := 0, k1 := 0 } : Two Byte).get k) b = false := by
  cases k <;> exact BitVec.getLsbD_zero

theorem walked_initial (c : Cfg) (en : Two Byte) : Walked c en AnalysisRecord.initial where
  on k b h := absurd ((bitSet_zeros k b).symm.trans h) nofun
  off k b h := absurd ((bitSet_zeros k b).symm.trans h) nofun
  genstop := rfl
  coefSeen := nofun
  coefOnce := .nil
  short := nofun

theorem Adds.coefApps_eq {c : Cfg} {en : Two Byte} {item : Item} {r r' : AnalysisRecord}
    (h : Adds c en item r r') : coefApps r' = coefApps r ++ (coefApp item).toList := by
  simp only [coefApps, h.items, List.filterMap_append]
  cases item <;> rfl

theorem Walked.adds {c : Cfg} {en : Two Byte} {item : Item} {r r' : AnalysisRecord} (hr : Walked c en r)
    (h : Adds c en item r r') : Walked c en r' where
  on k b hbit := (h.on k b hbit).elim (hr.on k b) id
  off k b hbit := (h.off k b hbit).elim (hr.off k b) id
  genstop := by simp [h.genstop, h.items, hr.genstop]
  coefSeen a ha := by
    rw [h.coefApps_eq, List.mem_append, Option.mem_toList] at ha
    rcases ha with ha | ha
    · exact h.seen _ (hr.coefSeen a ha)
    · obtain ⟨addr, payload, hitem⟩ := coefApp_eq_some_iff.1 ha
      exact (h.coef a addr payload hitem).2.1
  coefOnce := by
    rw [h.coefApps_eq]
    rcases happ : coefApp item with _ | a
    · simpa using hr.coefOnce
    · obtain ⟨addr, payload, hitem⟩ := coefApp_eq_some_iff.1 happ
      have hnew : a ∉ coefApps r := fun ha => (h.coef a addr payload hitem).1 (hr.coefSeen a ha)
      exact hr.coefOnce.append (List.nodup_singleton a) (List.disjoint_singleton.2 hnew)
  short hfree a addr payload hmem := by
    rw [h.items, List.mem_append, List.mem_singleton] at hmem
    rcases hmem with hmem | hitem
    · exact hr.short (Bool.eq_false_iff.2 fun hf => by simp [h.forced hf] at hfree) a addr payload hmem
    · obtain ⟨_, _, hlong⟩ := h.coef a addr payload hitem.symm
      exact Nat.not_lt.1 fun hlt => by simp [hlong hlt] at hfree

/-- An analysed record completes one that the walk has kept in order. -/
theorem analyse_walked {c : Cfg} {blob : List Byte} {en : Two Byte} {r : AnalysisRecord}
    (h : analyse c blob en = .record r) :
    ∃ u, Walked c en u ∧ CoefsCounted c u ∧ r = completeRecord c en u := by
  obtain ⟨u, ⟨hwalked, hcounted⟩, hr⟩ := analyse_ind (P := fun u => Walked c en u ∧ CoefsCounted c u) h
    ⟨walked_initial c en, rfl, nofun, nofun⟩ fun _ _ _ hu hk =>
      ⟨(analyseChunk_adds hk).elim fun _ hadds => hu.1.adds hadds, analyseChunk_coefsCounted hu.2 hk⟩
  exact ⟨u, hwalked, hcounted, hr⟩

/-! ## The coefficient items (rules R112, R116) -/

/-- Settles O35: each app has at most one coefficient item (`Walked.coefOnce`), and NCOEF counts the items. -/
theorem coefficientChunksAtMostApps : Obligations.CoefficientChunksAtMostApps := by
  intro c blob en r _ h
  obtain ⟨u, hwalked, hcounted, rfl⟩ := analyse_walked h
  refine ⟨?_, hwalked.coefOnce⟩
  calc u.ncoef = (coefApps u).length := hcounted.counted.trans (length_coefApps u).symm
    _ ≤ Fintype.card AppId := hwalked.coefOnce.length_le_card
    _ = 15 := Fintype.card_fin 15

/-! ## The masks (rules R103, R110) -/

/-- Two masks without a common bit. -/
theorem and_eq_zero_of_bits {x y : Byte} (h : ∀ b, bitSet x b = true → bitSet y b = false) : x &&& y = 0 := by
  apply BitVec.eq_of_getLsbD_eq
  intro i hi
  have hbit := h ⟨i, hi⟩
  simp only [bitSet] at hbit
  rw [BitVec.getLsbD_and]
  cases hx : x.getLsbD i
  · simp
  · simp [hbit hx]

theorem bitSet_not (v : Byte) (b : Fin 8) : bitSet (~~~v) b = !bitSet v b := by
  simp [bitSet]

/-- The mask of one enable bit. -/
theorem bitSet_single (k k' : AeDom) (b b' : Fin 8) :
    bitSet ((Two.set ({ k0 := 0, k1 := 0 } : Two Byte) k (bit b)).get k') b' = decide (k = k' ∧ b = b') := by
  have hzero : bit b = ({ k0 := 0, k1 := 0 } : Two Byte).get k ||| bit b := by
    cases k <;> exact BitVec.zero_or.symm
  rw [hzero, bitSet_set_or_bit, bitSet_zeros, Bool.false_or]

/-- GS bit by bit (rule R110). -/
theorem bitSet_genStopMask (c : Cfg) (en : Two Byte) (u : AnalysisRecord) (k : AeDom) (b : Fin 8) :
    bitSet ((genStopMask c en u).get k) b = true ↔ (c.app c.gen).en = some (k, b) ∧ u.genstop = true ∧
      bitSet (en.get k) b = true ∧ bitSet (u.off.get k) b = false := by
  unfold genStopMask genEn
  rcases (c.app c.gen).en with _ | ⟨k', b'⟩
  · exact iff_of_false (Bool.eq_false_iff.1 (bitSet_zeros k b)) nofun
  · simp only [apply_ite (fun m : Two Byte => bitSet (m.get k) b), bitSet_single, bitSet_zeros,
      Bool.ite_eq_true_distrib, decide_eq_true_eq, Bool.false_eq_true, if_false_right, Bool.and_eq_true,
      Bool.not_eq_true', Option.some.injEq, Prod.mk.injEq]
    rw [and_comm]
    refine and_congr_right ?_
    rintro ⟨rfl, rfl⟩
    exact and_assoc

theorem any_itemStopsGen_iff {c : Cfg} {items : List Item} : items.any (itemStopsGen c) = true ↔
    ∃ flags vals, Item.reg flags vals ∈ items ∧ bitSet flags c.stopFlag = true := by
  rw [List.any_eq_true]
  constructor
  · rintro ⟨item, hmem, hstops⟩
    cases item with
    | reg flags vals => exact ⟨flags, vals, hmem, hstops⟩
    | fw | coef | skip => cases hstops
  · rintro ⟨flags, vals, hmem, hstops⟩
    exact ⟨_, hmem, hstops⟩

/-- Settles O34: a bit of ON is not in EN, a bit of OFF is (`Walked`), and GS is rule R110's mask bit by bit
(`bitSet_genStopMask`). -/
theorem transitionAndGenStopMasks : Obligations.TransitionAndGenStopMasks := by
  intro c blob en r k h
  obtain ⟨u, hwalked, _, rfl⟩ := analyse_walked h
  refine ⟨and_eq_zero_of_bits (hwalked.on k), and_eq_zero_of_bits fun b hoff => ?_,
    and_eq_zero_of_bits fun b hon => Bool.eq_false_iff.2 fun hoff => ?_, fun b => ?_⟩
  · rw [bitSet_not, hwalked.off k b hoff, Bool.not_true]
  · exact Bool.eq_false_iff.1 (hwalked.on k b hon) (hwalked.off k b hoff)
  · rw [← any_itemStopsGen_iff]
    show _ ↔ _ ∧ u.items.any (itemStopsGen c) = true ∧ _
    rw [← hwalked.genstop]
    exact bitSet_genStopMask c en u k b

/-! ## The transfer mode (rules R105, R106) -/

theorem selectMode_eq_none_iff {r : AnalysisRecord} : selectMode r = .none ↔ r.ncoef = 0 := by
  unfold selectMode
  split_ifs <;> simp_all

theorem selectMode_eq_host_iff {r : AnalysisRecord} : selectMode r = .host ↔ 0 < r.ncoef ∧ r.force = true := by
  unfold selectMode
  split_ifs <;> simp_all [Nat.pos_iff_ne_zero]

/-- The mode of a blob of one non-empty coefficient chunk. -/
theorem selectMode_of_one (c : Cfg) (a : AppId) (mb : Byte) (addr : Word) {body : List Byte} {n : Nat}
    {r : AnalysisRecord} (hncoef : r.ncoef = 0) (hforce : r.force = false) (hlen : c.offData + n ≤ body.length) :
    selectMode (accumulateCoef c a mb addr ((body.drop c.offData).take n) r) =
      if n ≤ 160 ∧ mb = c.mbInt then .int else .host := by
  have hfree : (accumulateCoef c a mb addr ((body.drop c.offData).take n) r).force = false ↔
      n ≤ 160 ∧ mb = c.mbInt := by
    simp [accumulateCoef_force c a mb addr r hlen, hncoef, hforce]
  have hsome : (accumulateCoef c a mb addr ((body.drop c.offData).take n) r).ncoef ≠ 0 := Nat.succ_ne_zero _
  split_ifs with hint
  · exact selectMode_eq_int_iff.2 ⟨hsome, hfree.2 hint⟩
  · exact selectMode_eq_host_iff.2 ⟨Nat.pos_of_ne_zero hsome, Bool.of_not_eq_false (mt hfree.1 hint)⟩

/-- Settles O33: the mode that rule R106 selects from NCOEF, which counts the coefficient items, and from what
forces host-driven mode (`CoefsCounted`, `Walked.short`); and of a blob of one chunk, from the record that the
chunk's own rule leaves (`selectMode_of_one`). -/
theorem transferModeSelection : Obligations.TransferModeSelection := by
  constructor
  · intro c blob en r h
    obtain ⟨u, hwalked, hcounted, rfl⟩ := analyse_walked h
    have hmany : 2 ≤ u.ncoef → u.force = true := hcounted.forced
    refine ⟨hcounted.counted.trans List.countP_eq_length_filter, selectMode_eq_none_iff, selectMode_eq_host_iff,
      selectMode_eq_int_iff.trans (and_congr_left fun hfree => ?_),
      fun htwo => selectMode_eq_host_iff.2 ⟨Nat.lt_of_lt_of_le Nat.two_pos htwo, hmany htwo⟩,
      fun hint => hwalked.short (selectMode_eq_int_iff.1 hint).2⟩
    have hone : ¬2 ≤ u.ncoef := fun htwo => by simp [hmany htwo] at hfree
    show u.ncoef ≠ 0 ↔ u.ncoef = 1
    omega
  · intro c en a body n hc hfits hcount hpos hmod hlen haddr
    have hrule := analyseAppcoef_of_count (r := AnalysisRecord.initial) (a := a) nofun hcount hpos hmod hlen haddr
    have hrules : chunkRules c en [(appTag c.tagCoef a, body)] AnalysisRecord.initial =
        analyseAppcoef c a body AnalysisRecord.initial := by
      simp only [chunkRules, chunkOfTag_appcoef (admissible_tags hc), analyseChunk, Option.bind_fun_some]
    refine ⟨_, analyse_wholeChunks_of_some (by simpa using hfits) (hrules.trans hrule), ?_⟩
    exact selectMode_of_one c a _ _ rfl rfl hlen

end Sys2Proof.Machine
end

section
/-! The three gates on register access (rules R140, R186, R198). Every act of a phase is within what the table
of rule R140 lets the phase touch, and the acts that touch block memory stand behind the transfer wait; so the
gates hold over the trace of a command, which grows act by act. An operation offered by itself passes the
model's own gate, which asks what the rule asks (`mayIssue`). -/

namespace Sys2Proof.Machine

/-! ## The gates over a trace -/

/-- Every event that touches block memory stands after a transfer wait that returned OK (rule R186 (2)). -/
def touchesAfterWait (c : Cfg) (trace : List Event) : Prop :=
  ∀ pre e post, trace = pre ++ e :: post → touchesBlockMemory c e.op → transferWaited pre

theorem transferWaited.mono {xs ys : List Event} (h : transferWaited xs) (hsub : xs ⊆ ys) :
    transferWaited ys :=
  h.imp fun _ hmem => hsub hmem

theorem touchesAfterWait.append {c : Cfg} {trace evs : List Event} (h : touchesAfterWait c trace)
    (hevs : transferWaited trace ∨ ∀ e ∈ evs, ¬touchesBlockMemory c e.op) :
    touchesAfterWait c (trace ++ evs) := by
  intro pre e post hsplit htouch
  rcases List.append_eq_append_iff.1 hsplit with ⟨mid, rfl, hmid⟩ | ⟨mid, rfl, hmid⟩
  · have he : e ∈ evs := by simp [hmid]
    rcases hevs with hwaited | hspared
    · exact hwaited.mono (List.subset_append_left _ _)
    · exact absurd htouch (hspared e he)
  · cases mid with
    | nil =>
      have he : e ∈ evs := (show e :: post = evs from hmid) ▸ List.mem_cons_self
      rcases hevs with hwaited | hspared
      · simpa using hwaited
      · exact absurd htouch (hspared e he)
    | cons e' mid =>
      cases hmid
      exact h pre e mid rfl htouch

/-- The phase gate and the transfer gate have held over the trace so far. -/
structure Guarded (s : State) : Prop where
  phase : ∀ e ∈ s.io.trace, gateOk s.cfg e
  transfer : admissible s.cfg = true → touchesAfterWait s.cfg s.io.trace

theorem Guarded.append {s t : State} {evs : List Event} (h : Guarded s) (hcfg : t.cfg = s.cfg)
    (htrace : t.io.trace = s.io.trace ++ evs) (hphase : ∀ e ∈ evs, gateOk s.cfg e)
    (htransfer : admissible s.cfg = true → transferWaited s.io.trace ∨
      ∀ e ∈ evs, ¬touchesBlockMemory s.cfg e.op) : Guarded t where
  phase e he := by
    rw [hcfg]
    rw [htrace, List.mem_append] at he
    exact he.elim (h.phase e) (hphase e)
  transfer hc := by
    rw [hcfg] at hc ⊢
    rw [htrace]
    exact (h.transfer hc).append (htransfer hc)

theorem Guarded.congr {s t : State} (h : Guarded s) (hcfg : t.cfg = s.cfg)
    (htrace : t.io.trace = s.io.trace) : Guarded t :=
  h.append (evs := []) hcfg (by simp [htrace]) nofun fun _ => .inr nofun

theorem guarded_of_empty {s : State} (h : s.io.trace = []) : Guarded s :=
  ⟨by simp [h], fun _ pre e post hsplit => by simp [h] at hsplit⟩

/-! ## What each phase allows itself, against the table of rule R140 -/

/-- The table of rule R140 lets phase `p` do all that the allowance admits. -/
def Allowed.within (al : Allowed) (c : Cfg) (p : Phase) : Prop :=
  ∀ op, al.admits c op → gateOk c { phase := p, op := op }

/-- The allowance admits no access to block memory. -/
def Allowed.avoidsBlockMemory (al : Allowed) (c : Cfg) : Prop :=
  ∀ op, al.admits c op → ¬touchesBlockMemory c op

theorem within_of {al : Allowed} {c : Cfg} {p : Phase} (hwrite : ∀ g r v, al.write g r v → mayWrite c p r)
    (hen : ∀ k v, al.en k v → mayWrite c p (c.rEn.get k)) (hbyp : ∀ v, al.byp v → mayWrite c p c.rByp)
    (hmaster : ∀ v, al.master v → mayWrite c p c.rMctl) (hread : ∀ r, al.read r → mayRead c p r) :
    al.within c p := by
  intro op hop
  cases op with
  | qw g r v =>
    rcases hop with h | ⟨_, ⟨k, rfl, h⟩ | ⟨rfl, h⟩ | ⟨rfl, h⟩⟩
    · exact hwrite g r v h
    · exact hen k v h
    · exact hbyp v h
    · exact hmaster v h
  | flush => trivial
  | rd r v => exact hread r hop
  | wait w ok => exact hop.elim

theorem avoidsBlockMemory_of {al : Allowed} {c : Cfg} (hwrite : al.sparesBlockMemory c)
    (hread : ∀ r, al.read r → ¬isBlockMemory c r) : al.avoidsBlockMemory c := by
  intro op hop
  cases op with
  | qw g r v => exact hwrite g r v hop
  | flush => exact id
  | rd r v => exact hread r hop
  | wait w ok => exact id

theorem quiesceAllowed_within (c : Cfg) (en : Two Byte) (byp : Byte) :
    (quiesceAllowed c en byp).within c .quiesce :=
  within_of (fun _ _ _ h => .inr (.inl h.2.1))
    (fun
      | .k0, _, _ => .inr (.inr (.inl rfl))
      | .k1, _, _ => .inr (.inr (.inr rfl)))
    (fun _ _ => .inl rfl) (fun _ => False.elim) (fun _ => id)

theorem itemAllowed_within (c : Cfg) : (itemAllowed c).within c .download := by
  refine within_of (fun g r v h => ?_)
    (fun k _ ⟨b, hb⟩ => .inr (.inr (.inr (.inr (.inr ⟨k, b, hb, rfl⟩))))) (fun _ => False.elim)
    (fun _ => False.elim) (fun _ => False.elim)
  rcases h with ⟨_, h | h | h⟩ | ⟨_, h⟩
  · exact .inl h
  · exact .inr (.inl h)
  · exact .inr (.inr (.inl h))
  · exact .inr (.inr (.inr (.inr (.inl h))))

theorem regAllowed_within (c : Cfg) : (regAllowed c).within c .download :=
  within_of (fun _ _ _ h => .inr (.inr (.inr (.inr (.inl h.2)))))
    (fun k _ ⟨b, hb⟩ => .inr (.inr (.inr (.inr (.inr ⟨k, b, hb, rfl⟩))))) (fun _ => False.elim)
    (fun _ => False.elim) (fun _ => False.elim)

theorem triggerAllowed_within (c : Cfg) : (triggerAllowed c).within c .download :=
  within_of (fun _ _ _ h => .inr (.inr (.inr (.inl h.2)))) (fun _ _ => False.elim) (fun _ => False.elim)
    (fun _ => False.elim) (fun _ => False.elim)

theorem resumeAllowed_within (c : Cfg) : (resumeAllowed c).within c .resume :=
  within_of (fun _ _ _ h => .inr (.inr (.inl h.2)))
    (fun
      | .k0, _, _ => .inl rfl
      | .k1, _, _ => .inr (.inl rfl))
    (fun _ _ => .inr (.inr (.inr (.inl rfl)))) (fun _ _ => .inr (.inr (.inr (.inr rfl))))
    (fun _ => False.elim)

theorem uploadAllowed_within (c : Cfg) : (uploadAllowed c).within c .upload :=
  within_of (fun _ _ _ h => h.2) (fun _ _ => False.elim) (fun _ => False.elim) (fun _ => False.elim)
    (fun _ => id)

theorem cmdAllowed_within (c : Cfg) : (cmdAllowed c).within c .cmd :=
  within_of (fun _ _ _ => False.elim) (fun _ _ => False.elim) (fun _ => False.elim) (fun _ _ => rfl)
    (fun _ => id)

theorem quiesceAllowed_avoids {c : Cfg} (hc : admissible c = true) (en : Two Byte) (byp : Byte) :
    (quiesceAllowed c en byp).avoidsBlockMemory c :=
  avoidsBlockMemory_of (quiesceAllowed_spares hc en byp) fun _ h =>
    h ▸ (admissible_blockMemory hc).2 _ (List.mem_append_right _ (admissible_sinout_mem_aux hc))

theorem resumeAllowed_avoids {c : Cfg} (hc : admissible c = true) : (resumeAllowed c).avoidsBlockMemory c :=
  avoidsBlockMemory_of (resumeAllowed_spares hc) fun _ => False.elim

theorem regAllowed_avoids {c : Cfg} (hc : admissible c = true) : (regAllowed c).avoidsBlockMemory c :=
  avoidsBlockMemory_of (regAllowed_spares hc) fun _ => False.elim

theorem isBlockMemory_written {c : Cfg} {r : Reg} (h : isBlockMemory c r) : r ∈ writtenRegs c := by
  simpa [writtenRegs] using .inr (.inr (.inr (.inr (.inr h))))

theorem cmdAllowed_avoids {c : Cfg} (hc : admissible c = true) : (cmdAllowed c).avoidsBlockMemory c := by
  have htrans := (List.nodup_cons.1 (admissible_regs_nodup hc)).1
  exact avoidsBlockMemory_of (sparesBlockMemory_of hc fun _ _ _ => False.elim) fun r h hmem =>
    htrans (h ▸ isBlockMemory_written hmem)

/-! ## Acts and waits keep the gates -/

theorem Guarded.acts {al : Allowed} {s t : State} (h : Guarded s) (ha : Acts al s t)
    (hwithin : al.within s.cfg s.w.ph)
    (htransfer : admissible s.cfg = true → transferWaited s.io.trace ∨ al.avoidsBlockMemory s.cfg) :
    Guarded t := by
  obtain ⟨evs, htrace, hevs⟩ := ha.trace
  refine h.append ha.samePhase.cfg htrace (fun e he => ?_) fun hc => (htransfer hc).imp_right fun havoids e he =>
    havoids _ (hevs e he).2
  obtain ⟨p, op⟩ := e
  obtain ⟨rfl, hadmits⟩ := hevs _ he
  exact hwithin op hadmits

theorem Acts.transferWaited {al : Allowed} {s t : State} (ha : Acts al s t)
    (h : transferWaited s.io.trace) : transferWaited t.io.trace := by
  obtain ⟨evs, htrace, _⟩ := ha.trace
  exact h.mono (htrace ▸ List.subset_append_left _ _)

theorem waitPoll_trace_subset (w : WaitName) (s : State) :
    s.io.trace ⊆ (waitPoll w s).io.trace := by
  rw [waitPoll_trace, syncQueue_trace, List.append_assoc]
  exact List.subset_append_left _ _

theorem waitPoll_guarded {w : WaitName} {s : State} (x : Option WaitSite) (h : Guarded s)
    (hmay : mayWait s.w.ph w) : Guarded { waitPoll w s with site := x } := by
  have hsynced : Guarded (syncQueue s) := h.append (syncQueue_cfg s) (syncQueue_trace s)
    (by split <;> simp [gateOk]) fun _ => .inr (by split <;> simp [touchesBlockMemory])
  refine hsynced.append (by simp) (waitPoll_trace w s) ?_ fun _ => .inr ?_
  · cases (waitPoll w s).io.waitRes <;> simp [waitEvents, gateOk, hmay]
  · cases (waitPoll w s).io.waitRes <;> simp [waitEvents, touchesBlockMemory]

/-- A command at rest keeps the gates: over its trace, and held up past phase 1 it has waited. -/
def AtRestGuarded (t : State) : Prop :=
  Guarded t ∧ (t.site = some .applyFade ∨ t.site = some .applySine → transferWaited t.io.trace)

theorem Guarded.ended {s t : State} (h : Guarded s) (hcfg : t.cfg = s.cfg) (htrace : t.io.trace = s.io.trace)
    (hsite : t.site = none) : AtRestGuarded t :=
  ⟨h.congr hcfg htrace, by simp [hsite]⟩

/-- A wait inside a command: the transfer wait lets what follows touch block memory. -/
theorem waitThen_guarded (w : WaitName) (site : WaitSite) {next : State → State} {s : State}
    (h : Guarded s) (hmay : mayWait s.w.ph w)
    (hsite : site = .applyFade ∨ site = .applySine → transferWaited s.io.trace)
    (hnext : ∀ u, Guarded u → u.site = none → u.w.ph = s.w.ph →
      (transferWaited s.io.trace ∨ w = .xfer → transferWaited u.io.trace) → AtRestGuarded (next u)) :
    AtRestGuarded (waitThen w site next s) := by
  apply waitThen_ind
  · intro hok
    refine hnext _ (waitPoll_guarded none h hmay) rfl (by simp) ?_
    rintro (hwaited | rfl)
    · exact hwaited.mono (waitPoll_trace_subset w s)
    · refine ⟨s.w.ph, ?_⟩
      show _ ∈ (waitPoll .xfer s).io.trace
      rw [waitPoll_trace, hok]
      simp [waitEvents]
  · exact fun _ => (waitPoll_guarded none h hmay).ended rfl rfl rfl
  · refine fun _ => ⟨waitPoll_guarded (some site) h hmay, fun hheld => ?_⟩
    exact (hsite (hheld.imp Option.some.inj Option.some.inj)).mono (waitPoll_trace_subset w s)

/-! ## The phases of a pass, and UPLOAD -/

theorem quiesceSilent_guarded {s : State} (h : Guarded s) (hwaited : transferWaited s.io.trace)
    (hph : s.w.ph = .quiesce) (hsite : s.site = none) : AtRestGuarded (quiesceSilent s) := by
  have hq4 := stepQ4_acts s 0
  have hcleared := h.acts hq4 (hph ▸ quiesceAllowed_within _ _ _) fun _ => .inl hwaited
  have hwaited' := hq4.transferWaited hwaited
  have hitems := downloadItems_acts (passRecord (stepQ4 s)).items (downloadStart (stepQ4 s))
  have hstarted : Guarded (downloadStart (stepQ4 s)) := hcleared.congr rfl rfl
  have hloaded := hstarted.acts hitems (itemAllowed_within _) fun _ => .inl hwaited'
  have hwaited'' := hitems.transferWaited hwaited'
  have htrigger := triggerTransfer_acts
    (downloadItems (passRecord (stepQ4 s)).items (downloadStart (stepQ4 s)))
  have htriggered := hloaded.acts htrigger (hitems.samePhase.ph ▸ triggerAllowed_within _)
    fun _ => .inl hwaited''
  rw [← phaseDownload_eq] at htriggered
  have hresumed : Guarded (enter .resume (phaseDownload (stepQ4 s))) := htriggered.congr rfl rfl
  have hresume := resume_acts (enter .resume (phaseDownload (stepQ4 s)))
  have hended := hresumed.acts hresume (resumeAllowed_within _) fun hc => .inr (resumeAllowed_avoids hc)
  refine hended.ended rfl rfl ?_
  exact (hresume.samePhase.site.trans (phaseDownload_site _)).trans (hq4.samePhase.site.trans hsite)

theorem quiesceFaded_guarded {s : State} (h : Guarded s) (hwaited : transferWaited s.io.trace)
    (hph : s.w.ph = .quiesce) (hsite : s.site = none) : AtRestGuarded (quiesceFaded s) := by
  unfold quiesceFaded
  split
  · exact waitThen_guarded _ _ h (hph ▸ .inr rfl) (fun _ => hwaited) fun _ hu hsite hph' hkept =>
      quiesceSilent_guarded hu (hkept (.inl hwaited)) (hph'.trans hph) hsite
  · exact quiesceSilent_guarded h hwaited hph hsite

theorem quiesceBegin_guarded {s : State} (h : Guarded s) (hwaited : transferWaited s.io.trace)
    (hsite : s.site = none) : AtRestGuarded (quiesceBegin s) := by
  have ha := stepQ1Q2_acts s
  have hentered : Guarded (enter .quiesce s) := h.congr rfl rfl
  have hmuted := hentered.acts ha (quiesceAllowed_within _ _ _) fun _ => .inl hwaited
  have hwaited' := ha.transferWaited hwaited
  have hph := ha.samePhase.ph
  rw [quiesceBegin_eq]
  split
  · exact waitThen_guarded _ _ hmuted (hph ▸ .inl rfl) (fun _ => hwaited') fun _ hu hsite hph' hkept =>
      quiesceFaded_guarded hu (hkept (.inl hwaited')) (hph'.trans hph) hsite
  · exact quiesceFaded_guarded hmuted hwaited' hph (ha.samePhase.site.trans hsite)

theorem applyBlob_guarded (blob : List Byte) {s : State} (htrace : s.io.trace = []) (hsite : s.site = none) :
    AtRestGuarded (applyBlob blob s) := by
  unfold applyBlob
  simp only
  split
  · exact (guarded_of_empty htrace).ended rfl rfl hsite
  · exact waitThen_guarded _ _ (guarded_of_empty htrace) rfl nofun fun _ hu hsite _ hwaited =>
      quiesceBegin_guarded hu (hwaited (.inr rfl)) hsite

theorem uploadRead_guarded (m : MemDom) (addr : Word) (units : Nat) {s : State} (h : Guarded s)
    (hwaited : transferWaited s.io.trace) (hph : s.w.ph = .upload) (hsite : s.site = none) :
    AtRestGuarded (uploadRead m addr units s) := by
  obtain ⟨t, ha, ht⟩ := uploadRead_acts m addr units s
  have hread := h.acts ha (hph ▸ uploadAllowed_within _) fun _ => .inl hwaited
  rw [ht]
  exact hread.ended rfl rfl (ha.samePhase.site.trans hsite)

theorem uploadChecked_guarded (dom : Byte) (addr size : Word) {s : State} (htrace : s.io.trace = [])
    (hph : s.w.ph = .upload) (hsite : s.site = none) : AtRestGuarded (uploadChecked dom addr size s) := by
  have h := guarded_of_empty htrace
  unfold uploadChecked
  split
  · exact h.ended rfl rfl hsite
  · split
    · unfold uploadUnits
      split
      · exact h.ended rfl rfl hsite
      · exact waitThen_guarded _ _ h (hph ▸ rfl) nofun fun _ hu hsite hph' hwaited =>
          uploadRead_guarded _ _ _ hu (hwaited (.inr rfl)) (hph'.trans hph) hsite
    · exact h.ended rfl rfl hsite

/-! ## Commands, and the later polls of a wait -/

/-- MSTART and MSTOP (rules R193, R194, R198). -/
theorem writeMaster_guarded {s : State} (h : Guarded s) (hph : s.w.ph = .cmd) (hsite : s.site = none)
    (v : Byte) : AtRestGuarded (finish 0 (syncQueue (writeMaster v s))) := by
  have ha : Acts (cmdAllowed s.cfg) s (syncQueue (writeMaster v s)) := (Acts.refl.master trivial).sync
  exact (h.acts ha (hph ▸ cmdAllowed_within _) fun hc => .inr (cmdAllowed_avoids hc)).ended rfl rfl
    (ha.samePhase.site.trans hsite)

/-- QUERY (rules R195, R198). -/
theorem readTrans_guarded {s : State} (h : Guarded s) (hph : s.w.ph = .cmd) (hsite : s.site = none)
    (v : Word) : AtRestGuarded (finish v (rdReg s.cfg.rTrans s)) := by
  have ha : Acts (cmdAllowed s.cfg) s (rdReg s.cfg.rTrans s) := Acts.refl.read rfl
  exact (h.acts ha (hph ▸ cmdAllowed_within _) fun hc => .inr (cmdAllowed_avoids hc)).ended rfl rfl
    (ha.samePhase.site.trans hsite)

theorem gated_guarded {run : State → State} {s : State} (h : Guarded s) (hsite : s.site = none)
    (hrun : AtRestGuarded (run s)) : AtRestGuarded (gated run s) := by
  unfold gated
  split
  · exact hrun
  · exact h.ended rfl rfl hsite

theorem exec_command_guarded {s t : State} {i : Instr} (hi : isCommand i = true) (h : exec i s = .next t) :
    AtRestGuarded t := by
  have hcmd : Guarded (accept .cmd s) := guarded_of_empty rfl
  have hreserved : reservedAnswer s = .next t → AtRestGuarded t := by
    rw [reservedAnswer, onCommand_next_iff]
    rintro ⟨hready, rfl⟩
    exact hcmd.ended rfl rfl (ready_iff.1 hready).2
  cases i with
  | init =>
    rw [exec, execInit, onCommand_next_iff] at h
    obtain ⟨hready, rfl⟩ := h
    have hsite := (ready_iff.1 hready).2
    simp only
    split
    · exact hcmd.ended rfl rfl hsite
    · exact hcmd.ended rfl rfl hsite
  | term =>
    rw [exec, execTerm, onCommand_next_iff] at h
    obtain ⟨hready, rfl⟩ := h
    exact hcmd.ended rfl rfl (ready_iff.1 hready).2
  | validate blob =>
    rw [exec, execValidate, onCommand_next_iff] at h
    obtain ⟨hready, rfl⟩ := h
    have hsite := (ready_iff.1 hready).2
    simp only
    split
    · exact hcmd.ended rfl rfl hsite
    · exact hcmd.ended rfl rfl hsite
  | apply blob =>
    rw [exec, execApply, onCommand_next_iff] at h
    obtain ⟨hready, rfl⟩ := h
    have hsite := (ready_iff.1 hready).2
    exact gated_guarded (run := applyBlob blob) hcmd hsite (applyBlob_guarded blob rfl hsite)
  | mstart | mstop =>
    rw [exec] at h
    simp only [execMstart, execMstop, onCommand_next_iff] at h
    obtain ⟨hready, rfl⟩ := h
    have hsite := (ready_iff.1 hready).2
    exact gated_guarded hcmd hsite (writeMaster_guarded hcmd rfl hsite _)
  | query =>
    rw [exec, execQuery, onCommand_next_iff] at h
    obtain ⟨hready, rfl⟩ := h
    have hsite := (ready_iff.1 hready).2
    simp only
    split
    · exact readTrans_guarded hcmd rfl hsite _
    · exact hcmd.ended rfl rfl hsite
  | upload dom addr size =>
    rw [exec, execUpload, onCommand_next_iff] at h
    obtain ⟨hready, rfl⟩ := h
    have hsite := (ready_iff.1 hready).2
    exact gated_guarded (run := uploadChecked dom addr size) (guarded_of_empty rfl) hsite
      (uploadChecked_guarded dom addr size rfl rfl hsite)
  | reserved08 | reserved10 | reserved20 | reserved40 | reserved80 => exact hreserved h
  | fwctrlB | appcoef | appreg | skip | qwG | qwF | flush | rd | sync | wait | writeAddr => cases hi

/-- The status gate: a command issues nothing while ST = IDLE (rules R186 (1), R198, R207). -/
theorem exec_command_trace_of_idle {s t : State} {i : Instr} (hi : isCommand i = true)
    (hst : s.g.st = .idle) (h : exec i s = .next t) : t.io.trace = [] := by
  have hclosed : ¬s.g.st = .inited := by simp [hst]
  have hgated : ∀ (p : Phase) (run : State → State), (gated run (accept p s)).io.trace = [] :=
    fun p run => congrArg (·.io.trace) (if_neg hclosed : gated run (accept p s) = earlyEnd .runtime _)
  have hreserved : reservedAnswer s = .next t → t.io.trace = [] := by
    rw [reservedAnswer, onCommand_next_iff]
    rintro ⟨_, rfl⟩
    rfl
  cases i with
  | term =>
    rw [exec, execTerm, onCommand_next_iff] at h
    obtain ⟨_, rfl⟩ := h
    rfl
  | init | query =>
    rw [exec] at h
    simp only [execInit, execQuery, onCommand_next_iff, accept_g, hclosed, if_false] at h
    obtain ⟨_, rfl⟩ := h
    rfl
  | validate blob =>
    rw [exec, execValidate, onCommand_next_iff] at h
    obtain ⟨_, rfl⟩ := h
    simp only
    split <;> rfl
  | apply blob =>
    rw [exec, execApply, onCommand_next_iff] at h
    obtain ⟨_, rfl⟩ := h
    exact hgated .cmd (applyBlob blob)
  | mstart | mstop =>
    rw [exec] at h
    simp only [execMstart, execMstop, onCommand_next_iff] at h
    obtain ⟨_, rfl⟩ := h
    exact hgated .cmd _
  | upload dom addr size =>
    rw [exec, execUpload, onCommand_next_iff] at h
    obtain ⟨_, rfl⟩ := h
    exact hgated .upload (uploadChecked dom addr size)
  | reserved08 | reserved10 | reserved20 | reserved40 | reserved80 => exact hreserved h
  | fwctrlB | appcoef | appreg | skip | qwG | qwF | flush | rd | sync | wait | writeAddr => cases hi

theorem resumeWait_guarded {s : State} {site : WaitSite} (h : Guarded s) (hph : s.w.ph = sitePhase site)
    (halone : ∀ w, site ≠ .alone w)
    (hwaited : site = .applyFade ∨ site = .applySine → transferWaited s.io.trace) :
    AtRestGuarded (resumeWait site s) := by
  cases site with
  | applyXfer =>
    exact waitThen_guarded _ _ h (hph ▸ rfl) hwaited fun _ hu hsite _ hkept =>
      quiesceBegin_guarded hu (hkept (.inr rfl)) hsite
  | applyFade =>
    have hwaited := hwaited (.inl rfl)
    exact waitThen_guarded _ _ h (hph ▸ .inl rfl) (fun _ => hwaited) fun _ hu hsite hph' hkept =>
      quiesceFaded_guarded hu (hkept (.inl hwaited)) (hph'.trans hph) hsite
  | applySine =>
    have hwaited := hwaited (.inr rfl)
    exact waitThen_guarded _ _ h (hph ▸ .inr rfl) (fun _ => hwaited) fun _ hu hsite hph' hkept =>
      quiesceSilent_guarded hu (hkept (.inl hwaited)) (hph'.trans hph) hsite
  | upload m addr units =>
    exact waitThen_guarded _ _ h (hph ▸ rfl) hwaited fun _ hu hsite hph' hkept =>
      uploadRead_guarded m addr units hu (hkept (.inr rfl)) (hph'.trans hph) hsite
  | alone w => exact absurd rfl (halone w)

/-! ## ST stays what it is while a command is held up -/

theorem waitThen_st (w : WaitName) (site : WaitSite) {next : State → State} (s : State)
    (hnext : ∀ u, (next u).g.st = u.g.st) : (waitThen w site next s).g.st = s.g.st := by
  obtain ⟨h, _⟩ | ⟨h, _⟩ | ⟨h, _⟩ := waitThen_cases w site next s
  · simp [h, hnext]
  · simp [h]
  · simp [h]

theorem phaseDownload_st (s : State) : (phaseDownload s).g.st = s.g.st :=
  (triggerTransfer_acts _).samePhase.st.trans (downloadItems_acts _ _).samePhase.st

theorem quiesceSilent_st (s : State) : (quiesceSilent s).g.st = s.g.st :=
  (resume_acts (enter .resume (phaseDownload (stepQ4 s)))).samePhase.st.trans
    ((phaseDownload_st _).trans (stepQ4_acts s 0).samePhase.st)

theorem quiesceFaded_st (s : State) : (quiesceFaded s).g.st = s.g.st := by
  unfold quiesceFaded
  split
  · exact waitThen_st _ _ s quiesceSilent_st
  · exact quiesceSilent_st s

theorem quiesceBegin_st (s : State) : (quiesceBegin s).g.st = s.g.st := by
  have hmuted := (stepQ1Q2_acts s).samePhase.st
  rw [quiesceBegin_eq]
  split
  · exact (waitThen_st _ _ _ quiesceFaded_st).trans hmuted
  · exact (quiesceFaded_st _).trans hmuted

theorem uploadRead_st (m : MemDom) (addr : Word) (units : Nat) (s : State) :
    (uploadRead m addr units s).g.st = s.g.st := by
  obtain ⟨t, ha, ht⟩ := uploadRead_acts m addr units s
  rw [ht]
  exact ha.samePhase.st

theorem resumeWait_st (site : WaitSite) (s : State) : (resumeWait site s).g.st = s.g.st := by
  cases site with
  | applyXfer => exact waitThen_st _ _ s quiesceBegin_st
  | applyFade => exact waitThen_st _ _ s quiesceFaded_st
  | applySine => exact waitThen_st _ _ s quiesceSilent_st
  | upload m addr units => exact waitThen_st _ _ s (uploadRead_st m addr units)
  | alone w =>
    obtain ⟨_, _, _, hg, _⟩ := waitAlone_frame w s
    exact congrArg Globals.st hg

/-! ## An operation or item offered by itself -/

/-- What the gates leave of an operation by itself: as `mayIssue`, but that only the registers of an admissible
configuration tell block memory from the others. -/
structure Permitted (s : State) (op : PortOp) : Prop where
  status : s.g.st = .inited
  transfer : admissible s.cfg = true → touchesBlockMemory s.cfg op → transferWaited s.io.trace
  phase : s.w.ph ≠ .idle → phaseLets s.cfg s.w.ph op

theorem Permitted.of_mayIssue {s : State} {op : PortOp} (h : mayIssue s op) : Permitted s op := by
  obtain ⟨hst, hwaited, hphase⟩ := h
  refine ⟨hst, fun _ htouch => ?_, hphase⟩
  obtain ⟨⟨p, op'⟩, hmem, rfl, _⟩ := hwaited htouch
  exact ⟨p, hmem⟩

theorem Permitted.flush {s : State} (hst : s.g.st = .inited) : Permitted s .flush :=
  ⟨hst, fun _ => False.elim, fun _ => trivial⟩

/-- The step adds permitted operations only. -/
def AddsPermitted (s t : State) : Prop :=
  ∃ evs, t.io.trace = s.io.trace ++ evs ∧ ∀ e ∈ evs, Permitted s e.op

theorem AddsPermitted.nothing {s t : State} (h : t.io.trace = s.io.trace) : AddsPermitted s t :=
  ⟨[], by simp [h], nofun⟩

theorem AddsPermitted.one {s t : State} {p : Phase} {op : PortOp}
    (h : t.io.trace = s.io.trace ++ [{ phase := p, op := op }]) (hop : Permitted s op) : AddsPermitted s t :=
  ⟨_, h, by simpa using hop⟩

theorem AddsPermitted.trans {s t u : State} (h : AddsPermitted s t)
    (h' : ∃ evs, u.io.trace = t.io.trace ++ evs ∧ ∀ e ∈ evs, Permitted s e.op) : AddsPermitted s u := by
  obtain ⟨xs, ht, hxs⟩ := h
  obtain ⟨ys, hu, hys⟩ := h'
  exact ⟨xs ++ ys, by rw [hu, ht, List.append_assoc], fun e he => (List.mem_append.1 he).elim (hxs e) (hys e)⟩

theorem syncQueue_addsPermitted {s : State} (hst : s.g.st = .inited) : AddsPermitted s (syncQueue s) := by
  unfold syncQueue
  split
  · exact .one (flushQueue_io_trace s) (.flush hst)
  · exact .nothing rfl

/-- Acts within an allowance that the gates let through. -/
theorem Acts.addsPermitted {al : Allowed} {s t : State} (ha : Acts al s t)
    (hal : ∀ op, al.admits s.cfg op → Permitted s op) : AddsPermitted s t := by
  obtain ⟨evs, htrace, hevs⟩ := ha.trace
  exact ⟨evs, htrace, fun e he => hal e.op (hevs e he).2⟩

theorem ifOpen_addsPermitted {isOpen : Bool} {run : State → State} {s : State}
    (h : isOpen = true → AddsPermitted s (run s)) : AddsPermitted s (ifOpen isOpen run s) := by
  cases isOpen
  · exact .nothing rfl
  · exact h rfl

theorem phaseLets_of_gateOk {c : Cfg} {p : Phase} {op : PortOp} (h : gateOk c { phase := p, op := op }) :
    phaseLets c p op := by
  cases op with
  | qw | wait => exact h
  | flush => trivial
  | rd r v => exact .inl h

/-- An item of phase 3 behind its gate: a register item touches no block memory, a coefficient item stands
after the transfer wait (rules R130, R151, R155, R186). -/
theorem downloadStep_addsPermitted {item : Item} {s : State} (hph : s.w.ph = .download)
    (hopen : itemOpen item s = true) : AddsPermitted s (downloadStep item s) := by
  cases item with
  | fw | skip => exact .nothing rfl
  | reg flags vals =>
    have hst := statusOpen_iff.1 hopen
    exact (regItem_acts flags vals s).addsPermitted fun op hop =>
      ⟨hst, fun hc htouch => absurd htouch (regAllowed_avoids hc op hop),
        fun _ => phaseLets_of_gateOk (hph ▸ regAllowed_within s.cfg op hop)⟩
  | coef a addr payload =>
    obtain ⟨hst, hwaited⟩ := (coefItemOpen_iff a addr payload hph).1 hopen
    exact (downloadStep_acts (.coef a addr payload) s).addsPermitted fun op hop =>
      ⟨hst, fun _ _ => hwaited, fun _ => phaseLets_of_gateOk (hph ▸ itemAllowed_within s.cfg op hop)⟩

theorem itemStage_addsPermitted (rule : AnalysisRecord → Option AnalysisRecord) (item : Option Item)
    (s : State) : AddsPermitted s (itemStage rule item s) := by
  unfold itemStage analyseItem
  split
  · split
    · exact ifOpen_addsPermitted (downloadStep_addsPermitted ‹_›)
    · exact .nothing rfl
  · split
    · exact .nothing rfl
    · split <;> exact .nothing rfl

theorem waitAlone_addsPermitted {w : WaitName} {s : State} (h : ∀ ok, mayIssue s (.wait w ok)) :
    AddsPermitted s (waitAlone w s) := by
  obtain ⟨hst, _⟩ := h true
  refine (syncQueue_addsPermitted hst).trans ⟨waitEvents s.w.ph w (waitPoll w s).io.waitRes, ?_, ?_⟩
  · rw [waitAlone_eq]
    exact waitPoll_trace w s
  · cases (waitPoll w s).io.waitRes <;> simp [waitEvents, Permitted.of_mayIssue (h _)]

theorem rdReg_addsPermitted {r : Reg} {s : State} (h : ∀ v, mayIssue s (.rd r v)) :
    AddsPermitted s (rdReg r s) := by
  obtain ⟨hst, _⟩ := h 0
  refine (syncQueue_addsPermitted hst).trans ⟨_, readNow_trace r (syncQueue s), ?_⟩
  simpa using Permitted.of_mayIssue (h _)

theorem writeAddrRegs_addsPermitted {addr : Word} {s : State}
    (h : ∀ r ∈ s.cfg.rBma, ∀ v, mayIssue s (.qw .forced r v)) : AddsPermitted s (writeAddrRegs addr s) := by
  refine ⟨(s.cfg.rBma.zip (addrBytes s.cfg addr)).map
    (fun p => { phase := s.w.ph, op := .qw .forced p.1 p.2 }), by rw [writeAddrRegs, qwForced_eq], fun e he => ?_⟩
  obtain ⟨⟨r, v⟩, hp, rfl⟩ := List.mem_map.1 he
  exact .of_mayIssue (h r (List.of_mem_zip hp).1 v)

theorem exec_alone_addsPermitted {s t : State} {i : Instr} (hi : isCommand i = false)
    (h : exec i s = .next t) : AddsPermitted s t := by
  cases i with
  | fwctrlB | appcoef | appreg | skip => cases h; exact itemStage_addsPermitted _ _ s
  | qwG bank index value | qwF bank index value =>
    cases h
    exact ifOpen_addsPermitted fun hopen => .one rfl (.of_mayIssue ((writeOpen_iff _ value).1 hopen))
  | flush =>
    cases h
    exact ifOpen_addsPermitted fun hopen => .one (flushQueue_io_trace s) (.flush (statusOpen_iff.1 hopen))
  | rd bank index =>
    cases h
    exact ifOpen_addsPermitted fun hopen => rdReg_addsPermitted fun v => (readOpen_iff v).1 hopen
  | sync =>
    cases h
    exact ifOpen_addsPermitted fun hopen => syncQueue_addsPermitted (statusOpen_iff.1 hopen)
  | wait w =>
    cases h
    exact ifOpen_addsPermitted fun hopen => waitAlone_addsPermitted fun ok => (waitOpen_iff ok).1 hopen
  | writeAddr addr =>
    cases h
    exact ifOpen_addsPermitted fun hopen => writeAddrRegs_addsPermitted (addrOpen_iff.1 hopen)
  | init | term | validate | apply | mstart | mstop | query | upload
  | reserved08 | reserved10 | reserved20 | reserved40 | reserved80 => cases hi

/-- A command at rest waits only while INITED (rule R198). -/
theorem Rested.heldInited {t : State} (h : Rested t) (hheld : t.site.isSome = true) : t.g.st = .inited :=
  h.inv.heldInited hheld

/-- Settles O51: a command's trace is guarded from its acceptance on, when it is empty, to its rest
(`exec_command_guarded`), and a poll adds to a guarded trace (`resumeWait_guarded`); what is offered by itself
passes the model's gate (`exec_alone_addsPermitted`). -/
theorem phaseGateHolds : Obligations.PhaseGateHolds := by
  refine ⟨fun s t i => exec_command_trace_of_idle, ?_, ?_, ?_⟩
  · intro s t i hi h
    obtain ⟨⟨hphase, htransfer⟩, hheld⟩ := exec_command_guarded hi h
    rw [exec_cfg h] at hphase
    refine ⟨hphase, fun hc => ⟨htransfer (exec_cfg h ▸ hc), hheld⟩, fun hs => ?_⟩
    have hsite : s.site = none := (ready_iff.1 (exec_command_cases hi h).1).2
    exact (exec_command_rested hi (hs.standing hsite) h).heldInited
  · intro s t site hs hsite halone hphase ⟨htransfer, hwaited⟩ h
    obtain ⟨hc, rfl⟩ := step_of_site hsite h
    have hst := hs.heldInited (by simp [hsite])
    have hguarded := resumeWait_guarded ⟨hphase, fun _ => htransfer⟩ (by rw [hs.phase, hsite]; rfl) halone
      fun hpass => hwaited (hpass.imp (hsite.trans <| congrArg some ·) (hsite.trans <| congrArg some ·))
    obtain ⟨⟨hphase', htransfer'⟩, hheld⟩ := hguarded
    rw [resumeWait_cfg] at hphase' htransfer'
    refine ⟨hst, (resumeWait_st site s).trans hst, hphase', ?_, hheld⟩
    rw [resumeWait_cfg]
    exact htransfer' hc
  · intro s t i hi h
    obtain ⟨evs, htrace, hevs⟩ := exec_alone_addsPermitted hi h
    refine ⟨evs, htrace, fun hne => ?_, fun hc e he => (hevs e he).transfer hc, fun hph e he =>
      (hevs e he).phase hph⟩
    obtain ⟨e, he⟩ := List.exists_mem_of_ne_nil evs hne
    exact (hevs e he).status

end Sys2Proof.Machine
end

section
/-! Phase 2 only mutes (rule R140): what its allowance admits, register by register, of a pass that starts and
of what a poll adds to a pass held up in a wait. -/

namespace Sys2Proof.Machine

/-! ## What phase 2 may write -/

/-- A write of `q` only mutes: it sets bypass bits, silences the sine, clears enable bits (rule R140). -/
def OnlyMutes (c : Cfg) (en : Two Byte) (byp : Byte) (q : Reg) (v : Byte) : Prop :=
  (q = c.rByp → byp &&& v = byp) ∧ (q = c.rSinout → v = c.vSinInactive) ∧
    ∀ k, q = c.rEn.get k → v &&& en.get k = v

/-- The registers of phase 2 are apart, so that the register tells which kind of write it is (rule R6 (7)). -/
theorem quiesceAllowed_onlyMutes {c : Cfg} (hc : admissible c = true) {en : Two Byte} {byp : Byte} {g : Gate}
    {q : Reg} {v : Byte} (h : (quiesceAllowed c en byp).admits c (.qw g q v)) : OnlyMutes c en byp q v := by
  have hapart := admissible_copiesApart hc
  obtain ⟨_, hbyp, hen⟩ := quiesceAllowed_sparesCopies hc en byp .gated c.rSinout c.vSinInactive ⟨rfl, rfl, rfl⟩
  rcases h with ⟨_, rfl, rfl⟩ | ⟨_, ⟨k, rfl, hclears⟩ | ⟨rfl, hsets⟩ | ⟨_, hnever⟩⟩
  · exact ⟨fun h => absurd h hbyp, fun _ => rfl, fun k h => absurd h (hen k)⟩
  · refine ⟨fun h => absurd h (hapart.enByp k), fun h => absurd h.symm (hen k), fun k' h => ?_⟩
    by_cases hk : k = k'
    · exact hk ▸ hclears
    · exact absurd h (hapart.en_get hk)
  · exact ⟨fun _ => hsets, fun h => absurd h.symm hbyp, fun k h => absurd h.symm (hapart.enByp k)⟩
  · exact hnever.elim

/-! ## The writes of phase 2 among the events of a pass -/

/-- The writes of phase 2 among some events only mute. -/
def QuiesceWritesMute (c : Cfg) (en : Two Byte) (byp : Byte) (evs : List Event) : Prop :=
  ∀ g q v, ({ phase := .quiesce, op := .qw g q v } : Event) ∈ evs → OnlyMutes c en byp q v

theorem QuiesceWritesMute.append {c : Cfg} {en : Two Byte} {byp : Byte} {xs ys : List Event}
    (hx : QuiesceWritesMute c en byp xs) (hy : QuiesceWritesMute c en byp ys) :
    QuiesceWritesMute c en byp (xs ++ ys) := fun g q v hmem =>
  (List.mem_append.1 hmem).elim (hx g q v) (hy g q v)

theorem PhaseEvents.quiesceWritesMute {c : Cfg} (hc : admissible c = true) {en : Two Byte} {byp : Byte}
    {evs : List Event} (h : PhaseEvents c .quiesce (quiesceAllowed c en byp) evs) :
    QuiesceWritesMute c en byp evs := by
  intro g q v hmem
  obtain ⟨_, hadmits | ⟨_, _, hop, _⟩⟩ := h _ hmem
  · exact quiesceAllowed_onlyMutes hc hadmits
  · cases hop

/-- Events of another phase hold no write of phase 2. -/
theorem PhaseEvents.quiesceWritesMute_of_ne {c : Cfg} {p : Phase} {al : Allowed} {evs : List Event}
    (h : PhaseEvents c p al evs) (hp : p ≠ .quiesce) (en : Two Byte) (byp : Byte) :
    QuiesceWritesMute c en byp evs := fun _ _ _ hmem => absurd (h _ hmem).1.symm hp

theorem PassEvents.quiesceWritesMute {c : Cfg} (hc : admissible c = true) {en : Two Byte} {byp : Byte}
    {evs : List Event} (h : PassEvents c en byp evs) : QuiesceWritesMute c en byp evs := by
  obtain ⟨w, q, d, g, r, rfl, hw, _, _, hq, hd, hg, hr⟩ := h
  exact ((((hw.quiesceWritesMute_of_ne nofun en byp).append (hq.quiesceWritesMute hc)).append
    (hd.quiesceWritesMute_of_ne nofun en byp)).append (hg.quiesceWritesMute_of_ne nofun en byp)).append
    (hr.quiesceWritesMute_of_ne nofun en byp)

/-- The step adds events whose writes of phase 2 only mute. -/
def AddsMuting (s t : State) : Prop :=
  ∃ evs, t.io.trace = s.io.trace ++ evs ∧ QuiesceWritesMute s.cfg s.g.en s.g.byp evs

theorem RestEvents.addsMuting {s t : State} (hc : admissible s.cfg = true)
    (h : RestEvents s.g.en s.g.byp s t) : AddsMuting s t := by
  obtain ⟨evs, htrace, q, d, g, r, rfl, hq, hd, hg, hr⟩ := h
  exact ⟨_, htrace, (((hq.quiesceWritesMute hc).append (hd.quiesceWritesMute_of_ne nofun _ _)).append
    (hg.quiesceWritesMute_of_ne nofun _ _)).append (hr.quiesceWritesMute_of_ne nofun _ _)⟩

/-- A wait of phase 2, and what follows it. -/
theorem waitThen_restEvents {w : WaitName} (site : WaitSite) {next : State → State} {s : State}
    (hph : s.w.ph = .quiesce) (hmay : mayWait .quiesce w)
    (hnext : ∀ u, u.w.ph = .quiesce → RestEvents u.g.en s.g.byp u (next u)) :
    RestEvents s.g.en s.g.byp s (waitThen w site next s) := by
  obtain ⟨q, htrace, hq⟩ := waitPoll_phaseEvents w (quiesceAllowed s.cfg s.g.en s.g.byp) s (hph ▸ hmay)
  rw [hph] at hq
  apply waitThen_ind
  · intro _
    have hrest := hnext { waitPoll w s with site := none } (by simp [hph])
    rw [show ({ waitPoll w s with site := none } : State).g = s.g from waitPoll_g w s] at hrest
    exact .after htrace (waitPoll_cfg w s) hq hrest
  · exact fun _ => .of_trace htrace hq
  · exact fun _ => .of_trace htrace hq

/-- PH already at P_WAIT, the later polls of the transfer wait are phase 1's (rule R122). -/
theorem resumeWait_applyXfer_eq {s : State} (hph : s.w.ph = .wait) :
    resumeWait .applyXfer s = phaseWait s := by
  obtain ⟨_, _, ⟨⟩, _, _, _, _⟩ := s
  cases hph
  rfl

theorem resumeWait_addsMuting {s : State} {site : WaitSite} (hc : admissible s.cfg = true)
    (hph : s.w.ph = sitePhase site) (hpass : site = .applyXfer ∨ site = .applyFade ∨ site = .applySine) :
    AddsMuting s (resumeWait site s) := by
  rcases hpass with rfl | rfl | rfl
  · rw [resumeWait_applyXfer_eq hph]
    obtain ⟨evs, htrace, hevs⟩ := phaseWait_events s
    exact ⟨evs, htrace, hevs.quiesceWritesMute hc⟩
  · exact (waitThen_restEvents _ hph (.inl rfl) fun u => quiesceFaded_events u _).addsMuting hc
  · exact (waitThen_restEvents _ hph (.inr rfl) fun u => quiesceSilent_events u _).addsMuting hc

/-- An APPLY past its status gate writes in phase 2 what the phases of its pass do. -/
theorem applyBlob_addsMuting {blob : List Byte} {s : State} (hc : admissible s.cfg = true) :
    AddsMuting s (applyBlob blob s) := by
  unfold applyBlob
  simp only
  split
  · exact ⟨[], (List.append_nil _).symm, nofun⟩
  · rename_i r _
    obtain ⟨evs, htrace, hevs⟩ := phaseWait_events (commitPass r (latchAnalyse blob s))
    exact ⟨evs, htrace, hevs.quiesceWritesMute hc⟩

/-- Settles O53: every write of phase 2 is within its allowance (`phaseWait_events`, `waitThen_restEvents`),
which is to mute only. -/
theorem quiesceOnlyMutes : Obligations.QuiesceOnlyMutes := by
  constructor
  · intro s t blob g q v hc h hmem
    rw [exec, execApply, onCommand_next_iff] at h
    obtain ⟨_, rfl⟩ := h
    simp only at hmem
    split at hmem
    · obtain ⟨evs, htrace, hevs⟩ := applyBlob_addsMuting (blob := blob) (s := accept .cmd s) hc
      rw [htrace] at hmem
      exact hevs g q v hmem
    · cases hmem
  · intro s t site hc hs hsite hpass h
    obtain ⟨_, rfl⟩ := step_of_site hsite h
    exact resumeWait_addsMuting hc (by rw [hs.phase, hsite]; rfl) hpass

end Sys2Proof.Machine
end

section
/-! A pass wait by wait (rules R122 to R127, R182). From each of its three waits the pass comes, past those that
return OK, to a wait that holds it up or fails, or past the last one to its part that cannot end early (`Comes`,
`Ends`). In between, phase 2 mutes once (`muted_facts`), and a wait changes nothing that a pass reads
(`Kept`). -/

namespace Sys2Proof.Machine

/-! ## The waits of a pass, one after another -/

/-- Steps Q1 and Q2 from the entry of phase 2 (rules R123 to R126). -/
def muted (s : State) : State := stepQ2 (stepQ1 (enter .quiesce s))

/-- The next wait of a pass whose wait `w` has returned OK in `s`, if it makes another (rule R127). -/
def nextWait : WaitName → State → Option WaitName
  | .xfer, s =>
    if bypassOn (enter .quiesce s) ≠ s.g.byp then some .fade
    else if (muted s).w.sil then some .sine else none
  | .fade, s => if s.w.sil then some .sine else none
  | .sine, _ => none

/-- What the pass does before that next wait: after phase 1's wait it mutes. -/
def proceed : WaitName → State → State
  | .xfer, s => muted s
  | .fade, s => s
  | .sine, s => s

/-- The state in which a command goes on whose wait has returned OK. -/
def waited (w : WaitName) (s : State) : State := { waitPoll w s with site := none }

/-- The pass from its wait `w` on, or past its last one. -/
def runFrom : Option WaitName → State → State
  | some w, s => resumeWait (passSite w) s
  | none, s => quiesceSilent s

theorem runFrom_some (w : WaitName) (s : State) :
    runFrom (some w) s = waitThen w (passSite w) (fun u => runFrom (nextWait w u) (proceed w u)) s := by
  have hfaded : quiesceFaded = fun u => runFrom (nextWait .fade u) u := by
    funext u
    simp only [quiesceFaded, nextWait]
    split <;> rfl
  cases w with
  | sine => rfl
  | fade => exact congrArg (waitThen .fade .applyFade · s) hfaded
  | xfer =>
    refine congrArg (waitThen .xfer .applyXfer · s) (funext fun u => ?_)
    rw [quiesceBegin_eq]
    simp only [nextWait]
    split
    · rfl
    · exact congrFun hfaded (muted u)

/-- The pass that stands before the wait `start` (past the last, if none) in `s` comes to `pos` in `u`, all waits
in between having returned OK. -/
inductive Comes (start : Option WaitName) (s : State) : Option WaitName → State → Prop where
  | here : Comes start s start s
  | on {w : WaitName} {u : State} : Comes start s (some w) u → (waitPoll w u).io.waitRes = .ok →
      Comes start s (nextWait w (waited w u)) (proceed w (waited w u))

/-- The pass does not get past `pos`, where it stands in `u`, and leaves `t`: it is held up, or ends early, or
completes. -/
inductive Ends : Option WaitName → State → State → Prop where
  | holds {w : WaitName} {u : State} : (waitPoll w u).io.waitRes = .polling →
      Ends (some w) u { waitPoll w u with site := some (passSite w) }
  | fails {w : WaitName} {u : State} : (waitPoll w u).io.waitRes = .failed →
      Ends (some w) u (earlyEnd .runtime (waited w u))
  | completes {u : State} : Ends none u (quiesceSilent u)

/-- How many waits a pass still makes at most. -/
def waitsToCome : Option WaitName → Nat
  | some .xfer => 3
  | some .fade => 2
  | some .sine => 1
  | none => 0

theorem waitsToCome_nextWait (w : WaitName) (s : State) :
    waitsToCome (nextWait w s) < waitsToCome (some w) := by
  cases w with
  | sine => exact Nat.zero_lt_one
  | fade => simp only [nextWait]; split <;> decide
  | xfer => simp only [nextWait]; split_ifs <;> decide

theorem Comes.runFrom_ends {start : Option WaitName} {s : State} : ∀ {pos : Option WaitName} {u : State},
    Comes start s pos u → ∃ pos' u', Comes start s pos' u' ∧ Ends pos' u' (runFrom pos u)
  | none, u, h => ⟨none, u, h, .completes⟩
  | some w, u, h => by
    rw [runFrom_some]
    rcases waitThen_cases w (passSite w) (fun v => runFrom (nextWait w v) (proceed w v)) u with
      ⟨he, hres⟩ | ⟨he, hres⟩ | ⟨he, hres⟩ <;> rw [he]
    · exact (h.on hres).runFrom_ends
    · exact ⟨_, u, h, .fails hres⟩
    · exact ⟨_, u, h, .holds hres⟩
termination_by pos => waitsToCome pos
decreasing_by exact waitsToCome_nextWait w _

/-- All that the step of a pass at one of its waits can come to. -/
theorem resumeWait_ends (w : WaitName) (s : State) :
    ∃ pos u, Comes (some w) s pos u ∧ Ends pos u (resumeWait (passSite w) s) :=
  Comes.here.runFrom_ends (pos := some w)

theorem passSite_of_pass {site : WaitSite} (h : site = .applyXfer ∨ site = .applyFade ∨ site = .applySine) :
    ∃ w, site = passSite w := by
  rcases h with rfl | rfl | rfl
  · exact ⟨.xfer, rfl⟩
  · exact ⟨.fade, rfl⟩
  · exact ⟨.sine, rfl⟩

theorem passSite_inj {w w' : WaitName} : passSite w = passSite w' ↔ w = w' := by
  cases w <;> cases w' <;> simp [passSite]

theorem passSite_eq_applyXfer {w : WaitName} : passSite w = .applyXfer ↔ w = .xfer := passSite_inj (w' := .xfer)

/-- From phase 1 the pass first mutes. -/
theorem Comes.from_xfer {s u : State} {pos : Option WaitName} (h : Comes (some .xfer) s pos u) :
    (pos = some .xfer ∧ u = s) ∨ ((waitPoll .xfer s).io.waitRes = .ok ∧
      Comes (nextWait .xfer (waited .xfer s)) (muted (waited .xfer s)) pos u) := by
  induction h with
  | here => exact .inl ⟨rfl, rfl⟩
  | on h hres ih =>
    rcases ih with ⟨hpos, rfl⟩ | ⟨hok, hcomes⟩
    · cases hpos
      exact .inr ⟨hres, .here⟩
    · exact .inr ⟨hok, hcomes.on hres⟩

theorem nextWait_ne_xfer (w : WaitName) (s : State) : nextWait w s ≠ some .xfer := by
  cases w with
  | sine => nofun
  | fade => simp only [nextWait]; split <;> nofun
  | xfer => simp only [nextWait]; split_ifs <;> nofun

/-! ## What a wait leaves alone -/

/-- `u` is `s` but for a flush, polls and the return paths: nothing that a pass reads has changed. -/
structure Kept (s u : State) : Prop where
  cfg : u.cfg = s.cfg
  g : u.g = s.g
  w : u.w = { s.w with qn := u.w.qn }
  inbox : u.io.inbox = s.io.inbox
  reads : u.orc.reads = s.orc.reads
  device : DeviceOk s → DeviceOk u
  pending : DeviceOk s → ∀ a, pendingValue u a = pendingValue s a

theorem Kept.refl (s : State) : Kept s s := ⟨rfl, rfl, rfl, rfl, rfl, id, fun _ _ => rfl⟩

theorem Kept.trans {s t u : State} (h : Kept s t) (h' : Kept t u) : Kept s u :=
  ⟨h'.cfg.trans h.cfg, h'.g.trans h.g,
    h'.w.trans (congrArg (fun x : Working => { x with qn := u.w.qn }) h.w),
    h'.inbox.trans h.inbox, h'.reads.trans h.reads,
    h'.device ∘ h.device, fun hs a => (h'.pending (h.device hs) a).trans (h.pending hs a)⟩

theorem Kept.ar {s u : State} (h : Kept s u) : u.w.ar = s.w.ar := (congrArg Working.ar h.w :)
theorem Kept.ph {s u : State} (h : Kept s u) : u.w.ph = s.w.ph := (congrArg Working.ph h.w :)
theorem Kept.prec {s u : State} (h : Kept s u) : u.w.prec = s.w.prec := (congrArg Working.prec h.w :)
theorem Kept.xoff {s u : State} (h : Kept s u) : u.w.xoff = s.w.xoff := (congrArg Working.xoff h.w :)
theorem Kept.sil {s u : State} (h : Kept s u) : u.w.sil = s.w.sil := (congrArg Working.sil h.w :)
theorem Kept.sinsave {s u : State} (h : Kept s u) : u.w.sinsave = s.w.sinsave := (congrArg Working.sinsave h.w :)
theorem Kept.onw {s u : State} (h : Kept s u) : u.w.onw = s.w.onw := (congrArg Working.onw h.w :)
theorem Kept.restore {s u : State} (h : Kept s u) : u.w.restore = s.w.restore := (congrArg Working.restore h.w :)
theorem Kept.ix {s u : State} (h : Kept s u) : u.w.ix = s.w.ix := (congrArg Working.ix h.w :)
theorem Kept.trigpend {s u : State} (h : Kept s u) : u.w.trigpend = s.w.trigpend :=
  (congrArg Working.trigpend h.w :)
theorem Kept.passRecord {s u : State} (h : Kept s u) : passRecord u = passRecord s := passRecord_congr h.ar

theorem waitPoll_reads (w : WaitName) (s : State) : (waitPoll w s).orc.reads = s.orc.reads := by
  unfold waitPoll poll pollSeen
  split
  · split <;> simp
  · simp [pollFailed]

theorem waitPoll_kept (w : WaitName) (s : State) (x : Option WaitSite) :
    Kept s { waitPoll w s with site := x } where
  cfg := waitPoll_cfg w s
  g := waitPoll_g w s
  w := by simp
  inbox := waitPoll_io_inbox w s
  reads := waitPoll_reads w s
  device hs := withSite_deviceOk x (waitPoll_deviceOk w hs)
  pending hs a := pendingValue_waitPoll w hs.shadow a

/-- Past phase 1 a pass that comes to a later wait has only waited. -/
theorem Comes.kept {start pos : Option WaitName} {s u : State} (h : Comes start s pos u)
    (hstart : start ≠ some .xfer) : pos ≠ some .xfer ∧ Kept s u := by
  induction h with
  | here => exact ⟨hstart, .refl s⟩
  | @on w u h hres ih =>
    obtain ⟨hlate, hkept⟩ := ih
    refine ⟨nextWait_ne_xfer _ _, ?_⟩
    cases w with
    | xfer => exact absurd rfl hlate
    | fade | sine => exact hkept.trans (waitPoll_kept _ u none)

/-! ## What phase 2 does before its waits -/

theorem stepQ1_orc (s : State) : (stepQ1 s).orc = s.orc := by
  unfold stepQ1
  simp only
  split <;> rfl

@[simp] theorem stepQ1_ix (s : State) : (stepQ1 s).w.ix = s.w.ix := by
  unfold stepQ1; simp only; split <;> rfl

@[simp] theorem stepQ2_ix (s : State) : (stepQ2 s).w.ix = s.w.ix := by
  unfold stepQ2; split
  · simp only; split <;> simp
  · rfl

theorem stepQ2_waits (s : State) : (stepQ2 s).orc.waits = s.orc.waits := by
  unfold stepQ2; split
  · simp only; split <;> simp
  · rfl

theorem muted_acts (s : State) :
    Acts (quiesceAllowed s.cfg s.g.en s.g.byp) (enter .quiesce s) (muted s) := stepQ1Q2_acts s

theorem muted_waits (s : State) : (muted s).orc.waits = s.orc.waits := by
  rw [muted, stepQ2_waits, stepQ1_orc]
  rfl

/-- What muting leaves, from the state after phase 1's wait (rules R123, R124). -/
structure MutedFrom (s u : State) : Prop where
  cfg : u.cfg = s.cfg
  ar : u.w.ar = s.w.ar
  ph : u.w.ph = .quiesce
  site : u.site = s.site
  inbox : u.io.inbox = s.io.inbox
  g : u.g = { s.g with byp := bypAfterQ1 s.cfg (passRecord s) s.g.byp }
  prec : u.w.prec = needBits s.cfg (passRecord s) &&& ~~~s.g.byp &&& ~~~askedBits s.cfg (passRecord s) .start
  xoff : u.w.xoff = askedBits s.cfg (passRecord s) .stop
  loaded : u.w.onw = s.w.onw ∧ u.w.restore = s.w.restore ∧ u.w.trigpend = s.w.trigpend ∧ u.w.ix = s.w.ix
  device : DeviceOk s → DeviceOk u

theorem muted_from (s : State) : MutedFrom s (muted s) where
  cfg := (muted_acts s).samePhase.cfg
  ar := (muted_acts s).samePhase.ar
  ph := (muted_acts s).samePhase.ph
  site := (muted_acts s).samePhase.site
  inbox := (muted_acts s).samePhase.inbox
  g := by
    rw [muted, stepQ2_g, stepQ1_g, bypAfterQ1_eq]
    rfl
  prec := by
    rw [muted, stepQ2_prec, stepQ1_prec, needBits_eq, askedBits_eq]
    rfl
  xoff := by
    rw [muted, stepQ2_xoff, stepQ1_xoff, askedBits_eq]
    rfl
  loaded := by simp [muted]
  device hs := (muted_acts s).deviceOk (hs.congr rfl rfl)

/-- The byte that the answers given from outside have the next read return. -/
def ReadsNext (reads : List Byte) (v : Byte) : Prop := ∀ u rest, reads = u :: rest → v = u

/-- What muting emits, and what it notes of the sine, by the byte that R_SINOUT returns (rules R124, R126). -/
theorem muted_facts (s : State) : ∃ v, ReadsNext s.orc.reads v ∧
    accessed (muted s) = accessed s ++ eventsIn .quiesce (mutingAccesses s.cfg (passRecord s) s.g v) ∧
    (muted s).w.sil = (silences s.cfg (passRecord s) s.g v || s.w.sil) ∧
    (silences s.cfg (passRecord s) s.g v = true → (muted s).w.sinsave = v) := by
  obtain ⟨v, hv, haccessed, hsil, hsave⟩ := stepQ2_cases (stepQ1 (enter .quiesce s))
  have hq1 := (stepQ1_acts (enter .quiesce s) s.g.en).samePhase
  have hbyp : bypassOn (enter .quiesce s) = bypAfterQ1 s.cfg (passRecord s) s.g.byp :=
    (bypAfterQ1_eq (enter .quiesce s)).symm
  rw [hq1.cfg, passRecord_congr hq1.ar, hq1.sinsrc, hq1.ph, accessed_stepQ1, hbyp, List.append_assoc,
    ← eventsIn_append] at haccessed
  rw [hq1.cfg, passRecord_congr hq1.ar, hq1.sinsrc, stepQ1_sil] at hsil
  rw [hq1.cfg, passRecord_congr hq1.ar, hq1.sinsrc] at hsave
  refine ⟨v, fun u rest hreads => hv u rest (by rw [stepQ1_orc]; exact hreads), ?_, hsil, hsave⟩
  rw [mutingAccesses, List.append_assoc]
  exact haccessed

/-! ## The waits to come, and what they emit -/

/-- The waits that a pass makes from `pos` on (rules R122, R127). -/
def waitsLeft (c : Cfg) (r : AnalysisRecord) (g : Globals) (sine : Bool) : Option WaitName → List WaitName
  | some w => waitsFrom c r g sine (passSite w)
  | none => []

/-- A wait of phase 2 is the first of those from it on. -/
theorem waitsLeft_late {w : WaitName} (hw : w ≠ .xfer) (c : Cfg) (r : AnalysisRecord) (g : Globals) (u : State) :
    waitsLeft c r g u.w.sil (some w) = w :: waitsLeft c r g u.w.sil (nextWait w u) := by
  cases w with
  | xfer => exact absurd rfl hw
  | fade =>
    cases hsil : u.w.sil <;> simp [waitsLeft, waitsFrom, passSite, nextWait, hsil]
  | sine => rfl

theorem nextWait_xfer (s : State) : nextWait .xfer s =
    if bypAfterQ1 s.cfg (passRecord s) s.g.byp ≠ s.g.byp then some .fade
    else if (muted s).w.sil then some .sine else none := by
  rw [nextWait, show bypassOn (enter .quiesce s) = bypAfterQ1 s.cfg (passRecord s) s.g.byp from
    (bypAfterQ1_eq (enter .quiesce s)).symm]

/-- The waits of phase 2 by its muting. -/
theorem waitsLeft_nextWait_xfer (s : State) :
    waitsLeft s.cfg (passRecord s) s.g (muted s).w.sil (nextWait .xfer s) =
      (if bypAfterQ1 s.cfg (passRecord s) s.g.byp ≠ s.g.byp then [.fade] else []) ++
        (if (muted s).w.sil then [.sine] else []) := by
  rw [nextWait_xfer]
  split
  · rfl
  · cases (muted s).w.sil <;> rfl

theorem nextWait_xfer_eq_fade {s : State} (h : nextWait .xfer s = some .fade) :
    bypAfterQ1 s.cfg (passRecord s) s.g.byp ≠ s.g.byp := by
  by_contra hsame
  rw [nextWait_xfer, if_neg (not_not.2 hsame)] at h
  split at h <;> cases h

theorem nextWait_xfer_eq_sine {s : State} (h : nextWait .xfer s = some .sine) : (muted s).w.sil = true := by
  by_contra hsil
  rw [nextWait_xfer, if_neg hsil] at h
  split at h <;> cases h

/-- Waits that return OK, as the trace shows them. -/
def okWaits (ws : List WaitName) : List PortOp := ws.map fun w => .wait w true

/-- In phase 2 what has been emitted and the waits to come make up the same accesses at each wait. -/
theorem Comes.accessed_append {start pos : Option WaitName} {s u : State} (h : Comes start s pos u)
    (hstart : start ≠ some .xfer) (hph : s.w.ph = .quiesce) (c : Cfg) (r : AnalysisRecord) (g : Globals) :
    accessed u ++ eventsIn .quiesce (okWaits (waitsLeft c r g s.w.sil pos)) =
      accessed s ++ eventsIn .quiesce (okWaits (waitsLeft c r g s.w.sil start)) := by
  induction h with
  | here => rfl
  | @on w u h hres ih =>
    obtain ⟨hlate, hkept⟩ := h.kept hstart
    have hne : w ≠ .xfer := fun hw => hlate (congrArg some hw)
    have hproceed : proceed w (waited w u) = waited w u := by
      cases w with
      | xfer => exact absurd rfl hne
      | fade | sine => rfl
    have hpolled := hkept.trans (waitPoll_kept w u none)
    have hfirst := waitsLeft_late hne c r g (waited w u)
    rw [show (waited w u).w.sil = s.w.sil from hpolled.sil] at hfirst
    have hemitted : accessed (waited w u) = accessed u ++ eventsIn .quiesce [.wait w true] := by
      rw [← hph, ← hkept.ph]
      exact accessed_waitPoll_ok hres
    rw [← ih, hproceed, hemitted, hfirst, List.append_assoc, ← eventsIn_append]
    rfl

end Sys2Proof.Machine
end

section
/-! What a pass of the record `r` from the global state `g` holds at each of its waits, `v` the byte that
R_SINOUT returned once phase 2 has read it (rules R121 to R127): the state in phase 1 (`Committed`), the state
once phase 2 has muted (`MutedAt`), and that a pass held up in a wait holds it (`HeldPass`). -/

namespace Sys2Proof.Machine

/-! ## In phase 1, and past it -/

/-- The pass's other registers, as rule R121 loads them. -/
def Loaded (r : AnalysisRecord) (s : State) : Prop :=
  s.w.onw = r.on ∧ s.w.restore = { k0 := 0, k1 := 0 } ∧ s.w.trigpend = false ∧ s.w.ix = 0

/-- In phase 1: the request is committed, nothing muted yet (rules R121, R122). -/
structure Committed (r : AnalysisRecord) (g : Globals) (s : State) : Prop where
  record : s.w.ar = .record r
  inited : g.st = .inited
  globals : s.g = g
  prec : s.w.prec = 0
  xoff : s.w.xoff = 0
  sil : s.w.sil = false
  loaded : Loaded r s

/-- Past phase 1: what phase 2's muting has noted (rules R123 to R126). -/
structure MutedPass (r : AnalysisRecord) (g : Globals) (v : Byte) (s : State) : Prop where
  record : s.w.ar = .record r
  inited : g.st = .inited
  globals : s.g = { g with byp := bypAfterQ1 s.cfg r g.byp }
  prec : s.w.prec = needBits s.cfg r &&& ~~~g.byp &&& ~~~askedBits s.cfg r .start
  xoff : s.w.xoff = askedBits s.cfg r .stop
  sil : s.w.sil = silences s.cfg r g v
  sinsave : s.w.sil = true → s.w.sinsave = v
  loaded : Loaded r s

/-- The accesses of a pass up to the end of phase 2's waits, every wait OK (rules R122 to R127). -/
def mutedAccesses (c : Cfg) (r : AnalysisRecord) (g : Globals) (v : Byte) : List Event :=
  eventsIn .wait [.wait .xfer true] ++ eventsIn .quiesce (mutingAccesses c r g v ++
    (if bypAfterQ1 c r g.byp ≠ g.byp then [.wait .fade true] else []) ++
    (if silences c r g v then [.wait .sine true] else []))

theorem mutedAccesses_eq (c : Cfg) (r : AnalysisRecord) (g : Globals) (v : Byte) :
    eventsIn .wait [.wait .xfer true] ++ eventsIn .quiesce (mutingAccesses c r g v) ++
      eventsIn .quiesce (okWaits ((if bypAfterQ1 c r g.byp ≠ g.byp then [.fade] else []) ++
        (if silences c r g v then [.sine] else []))) = mutedAccesses c r g v := by
  simp only [mutedAccesses, okWaits, List.map_append, List.append_assoc, ← eventsIn_append,
    apply_ite (List.map _), List.map_cons, List.map_nil]

/-- Past phase 1 before the wait `pos`, or past the last one (rule R127). -/
structure MutedAt (r : AnalysisRecord) (g : Globals) (v : Byte) (pos : Option WaitName) (s : State) : Prop where
  muted : MutedPass r g v s
  ph : s.w.ph = .quiesce
  late : pos ≠ some .xfer
  faded : pos = some .fade → bypAfterQ1 s.cfg r g.byp ≠ g.byp
  silenced : pos = some .sine → silences s.cfg r g v = true
  emitted : accessed s ++ eventsIn .quiesce (okWaits (waitsLeft s.cfg r g (silences s.cfg r g v) pos)) =
    mutedAccesses s.cfg r g v

/-- The pass stands before its wait `pos`, or past the last one. -/
def PassAt (r : AnalysisRecord) (g : Globals) (v : Byte) (pos : Option WaitName) (s : State) : Prop :=
  (pos = some .xfer ∧ Committed r g s ∧ s.w.ph = .wait ∧ accessed s = []) ∨ MutedAt r g v pos s

theorem Kept.loaded {r : AnalysisRecord} {s u : State} (h : Kept s u) (hs : Loaded r s) : Loaded r u := by
  obtain ⟨honw, hrestore, htrig, hix⟩ := hs
  exact ⟨h.onw.trans honw, h.restore.trans hrestore, h.trigpend.trans htrig, h.ix.trans hix⟩

theorem Committed.kept {r : AnalysisRecord} {g : Globals} {s u : State} (h : Committed r g s) (hk : Kept s u) :
    Committed r g u where
  record := hk.ar.trans h.record
  inited := h.inited
  globals := hk.g.trans h.globals
  prec := hk.prec.trans h.prec
  xoff := hk.xoff.trans h.xoff
  sil := hk.sil.trans h.sil
  loaded := hk.loaded h.loaded

theorem MutedPass.kept {r : AnalysisRecord} {g : Globals} {v : Byte} {s u : State} (h : MutedPass r g v s)
    (hk : Kept s u) : MutedPass r g v u where
  record := hk.ar.trans h.record
  inited := h.inited
  globals := hk.cfg ▸ hk.g.trans h.globals
  prec := hk.cfg ▸ hk.prec.trans h.prec
  xoff := hk.cfg ▸ hk.xoff.trans h.xoff
  sil := hk.cfg ▸ hk.sil.trans h.sil
  sinsave hsil := hk.sinsave.trans (h.sinsave (hk.sil.symm.trans hsil))
  loaded := hk.loaded h.loaded

/-! ## From wait to wait -/

theorem exists_readsNext (reads : List Byte) : ∃ v, ReadsNext reads v := by
  cases reads with
  | nil => exact ⟨0, nofun⟩
  | cons x rest => exact ⟨x, fun y rest' hcons => (List.cons.inj hcons).1⟩

theorem Comes.faded {start pos : Option WaitName} {s u : State} (h : Comes start s pos u)
    (hstart : start ≠ some .xfer) (hpos : pos = some .fade) : start = some .fade := by
  induction h with
  | here => exact hpos
  | @on w u h hres ih =>
    cases w with
    | xfer => exact absurd rfl (h.kept hstart).1
    | fade => exact ih rfl
    | sine => cases hpos

theorem Comes.silenced {start pos : Option WaitName} {s u : State} (h : Comes start s pos u)
    (hstart : start ≠ some .xfer) (hpos : pos = some .sine) : start = some .sine ∨ s.w.sil = true := by
  induction h with
  | here => exact .inl hpos
  | @on w u h hres ih =>
    obtain ⟨hlate, hkept⟩ := h.kept hstart
    cases w with
    | xfer => exact absurd rfl hlate
    | sine => exact ih rfl
    | fade =>
      refine .inr ((hkept.trans (waitPoll_kept .fade u none)).sil.symm.trans ?_)
      by_contra hsil
      exact nomatch (if_neg hsil : nextWait .fade (waited .fade u) = none).symm.trans hpos

theorem MutedAt.comes {r : AnalysisRecord} {g : Globals} {v : Byte} {start pos : Option WaitName} {s u : State}
    (h : MutedAt r g v start s) (hcomes : Comes start s pos u) : MutedAt r g v pos u := by
  obtain ⟨hlate, hkept⟩ := hcomes.kept h.late
  have hcfg := hkept.cfg
  have hsplit := hcomes.accessed_append h.late h.ph s.cfg r g
  rw [h.muted.sil, h.emitted] at hsplit
  exact {
    muted := h.muted.kept hkept
    ph := hkept.ph.trans h.ph
    late := hlate
    faded := fun hpos => hcfg ▸ h.faded (hcomes.faded h.late hpos)
    silenced := fun hpos => hcfg ▸ (hcomes.silenced h.late hpos).elim h.silenced (h.muted.sil.symm.trans ·)
    emitted := hcfg ▸ hsplit }

theorem Committed.mutedPass {r : AnalysisRecord} {g : Globals} {s : State} (h : Committed r g s) :
    ∃ v, ReadsNext s.orc.reads v ∧ MutedPass r g v (Machine.muted s) ∧
      accessed (Machine.muted s) = accessed s ++ eventsIn .quiesce (mutingAccesses s.cfg r g v) := by
  obtain ⟨v, hv, haccessed, hsil, hsave⟩ := muted_facts s
  have hfrom := muted_from s
  have hr : passRecord s = r := congrArg recordOf h.record
  obtain ⟨honw, hrestore, htrig, hix⟩ := hfrom.loaded
  obtain ⟨honw', hrestore', htrig', hix'⟩ := h.loaded
  rw [hr, h.globals] at haccessed hsil hsave
  rw [h.sil, Bool.or_false] at hsil
  refine ⟨v, hv, ?_, haccessed⟩
  exact {
    record := hfrom.ar.trans h.record
    inited := h.inited
    globals := by rw [hfrom.g, hfrom.cfg, hr, h.globals]
    prec := by rw [hfrom.prec, hfrom.cfg, hr, h.globals]
    xoff := by rw [hfrom.xoff, hfrom.cfg, hr]
    sil := by rw [hsil, hfrom.cfg]
    sinsave := fun hs => hsave (hsil.symm.trans hs)
    loaded := ⟨honw.trans honw', hrestore.trans hrestore', htrig.trans htrig', hix.trans hix'⟩ }

/-- Phase 1's wait OK, the pass mutes and stands before the first wait of phase 2 that it makes. -/
theorem Committed.mutedAt {r : AnalysisRecord} {g : Globals} {s : State} (h : Committed r g s)
    (hph : s.w.ph = .wait) (hempty : accessed s = []) (hres : (waitPoll .xfer s).io.waitRes = .ok) :
    ∃ v, ReadsNext s.orc.reads v ∧
      MutedAt r g v (nextWait .xfer (waited .xfer s)) (Machine.muted (waited .xfer s)) := by
  have hkept : Kept s (waited .xfer s) := waitPoll_kept .xfer s none
  have hcommitted := h.kept hkept
  obtain ⟨v, hv, hmuted, haccessed⟩ := hcommitted.mutedPass
  have hfrom := muted_from (waited .xfer s)
  have hr : passRecord (waited .xfer s) = r := congrArg recordOf hcommitted.record
  have hwaits := waitsLeft_nextWait_xfer (waited .xfer s)
  rw [hr, hcommitted.globals, hmuted.sil, hfrom.cfg] at hwaits
  have hwaited : accessed (waited .xfer s) = eventsIn .wait [.wait .xfer true] := by
    have hpolled := accessed_waitPoll_ok hres
    rwa [hempty, hph, List.nil_append] at hpolled
  refine ⟨v, hkept.reads ▸ hv, ?_⟩
  exact {
    muted := hmuted
    ph := hfrom.ph
    late := nextWait_ne_xfer _ _
    faded := fun hfade => by
      rw [hfrom.cfg, ← hr, ← hcommitted.globals]
      exact nextWait_xfer_eq_fade hfade
    silenced := fun hsine => hmuted.sil.symm.trans (nextWait_xfer_eq_sine hsine)
    emitted := by
      rw [hfrom.cfg, hwaits, haccessed, hwaited, mutedAccesses_eq] }

theorem PassAt.comes {r : AnalysisRecord} {g : Globals} {v : Byte} {start pos : Option WaitName} {s u : State}
    (h : PassAt r g v start s) (hcomes : Comes start s pos u) :
    ∃ v', (start ≠ some .xfer → v' = v) ∧ (start = some .xfer → ReadsNext s.orc.reads v') ∧
      PassAt r g v' pos u := by
  rcases h with ⟨rfl, hcommitted, hph, hempty⟩ | hmuted
  · rcases hcomes.from_xfer with ⟨rfl, hu⟩ | ⟨hres, hlate⟩
    · obtain ⟨v', hv'⟩ := exists_readsNext s.orc.reads
      exact ⟨v', fun hne => absurd rfl hne, fun _ => hv', .inl ⟨rfl, hu ▸ ⟨hcommitted, hph, hempty⟩⟩⟩
    · obtain ⟨v', hv', hat⟩ := hcommitted.mutedAt hph hempty hres
      exact ⟨v', fun hne => absurd rfl hne, fun _ => hv', .inr (hat.comes hlate)⟩
  · exact ⟨v, fun _ => rfl, fun hstart => absurd hstart hmuted.late, .inr (hmuted.comes hcomes)⟩

/-! ## A pass held up in a wait -/

/-- The accesses before a wait of phase 2, and those of the waits from it on. -/
theorem accessesBeforeWait_append {c : Cfg} {r : AnalysisRecord} {g : Globals} {v : Byte} {w : WaitName}
    (hw : w ≠ .xfer) (hfaded : w = .fade → bypAfterQ1 c r g.byp ≠ g.byp)
    (hsilenced : w = .sine → silences c r g v = true) :
    accessesBeforeWait c r g v (passSite w) ++
      eventsIn .quiesce (okWaits (waitsLeft c r g (silences c r g v) (some w))) = mutedAccesses c r g v := by
  cases w with
  | xfer => exact absurd rfl hw
  | fade =>
    simp only [passSite, accessesBeforeWait, mutedAccesses, waitsLeft, waitsFrom, if_pos (hfaded rfl),
      List.append_assoc, ← eventsIn_append]
    cases silences c r g v <;> rfl
  | sine =>
    simp only [passSite, accessesBeforeWait, mutedAccesses, waitsLeft, waitsFrom, hsilenced rfl, if_true,
      List.append_assoc, ← eventsIn_append]
    rfl

theorem waitPoll_polling_accessed {w : WaitName} {u : State} (hres : (waitPoll w u).io.waitRes = .polling)
    (x : Option WaitSite) : accessed { waitPoll w u with site := x } = accessed u := by
  have haccessed := accessed_waitPoll w u
  rw [hres, waitEvents, List.append_nil] at haccessed
  exact haccessed

/-- What a pass holds that its next poll leaves held up. -/
theorem PassAt.heldPass {r : AnalysisRecord} {g : Globals} {v : Byte} {w : WaitName} {u : State}
    (h : PassAt r g v (some w) u) (hres : (waitPoll w u).io.waitRes = .polling) :
    HeldPass r g v (passSite w) { waitPoll w u with site := some (passSite w) } := by
  have hkept := waitPoll_kept w u (some (passSite w))
  have haccessed := waitPoll_polling_accessed hres (some (passSite w))
  rcases h with ⟨hpos, hcommitted, _, hempty⟩ | hat
  · cases hpos
    have hc := hcommitted.kept hkept
    exact {
      isPass := .inl rfl
      held := rfl
      record := hc.record
      inited := hc.inited
      globals := hc.globals
      faded := nofun
      silenced := nofun
      prec := hc.prec
      xoff := hc.xoff
      sil := hc.sil
      sinsave := fun hsil => nomatch hc.sil.symm.trans hsil
      loaded := hc.loaded
      emitted := haccessed.trans hempty }
  · have hm := hat.muted.kept hkept
    have hw : w ≠ .xfer := fun hw => hat.late (congrArg some hw)
    have hsite : passSite w ≠ .applyXfer := mt passSite_eq_applyXfer.1 hw
    have hfaded : w = .fade → bypAfterQ1 u.cfg r g.byp ≠ g.byp := fun hw => hat.faded (congrArg some hw)
    have hsilenced : w = .sine → silences u.cfg r g v = true := fun hw => hat.silenced (congrArg some hw)
    exact {
      isPass := by cases w <;> simp [passSite]
      held := rfl
      record := hm.record
      inited := hm.inited
      globals := by rw [if_neg hsite]; exact hm.globals
      faded := fun hfade => hkept.cfg.symm ▸ hfaded (passSite_inj (w' := .fade).1 hfade)
      silenced := fun hsine => hkept.cfg.symm ▸ hsilenced (passSite_inj (w' := .sine).1 hsine)
      prec := by rw [if_neg hsite]; exact hm.prec
      xoff := by rw [if_neg hsite]; exact hm.xoff
      sil := by rw [decide_eq_true hsite, Bool.true_and]; exact hm.sil
      sinsave := hm.sinsave
      loaded := hm.loaded
      emitted := by
        rw [hkept.cfg]
        exact haccessed.trans (List.append_cancel_right
          (hat.emitted.trans (accessesBeforeWait_append hw hfaded hsilenced).symm)) }

theorem HeldPass.committed {r : AnalysisRecord} {g : Globals} {v : Byte} {s : State}
    (h : HeldPass r g v .applyXfer s) : Committed r g s :=
  ⟨h.record, h.inited, h.globals, h.prec, h.xoff, h.sil, h.loaded⟩

theorem HeldPass.mutedPass {r : AnalysisRecord} {g : Globals} {v : Byte} {site : WaitSite} {s : State}
    (h : HeldPass r g v site s) (hsite : site ≠ .applyXfer) : MutedPass r g v s where
  record := h.record
  inited := h.inited
  globals := by simpa only [if_neg hsite] using h.globals
  prec := by simpa only [if_neg hsite] using h.prec
  xoff := by simpa only [if_neg hsite] using h.xoff
  sil := by simpa only [decide_eq_true hsite, Bool.true_and] using h.sil
  sinsave := h.sinsave
  loaded := h.loaded

/-- PH is that of the wait (`Inv.phase`). -/
theorem HeldPass.passAt {r : AnalysisRecord} {g : Globals} {v : Byte} {w : WaitName} {s : State}
    (h : HeldPass r g v (passSite w) s) (hs : Inv s) : PassAt r g v (some w) s := by
  have hph : s.w.ph = sitePhase (passSite w) := by rw [hs.phase, h.held]; rfl
  by_cases hw : w = .xfer
  · subst hw
    exact .inl ⟨rfl, h.committed, hph, h.emitted⟩
  · have hsite : passSite w ≠ .applyXfer := mt passSite_eq_applyXfer.1 hw
    refine .inr ⟨h.mutedPass hsite, ?_, fun hpos => hw (Option.some.inj hpos), fun hpos => ?_, fun hpos => ?_, ?_⟩
    · rw [hph]
      cases w with
      | xfer => exact absurd rfl hw
      | fade | sine => rfl
    · exact h.faded (congrArg passSite (Option.some.inj hpos))
    · exact h.silenced (congrArg passSite (Option.some.inj hpos))
    · rw [← accessesBeforeWait_append (c := s.cfg) (r := r) (g := g) (v := v) hw
        (fun hfade => h.faded (congrArg passSite hfade)) (fun hsine => h.silenced (congrArg passSite hsine))]
      exact congrArg (· ++ _) h.emitted

/-- Where APPLY begins (rule R121). -/
theorem applyStart_passAt {s : State} {blob : List Byte} {r : AnalysisRecord} (hst : s.g.st = .inited)
    (hanalyse : analyse s.cfg blob s.g.en = .record r) (v : Byte) :
    PassAt r { s.g with sinsrc := r.sinsel.getD s.g.sinsrc } v (some .xfer) (applyStart blob r s) := by
  have hrecord : (applyStart blob r s).w.ar = .record r := by
    show analyse s.cfg blob (analysisEn (accept .cmd s)) = .record r
    rw [analysisEn, accept_g, if_pos hst, hanalyse]
  exact .inl ⟨rfl, ⟨hrecord, hst, rfl, rfl, rfl, rfl, rfl, rfl, rfl, rfl⟩, rfl, rfl⟩

end Sys2Proof.Machine
end

section
/-! What a pass leaves that has completed: group G, the guarantee of rule R139 (O46), and its accesses, those of
its phases in order (O48). -/

namespace Sys2Proof.Machine

/-! ## Which way a pass has ended -/

/-- A pass that goes on past a wait is held up in none. -/
theorem Comes.site {w : WaitName} {s u : State} (h : Comes (some w) s none u) : u.site = none := by
  generalize hpos : (none : Option WaitName) = pos at h
  cases h with
  | here => cases hpos
  | @on w' u' _ _ =>
    cases w' with
    | xfer => exact (muted_from _).site
    | fade | sine => rfl

theorem quiesceSilent_site (s : State) : (quiesceSilent s).site = s.site :=
  (resume_acts (enter .resume (phaseDownload (stepQ4 s)))).samePhase.site.trans
    ((phaseDownload_site _).trans (stepQ4_acts s 0).samePhase.site)

theorem quiesceSilent_result (s : State) : (quiesceSilent s).w.result = 0 := rfl

theorem earlyEnd_runtime_result {s : State} {c : Cfg} (h : s.cfg = c) :
    (earlyEnd .runtime s).w.result = c.eRuntime := by
  subst h
  rfl

theorem resumeWait_completed {w : WaitName} {s : State} (hc : admissible s.cfg = true)
    (hsite : (resumeWait (passSite w) s).site = none)
    (hresult : (resumeWait (passSite w) s).w.result = 0) :
    ∃ u, Comes (some w) s none u ∧ resumeWait (passSite w) s = quiesceSilent u := by
  obtain ⟨pos, u, hcomes, hends⟩ := resumeWait_ends w s
  have hcfg := resumeWait_cfg (passSite w) s
  generalize resumeWait (passSite w) s = t at *
  cases hends with
  | holds => cases hsite
  | fails =>
    exact absurd ((earlyEnd_runtime_result (s := waited _ u) hcfg).symm.trans hresult) (admissible_codes hc).1
  | completes => exact ⟨u, hcomes, rfl⟩

theorem resumeWait_aborted {w : WaitName} {s : State} (hc : admissible s.cfg = true)
    (hsite : (resumeWait (passSite w) s).site = none)
    (hresult : (resumeWait (passSite w) s).w.result = s.cfg.eRuntime) :
    ∃ w' u, Comes (some w) s (some w') u ∧ (waitPoll w' u).io.waitRes = .failed ∧
      resumeWait (passSite w) s = earlyEnd .runtime (waited w' u) := by
  obtain ⟨pos, u, hcomes, hends⟩ := resumeWait_ends w s
  generalize resumeWait (passSite w) s = t at *
  cases hends with
  | holds => cases hsite
  | fails hres => exact ⟨_, u, hcomes, hres, rfl⟩
  | completes => exact absurd (hresult.symm.trans (quiesceSilent_result u)) (admissible_codes hc).1

theorem resumeWait_held {w : WaitName} {s : State} {site : WaitSite}
    (hsite : (resumeWait (passSite w) s).site = some site) :
    ∃ w' u, Comes (some w) s (some w') u ∧ (waitPoll w' u).io.waitRes = .polling ∧ site = passSite w' ∧
      resumeWait (passSite w) s = { waitPoll w' u with site := some (passSite w') } := by
  obtain ⟨pos, u, hcomes, hends⟩ := resumeWait_ends w s
  generalize resumeWait (passSite w) s = t at *
  cases hends with
  | holds hres => exact ⟨_, u, hcomes, hres, (Option.some.inj hsite).symm, rfl⟩
  | fails => cases hsite
  | completes =>
    rw [quiesceSilent_site, hcomes.site] at hsite
    cases hsite

/-! ## Group G -/

/-- PREC takes back what the pass set for itself, XOFF clears what was asked off (rule R134). -/
theorem bypassRestored (byp need xon xoff : Byte) :
    (byp ||| need ||| xon) &&& ~~~(need &&& ~~~byp &&& ~~~xon) &&& ~~~xoff = (byp ||| xon) &&& ~~~xoff := by
  apply BitVec.eq_of_getLsbD_eq
  intro i hi
  simp only [BitVec.getLsbD_and, BitVec.getLsbD_or, BitVec.getLsbD_not, hi, decide_true, Bool.true_and]
  cases byp.getLsbD i <;> cases need.getLsbD i <;> cases xon.getLsbD i <;> simp

theorem Globals.ext_fields {x y : Globals} (hst : x.st = y.st) (hmaster : x.master = y.master)
    (hen : ∀ k, x.en.get k = y.en.get k) (hbyp : x.byp = y.byp) (hsinsrc : x.sinsrc = y.sinsrc) : x = y := by
  obtain ⟨xst, xmaster, ⟨x0, x1⟩, xbyp, xsinsrc⟩ := x
  obtain ⟨yst, ymaster, ⟨y0, y1⟩, ybyp, ysinsrc⟩ := y
  cases hst
  cases hmaster
  cases hen .k0
  cases hen .k1
  cases hbyp
  cases hsinsrc
  rfl

theorem quiesceSilent_sinsrc (s : State) : (quiesceSilent s).g.sinsrc = s.g.sinsrc :=
  (resume_acts (enter .resume (phaseDownload (stepQ4 s)))).samePhase.sinsrc.trans
    (((triggerTransfer_acts _).samePhase.sinsrc.trans (downloadItems_acts _ _).samePhase.sinsrc).trans
      (stepQ4_acts s 0).samePhase.sinsrc)

/-- The guarantee, of a pass past its waits whose bypass bookkeeping restores BYP as rule R134 has it. -/
theorem quiesceSilent_globalsAfter {u : State} {c : Cfg} {r : AnalysisRecord} {g : Globals} {byp : Byte}
    (hcfg : u.cfg = c) (hr : passRecord u = r) (hg : u.g = { g with byp := byp })
    (hbyp : byp &&& ~~~u.w.prec &&& ~~~u.w.xoff = (g.byp ||| askedBits c r .start) &&& ~~~askedBits c r .stop) :
    (quiesceSilent u).g = globalsAfter c r g := by
  obtain ⟨hen, hbyp', hmaster⟩ := quiesceSilent_g u
  rw [hg] at hen hbyp' hmaster
  rw [hcfg, hr] at hmaster
  refine Globals.ext_fields ?_ hmaster (fun k => ?_) (hbyp'.trans hbyp) ?_
  · rw [quiesceSilent_st, hg]
    rfl
  · rw [hen, hcfg, hr]
    cases k <;> rfl
  · rw [quiesceSilent_sinsrc, hg]
    rfl

theorem MutedPass.globalsAfter {r : AnalysisRecord} {g : Globals} {v : Byte} {u : State}
    (h : MutedPass r g v u) : (quiesceSilent u).g = globalsAfter u.cfg r g :=
  quiesceSilent_globalsAfter rfl (congrArg recordOf h.record) h.globals <| by
    rw [h.prec, h.xoff, bypAfterQ1, bypassRestored]

/-- From its start to its end a pass leaves the guarantee, whatever its working registers held. -/
theorem Comes.globalsAfter_of_xfer {s u : State} (h : Comes (some .xfer) s none u) :
    (quiesceSilent u).g = globalsAfter s.cfg (passRecord s) s.g := by
  obtain ⟨hpos, _⟩ | ⟨_, hlate⟩ := h.from_xfer
  · cases hpos
  · have hwaited : Kept s (waited .xfer s) := waitPoll_kept .xfer s none
    have hfrom := muted_from (waited .xfer s)
    obtain ⟨_, hkept⟩ := hlate.kept (nextWait_ne_xfer _ _)
    have hr : passRecord u = passRecord s :=
      hkept.passRecord.trans ((passRecord_congr hfrom.ar).trans hwaited.passRecord)
    refine quiesceSilent_globalsAfter (hkept.cfg.trans (hfrom.cfg.trans hwaited.cfg)) hr
      (hkept.g.trans (hfrom.g.trans (by rw [hwaited.g]))) ?_
    rw [hkept.prec, hkept.xoff, hfrom.prec, hfrom.xoff, hwaited.cfg, hwaited.g, hwaited.passRecord, bypAfterQ1,
      bypassRestored]

/-- So does a pass that `HeldPass` describes, from its first step. -/
theorem HeldPass.globalsAfter {r : AnalysisRecord} {g : Globals} {v : Byte} {w : WaitName} {s u : State}
    (h : HeldPass r g v (passSite w) s) (hcomes : Comes (some w) s none u) :
    (quiesceSilent u).g = Machine.globalsAfter s.cfg r g := by
  by_cases hw : w = .xfer
  · subst hw
    have hcommitted := h.committed
    rw [hcomes.globalsAfter_of_xfer, hcommitted.globals]
    exact congrArg (Machine.globalsAfter s.cfg · g) (congrArg recordOf hcommitted.record)
  · obtain ⟨_, hkept⟩ := hcomes.kept fun hpos => hw (Option.some.inj hpos)
    rw [← hkept.cfg]
    exact ((h.mutedPass (mt passSite_eq_applyXfer.1 hw)).kept hkept).globalsAfter

/-- Settles O46: a completed pass is its part past the waits (`resumeWait_completed`), from a state that holds
the bypass bookkeeping of its muting; the last clause is the first two with what `HeldPass` says the state
holds. -/
theorem completedPassGuarantee : Obligations.CompletedPassGuarantee := by
  refine ⟨?_, ?_, ?_⟩
  · intro s t blob r hc hst hanalyse h hsite hresult
    obtain ⟨rfl, hr⟩ := exec_apply_record hst hanalyse h
    obtain ⟨u, hcomes, hended⟩ := resumeWait_completed (w := .xfer) (s := applyStart blob r s) hc hsite hresult
    have hg := hcomes.globalsAfter_of_xfer
    rw [← hended, hr] at hg
    change (resumeWait .applyXfer (applyStart blob r s)).g = _ at hg
    rw [hg]
    exact ⟨fun | .k0 => rfl | .k1 => rfl, rfl, rfl, hst, rfl⟩
  · intro s t site hc hheld hpass h hsite hresult
    obtain ⟨_, rfl⟩ := step_of_site hheld h
    obtain ⟨w, rfl⟩ := passSite_of_pass hpass
    obtain ⟨u, hcomes, hended⟩ := resumeWait_completed hc hsite hresult
    by_cases hw : w = .xfer
    · subst hw
      rw [hended, hcomes.globalsAfter_of_xfer]
      exact ⟨fun | .k0 => rfl | .k1 => rfl, rfl, rfl, rfl, rfl⟩
    · obtain ⟨_, hkept⟩ := hcomes.kept fun hpos => hw (Option.some.inj hpos)
      obtain ⟨hen, hbyp, hmaster⟩ := quiesceSilent_g u
      rw [hkept.cfg, hkept.passRecord, hkept.g] at hen hmaster
      rw [hkept.g, hkept.prec, hkept.xoff] at hbyp
      rw [hended, if_neg (mt passSite_eq_applyXfer.1 hw), quiesceSilent_st, quiesceSilent_sinsrc, hkept.g]
      exact ⟨hen, hbyp, hmaster, rfl, rfl⟩
  · intro s t site r g v hc hheld h hsite hresult
    obtain ⟨_, rfl⟩ := step_of_site hheld.held h
    obtain ⟨w, rfl⟩ := passSite_of_pass hheld.isPass
    obtain ⟨u, hcomes, hended⟩ := resumeWait_completed hc hsite hresult
    rw [hended, hheld.globalsAfter hcomes]
    exact ⟨fun | .k0 => rfl | .k1 => rfl, rfl, rfl, hheld.inited, rfl⟩

/-! ## The accesses -/

/-- The accesses past the waits, of a state with a muting's bookkeeping. -/
theorem accessed_quiesceSilent_kept {b u : State} (hk : Kept b u) (hph : b.w.ph = .quiesce)
    (htrig : b.w.trigpend = false) :
    accessed (quiesceSilent u) = accessed u ++ accessesPastWaits b.cfg (passRecord b) b.g
      (if b.w.sil then some b.w.sinsave else none) (b.g.byp &&& ~~~b.w.prec &&& ~~~b.w.xoff) := by
  rw [accessed_quiesceSilent (hk.ph.trans hph) (hk.trigpend.trans htrig), hk.cfg, hk.passRecord, hk.g, hk.sil,
    hk.sinsave, hk.prec, hk.xoff]

/-- From a wait of phase 2 to its end: the waits from it on, then what is past them. -/
theorem Comes.accessed_of_late {w : WaitName} {s u : State} (h : Comes (some w) s none u) (hw : w ≠ .xfer)
    (hph : s.w.ph = .quiesce) (htrig : s.w.trigpend = false) :
    accessed (quiesceSilent u) = accessed s ++
      eventsIn .quiesce (okWaits (waitsLeft s.cfg (passRecord s) s.g s.w.sil (some w))) ++
      accessesPastWaits s.cfg (passRecord s) s.g (if s.w.sil then some s.w.sinsave else none)
        (s.g.byp &&& ~~~s.w.prec &&& ~~~s.w.xoff) := by
  have hstart : some w ≠ some .xfer := fun hpos => hw (Option.some.inj hpos)
  obtain ⟨_, hkept⟩ := h.kept hstart
  rw [accessed_quiesceSilent_kept hkept hph htrig, ← h.accessed_append hstart hph s.cfg (passRecord s) s.g]
  simp only [waitsLeft, okWaits, List.map_nil, eventsIn_nil, List.append_nil]

/-- From phase 1 to its end: the accesses of a whole pass. -/
theorem Comes.accessed_of_xfer {s u : State} (h : Comes (some .xfer) s none u) (hph : s.w.ph = .wait)
    (htrig : s.w.trigpend = false) (hsil : s.w.sil = false) :
    ∃ v, ReadsNext s.orc.reads v ∧
      accessed (quiesceSilent u) = accessed s ++ passAccesses s.cfg (passRecord s) s.g v := by
  obtain ⟨hpos, _⟩ | ⟨hres, hlate⟩ := h.from_xfer
  · cases hpos
  · have hwaited : Kept s (waited .xfer s) := waitPoll_kept .xfer s none
    have hfrom := muted_from (waited .xfer s)
    obtain ⟨v, hv, haccessed, hsil', hsave⟩ := muted_facts (waited .xfer s)
    have hleft := waitsLeft_nextWait_xfer (waited .xfer s)
    obtain ⟨_, hkept⟩ := hlate.kept (nextWait_ne_xfer _ _)
    have hsplit := hlate.accessed_append (nextWait_ne_xfer _ _) hfrom.ph (waited .xfer s).cfg
      (passRecord (waited .xfer s)) (waited .xfer s).g
    have hpast := accessed_quiesceSilent_kept hkept hfrom.ph (by
      obtain ⟨_, _, htrig', _⟩ := hfrom.loaded
      exact htrig'.trans (hwaited.trigpend.trans htrig))
    have hwait : accessed (waited .xfer s) = accessed s ++ eventsIn .wait [.wait .xfer true] := by
      rw [← hph]
      exact accessed_waitPoll_ok hres
    rw [hleft, haccessed, hwait] at hsplit
    rw [hfrom.cfg, passRecord_congr hfrom.ar, hfrom.g, hfrom.prec, hfrom.xoff, bypAfterQ1, bypassRestored] at hpast
    simp only [hwaited.cfg, hwaited.passRecord, hwaited.g, hwaited.sil, hsil, Bool.or_false] at *
    have hsaved : (if (muted (waited .xfer s)).w.sil then some (muted (waited .xfer s)).w.sinsave else none) =
        if silences s.cfg (passRecord s) s.g v then some v else none := by
      rw [hsil']
      split
      · rw [hsave ‹_›]
      · rfl
    have hemitted : accessed u = accessed s ++ mutedAccesses s.cfg (passRecord s) s.g v := by
      rw [hsil', List.append_assoc, List.append_assoc, ← List.append_assoc (eventsIn .wait _),
        mutedAccesses_eq] at hsplit
      simpa only [waitsLeft, okWaits, List.map_nil, eventsIn_nil, List.append_nil] using hsplit
    refine ⟨v, hwaited.reads ▸ hv, ?_⟩
    rw [hpast, hsaved, hemitted, List.append_assoc]
    rfl

/-- The accesses of a pass that has muted and stands past its waits. -/
theorem MutedAt.accessed_completed {r : AnalysisRecord} {g : Globals} {v : Byte} {u : State}
    (h : MutedAt r g v none u) : accessed (quiesceSilent u) = passAccesses u.cfg r g v := by
  have hm := h.muted
  obtain ⟨_, _, htrig, _⟩ := hm.loaded
  have hemitted : accessed u = mutedAccesses u.cfg r g v := by
    simpa only [waitsLeft, okWaits, List.map_nil, eventsIn_nil, List.append_nil] using h.emitted
  have hsaved : (if u.w.sil then some u.w.sinsave else none) =
      if silences u.cfg r g v then some v else none := by
    rw [← hm.sil]
    split
    · rw [hm.sinsave ‹_›]
    · rfl
  have hr : passRecord u = r := congrArg recordOf hm.record
  rw [accessed_quiesceSilent_kept (.refl u) h.ph htrig, hsaved, hemitted, hr, hm.globals, hm.prec, hm.xoff,
    bypAfterQ1, bypassRestored]
  rfl

theorem PassAt.mutedAt {r : AnalysisRecord} {g : Globals} {v : Byte} {pos : Option WaitName} {u : State}
    (h : PassAt r g v pos u) (hpos : pos ≠ some .xfer) : MutedAt r g v pos u :=
  h.elim (fun ⟨hxfer, _⟩ => absurd hxfer hpos) id

/-- Settles O48: the pass emits what its muting and its waits do, in order (`Comes.accessed_append`), then what
is past them; of a pass that `HeldPass` describes, the accesses before its wait make up a whole pass's with the
rest (`accessesBeforeWait_append`). -/
theorem completedPassAccesses : Obligations.CompletedPassAccesses := by
  refine ⟨?_, ?_, ?_⟩
  · intro s t blob r hc hst hanalyse h hsite hresult
    obtain ⟨rfl, hr⟩ := exec_apply_record hst hanalyse h
    obtain ⟨u, hcomes, hended⟩ := resumeWait_completed (w := .xfer) (s := applyStart blob r s) hc hsite hresult
    obtain ⟨v, hv, haccessed⟩ := hcomes.accessed_of_xfer rfl rfl rfl
    rw [← hended, hr] at haccessed
    exact ⟨v, hv, haccessed⟩
  · intro s t site hc hs hheld h hsite hresult
    obtain ⟨_, rfl⟩ := step_of_site hheld h
    have hph : s.w.ph = sitePhase site := by rw [hs.phase, hheld]; rfl
    refine ⟨?_, ?_, ?_⟩
    · rintro rfl
      obtain ⟨u, hcomes, hended⟩ := resumeWait_completed (w := .xfer) hc hsite hresult
      obtain ⟨v, hv, haccessed⟩ := hcomes.accessed_of_xfer hph hs.noTrigger (hs.notSilenced hheld)
      rw [← hended] at haccessed
      exact ⟨v, hv, haccessed⟩
    · rintro rfl
      obtain ⟨u, hcomes, hended⟩ := resumeWait_completed (w := .fade) hc hsite hresult
      have haccessed := hcomes.accessed_of_late nofun hph hs.noTrigger
      rw [← hended] at haccessed
      refine haccessed.trans ?_
      cases s.w.sil <;> rfl
    · rintro rfl
      obtain ⟨u, hcomes, hended⟩ := resumeWait_completed (w := .sine) hc hsite hresult
      have haccessed := hcomes.accessed_of_late nofun hph hs.noTrigger
      rw [← hended] at haccessed
      exact haccessed
  · intro s t site r g v hc hs hheld h hsite hresult
    obtain ⟨_, rfl⟩ := step_of_site hheld.held h
    obtain ⟨w, rfl⟩ := passSite_of_pass hheld.isPass
    obtain ⟨u, hcomes, hended⟩ := resumeWait_completed hc hsite hresult
    obtain ⟨v', hsame, hread, hat⟩ := (hheld.passAt hs).comes hcomes
    have haccessed := (hat.mutedAt nofun).accessed_completed
    have hcfg : u.cfg = s.cfg :=
      (quiesceSilent_cfg u).symm.trans ((congrArg State.cfg hended).symm.trans (resumeWait_cfg _ s))
    rw [← hended, hcfg] at haccessed
    exact ⟨v', fun hw => hsame fun hpos => hw (passSite_eq_applyXfer.2 (Option.some.inj hpos)),
      fun hw => hread (congrArg some (passSite_eq_applyXfer.1 hw)), haccessed⟩

end Sys2Proof.Machine
end

section
/-! What the answers given from outside to a pass's polls decide (rule R182): a tape that answers the waits of a
pass with its flags, but for one that stops it, brings the pass to that one; with it O47, what a pass held up
in a wait holds. -/

namespace Sys2Proof.Machine

/-! ## One poll by its answer -/

/-- What a poll of `w` comes to by the answer it is given (rule R182). -/
def answerResult (c : Cfg) (w : WaitName) : WaitAnswer → WaitResult
  | .seen v => if v &&& (c.wait w).mask = (c.wait w).want then .ok else .polling
  | .fails _ => .failed

theorem waitPoll_answer (w : WaitName) {s : State} {a : WaitAnswer} {rest : List WaitAnswer}
    (h : s.orc.waits = a :: rest) :
    (waitPoll w s).io.waitRes = answerResult s.cfg w a ∧ (waitPoll w s).orc.waits = rest := by
  cases a with
  | fails v =>
    rw [waitPoll_fails w s h]
    exact ⟨rfl, rfl⟩
  | seen v =>
    by_cases hv : v &&& (s.cfg.wait w).mask = (s.cfg.wait w).want
    · obtain ⟨hres, _, hrest⟩ := waitPoll_shows w s h hv
      exact ⟨hres.trans (if_pos hv).symm, hrest⟩
    · obtain ⟨hres, _, hrest⟩ := waitPoll_polls w s h hv
      exact ⟨hres.trans (if_neg hv).symm, hrest⟩

/-! ## A tape that answers a pass -/

/-- The tapes `T` answer waits one after another with their flags; `R` says how a wait is answered that is not. -/
structure Answers (c : Cfg) (T : List WaitName → List WaitAnswer → Prop) (R : WaitName → WaitResult → Prop) :
    Prop where
  next : ∀ w ws tape, T (w :: ws) tape → ∃ a rest, tape = a :: rest ∧
    (answerResult c w a = .ok ∧ T ws rest ∨ R w (answerResult c w a))
  stops : ∀ w, ¬R w .ok

theorem Answers.poll {c : Cfg} {T : List WaitName → List WaitAnswer → Prop} {R : WaitName → WaitResult → Prop}
    (hT : Answers c T R) {w : WaitName} {ws : List WaitName} {s : State} (hc : s.cfg = c)
    (h : T (w :: ws) s.orc.waits) :
    (waitPoll w s).io.waitRes = .ok ∧ T ws (waitPoll w s).orc.waits ∨ R w (waitPoll w s).io.waitRes := by
  obtain ⟨a, rest, htape, hnext⟩ := hT.next w ws _ h
  obtain ⟨hres, hrest⟩ := waitPoll_answer w htape
  rwa [hres, hrest, hc]

theorem Answers.poll_ok {c : Cfg} {T : List WaitName → List WaitAnswer → Prop} {R : WaitName → WaitResult → Prop}
    (hT : Answers c T R) {w : WaitName} {ws : List WaitName} {s : State} (hc : s.cfg = c)
    (h : T (w :: ws) s.orc.waits) (hres : (waitPoll w s).io.waitRes = .ok) : T ws (waitPoll w s).orc.waits := by
  rcases hT.poll hc h with ⟨_, hrest⟩ | hstop
  · exact hrest
  · exact absurd (hres ▸ hstop) (hT.stops w)

theorem waitsLeft_head (c : Cfg) (r : AnalysisRecord) (g : Globals) (sine : Bool) (pos : Option WaitName) :
    (waitsLeft c r g sine pos).head? = pos := by
  rcases pos with _ | w
  · rfl
  · cases w <;> rfl

/-- The sine wait of a pass, if it makes one. -/
def sineWait (sine : Bool) : List WaitName := if sine then [.sine] else []

/-- The byte that R_SINOUT returns to a pass held up at its wait `w`, having returned `v` if it has been read. -/
def SineByte (reads : List Byte) (v : Byte) (w : WaitName) (v' : Byte) : Prop :=
  (w ≠ .xfer → v' = v) ∧ (w = .xfer → ReadsNext reads v')

theorem Comes.answered_late {c : Cfg} {T : List WaitName → List WaitAnswer → Prop}
    {R : WaitName → WaitResult → Prop} (hT : Answers c T R) {start pos : Option WaitName} {s u : State}
    (h : Comes start s pos u) (hstart : start ≠ some .xfer) (hc : s.cfg = c) (r : AnalysisRecord) (g : Globals)
    (htape : T (waitsLeft c r g s.w.sil start) s.orc.waits) : T (waitsLeft c r g s.w.sil pos) u.orc.waits := by
  induction h with
  | here => exact htape
  | @on w u h hres ih =>
    obtain ⟨hlate, hkept⟩ := h.kept hstart
    have hne : w ≠ .xfer := fun hw => hlate (congrArg some hw)
    have hfirst := waitsLeft_late hne c r g (waited w u)
    rw [show (waited w u).w.sil = s.w.sil from (hkept.trans (waitPoll_kept w u none)).sil] at hfirst
    have hrest := hT.poll_ok (hkept.cfg.trans hc) (hfirst ▸ ih) hres
    cases w with
    | xfer => exact absurd rfl hne
    | fade | sine => exact hrest

/-- Wherever a pass comes to, the tape still answers the waits from there on. `hsine`: the tapes are so too for
the sine wait that the pass does make. -/
theorem PassAt.answered {T : List WaitName → List WaitAnswer → Prop} {R : WaitName → WaitResult → Prop}
    {r : AnalysisRecord} {g : Globals} {v : Byte} {w : WaitName} {s u : State} {pos : Option WaitName} {sine : Bool}
    (hat : PassAt r g v (some w) s) (hT : Answers s.cfg T R)
    (hsine : ∀ v', SineByte s.orc.reads v w v' → ∀ ws tape, T (ws ++ sineWait sine) tape →
      T (ws ++ sineWait (silences s.cfg r g v')) tape)
    (htape : T (waitsFrom s.cfg r g sine (passSite w)) s.orc.waits) (h : Comes (some w) s pos u) :
    ∃ ws, ws.head? = pos ∧ T ws u.orc.waits := by
  rcases hat with ⟨hpos, hcommitted, _, _⟩ | hmuted
  · cases hpos
    rcases h.from_xfer with ⟨rfl, rfl⟩ | ⟨hres, hlate⟩
    · exact ⟨_, rfl, htape⟩
    · have hkept : Kept s (waited .xfer s) := waitPoll_kept .xfer s none
      have hfrom := muted_from (waited .xfer s)
      obtain ⟨v', hv', _, hsil, _⟩ := muted_facts (waited .xfer s)
      have hleft := waitsLeft_nextWait_xfer (waited .xfer s)
      have hr : passRecord s = r := congrArg recordOf hcommitted.record
      rw [hkept.cfg, hkept.passRecord, hkept.g, hkept.sil, hr, hcommitted.sil, hcommitted.globals,
        Bool.or_false] at hsil
      rw [hkept.cfg, hkept.passRecord, hkept.g, hr, hcommitted.globals] at hleft
      have hsines := hsine v' ⟨fun hne => absurd rfl hne, fun _ => hkept.reads ▸ hv'⟩
      have hfirst : T (.xfer :: ((if bypAfterQ1 s.cfg r g.byp ≠ g.byp then [.fade] else []) ++ sineWait sine))
        s.orc.waits := htape
      have hrest := hsines _ _ (hT.poll_ok rfl hfirst hres)
      rw [← hsil, sineWait, ← hleft] at hrest
      refine ⟨_, waitsLeft_head s.cfg r g _ _,
        hlate.answered_late hT (nextWait_ne_xfer _ _) (hfrom.cfg.trans hkept.cfg) r g ?_⟩
      rw [muted_waits]
      exact hrest
  · have hne : w ≠ .xfer := fun hw => hmuted.late (congrArg some hw)
    have hsines := hsine v ⟨fun _ => rfl, fun hw => absurd hw hne⟩
    refine ⟨_, waitsLeft_head s.cfg r g _ _, h.answered_late hT hmuted.late rfl r g ?_⟩
    rw [hmuted.muted.sil]
    cases w with
    | xfer => exact absurd rfl hne
    | fade => exact hsines [.fade] _ htape
    | sine => exact htape

theorem Comes.cfg {start pos : Option WaitName} {s u : State} (h : Comes start s pos u) : u.cfg = s.cfg := by
  induction h with
  | here => rfl
  | @on w u h hres ih =>
    have hwaited := (waitPoll_cfg w u).trans ih
    cases w with
    | xfer => exact (muted_from _).cfg.trans hwaited
    | fade | sine => exact hwaited

theorem Ends.not_ok {w : WaitName} {u t : State} (h : Ends (some w) u t) : (waitPoll w u).io.waitRes ≠ .ok := by
  cases h with
  | holds hres | fails hres => rw [hres]; nofun

/-- So the pass ends where the tape stops it, or completes. -/
theorem PassAt.ends_answered {T : List WaitName → List WaitAnswer → Prop} {R : WaitName → WaitResult → Prop}
    {r : AnalysisRecord} {g : Globals} {v : Byte} {w : WaitName} {s : State} {sine : Bool}
    (hat : PassAt r g v (some w) s) (hT : Answers s.cfg T R)
    (hsine : ∀ v', SineByte s.orc.reads v w v' → ∀ ws tape, T (ws ++ sineWait sine) tape →
      T (ws ++ sineWait (silences s.cfg r g v')) tape)
    (htape : T (waitsFrom s.cfg r g sine (passSite w)) s.orc.waits) :
    (∃ u, Comes (some w) s none u ∧ resumeWait (passSite w) s = quiesceSilent u ∧ T [] u.orc.waits) ∨
      ∃ w' u, Comes (some w) s (some w') u ∧ Ends (some w') u (resumeWait (passSite w) s) ∧
        R w' (waitPoll w' u).io.waitRes := by
  obtain ⟨pos, u, hcomes, hends⟩ := resumeWait_ends w s
  obtain ⟨ws, hhead, hleft⟩ := hat.answered hT hsine htape hcomes
  have hcfg : u.cfg = s.cfg := hcomes.cfg
  rcases pos with _ | w'
  · rw [List.head?_eq_none_iff] at hhead
    subst hhead
    generalize resumeWait (passSite w) s = t at *
    cases hends
    exact .inl ⟨u, hcomes, rfl, hleft⟩
  · obtain ⟨ws', rfl⟩ := List.head?_eq_some_iff.1 hhead
    rcases hT.poll hcfg hleft with ⟨hres, _⟩ | hstop
    · exact absurd hres hends.not_ok
    · exact .inr ⟨w', u, hcomes, hends, hstop⟩

/-! ## The three kinds of tapes -/

theorem answersShow_answers (c : Cfg) : Answers c (answersShow c) fun _ _ => False where
  next
    | _, _, .seen _ :: _, ⟨hv, hrest⟩ => ⟨_, _, rfl, .inl ⟨if_pos hv, hrest⟩⟩
  stops _ := id

theorem answersFail_answers (c : Cfg) : Answers c (answersFail c) fun _ res => res = .failed where
  next
    | _, _, .seen _ :: _, ⟨hv, hrest⟩ => ⟨_, _, rfl, .inl ⟨if_pos hv, hrest⟩⟩
    | _, _, .fails _ :: _, _ => ⟨_, _, rfl, .inr rfl⟩
  stops _ := nofun

theorem answersHold_answers (c : Cfg) (held : WaitName) :
    Answers c (answersHold c held) fun w res => w = held ∧ res = .polling where
  next
    | _, _, .seen _ :: _, h => ⟨_, _, rfl, h.imp (fun ⟨hv, hrest⟩ => ⟨if_pos hv, hrest⟩)
        fun ⟨hw, hv⟩ => ⟨hw, if_neg hv⟩⟩
  stops _ := nofun

theorem answersShow_of_append {c : Cfg} {ws' : List WaitName} : ∀ {ws tape}, answersShow c (ws ++ ws') tape →
    answersShow c ws tape
  | [], _, _ => trivial
  | _ :: _, .seen _ :: _, ⟨hv, hrest⟩ => ⟨hv, answersShow_of_append hrest⟩

theorem answersFail_append {c : Cfg} {ws' : List WaitName} : ∀ {ws tape}, answersFail c ws tape →
    answersFail c (ws ++ ws') tape
  | _ :: _, .seen _ :: _, ⟨hv, hrest⟩ => ⟨hv, answersFail_append hrest⟩
  | _ :: _, .fails _ :: _, _ => trivial

theorem answersHold_append {c : Cfg} {held : WaitName} {ws' : List WaitName} : ∀ {ws tape},
    answersHold c held ws tape → answersHold c held (ws ++ ws') tape
  | _ :: _, .seen _ :: _, h => h.imp_left fun ⟨hv, hrest⟩ => ⟨hv, answersHold_append hrest⟩

/-- A pass that silences the sine may. -/
theorem mayWaitForSine_of_silences {r : AnalysisRecord} {g : Globals} {v v' : Byte} {w : WaitName} {s : State}
    (hv : SineByte s.orc.reads v w v') (h : silences s.cfg r g v' = true) :
    mayWaitForSine r g v (passSite w) s = true := by
  obtain ⟨hlate, hread⟩ := hv
  by_cases hw : w = .xfer
  · rw [mayWaitForSine, if_pos (passSite_eq_applyXfer.2 hw)]
    rw [silences, Bool.and_eq_true, decide_eq_true_eq] at h
    obtain ⟨hstake, hne⟩ := h
    rw [hstake, Bool.true_and, decide_eq_true_eq]
    intro hhead
    obtain ⟨rest, hreads⟩ := List.head?_eq_some_iff.1 hhead
    exact hne (hread hw _ _ hreads)
  · rw [mayWaitForSine, if_neg (mt passSite_eq_applyXfer.1 hw), ← hlate hw, h]

/-- A pass that will silence the sine does. -/
theorem silences_of_willWaitForSine {r : AnalysisRecord} {g : Globals} {v v' : Byte} {w : WaitName} {s : State}
    (hv : SineByte s.orc.reads v w v') (h : willWaitForSine r g v (passSite w) s = true) :
    silences s.cfg r g v' = true := by
  obtain ⟨hlate, hread⟩ := hv
  by_cases hw : w = .xfer
  · rw [willWaitForSine, if_pos (passSite_eq_applyXfer.2 hw), Bool.and_eq_true] at h
    obtain ⟨hstake, hany⟩ := h
    obtain ⟨u, hhead, hne⟩ := (Option.any_eq_true _ _).1 hany
    obtain ⟨rest, hreads⟩ := List.head?_eq_some_iff.1 hhead
    rw [silences, hstake, Bool.true_and, hread hw _ _ hreads]
    exact hne
  · rwa [willWaitForSine, if_neg (mt passSite_eq_applyXfer.1 hw), ← hlate hw] at h

/-- A pass whose waits all see their flags completes. -/
theorem PassAt.completes_of_answersShow {r : AnalysisRecord} {g : Globals} {v : Byte} {w : WaitName} {s : State}
    (hat : PassAt r g v (some w) s)
    (htape : answersShow s.cfg (waitsFrom s.cfg r g (mayWaitForSine r g v (passSite w) s) (passSite w)) s.orc.waits) :
    ∃ u, Comes (some w) s none u ∧ resumeWait (passSite w) s = quiesceSilent u := by
  have hsine : ∀ v', SineByte s.orc.reads v w v' → ∀ ws tape,
      answersShow s.cfg (ws ++ sineWait (mayWaitForSine r g v (passSite w) s)) tape →
        answersShow s.cfg (ws ++ sineWait (silences s.cfg r g v')) tape := by
    intro v' hv ws tape h
    cases hsil : silences s.cfg r g v' with
    | true => rwa [mayWaitForSine_of_silences hv hsil] at h
    | false =>
      rw [sineWait, if_neg Bool.false_ne_true, List.append_nil]
      exact answersShow_of_append h
  rcases hat.ends_answered (answersShow_answers s.cfg) hsine htape with ⟨u, hcomes, hended, _⟩ | ⟨_, _, _, _, hno⟩
  · exact ⟨u, hcomes, hended⟩
  · exact hno.elim

/-- Tapes that stop a pass go on doing so when it makes a wait more. -/
theorem sineWait_mono {T : List WaitName → List WaitAnswer → Prop}
    (happend : ∀ {ws ws' tape}, T ws tape → T (ws ++ ws') tape) {r : AnalysisRecord} {g : Globals} {v : Byte}
    {w : WaitName} {s : State} (v' : Byte) (hv : SineByte s.orc.reads v w v') (ws : List WaitName)
    (tape : List WaitAnswer) (h : T (ws ++ sineWait (willWaitForSine r g v (passSite w) s)) tape) :
    T (ws ++ sineWait (silences s.cfg r g v')) tape := by
  cases hwill : willWaitForSine r g v (passSite w) s with
  | true => rwa [hwill, ← silences_of_willWaitForSine hv hwill] at h
  | false =>
    rw [hwill, sineWait, if_neg Bool.false_ne_true, List.append_nil] at h
    exact happend h

/-- A pass ends early by a wait that fails. -/
theorem PassAt.fails_of_answersFail {r : AnalysisRecord} {g : Globals} {v : Byte} {w : WaitName} {s : State}
    (hat : PassAt r g v (some w) s)
    (htape : answersFail s.cfg (waitsFrom s.cfg r g (willWaitForSine r g v (passSite w) s) (passSite w))
      s.orc.waits) :
    ∃ w' u, Comes (some w) s (some w') u ∧ resumeWait (passSite w) s = earlyEnd .runtime (waited w' u) := by
  rcases hat.ends_answered (answersFail_answers s.cfg) (sineWait_mono answersFail_append) htape with
    ⟨_, _, _, hno⟩ | ⟨w', u, hcomes, hends, hfailed⟩
  · exact hno.elim
  · generalize resumeWait (passSite w) s = t at *
    cases hends with
    | holds hres => exact nomatch hres.symm.trans hfailed
    | fails => exact ⟨w', u, hcomes, rfl⟩

/-- A pass is held up in the wait that the tape neither shows nor fails. -/
theorem PassAt.holds_of_answersHold {r : AnalysisRecord} {g : Globals} {v : Byte} {w held : WaitName} {s : State}
    (hat : PassAt r g v (some w) s)
    (htape : answersHold s.cfg held (waitsFrom s.cfg r g (willWaitForSine r g v (passSite w) s) (passSite w))
      s.orc.waits) :
    (resumeWait (passSite w) s).site = some (passSite held) := by
  rcases hat.ends_answered (answersHold_answers s.cfg held) (sineWait_mono answersHold_append) htape with
    ⟨_, _, _, hno⟩ | ⟨w', u, _, hends, rfl, hpolling⟩
  · exact hno.elim
  · generalize resumeWait (passSite w) s = t at *
    cases hends with
    | holds => rfl
    | fails hres => exact nomatch hres.symm.trans hpolling

/-! ## O47 -/

theorem exec_apply_of_ready {s : State} {blob : List Byte} {r : AnalysisRecord} (hready : ready s = true)
    (hst : s.g.st = .inited) (hanalyse : analyse s.cfg blob s.g.en = .record r) :
    exec (.apply blob) s = .next (resumeWait .applyXfer (applyStart blob r s)) := by
  obtain ⟨t, h⟩ : ∃ t, exec (.apply blob) s = .next t := by
    rw [exec, execApply]
    exact ⟨_, onCommand_next_iff.2 ⟨hready, rfl⟩⟩
  rw [h, (exec_apply_record hst hanalyse h).1]

/-- What a pass holds whose step leaves it held up, from what it held before that step. -/
theorem PassAt.held_of_site {r : AnalysisRecord} {g : Globals} {v : Byte} {w : WaitName} {s : State}
    {site : WaitSite} (hat : PassAt r g v (some w) s) (hsite : (resumeWait (passSite w) s).site = some site) :
    ∃ v', SineByte s.orc.reads v w v' ∧ HeldPass r g v' site (resumeWait (passSite w) s) := by
  obtain ⟨w', u, hcomes, hres, rfl, hended⟩ := resumeWait_held hsite
  obtain ⟨v', hsame, hread, hat'⟩ := hat.comes hcomes
  rw [hended]
  exact ⟨v', ⟨fun hw => hsame fun hpos => hw (Option.some.inj hpos), fun hw => hread (congrArg some hw)⟩,
    hat'.heldPass hres⟩

/-- Settles O47: a pass comes from wait to wait holding what `PassAt` says, and is held up with that
(`PassAt.heldPass`); where it is held up the tape decides (`PassAt.holds_of_answersHold`). -/
theorem heldPassState : Obligations.HeldPassState := by
  refine ⟨?_, ?_, ?_, ?_⟩
  · intro s t blob r site _ hst hanalyse h hsite
    obtain ⟨rfl, _⟩ := exec_apply_record hst hanalyse h
    obtain ⟨v, ⟨_, hread⟩, hheld⟩ := (applyStart_passAt (blob := blob) hst hanalyse 0).held_of_site hsite
    exact ⟨v, hread rfl, hheld⟩
  · intro s t site site' r g v _ hs hheld h hsite
    obtain ⟨_, rfl⟩ := step_of_site hheld.held h
    obtain ⟨w, rfl⟩ := passSite_of_pass hheld.isPass
    obtain ⟨v', ⟨hlate, hread⟩, hheld'⟩ := (hheld.passAt hs).held_of_site hsite
    exact ⟨v', fun hw => hlate (mt passSite_eq_applyXfer.2 hw), fun hw => hread (passSite_eq_applyXfer.1 hw), hheld'⟩
  · intro s blob r w _ _ hready hst hanalyse g htape
    exact ⟨_, exec_apply_of_ready hready hst hanalyse,
      (applyStart_passAt (blob := blob) hst hanalyse 0).holds_of_answersHold htape⟩
  · intro s site r g v w hc hs hheld htape
    obtain ⟨w', rfl⟩ := passSite_of_pass hheld.isPass
    exact ⟨_, step_resumes hc hheld.held, (hheld.passAt hs).holds_of_answersHold htape⟩

end Sys2Proof.Machine
end

section
/-! How a pass comes to its end: a failing wait ends it with E_RUNTIME (O44), and answers that show every flag
have it complete (O45). -/

namespace Sys2Proof.Machine

/-! ## A wait in progress that fails -/

/-- A poll that fails ends the pass and, nothing being queued, changes only the result, PH, the trace and the
return paths (rules R137, R182). -/
theorem resumeWait_fails {w : WaitName} {s : State} {v : Byte} {rest : List WaitAnswer}
    (hc : admissible s.cfg = true) (hqn : s.w.qn = 0) (hwaits : s.orc.waits = .fails v :: rest) :
    resumeWait (passSite w) s = { s with
      w := { s.w with ph := .idle, result := s.cfg.eRuntime }
      io := { s.io with
        trace := s.io.trace ++ [{ phase := s.w.ph, op := .wait w false }]
        rdata := v
        waitRes := .failed
        sport := bytes32 s.cfg.eRuntime }
      orc := { s.orc with waits := rest }
      site := none } := by
  have hpoll := waitPoll_fails w s hwaits
  rw [syncQueue_of_qn_zero hqn, pollFailed, admissible_wait_blockPortRead hc] at hpoll
  rw [← runFrom, runFrom_some, waitThen, hpoll]
  rfl

/-- Settles O44: the pass begins at its transfer wait (`exec_apply_of_ready`), which fails
(`resumeWait_fails`). -/
theorem failedTransferWaitAbortsApply : Obligations.FailedTransferWaitAbortsApply := by
  intro s blob r v rest hc hready hst _ hqn hanalyse hwaits
  obtain ⟨_, hsite⟩ := ready_iff.1 hready
  have hrecord : (applyStart blob r s).w.ar = .record r := by
    rcases applyStart_passAt (blob := blob) hst hanalyse 0 with ⟨_, hcommitted, _⟩ | hmuted
    · exact hcommitted.record
    · exact absurd rfl hmuted.late
  rw [exec_apply_of_ready hready hst hanalyse]
  refine (congrArg Host.Outcome.next (resumeWait_fails (w := .xfer) (s := applyStart blob r s) hc hqn hwaits)).trans ?_
  rw [← hrecord, ← hsite]
  rfl

/-! ## A pass that completes -/

theorem Comes.deviceOk {start pos : Option WaitName} {s u : State} (h : Comes start s pos u) (hs : DeviceOk s) :
    DeviceOk u := by
  induction h with
  | here => exact hs
  | @on w u h hres ih =>
    have hwaited : DeviceOk (waited w u) := (waitPoll_kept w u none).device ih
    cases w with
    | xfer => exact (muted_from _).device hwaited
    | fade | sine => exact hwaited

theorem Comes.inbox {start pos : Option WaitName} {s u : State} (h : Comes start s pos u) :
    u.io.inbox = s.io.inbox := by
  induction h with
  | here => rfl
  | @on w u h hres ih =>
    have hwaited : (waited w u).io.inbox = s.io.inbox := (waitPoll_kept w u none).inbox.trans ih
    cases w with
    | xfer => exact (muted_from _).inbox.trans hwaited
    | fade | sine => exact hwaited

theorem quiesceSilent_inbox (s : State) : (quiesceSilent s).io.inbox = s.io.inbox :=
  (resume_acts (enter .resume (phaseDownload (stepQ4 s)))).samePhase.inbox.trans
    (((triggerTransfer_acts _).samePhase.inbox.trans (downloadItems_acts _ _).samePhase.inbox).trans
      (stepQ4_acts s 0).samePhase.inbox)

/-- Phase 4 leaves nothing queued (rule R136), the sine restored (rule R133). -/
theorem phaseResume_settles {s : State} (hs : Going s) :
    (phaseResume s).hw.queue = [] ∧ (phaseResume s).w.qn = 0 ∧ (phaseResume s).w.sil = false ∧
      (phaseResume s).w.trigpend = false := by
  have hqn : (phaseResume s).w.qn = 0 := by simp only [phaseResume, finish_w, syncQueue_w]
  have hdevice : DeviceOk (phaseResume s) :=
    finish_deviceOk 0 ((resume_acts (enter .resume s)).deviceOk (hs.device.congr rfl rfl))
  refine ⟨List.eq_nil_of_length_eq_zero (hdevice.counted.symm.trans hqn), hqn, ?_, ?_⟩
  · simp only [phaseResume, finish_w, syncQueue_w, stepR4_sil, stepR3_sil, stepR2_sil]
  · simp only [phaseResume, finish_w, syncQueue_w, stepR4_trigpend, stepR3_trigpend, stepR2_trigpend]
    exact hs.noTrigger

theorem quiesceSilent_settles {s : State} (hs : DeviceOk s) :
    (quiesceSilent s).hw.queue = [] ∧ (quiesceSilent s).w.qn = 0 ∧ (quiesceSilent s).w.sil = false ∧
      (quiesceSilent s).w.trigpend = false :=
  phaseResume_settles (phaseDownload_going ((stepQ4_acts s 0).deviceOk hs)).1

/-- What a completed pass leaves, but for group G (rules R120, R136, R245). -/
theorem Comes.completed {w : WaitName} {s u : State} (h : Comes (some w) s none u) (hs : DeviceOk s) :
    (quiesceSilent u).w.result = 0 ∧ (quiesceSilent u).w.ph = .idle ∧ (quiesceSilent u).site = none ∧
      (quiesceSilent u).hw.queue = [] ∧ (quiesceSilent u).w.qn = 0 ∧ (quiesceSilent u).w.sil = false ∧
      (quiesceSilent u).w.trigpend = false ∧ (quiesceSilent u).io.sport = bytes32 0 ∧
      (quiesceSilent u).io.inbox = s.io.inbox ∧ (quiesceSilent u).cfg = s.cfg := by
  have hu := h.deviceOk hs
  obtain ⟨hqueue, hqn, hsil, htrig⟩ := quiesceSilent_settles hu
  exact ⟨rfl, rfl, (quiesceSilent_site u).trans h.site, hqueue, hqn, hsil, htrig, rfl,
    (quiesceSilent_inbox u).trans h.inbox, (quiesceSilent_cfg u).trans h.cfg⟩

/-- Settles O45: the answers bring the pass past all its waits (`PassAt.completes_of_answersShow`). -/
theorem applyCompletes : Obligations.ApplyCompletes := by
  constructor
  · intro s blob r hc hs hready hst hanalyse g htape
    obtain ⟨u, hcomes, hended⟩ := (applyStart_passAt (blob := blob) hst hanalyse 0).completes_of_answersShow htape
    have hr := (exec_apply_record hst hanalyse (exec_apply_of_ready hready hst hanalyse)).2
    have hg := hcomes.globalsAfter_of_xfer
    rw [hr] at hg
    obtain ⟨hresult, hph, hsite, hqueue, hqn, hsil, htrig, hsport, hinbox, hcfg⟩ :=
      hcomes.completed (hs.deviceOk.congr rfl rfl)
    exact ⟨_, (exec_apply_of_ready hready hst hanalyse).trans (congrArg _ hended),
      hresult, hph, hsite, hqueue, hqn, hsil, htrig, hsport, hinbox, hcfg, hg⟩
  · intro s site r g v hc hs hheld htape
    obtain ⟨w, rfl⟩ := passSite_of_pass hheld.isPass
    obtain ⟨u, hcomes, hended⟩ := (hheld.passAt hs).completes_of_answersShow htape
    obtain ⟨hresult, hph, hsite, hqueue, hqn, hsil, htrig, hsport, hinbox, hcfg⟩ := hcomes.completed hs.deviceOk
    exact ⟨_, (step_resumes hc hheld.held).trans (congrArg _ hended),
      hresult, hph, hsite, hqueue, hqn, hsil, htrig, hsport, hinbox, hcfg, hheld.globalsAfter hcomes⟩

end Sys2Proof.Machine
end

section
/-! What a pass leaves that a wait ended (rule R212): group G, the sine register, the queue; and that a wait
that fails ends it (O50). -/

namespace Sys2Proof.Machine

/-! ## The sine register when the pass mutes -/

theorem pendingValue_stepQ1_rSinout {s : State} (hc : admissible s.cfg = true) :
    pendingValue (stepQ1 s) s.cfg.rSinout.addr = pendingValue s s.cfg.rSinout.addr := by
  obtain ⟨_, hbyp, _⟩ := quiesceAllowed_sparesCopies hc s.g.en s.g.byp .gated s.cfg.rSinout s.cfg.vSinInactive
    ⟨rfl, rfl, rfl⟩
  unfold stepQ1
  simp only
  split
  · refine (pendingValue_qw ..).trans (if_neg fun haddr => hbyp (Reg.addr_inj haddr).symm)
  · rfl

theorem pendingValue_stepQ2_rSinout {s : State} (hs : ShadowCoherent s.hw) (hsil : s.w.sil = false) :
    pendingValue (stepQ2 s) s.cfg.rSinout.addr =
      if (stepQ2 s).w.sil then s.cfg.vSinInactive else pendingValue s s.cfg.rSinout.addr := by
  have hread := pendingValue_rdReg s.cfg.rSinout hs s.cfg.rSinout.addr
  unfold stepQ2
  split
  · simp only
    split
    · rw [pendingValue_qw, rdReg_cfg, if_pos rfl]
      rfl
    · rw [hread]
      simp [hsil]
  · simp [hsil]

theorem pendingValue_muted_rSinout {s : State} (hc : admissible s.cfg = true) (hs : DeviceOk s)
    (hsil : s.w.sil = false) :
    pendingValue (muted s) s.cfg.rSinout.addr =
      if (muted s).w.sil then s.cfg.vSinInactive else pendingValue s s.cfg.rSinout.addr := by
  have hq1 := stepQ1_acts (enter .quiesce s) s.g.en
  have hq2 := pendingValue_stepQ2_rSinout (hq1.deviceOk (hs.congr rfl rfl)).shadow
    ((stepQ1_sil (enter .quiesce s)).trans hsil)
  rw [hq1.samePhase.cfg, pendingValue_stepQ1_rSinout (s := enter .quiesce s) hc] at hq2
  exact hq2

/-! ## The events of a pass that a wait ended -/

theorem Comes.emits_late {start pos : Option WaitName} {s u : State} (h : Comes start s pos u)
    (hstart : start ≠ some .xfer) (hph : s.w.ph = .quiesce) :
    ∃ ws, accessed u = accessed s ++ eventsIn .quiesce (okWaits ws) := by
  induction h with
  | here => exact ⟨[], (List.append_nil _).symm⟩
  | @on w u h hres ih =>
    obtain ⟨hlate, hkept⟩ := h.kept hstart
    obtain ⟨ws, hws⟩ := ih
    have hemitted : accessed (waited w u) = accessed s ++ eventsIn .quiesce (okWaits (ws ++ [w])) := by
      refine (accessed_waitPoll_ok hres).trans ?_
      rw [hws, hkept.ph, hph, okWaits, okWaits, List.map_append, eventsIn_append, List.append_assoc]
      rfl
    cases w with
    | xfer => exact absurd rfl hlate
    | fade | sine => exact ⟨_, hemitted⟩

theorem Comes.kept_of_xfer {s u : State} {pos : Option WaitName} (h : Comes (some .xfer) s pos u)
    (hpos : pos ≠ some .xfer) : Kept (muted (waited .xfer s)) u := by
  obtain ⟨hxfer, _⟩ | ⟨_, hlate⟩ := h.from_xfer
  · exact absurd hxfer hpos
  · exact (hlate.kept (nextWait_ne_xfer _ _)).2

/-- Where a pass comes to that no longer stands in phase 1, from there: it has muted once. -/
theorem Comes.emits_of_xfer {s u : State} {pos : Option WaitName} (h : Comes (some .xfer) s pos u)
    (hpos : pos ≠ some .xfer) (hph : s.w.ph = .wait) (hsil : s.w.sil = false) :
    ∃ v ws, silences s.cfg (passRecord s) s.g v = (muted (waited .xfer s)).w.sil ∧
      accessed u = accessed s ++ (eventsIn .wait [.wait .xfer true] ++
        eventsIn .quiesce (mutingAccesses s.cfg (passRecord s) s.g v ++ okWaits ws)) := by
  obtain ⟨hxfer, _⟩ | ⟨hres, hlate⟩ := h.from_xfer
  · exact absurd hxfer hpos
  · have hwaited : Kept s (waited .xfer s) := waitPoll_kept .xfer s none
    obtain ⟨v, _, haccessed, hsil', _⟩ := muted_facts (waited .xfer s)
    obtain ⟨ws, hws⟩ := hlate.emits_late (nextWait_ne_xfer _ _) (muted_from _).ph
    have hwait : accessed (waited .xfer s) = accessed s ++ eventsIn .wait [.wait .xfer true] := by
      rw [← hph]
      exact accessed_waitPoll_ok hres
    rw [hwaited.cfg, hwaited.passRecord, hwaited.g] at haccessed hsil'
    rw [hwaited.sil, hsil, Bool.or_false] at hsil'
    refine ⟨v, ws, hsil'.symm, ?_⟩
    rw [hws, haccessed, hwait, eventsIn_append]
    simp only [List.append_assoc]

/-- Muting writes the sine register exactly if it silences it. -/
theorem silencing_mem_mutingAccesses {c : Cfg} (hc : admissible c = true) (r : AnalysisRecord) (g : Globals)
    (v : Byte) :
    PortOp.qw .gated c.rSinout c.vSinInactive ∈ mutingAccesses c r g v ↔ silences c r g v = true := by
  obtain ⟨_, hbyp, _⟩ := quiesceAllowed_sparesCopies hc g.en g.byp .gated c.rSinout c.vSinInactive
    ⟨rfl, rfl, rfl⟩
  simp only [mutingAccesses, List.mem_append, List.mem_ite_nil_right, List.mem_singleton, PortOp.qw.injEq, hbyp,
    reduceCtorEq, and_false, false_and, or_false, false_or, and_true]

theorem mem_eventsIn {p q : Phase} {op : PortOp} {ops : List PortOp} :
    ({ phase := p, op := op } : Event) ∈ eventsIn q ops ↔ p = q ∧ op ∈ ops := by
  simp [eventsIn, eq_comm, and_comm]

theorem qw_notMem_okWaits (g : Gate) (q : Reg) (x : Byte) (ws : List WaitName) : .qw g q x ∉ okWaits ws := by
  simp [okWaits]

/-- The write that silences the sine. -/
def silencing (c : Cfg) : Event := { phase := .quiesce, op := .qw .gated c.rSinout c.vSinInactive }

/-- The end of a transfer wait that failed. -/
def xferFailed : Event := { phase := .wait, op := .wait .xfer false }

/-- What the end of a pass by a failing wait leaves (rule R212), `evs` its accesses since `s`. -/
structure AbortedFrom (w : WaitName) (s : State) (evs : List Event) (t : State) : Prop where
  emitted : accessed t = accessed s ++ evs
  globals : t.g = { s.g with byp :=
    if w = .xfer ∧ xferFailed ∉ evs then bypAfterQ1 s.cfg (passRecord s) s.g.byp else s.g.byp }
  sinout : RegFile.read t.hw.regs s.cfg.rSinout.addr =
    if silencing s.cfg ∈ evs then s.cfg.vSinInactive else pendingValue s s.cfg.rSinout.addr
  ph : t.w.ph = .idle
  queue : t.hw.queue = []
  qn : t.w.qn = 0

theorem Comes.abortedFrom {w w' : WaitName} {s u : State} (h : Comes (some w) s (some w') u)
    (hres : (waitPoll w' u).io.waitRes = .failed) (hc : admissible s.cfg = true) (hs : DeviceOk s)
    (hph : s.w.ph = sitePhase (passSite w)) (hsil : w = .xfer → s.w.sil = false) :
    ∃ evs, AbortedFrom w s evs (earlyEnd .runtime (waited w' u)) := by
  have hu := h.deviceOk hs
  have hlast : accessed (waited w' u) = accessed u ++ eventsIn u.w.ph [.wait w' false] := by
    have haccessed := accessed_waitPoll w' u
    rw [hres] at haccessed
    exact haccessed
  have hpolled : Kept u (waited w' u) := waitPoll_kept w' u none
  have hqueue : (waited w' u).hw.queue = [] := waitPoll_queue w' hu.counted
  have hread : RegFile.read (waited w' u).hw.regs s.cfg.rSinout.addr = pendingValue u s.cfg.rSinout.addr := by
    rw [← pendingValue_empty hqueue, hpolled.pending hu]
  have hqn : (waited w' u).w.qn = 0 := (hpolled.device hu).counted.trans (by rw [hqueue]; rfl)
  by_cases hw : w = .xfer
  · subst hw
    by_cases hw' : w' = .xfer
    · subst hw'
      obtain ⟨_, rfl⟩ | ⟨_, hlate⟩ := h.from_xfer
      · refine ⟨eventsIn .wait [.wait .xfer false], ?_, ?_, ?_, rfl, hqueue, hqn⟩
        · rw [hph] at hlast
          exact hlast
        · rw [if_neg fun ⟨_, hmem⟩ => hmem (List.mem_singleton_self _)]
          exact hpolled.g
        · rw [if_neg (by simp [silencing, eventsIn])]
          exact hread
      · exact absurd rfl (hlate.kept (nextWait_ne_xfer _ _)).1
    · have hpos : some w' ≠ some WaitName.xfer := fun hpos => hw' (Option.some.inj hpos)
      have hwaited : Kept s (waited .xfer s) := waitPoll_kept .xfer s none
      have hkept := h.kept_of_xfer hpos
      have hfrom := muted_from (waited .xfer s)
      obtain ⟨v, ws, hsilences, hemitted⟩ := h.emits_of_xfer hpos hph (hsil rfl)
      have hsinout := pendingValue_muted_rSinout (s := waited .xfer s) (hwaited.cfg ▸ hc) (hwaited.device hs)
        (hwaited.sil.trans (hsil rfl))
      rw [← hkept.pending (hfrom.device (hwaited.device hs)), hwaited.pending hs, ← hsilences, hwaited.cfg]
        at hsinout
      refine ⟨eventsIn .wait [.wait .xfer true] ++ eventsIn .quiesce
        (mutingAccesses s.cfg (passRecord s) s.g v ++ okWaits ws ++ [.wait w' false]), ?_, ?_, ?_, rfl, hqueue, hqn⟩
      · rw [hkept.ph.trans hfrom.ph, hemitted] at hlast
        refine hlast.trans ?_
        simp only [eventsIn_append, List.append_assoc]
      · rw [if_pos ⟨rfl, by simp [xferFailed, List.mem_append, mem_eventsIn]⟩]
        refine (hpolled.g.trans (hkept.g.trans hfrom.g)).trans ?_
        rw [hwaited.cfg, hwaited.passRecord, hwaited.g]
      · refine (hread.trans hsinout).trans ?_
        simp only [silencing, List.mem_append, mem_eventsIn, silencing_mem_mutingAccesses hc, qw_notMem_okWaits,
          List.mem_singleton, reduceCtorEq, false_and, false_or, or_false, true_and]
  · have hstart : some w ≠ some WaitName.xfer := fun hpos => hw (Option.some.inj hpos)
    have hph' : s.w.ph = .quiesce := by
      cases w with
      | xfer => exact absurd rfl hw
      | fade | sine => exact hph
    obtain ⟨_, hkept⟩ := h.kept hstart
    obtain ⟨ws, hemitted⟩ := h.emits_late hstart hph'
    refine ⟨eventsIn .quiesce (okWaits ws ++ [.wait w' false]), ?_, ?_, ?_, rfl, hqueue, hqn⟩
    · rw [hkept.ph.trans hph', hemitted] at hlast
      refine hlast.trans ?_
      rw [eventsIn_append, List.append_assoc]
    · rw [if_neg fun ⟨hxfer, _⟩ => hw hxfer]
      exact hpolled.g.trans hkept.g
    · rw [if_neg (by simp [silencing, List.mem_append, mem_eventsIn, qw_notMem_okWaits])]
      exact hread.trans (hkept.pending hs _)

theorem xferFailed_mem_accesses {evs : List Event} : xferFailed ∈ accesses evs ↔ xferFailed ∈ evs := by
  simp [accesses, xferFailed]

theorem silencing_mem_accesses {c : Cfg} {evs : List Event} : silencing c ∈ accesses evs ↔ silencing c ∈ evs := by
  simp [accesses, silencing]

/-- Settles O50: a pass that ends with E_RUNTIME has come to a wait that failed (`resumeWait_aborted`), and what
that leaves is `Comes.abortedFrom`; the tape that fails a wait brings it there (`PassAt.fails_of_answersFail`). -/
theorem abortedPassState : Obligations.AbortedPassState := by
  refine ⟨?_, ?_, ?_, ?_, ?_⟩
  · intro s t blob r hc hs hst hanalyse h hresult hsite
    obtain ⟨rfl, hr⟩ := exec_apply_record hst hanalyse h
    obtain ⟨w', u, hcomes, hres, hended⟩ :=
      resumeWait_aborted (w := .xfer) (s := applyStart blob r s) hc hsite hresult
    obtain ⟨evs, haborted⟩ := hcomes.abortedFrom hres hc (hs.deviceOk.congr rfl rfl) rfl fun _ => rfl
    rw [← hended] at haborted
    have hevs : accesses (resumeWait .applyXfer (applyStart blob r s)).io.trace = evs := haborted.emitted
    have hglobals := haborted.globals
    have hsinout := haborted.sinout
    simp only [← hevs, xferFailed_mem_accesses, silencing_mem_accesses, hr, true_and, ite_not] at hglobals hsinout
    refine ⟨?_, fun hqueue => ?_, haborted.ph, haborted.queue, haborted.qn⟩
    · exact hglobals
    · exact hsinout.trans (congrArg _ (pendingValue_empty (s := applyStart blob r s) hqueue _))
  · intro s t site hc hs hheld hpass h hresult hsite
    obtain ⟨_, rfl⟩ := step_of_site hheld h
    obtain ⟨w, rfl⟩ := passSite_of_pass hpass
    have hph : s.w.ph = sitePhase (passSite w) := by rw [hs.phase, hheld]; rfl
    obtain ⟨w', u, hcomes, hres, hended⟩ := resumeWait_aborted hc hsite hresult
    obtain ⟨evs, haborted⟩ := hcomes.abortedFrom hres hc hs.deviceOk hph fun hw =>
      hs.notSilenced (by rw [hheld, hw]; rfl)
    rw [← hended] at haborted
    obtain ⟨added, htrace, _⟩ := resumeWait_addsMuting hc hph hpass
    have hevs : accesses added = evs := by
      have hemitted := haborted.emitted
      rw [accessed, htrace, accesses_append] at hemitted
      exact List.append_cancel_left hemitted
    have hglobals := haborted.globals
    have hsinout := haborted.sinout
    simp only [← hevs, xferFailed_mem_accesses, silencing_mem_accesses,
      pendingValue_empty (hs.waitEmpty (by rw [hheld]; rfl))] at hglobals hsinout
    simp only [← passSite_eq_applyXfer] at hglobals
    exact ⟨added, htrace, hglobals, hsinout, haborted.ph, haborted.queue, haborted.qn⟩
  · intro s blob r hc hs hready hst hanalyse g htape
    obtain ⟨w', u, hcomes, hended⟩ := (applyStart_passAt (blob := blob) hst hanalyse 0).fails_of_answersFail htape
    have hcfg := congrArg Cfg.eRuntime ((waitPoll_cfg w' u).trans hcomes.cfg)
    exact ⟨_, (exec_apply_of_ready hready hst hanalyse).trans (congrArg _ hended), hcfg, rfl, rfl,
      congrArg bytes32 hcfg⟩
  · intro s site r g v hc hs hheld htape
    obtain ⟨w, rfl⟩ := passSite_of_pass hheld.isPass
    obtain ⟨w', u, hcomes, hended⟩ := (hheld.passAt hs).fails_of_answersFail htape
    have hcfg := congrArg Cfg.eRuntime ((waitPoll_cfg w' u).trans hcomes.cfg)
    exact ⟨_, (step_resumes hc hheld.held).trans (congrArg _ hended), hcfg, rfl, rfl, congrArg bytes32 hcfg⟩
  · intro s site v rest hc hs hheld hpass hwaits
    obtain ⟨w, rfl⟩ := passSite_of_pass hpass
    have hqn : s.w.qn = 0 := hs.counted.trans (by rw [hs.waitEmpty (by rw [hheld]; rfl)]; rfl)
    rw [step_resumes hc hheld, resumeWait_fails hc hqn hwaits]
    cases w <;> rfl

end Sys2Proof.Machine
end

section
/-! Before a host-driven pass writes an address it has muted its targets (O49): every coefficient item of an
analysed request is noted among the targets (`CoefsNoted`), the accesses before phase 3 mute those
(`mutedAccesses_mute`), and only phase 3 writes an address. -/

namespace Sys2Proof.Machine

/-! ## Targets are noted (rule R105) -/

/-- The record notes the app `a` as a coefficient target. -/
def CoefNoted (c : Cfg) (a : AppId) (r : AnalysisRecord) : Prop :=
  bitSet (r.ctgt.get (c.app a).cdom) (c.app a).cbit = true ∧
    ∀ k b, (c.app a).en = some (k, b) → bitSet (r.xt.get k) b = true

/-- The app of every coefficient item is noted, and only a coefficient item selects a sine source. -/
structure CoefsNoted (c : Cfg) (r : AnalysisRecord) : Prop where
  noted : ∀ a addr payload, Item.coef a addr payload ∈ r.items → CoefNoted c a r
  noSine : r.ncoef = 0 → r.sinsel = none

theorem Four.get_set {α : Type} (t : Four α) (d d' : Domain) (v : α) :
    (t.set d v).get d' = if d' = d then v else t.get d' := by
  cases d <;> cases d' <;> rfl

theorem accumulateCoef_notes (c : Cfg) (a : AppId) (mb : Byte) (addr : Word) (payload : List Byte)
    (r : AnalysisRecord) : CoefNoted c a (accumulateCoef c a mb addr payload r) := by
  constructor
  · simp only [accumulateCoef, Four.get_set, if_true, bitSet_or_bit, decide_true, Bool.or_true]
  · intro k b hen
    simp only [accumulateCoef, hen, bitSet_set_or_bit, and_self, decide_true, Bool.or_true]

theorem CoefNoted.accumulateCoef {c : Cfg} {a' : AppId} {r : AnalysisRecord} (h : CoefNoted c a' r) (a : AppId)
    (mb : Byte) (addr : Word) (payload : List Byte) :
    CoefNoted c a' (Machine.accumulateCoef c a mb addr payload r) := by
  obtain ⟨htarget, henable⟩ := h
  constructor
  · simp only [Machine.accumulateCoef, Four.get_set]
    split
    · rw [bitSet_or_bit, ← ‹(c.app a').cdom = (c.app a).cdom›, htarget, Bool.true_or]
    · exact htarget
  · intro k b hen
    simp only [Machine.accumulateCoef]
    split
    · rw [bitSet_set_or_bit, henable k b hen, Bool.true_or]
    · exact henable k b hen

/-- An item of another kind at the end. -/
theorem CoefsNoted.append {c : Cfg} {r r' : AnalysisRecord} {item : Item} (h : CoefsNoted c r)
    (hitems : r'.items = r.items ++ [item]) (hitem : isCoef item = false) (hncoef : r'.ncoef = r.ncoef)
    (hctgt : r'.ctgt = r.ctgt) (hxt : r'.xt = r.xt) (hsinsel : r'.sinsel = r.sinsel) : CoefsNoted c r' where
  noted a addr payload hmem := by
    rw [hitems, List.mem_append, List.mem_singleton] at hmem
    rcases hmem with hmem | rfl
    · rw [CoefNoted, hctgt, hxt]
      exact h.noted a addr payload hmem
    · cases hitem
  noSine hnone := hsinsel.trans (h.noSine (hncoef.symm.trans hnone))

theorem analyseChunk_coefsNoted {c : Cfg} {en : Two Byte} {k : Chunk} {r r' : AnalysisRecord}
    (h : CoefsNoted c r) (hk : analyseChunk c en k r = some r') : CoefsNoted c r' := by
  cases k with
  | fwctrlB body =>
    obtain ⟨_, _, rfl⟩ := analyseFwctrlB_some hk
    obtain ⟨on, off, hframe⟩ := fwTransitions_frame c en body r
    rw [hframe]
    exact h.append rfl rfl rfl rfl rfl rfl
  | appcoef a body =>
    obtain ⟨_, _, ⟨_, rfl⟩ | ⟨_, rfl⟩⟩ := analyseAppcoef_some hk
    · exact h.append rfl rfl rfl rfl rfl rfl
    · refine ⟨fun a' addr payload hmem => ?_, nofun⟩
      rcases List.mem_append.1 hmem with hmem | hmem
      · have hnoted : CoefNoted c a' { r with seen := appTag c.tagCoef a :: r.seen } :=
          h.noted a' addr payload hmem
        exact hnoted.accumulateCoef a _ _ _
      · cases List.mem_singleton.1 hmem
        exact accumulateCoef_notes c a _ _ _ _
  | appreg a body =>
    obtain ⟨_, ⟨_, _, rfl⟩ | ⟨_, rfl⟩⟩ := analyseAppreg_some hk
    · exact h.append rfl rfl rfl rfl rfl rfl
    · exact h.append rfl rfl rfl rfl rfl rfl
  | skip tag body =>
    cases hk
    exact h.append rfl rfl rfl rfl rfl rfl

theorem analyse_coefsNoted {c : Cfg} {blob : List Byte} {en : Two Byte} {r : AnalysisRecord}
    (h : analyse c blob en = .record r) : ∃ u, CoefsNoted c u ∧ r = completeRecord c en u :=
  analyse_ind (P := CoefsNoted c) h ⟨nofun, fun _ => rfl⟩ fun _ _ _ hu hk => analyseChunk_coefsNoted hu hk

/-! ## The accesses before phase 3 mute them -/

theorem and_eq_left_iff {x y : Byte} : x &&& y = x ↔ ∀ b, bitSet x b = true → bitSet y b = true := by
  constructor
  · intro h b hx
    rw [← h] at hx
    simp only [bitSet, BitVec.getLsbD_and, Bool.and_eq_true] at hx
    exact hx.2
  · intro h
    refine BitVec.eq_of_getLsbD_eq fun i hi => ?_
    have hbit := h ⟨i, hi⟩
    simp only [bitSet] at hbit
    rw [BitVec.getLsbD_and]
    cases hx : x.getLsbD i with
    | false => rfl
    | true => rw [hbit hx]; rfl

theorem and_or_of_left {x y : Byte} (h : x &&& y = x) (z : Byte) : x &&& (y ||| z) = x :=
  and_eq_left_iff.2 fun b hx => by
    have hy := and_eq_left_iff.1 h b hx
    simp only [bitSet, BitVec.getLsbD_or] at hy ⊢
    rw [hy, Bool.true_or]

/-- What a fold of ORs starts from, or ORs in for one element, is in its result. -/
theorem and_foldl_or {α : Type} (p : α → Prop) [DecidablePred p] (f : α → Byte) {x : Byte} :
    ∀ (l : List α) (z : Byte), (x &&& z = x ∨ ∃ y ∈ l, p y ∧ x &&& f y = x) →
      x &&& l.foldl (fun n y => if p y then n ||| f y else n) z = x
  | [], z, h => h.elim id fun ⟨_, hmem, _⟩ => nomatch hmem
  | y :: l, z, h => by
    refine and_foldl_or p f l _ ?_
    rcases h with h | ⟨y', hmem, hp, hf⟩
    · refine .inl ?_
      show x &&& (if p y then z ||| f y else z) = x
      split
      · exact and_or_of_left h _
      · exact h
    · rcases List.mem_cons.1 hmem with rfl | hmem
      · refine .inl ?_
        show x &&& (if p y' then z ||| f y' else z) = x
        rw [if_pos hp, BitVec.or_comm]
        exact and_or_of_left hf _
      · exact .inr ⟨y', hmem, hp, hf⟩

/-- A host-driven pass needs all protection bits of a domain that holds a target (rule R123). -/
theorem prot_and_bypAfterQ1 {c : Cfg} {r : AnalysisRecord} {a : AppId} (hmode : r.mode = .host)
    (hnoted : CoefNoted c a r) (byp : Byte) :
    c.prot.get (c.app a).cdom &&& bypAfterQ1 c r byp = c.prot.get (c.app a).cdom := by
  have htarget : r.ctgt.get (c.app a).cdom ≠ 0 := fun hzero => by
    have hbit := hnoted.1
    rw [hzero] at hbit
    exact absurd hbit (by simp [bitSet])
  have hneed : c.prot.get (c.app a).cdom &&& needBits c r = c.prot.get (c.app a).cdom := by
    unfold needBits
    rw [if_pos hmode]
    refine and_foldl_or (fun d => r.ctgt.get d ≠ 0) (fun d => c.prot.get d) _ _
      (.inr ⟨(c.app a).cdom, ?_, htarget, BitVec.and_self⟩)
    cases (c.app a).cdom <;> simp
  rw [bypAfterQ1, BitVec.or_comm byp]
  exact and_or_of_left (and_or_of_left hneed _) _

/-- The accesses of a pass before phase 3 (rules R122 to R128). -/
def accessesBeforeDownload (c : Cfg) (r : AnalysisRecord) (g : Globals) (v : Byte) : List Event :=
  mutedAccesses c r g v ++ eventsIn .quiesce (clearAccesses c r g.en)

/-- Those of a host-driven pass mute each of its targets (rule R154). -/
theorem accessesBeforeDownload_mute {c : Cfg} {r : AnalysisRecord} {a : AppId} (hmode : r.mode = .host)
    (hnoted : CoefNoted c a r) (g : Globals) (v : Byte) : MutedBefore c g a (accessesBeforeDownload c r g v) := by
  refine ⟨?_, fun hprot => ?_, fun k b hen hrunning => ?_⟩
  · simp [accessesBeforeDownload, mutedAccesses, eventsIn]
  · have hset := prot_and_bypAfterQ1 hmode hnoted g.byp
    have hchanged : bypAfterQ1 c r g.byp ≠ g.byp := fun hsame => hprot (hsame ▸ hset)
    refine ⟨bypAfterQ1 c r g.byp, hset, ?_⟩
    simp only [accessesBeforeDownload, mutedAccesses, mutingAccesses, if_pos hchanged, eventsIn_append,
      List.append_assoc]
    exact .trans (.append (.refl [_]) (.trans (.trans (List.sublist_append_left [_] _)
      (List.sublist_append_right _ _)) (List.sublist_append_right _ _))) (List.sublist_append_right _ _)
  · have hbit : bitSet (r.off.get k ||| (xclr r k &&& g.en.get k)) b = true := by
      have hclears := hnoted.2 k b hen
      rw [bitSet] at hrunning hclears ⊢
      rw [xclr, if_pos hmode, BitVec.getLsbD_or, BitVec.getLsbD_and, hclears, hrunning, Bool.true_and, Bool.or_true]
    refine ⟨g.en.get k &&& ~~~(r.off.get k ||| (xclr r k &&& g.en.get k)), ?_, ?_⟩
    · rw [bitSet, BitVec.getLsbD_and, ← bitSet, ← bitSet, bitSet_not, hbit, Bool.not_true, Bool.and_false]
    · have hchanged : r.off.get k ||| (xclr r k &&& g.en.get k) ≠ 0 := fun hzero => by
        rw [hzero] at hbit
        exact absurd hbit (by simp [bitSet])
      refine List.mem_append_right _ (mem_eventsIn.2 ⟨rfl, List.mem_flatMap.2 ⟨k, by cases k <;> simp, ?_⟩⟩)
      rw [if_pos hchanged]
      exact List.mem_singleton_self _

/-! ## Only phase 3 writes an address -/

/-- No address write among the operations. -/
def NoAddressWrite (c : Cfg) (evs : List Event) : Prop :=
  ∀ e ∈ evs, ∀ g q x, e.op = .qw g q x → q ∉ c.rBma

theorem accessesBeforeDownload_noAddressWrite {c : Cfg} (hc : admissible c = true) (r : AnalysisRecord) (g : Globals)
    (v : Byte) : NoAddressWrite c (accessesBeforeDownload c r g v) := by
  obtain ⟨_, hapart⟩ := admissible_blockMemory hc
  have hspared : ∀ q, q ∈ [c.rMctl, c.rEn.k0, c.rEn.k1, c.rByp] ++ c.rAux.toList → q ∉ c.rBma := fun q hq hmem =>
    hapart q hq (.inl hmem)
  have hbyp := hspared c.rByp (by simp)
  have hsinout := hspared c.rSinout (List.mem_append_right _ (admissible_sinout_mem_aux hc))
  have hen : ∀ k, c.rEn.get k ∉ c.rBma
    | .k0 => hspared _ (by simp [Two.get])
    | .k1 => hspared _ (by simp [Two.get])
  intro e he gate q x hop hmem
  obtain ⟨p, op⟩ := e
  subst hop
  simp only [accessesBeforeDownload, mutedAccesses, mutingAccesses, clearAccesses, List.mem_append, mem_eventsIn,
    List.mem_ite_nil_right, List.mem_flatMap, List.mem_singleton, PortOp.qw.injEq, reduceCtorEq, and_false,
    or_false, false_or] at he
  rcases he with ⟨_, ⟨_, _, rfl, _⟩ | ⟨_, _, rfl, _⟩⟩ | ⟨_, k, _, _, _, rfl, _⟩
  · exact hbyp hmem
  · exact hsinout hmem
  · exact hen k hmem

/-- A list that goes on with an element past a beginning without such elements goes on past that beginning. -/
theorem append_of_append_cons_eq {α : Type} {P : α → Prop} {x : α} (hx : P x) :
    ∀ {xs ys as bs : List α}, xs ++ x :: ys = as ++ bs → (∀ a ∈ as, ¬P a) → ∃ cs, xs = as ++ cs
  | xs, _, [], _, _, _ => ⟨xs, rfl⟩
  | [], _, a :: _, _, heq, has => absurd ((List.cons.inj heq).1 ▸ hx) (has a List.mem_cons_self)
  | _ :: xs, _, a :: as, _, heq, has => by
    obtain ⟨hhead, htail⟩ := List.cons.inj heq
    obtain ⟨cs, hcs⟩ := append_of_append_cons_eq hx htail fun a' ha' => has a' (List.mem_cons_of_mem a ha')
    exact ⟨cs, by rw [hhead, hcs]; rfl⟩

theorem MutedBefore.mono {c : Cfg} {g : Globals} {a : AppId} {evs evs' : List Event} (h : MutedBefore c g a evs)
    (hsub : evs.Sublist evs') : MutedBefore c g a evs' := by
  obtain ⟨hwaited, hbyp, hen⟩ := h
  refine ⟨hsub.subset hwaited, fun hprot => ?_, fun k b hk hb => ?_⟩
  · obtain ⟨v, hv, hmuted⟩ := hbyp hprot
    exact ⟨v, hv, hmuted.trans hsub⟩
  · obtain ⟨v, hv, hmem⟩ := hen k b hk hb
    exact ⟨v, hv, hsub.subset hmem⟩

/-- What a pass has emitted at a wait is the beginning of the accesses before phase 3. -/
theorem PassAt.accessed_starts {r : AnalysisRecord} {g : Globals} {v : Byte} {pos : Option WaitName} {u : State}
    (h : PassAt r g v pos u) : accessed u <+: accessesBeforeDownload u.cfg r g v := by
  rcases h with ⟨_, _, _, hempty⟩ | hat
  · rw [hempty]
    exact List.nil_prefix
  · exact .trans ⟨_, hat.emitted⟩ (List.prefix_append _ _)

theorem accessesBeforeDownload_starts (c : Cfg) (r : AnalysisRecord) (g : Globals) (v : Byte) :
    accessesBeforeDownload c r g v <+: passAccesses c r g v := by
  have hsplit : passAccesses c r g v = mutedAccesses c r g v ++ accessesPastWaits c r _ _ _ := rfl
  rw [hsplit, accessesPastWaits, List.append_assoc, ← List.append_assoc]
  exact List.prefix_append _ _

theorem waitEvents_not_qw {p : Phase} {w : WaitName} {res : WaitResult} {e : Event} (h : e ∈ waitEvents p w res)
    (g : Gate) (q : Reg) (x : Byte) : e.op ≠ .qw g q x := by
  cases res with
  | polling => cases h
  | ok | failed =>
    cases List.mem_singleton.1 h
    nofun

/-- A pass that a wait stops has emitted, last, that wait or nothing. -/
theorem Ends.accessed {w : WaitName} {u t : State} (h : Ends (some w) u t) :
    Machine.accessed t = Machine.accessed u ++ waitEvents u.w.ph w (waitPoll w u).io.waitRes := by
  rw [← accessed_waitPoll]
  cases h with
  | holds | fails => rfl

/-- The address writes of a pass come after the accesses that mute its targets. -/
theorem PassAt.mutes {r : AnalysisRecord} {g : Globals} {v : Byte} {w : WaitName} {s : State} {a : AppId}
    {pre post : List Event} {e : Event} {gate : Gate} {q : Reg} {x : Byte} (hat : PassAt r g v (some w) s)
    (hc : admissible s.cfg = true) (hmode : r.mode = .host) (hnoted : CoefNoted s.cfg a r)
    (htrace : (resumeWait (passSite w) s).io.trace = pre ++ e :: post) (hop : e.op = .qw gate q x)
    (hq : q ∈ s.cfg.rBma) : MutedBefore s.cfg g a pre := by
  obtain ⟨pos, u, hcomes, hends⟩ := resumeWait_ends w s
  obtain ⟨v', _, _, hat'⟩ := hat.comes hcomes
  have hcfg := hcomes.cfg
  have hbefore := accessesBeforeDownload_noAddressWrite hc r g v'
  have haccesses : accessed (resumeWait (passSite w) s) = accesses pre ++ e :: accesses post := by
    rw [accessed, htrace, accesses_append]
    simp [accesses, hop]
  generalize resumeWait (passSite w) s = t at *
  cases pos with
  | some w' =>
    have hmem : e ∈ accessed u ++ waitEvents u.w.ph w' (waitPoll w' u).io.waitRes := by
      rw [← hends.accessed, haccesses]
      exact List.mem_append_right _ List.mem_cons_self
    rcases List.mem_append.1 hmem with hmem | hmem
    · exact absurd hq (hbefore e (hcfg ▸ hat'.accessed_starts.subset hmem) gate q x hop)
    · exact absurd hop (waitEvents_not_qw hmem gate q x)
  | none =>
    cases hends
    rw [(hat'.mutedAt nofun).accessed_completed, hcfg] at haccesses
    obtain ⟨_, hsplit⟩ := accessesBeforeDownload_starts s.cfg r g v'
    obtain ⟨cs, hcs⟩ := append_of_append_cons_eq (P := fun e => ∃ g q x, e.op = .qw g q x ∧ q ∈ s.cfg.rBma)
      ⟨gate, q, x, hop, hq⟩ (haccesses.symm.trans hsplit.symm)
      fun e' he' ⟨g', q', x', hop', hq'⟩ => hbefore e' he' g' q' x' hop' hq'
    refine (accessesBeforeDownload_mute hmode hnoted g v').mono
      (.trans (l₂ := accesses pre) ?_ List.filter_sublist)
    rw [hcs]
    exact List.sublist_append_left _ _

/-- Settles O49: from its start and from each wait, a pass writes an address only after the accesses that mute
its targets (`PassAt.mutes`), which the analysis has noted (`analyse_coefsNoted`). -/
theorem targetsAreMutedBeforeTransfer : Obligations.TargetsAreMutedBeforeTransfer := by
  constructor
  · intro s t blob r a addr payload pre post e gate q x hc hst hanalyse hmode hmem h htrace hop hq
    obtain ⟨rfl, _⟩ := exec_apply_record hst hanalyse h
    obtain ⟨u, hnoted, rfl⟩ := analyse_coefsNoted hanalyse
    exact (applyStart_passAt (blob := blob) hst hanalyse 0).mutes hc hmode (hnoted.noted a addr payload hmem)
      htrace hop hq
  · intro s t blob r site g₀ v a addr payload pre post e gate q x hc hs hheld hanalyse hmode hmem h htrace hop hq
    obtain ⟨_, rfl⟩ := step_of_site hheld.held h
    obtain ⟨w, rfl⟩ := passSite_of_pass hheld.isPass
    obtain ⟨u, hnoted, rfl⟩ := analyse_coefsNoted hanalyse
    exact (hheld.passAt hs).mutes hc hmode (hnoted.noted a addr payload hmem) htrace hop hq

end Sys2Proof.Machine
end

section
/-! An empty pass (rule R141, O54): its record asks for nothing, so that it writes nothing but the two enable
registers (`EmptyRecord.passAccesses`), and until those nothing is queued that a flush would deliver (`Calm`). -/

namespace Sys2Proof.Machine

/-! ## A record that asks for nothing -/

/-- No transition, no stop flag, no mode, every directive DC, no REG item (rule R141). -/
structure EmptyRecord (r : AnalysisRecord) : Prop where
  changes : ∀ k, r.on.get k = 0 ∧ r.off.get k = 0 ∧ r.gs.get k = 0
  mode : r.mode = .none
  mdir : r.mdir = .dc
  bdir : r.bdir = { k0 := .dc, k1 := .dc }
  items : ∀ i ∈ r.items, ∀ f vals, i ≠ .reg f vals

section
variable {r : AnalysisRecord}

theorem EmptyRecord.needBits (h : EmptyRecord r) (c : Cfg) : Machine.needBits c r = 0 := by
  have hchanges : ∀ k, r.on.get k ||| r.off.get k ||| r.gs.get k = 0 := fun k => by
    obtain ⟨hon, hoff, hgs⟩ := h.changes k
    rw [hon, hoff, hgs]
    rfl
  simp [Machine.needBits, hchanges, h.mode]

theorem EmptyRecord.askedBits (h : EmptyRecord r) (c : Cfg) {d : Directive} (hd : d ≠ .dc) :
    Machine.askedBits c r d = 0 := by
  simp [Machine.askedBits, h.bdir, Two.get, hd.symm]

theorem EmptyRecord.bypAfterQ1 (h : EmptyRecord r) (c : Cfg) (byp : Byte) :
    Machine.bypAfterQ1 c r byp = byp := by
  rw [Machine.bypAfterQ1, h.needBits, h.askedBits c (d := .start) nofun]
  exact BitVec.or_zero.trans BitVec.or_zero

theorem EmptyRecord.sineAtStake (h : EmptyRecord r) (c : Cfg) (src : SinSrc) :
    Machine.sineAtStake c r src = false := by
  have hbit : ∀ k b, bitSet (r.on.get k ||| r.off.get k ||| r.gs.get k) b = false := fun k b => by
    obtain ⟨hon, hoff, hgs⟩ := h.changes k
    rw [hon, hoff, hgs]
    simp [bitSet]
  unfold Machine.sineAtStake
  cases (c.app c.gen).en <;> simp [hbit, h.mode]

theorem EmptyRecord.genStopped (h : EmptyRecord r) (c : Cfg) (k : AeDom) : Machine.genStopped c r.items k = 0 := by
  refine if_neg ?_
  rw [List.any_eq_true]
  rintro ⟨item, hmem, hstops⟩
  cases item with
  | reg f vals => exact h.items _ hmem f vals rfl
  | fw | coef | skip => cases hstops

theorem EmptyRecord.enAfter (h : EmptyRecord r) (c : Cfg) (before : Byte) (k : AeDom) :
    Machine.enAfter c r.items (r.off.get k) (r.on.get k) before k = before := by
  obtain ⟨hon, hoff, _⟩ := h.changes k
  rw [Machine.enAfter, h.genStopped, hon, hoff, and_not_zero, and_not_zero]
  exact BitVec.or_zero

theorem and_allBits (b : Byte) : b &&& 255#8 = b := BitVec.and_allOnes

theorem EmptyRecord.globalsAfter (h : EmptyRecord r) (c : Cfg) (g : Globals) : Machine.globalsAfter c r g = g := by
  have h0 := h.enAfter c g.en.k0 .k0
  have h1 := h.enAfter c g.en.k1 .k1
  simp only [Two.get] at h0 h1
  simp [Machine.globalsAfter, h0, h1, h.askedBits c, h.mdir, and_allBits]

theorem EmptyRecord.xclr (h : EmptyRecord r) (k : AeDom) : Machine.xclr r k = 0 := by
  simp [Machine.xclr, h.mode]

theorem downloadAccesses_of_no_reg (c : Cfg) : ∀ (en : Two Byte) (items : List Item),
    (∀ i ∈ items, ∀ f vals, i ≠ .reg f vals) → downloadAccesses c .none en items = []
  | _, [], _ => rfl
  | en, item :: items, h => by
    have hitem : itemAccesses c .none en item = [] := by
      cases item with
      | reg f vals => exact absurd rfl (h _ List.mem_cons_self f vals)
      | fw | coef | skip => rfl
    rw [downloadAccesses, hitem,
      downloadAccesses_of_no_reg c _ items fun i hi => h i (List.mem_cons_of_mem _ hi)]
    rfl

/-- All that an empty pass writes: the two enable registers, as they are. -/
theorem EmptyRecord.passAccesses (h : EmptyRecord r) (c : Cfg) (g : Globals) (v : Byte) :
    Machine.passAccesses c r g v = [{ phase := .wait, op := .wait .xfer true },
      { phase := .resume, op := .qw .gated c.rEn.k0 g.en.k0 },
      { phase := .resume, op := .qw .gated c.rEn.k1 g.en.k1 }] := by
  have hoff : ∀ k, r.off.get k = 0 := fun k => (h.changes k).2.1
  have h0 := h.enAfter c g.en.k0 .k0
  have h1 := h.enAfter c g.en.k1 .k1
  simp only [Two.get] at h0 h1
  have hclears : clearAccesses c r g.en = [] := by simp [clearAccesses, hoff, h.xclr]
  have hdownload := downloadAccesses_of_no_reg c (enAfterQ4 r g.en) r.items h.items
  simp [Machine.passAccesses, mutingAccesses, silences, accessesPastWaits, triggerAccesses, resumeAccesses, eventsIn,
    h.bypAfterQ1, h.sineAtStake, h.askedBits c, h.mode, h.mdir, hclears, hdownload, h0, h1, and_allBits]

end

/-! ## No flush before the end -/

/-- Nothing has been flushed. -/
def Unflushed (s : State) : Prop := ∀ e ∈ s.io.trace, e.op ≠ .flush

/-- Nothing has been flushed, and nothing is queued. -/
structure Calm (s : State) : Prop where
  unflushed : Unflushed s
  empty : s.w.qn = 0

theorem Calm.congr {s t : State} (h : Calm s) (htrace : t.io.trace = s.io.trace) (hqn : t.w.qn = s.w.qn) :
    Calm t := ⟨fun e he => h.unflushed e (htrace ▸ he), hqn.trans h.empty⟩

/-- A first poll that sees the flag is one event. -/
theorem Calm.waited {s : State} (h : Calm s) {w : WaitName} (hres : (waitPoll w s).io.waitRes = .ok) :
    Calm (Machine.waited w s) := by
  refine ⟨fun e he => ?_, by simp [Machine.waited]⟩
  have htrace := waitPoll_trace w s
  rw [hres, syncQueue_of_qn_zero h.empty] at htrace
  rcases List.mem_append.1 (htrace ▸ he) with he | he
  · exact h.unflushed e he
  · cases List.mem_singleton.1 he
    nofun

theorem EmptyRecord.calm_stepQ1 {s : State} (hr : EmptyRecord (passRecord s)) (h : Calm s) : Calm (stepQ1 s) := by
  have hsame : bypassOn s = s.g.byp := (bypAfterQ1_eq s).symm.trans (hr.bypAfterQ1 s.cfg s.g.byp)
  unfold stepQ1
  simp only [hsame, ne_eq, not_true, if_false]
  exact h.congr rfl rfl

theorem EmptyRecord.stepQ2_eq {s : State} (hr : EmptyRecord (passRecord s)) : stepQ2 s = s := by
  have hstake := hr.sineAtStake s.cfg s.g.sinsrc
  rw [sineAtStake_eq, Bool.and_eq_false_iff, decide_eq_false_iff_not] at hstake
  refine if_neg fun ⟨hsrc, haffected⟩ => ?_
  rcases hstake with hstake | hstake
  · exact hstake hsrc
  · exact nomatch hstake.symm.trans haffected

theorem EmptyRecord.calm_muted {s : State} (hr : EmptyRecord (passRecord s)) (h : Calm s) : Calm (muted s) := by
  have hq1 : Calm (stepQ1 (enter .quiesce s)) := EmptyRecord.calm_stepQ1 (s := enter .quiesce s) hr (h.congr rfl rfl)
  rw [muted, EmptyRecord.stepQ2_eq]
  · exact hq1
  · rwa [passRecord_congr (stepQ1_acts (enter .quiesce s) s.g.en).samePhase.ar]

theorem EmptyRecord.calm_stepQ4For {s : State} (hr : EmptyRecord (passRecord s)) (h : Calm s) (k : AeDom) :
    Calm (stepQ4For k s) := by
  have hoff := (hr.changes k).2.1
  have hclear : transferClear (passRecord s) k = 0 := hr.xclr k
  have hnone : (passRecord s).off.get k ||| (transferClear (passRecord s) k &&& s.g.en.get k) = 0 := by
    rw [hoff, hclear]
    simp
  unfold stepQ4For
  simp only [hnone, ne_eq, not_true, if_false]
  exact h.congr rfl rfl

theorem EmptyRecord.calm_stepQ4 {s : State} (hr : EmptyRecord (passRecord s)) (h : Calm s) : Calm (stepQ4 s) := by
  have hfirst := hr.calm_stepQ4For h .k0
  have hboth := EmptyRecord.calm_stepQ4For (s := stepQ4For .k0 s)
    (by rwa [passRecord_congr (stepQ4For_ar .k0 s)]) hfirst .k1
  rw [stepQ4, syncQueue_of_qn_zero hboth.empty]
  exact hboth

theorem Calm.downloadItems : ∀ (items : List Item) {s : State}, Calm s → (passRecord s).mode = .none →
    (∀ i ∈ items, ∀ f vals, i ≠ .reg f vals) → Calm (Machine.downloadItems items s)
  | [], _, h, _, _ => h
  | item :: items, s, h, hmode, hitems => by
    have hitem : downloadItem item s = s := by
      cases item with
      | reg f vals => exact absurd rfl (hitems _ List.mem_cons_self f vals)
      | coef a addr payload => simp only [downloadItem, coefItem, hmode]
      | fw | skip => rfl
    have hstep : Calm (downloadStep item s) := by
      rw [downloadStep, hitem]
      exact h.congr rfl rfl
    refine hstep.downloadItems items ?_ fun i hi => hitems i (List.mem_cons_of_mem _ hi)
    rwa [passRecord_congr (downloadStep_acts item s).samePhase.ar]

theorem EmptyRecord.calm_phaseDownload {s : State} (hr : EmptyRecord (passRecord s)) (h : Calm s)
    (htrig : s.w.trigpend = false) : Calm (phaseDownload s) := by
  have hitems : Calm (Machine.downloadItems (passRecord s).items (downloadStart s)) :=
    Calm.downloadItems _ (h.congr rfl rfl) hr.mode hr.items
  have howed := downloadItems_trigpend (passRecord s).items s
  rw [htrig, hr.mode, decide_eq_false nofun, Bool.false_and, Bool.or_false] at howed
  rw [phaseDownload_eq, triggerTransfer, if_neg (by rw [howed]; nofun)]
  exact hitems

/-- Nothing has been flushed, and something is queued. -/
structure Owing (s : State) : Prop where
  unflushed : Unflushed s
  queued : 0 < s.w.qn

theorem Unflushed.qw {s : State} (h : Unflushed s) (g : Gate) (q : Reg) (v : Byte) : Owing (Machine.qw g q v s) := by
  refine ⟨fun e he => ?_, by simp⟩
  rcases List.mem_append.1 (qw_io_trace g q v s ▸ he) with he | he
  · exact h e he
  · cases List.mem_singleton.1 he
    nofun

theorem Unflushed.writeEn {s : State} (h : Unflushed s) (k : AeDom) (v : Byte) : Owing (Machine.writeEn k v s) :=
  Unflushed.qw (s := { s with g := { s.g with en := s.g.en.set k v } }) h ..

theorem Unflushed.writeByp {s : State} (h : Unflushed s) (v : Byte) : Owing (Machine.writeByp v s) :=
  Unflushed.qw (s := { s with g := { s.g with byp := v } }) h ..

theorem Unflushed.writeMaster {s : State} (h : Unflushed s) (v : Byte) : Owing (Machine.writeMaster v s) :=
  Unflushed.qw (s := { s with g := { s.g with master := v } }) h ..

theorem Owing.stepR2 {s : State} (h : Owing s) : Owing (Machine.stepR2 s) := by
  unfold Machine.stepR2
  split
  · have hwritten := h.unflushed.qw .gated s.cfg.rSinout s.w.sinsave
    exact ⟨hwritten.unflushed, hwritten.queued⟩
  · exact h

theorem Owing.stepR3 {s : State} (h : Owing s) : Owing (Machine.stepR3 s) := by
  unfold Machine.stepR3
  simp only
  split
  · exact h.unflushed.writeByp _
  · exact h

theorem Owing.stepR4 {s : State} (h : Owing s) : Owing (Machine.stepR4 s) := by
  unfold Machine.stepR4
  split
  · exact h.unflushed.writeMaster _
  · exact h.unflushed.writeMaster _
  · exact h

/-- Phase 4 after nothing has been flushed: its accesses, then one flush (rule R136). -/
theorem phaseResume_trace_of_unflushed {s : State} (h : Unflushed s) :
    (phaseResume s).io.trace = accessed (phaseResume s) ++ [{ phase := .resume, op := .flush }] := by
  have hwritten : Owing (stepR1For .k1 (stepR1For .k0 (enter .resume s))) :=
    (Unflushed.writeEn (s := enter .resume s) h .k0 _).unflushed.writeEn .k1 _
  have howing := hwritten.stepR2.stepR3.stepR4
  have hph := (resume_acts (enter .resume s)).samePhase.ph
  rw [syncQueue_w] at hph
  have htrace := syncQueue_trace (stepR4 (stepR3 (stepR2 (stepR1For .k1 (stepR1For .k0 (enter .resume s))))))
  rw [if_pos howing.queued, hph] at htrace
  have haccessed := accessed_syncQueue (stepR4 (stepR3 (stepR2 (stepR1For .k1 (stepR1For .k0 (enter .resume s))))))
  rw [accessed, accessed, accesses, accesses, List.filter_eq_self.2 fun e he => decide_eq_true (howing.unflushed e he)]
    at haccessed
  exact htrace.trans (congrArg (· ++ _) haccessed.symm)

/-! ## O54 -/

/-- A pass whose record asks for nothing goes from its transfer wait straight past its waits. -/
theorem EmptyRecord.resumeWait_eq {s : State} (hr : EmptyRecord (passRecord s)) (hsil : s.w.sil = false)
    (hres : (waitPoll .xfer s).io.waitRes = .ok) :
    Comes (some .xfer) s none (muted (waited .xfer s)) ∧
      resumeWait .applyXfer s = quiesceSilent (muted (waited .xfer s)) := by
  have hwaited : Kept s (waited .xfer s) := waitPoll_kept .xfer s none
  have hr' : EmptyRecord (passRecord (waited .xfer s)) := hwaited.passRecord.symm ▸ hr
  have hsil' : (muted (waited .xfer s)).w.sil = false := by
    obtain ⟨v, _, _, hsil', _⟩ := muted_facts (waited .xfer s)
    rw [hsil', silences, hr'.sineAtStake, Bool.false_and, Bool.false_or, hwaited.sil, hsil]
  have hnext : nextWait .xfer (waited .xfer s) = none := by
    rw [nextWait_xfer, if_neg (not_not.2 (hr'.bypAfterQ1 _ _)), hsil', if_neg Bool.false_ne_true]
  constructor
  · have hcomes : Comes (some .xfer) s _ _ := Comes.here.on hres
    rwa [hnext] at hcomes
  · have hrun := runFrom_some .xfer s
    rw [waitThen, hres] at hrun
    change resumeWait .applyXfer s = runFrom (nextWait .xfer (waited .xfer s)) (muted (waited .xfer s)) at hrun
    rw [hrun, hnext]
    rfl

/-- Its part past the waits flushes once, at the end. -/
theorem EmptyRecord.quiesceSilent_trace {s : State} (hr : EmptyRecord (passRecord s)) (h : Calm s)
    (htrig : s.w.trigpend = false) :
    (quiesceSilent s).io.trace = accessed (quiesceSilent s) ++ [{ phase := .resume, op := .flush }] := by
  have hr4 : EmptyRecord (passRecord (stepQ4 s)) := by
    rwa [passRecord_congr (stepQ4_acts s 0).samePhase.ar]
  exact phaseResume_trace_of_unflushed
    (hr4.calm_phaseDownload (hr.calm_stepQ4 h) ((stepQ4_trigpend s).trans htrig)).unflushed

/-- Settles O54: the pass completes (`EmptyRecord.resumeWait_eq`) with the accesses of its record, and nothing is
queued until phase 4 (`Calm`), whose flush is the only one. -/
theorem emptyPassTrace : Obligations.EmptyPassTrace := by
  intro s blob r v rest hs hqueue hready hst hanalyse hchanges hmode hmdir hbdir hitems hwaits hv
  have hr : EmptyRecord r := ⟨hchanges, hmode, hmdir, hbdir, hitems⟩
  have hexec := exec_apply_of_ready hready hst hanalyse
  have hrecord := (exec_apply_record hst hanalyse hexec).2
  have hsinsel : r.sinsel = none := by
    obtain ⟨u, hnoted, rfl⟩ := analyse_coefsNoted hanalyse
    exact hnoted.noSine (selectMode_eq_none_iff.1 hmode)
  have hstart : Calm (applyStart blob r s) := ⟨nofun, hs.counted.trans (by rw [hqueue]; rfl)⟩
  obtain ⟨hres, _⟩ := waitPoll_shows .xfer (applyStart blob r s) hwaits hv
  have hstartRecord : EmptyRecord (passRecord (applyStart blob r s)) := hrecord.symm ▸ hr
  obtain ⟨hcomes, hended⟩ := hstartRecord.resumeWait_eq rfl hres
  have hwaited : Kept (applyStart blob r s) (waited .xfer (applyStart blob r s)) := waitPoll_kept .xfer _ none
  have hwaitedRecord : EmptyRecord (passRecord (waited .xfer (applyStart blob r s))) :=
    hwaited.passRecord.symm ▸ hstartRecord
  have hfrom := muted_from (waited .xfer (applyStart blob r s))
  obtain ⟨_, _, htrig, _⟩ := hfrom.loaded
  refine ⟨_, hexec.trans (congrArg _ hended), rfl, rfl, ?_, ?_⟩
  · rw [hcomes.globalsAfter_of_xfer, hrecord, hr.globalsAfter]
    show ({ s.g with sinsrc := r.sinsel.getD s.g.sinsrc } : Globals) = s.g
    rw [hsinsel]
    rfl
  · obtain ⟨v', _, haccessed⟩ := hcomes.accessed_of_xfer rfl rfl rfl
    rw [hrecord, hr.passAccesses] at haccessed
    have hmutedRecord : EmptyRecord (passRecord (muted (waited .xfer (applyStart blob r s)))) :=
      (passRecord_congr hfrom.ar).symm ▸ hwaitedRecord
    rw [hmutedRecord.quiesceSilent_trace (hwaitedRecord.calm_muted (hstart.waited hres))
      (htrig.trans hwaited.trigpend), haccessed]
    rfl

end Sys2Proof.Machine
end

section
/-! The other items of phase 3 offered by themselves: a Gen register chunk (rules R155 to R157, R186), whose writes
are one list of queue entries that a flush delivers, and the items that emit nothing (rule R158). -/

namespace Sys2Proof.Machine

/-! ## Entries queued in a list -/

/-- What the trace shows of an entry queued in phase `p` (rule R87). -/
def QEntry.event (p : Phase) (e : QEntry) : Event := { phase := p, op := .qw e.gate e.reg e.value }

/-- Entries queued, counted and emitted in their order (`queueEntries_cons`). -/
def queueEntries (es : List QEntry) (s : State) : State :=
  { s with
    hw := { s.hw with queue := s.hw.queue ++ es }
    w := { s.w with qn := s.w.qn + es.length }
    io := { s.io with trace := s.io.trace ++ es.map (QEntry.event s.w.ph) } }

@[simp] theorem queueEntries_nil (s : State) : queueEntries [] s = s := by simp [queueEntries]

theorem queueEntries_cons (e : QEntry) (es : List QEntry) (s : State) :
    queueEntries (e :: es) s = queueEntries es (qw e.gate e.reg e.value s) := by
  simp [queueEntries, qw, emit, QEntry.event, Nat.add_assoc, Nat.add_comm 1]

theorem queueEntries_append (es es' : List QEntry) (s : State) :
    queueEntries (es ++ es') s = queueEntries es' (queueEntries es s) := by
  simp [queueEntries, Nat.add_assoc]

/-- A flush of the entries shown as `evs`, with what was queued before. -/
theorem syncQueue_queueEntries_trace {es : List QEntry} {evs : List Event} {s : State}
    (hevs : es.map (QEntry.event s.w.ph) = evs) :
    (syncQueue (queueEntries es s)).io.trace = s.io.trace ++ evs ++
      (if 0 < s.w.qn ∨ evs ≠ [] then [{ phase := s.w.ph, op := .flush }] else []) := by
  subst hevs
  have hpos : 0 < s.w.qn + es.length ↔ 0 < s.w.qn ∨ es.map (QEntry.event s.w.ph) ≠ [] := by
    rw [Nat.add_pos_iff_pos_or_pos, List.length_pos_iff, Ne, Ne, List.map_eq_nil_iff]
  rw [syncQueue_trace]
  simp only [queueEntries, hpos]

/-! ## The auxiliary registers of a REG item (rules R155, R156) -/

/-- The entries of the selected registers among `is`. -/
def auxEntries (c : Cfg) (flags : Byte) (vals : List Byte) (is : List (Fin 7)) : List QEntry :=
  is.filterMap fun i =>
    if flags.getLsbD i.val then some { gate := .gated, reg := c.rAux[i], value := byteAt vals i.val } else none

/-- Register `i` is the sine register, and is written inactive (rule R156). -/
def cancelsAt (c : Cfg) (flags : Byte) (vals : List Byte) (i : Fin 7) : Bool :=
  decide (i = c.sinSlot) && (flags.getLsbD i.val && decide (byteAt vals i.val = c.vSinInactive))

/-- The silence is cancelled if `cancel` says so. -/
def noteSilence (cancel : Bool) (s : State) : State := { s with w := { s.w with sil := s.w.sil && !cancel } }

theorem noteSilence_false (s : State) : noteSilence false s = s := by simp [noteSilence]

theorem auxWrite_eq (flags : Byte) (vals : List Byte) (i : Fin 7) (s : State) :
    auxWrite flags vals i s =
      queueEntries (auxEntries s.cfg flags vals [i]) (noteSilence (cancelsAt s.cfg flags vals i) s) := by
  have hbit : bitSet flags (i.castLE (by decide)) = flags.getLsbD i.val := rfl
  unfold auxWrite
  rw [hbit]
  cases hsel : flags.getLsbD i.val
  · simp [auxEntries, cancelsAt, hsel, noteSilence_false]
  · rw [if_pos rfl]
    by_cases hsine : i = s.cfg.sinSlot ∧ byteAt vals i.val = s.cfg.vSinInactive
    · have hcancel : cancelsAt s.cfg flags vals i = true := by simpa [cancelsAt, hsel] using hsine
      refine (if_pos hsine).trans ?_
      simp [hcancel, auxEntries, hsel, queueEntries_cons, noteSilence, qw, emit]
    · have hcancel : cancelsAt s.cfg flags vals i = false := by simpa [cancelsAt, hsel] using hsine
      refine (if_neg hsine).trans ?_
      simp [hcancel, auxEntries, hsel, queueEntries_cons, noteSilence_false]

theorem auxWrite_foldl_eq (flags : Byte) (vals : List Byte) (is : List (Fin 7)) (s : State) :
    is.foldl (fun s i => auxWrite flags vals i s) s =
      queueEntries (auxEntries s.cfg flags vals is) (noteSilence (is.any (cancelsAt s.cfg flags vals)) s) := by
  induction is generalizing s with
  | nil => simp [auxEntries, noteSilence_false]
  | cons i is ih =>
    have hentries : auxEntries s.cfg flags vals (i :: is) =
        auxEntries s.cfg flags vals [i] ++ auxEntries s.cfg flags vals is := List.filterMap_append (l := [i])
    rw [List.foldl_cons, ih, auxWrite_eq, hentries, queueEntries_append]
    simp [queueEntries, noteSilence, Bool.and_assoc]

theorem auxWrites_eq (flags : Byte) (vals : List Byte) (s : State) :
    auxWrites flags vals s = queueEntries (auxEntries s.cfg flags vals (List.finRange 7))
      (noteSilence (cancelsSilence s.cfg (.reg flags vals)) s) := by
  rw [auxWrites, auxWrite_foldl_eq]
  congr 2
  exact any_sinSlot s.cfg fun i => flags.getLsbD i.val && decide (byteAt vals i.val = s.cfg.vSinInactive)

/-! ## The stop request of a REG item (rule R157) -/

/-- The stop request among the masks, if there is one: EN only where Gen runs. -/
def noteStop (stop : Bool) (k : AeDom) (b : Fin 8) (s : State) : State :=
  { s with
    g := if stop && bitSet (s.g.en.get k) b then { s.g with en := s.g.en.set k (s.g.en.get k &&& ~~~bit b) } else s.g
    w := { s.w with
      onw := if stop then s.w.onw.set k (s.w.onw.get k &&& ~~~bit b) else s.w.onw
      restore := if stop then s.w.restore.set k (s.w.restore.get k &&& ~~~bit b) else s.w.restore } }

/-- The entry that the stop request queues where Gen runs. -/
def stopEntries (stop : Bool) (k : AeDom) (b : Fin 8) (s : State) : List QEntry :=
  if stop && bitSet (s.g.en.get k) b then
    [{ gate := .gated, reg := s.cfg.rEn.get k, value := s.g.en.get k &&& ~~~bit b }]
  else []

theorem genStop_eq (stop : Bool) {k : AeDom} {b : Fin 8} {s : State} (hgen : genEn s.cfg = some (k, b)) :
    (if stop then genStop s else s) = queueEntries (stopEntries stop k b s) (noteStop stop k b s) := by
  cases stop
  · simp [stopEntries, noteStop]
  · cases hrun : bitSet (s.g.en.get k) b
    · simp [genStop, hgen, stopEntries, noteStop, appRunning, hrun]
    · simp [genStop, hgen, stopEntries, noteStop, appRunning, hrun, queueEntries_cons, writeEn]

/-! ## A REG item (rules R155 to R157) -/

/-- What a REG item queues. -/
def regEntries (flags : Byte) (vals : List Byte) (k : AeDom) (b : Fin 8) (s : State) : List QEntry :=
  auxEntries s.cfg flags vals (List.finRange 7) ++ stopEntries (bitSet flags s.cfg.stopFlag) k b s

/-- What a REG item notes of the silence and of the stop request. -/
def regNoted (flags : Byte) (vals : List Byte) (k : AeDom) (b : Fin 8) (s : State) : State :=
  noteStop (bitSet flags s.cfg.stopFlag) k b (noteSilence (cancelsSilence s.cfg (.reg flags vals)) s)

theorem regItem_eq_sync (flags : Byte) (vals : List Byte) {k : AeDom} {b : Fin 8} {s : State}
    (hgen : genEn s.cfg = some (k, b)) :
    regItem flags vals s = syncQueue (queueEntries (regEntries flags vals k b s) (regNoted flags vals k b s)) := by
  rw [regEntries, queueEntries_append]
  simp only [regItem, auxWrites_eq]
  exact congrArg syncQueue (genStop_eq _ hgen)

/-! ## The items as instructions -/

theorem byteAt_regVals (body : List Byte) {i : Nat} (hi : i < 7) : byteAt (regVals body) i = byteAt body (1 + i) :=
  byteAt_take_drop body 1 hi

/-- The writes of the auxiliary registers as events, from the chunk's bytes (rules R81, R82). -/
theorem auxEntries_events (c : Cfg) (p : Phase) (flags : Byte) (body : List Byte) (is : List (Fin 7)) :
    (auxEntries c flags (regVals body) is).map (QEntry.event p) = is.filterMap fun i =>
      if flags.getLsbD i.val then some { phase := p, op := .qw .gated c.rAux[i] (byteAt body (1 + i.val)) }
      else none := by
  rw [auxEntries, List.map_filterMap]
  refine List.filterMap_congr fun i _ => ?_
  rw [apply_ite (Option.map (QEntry.event p)), Option.map_some, QEntry.event, byteAt_regVals body i.isLt]
  rfl

theorem stopEntries_events (p : Phase) (stop : Bool) (k : AeDom) (b : Fin 8) (s : State) :
    (stopEntries stop k b s).map (QEntry.event p) = if stop && bitSet (s.g.en.get k) b then
        [{ phase := p, op := .qw .gated (s.cfg.rEn.get k) (s.g.en.get k &&& ~~~bit b) }]
      else [] := by
  rw [stopEntries, apply_ite (List.map (QEntry.event p))]
  rfl

/-- At PH = P_DOWNLOAD phase 3 runs a well-formed item that its gate lets through (rules R130, R186; log 15). -/
theorem itemStage_download {rule : AnalysisRecord → Option AnalysisRecord} {item : Item} {s : State}
    (hph : s.w.ph = .download) :
    itemStage rule (some item) s = ifOpen (itemOpen item s) (downloadStep item) s := if_pos hph

/-- A Gen register chunk at PH = P_DOWNLOAD (rules R130, R186). -/
theorem exec_appreg_download {s : State} {body : List Byte} (hph : s.w.ph = .download) (hlen : 8 ≤ body.length) :
    exec (.appreg s.cfg.gen body) s = .next
      (ifOpen (statusOpen s) (downloadStep (.reg (regFlags body) (regVals body))) s) := by
  have hbody : regBodyOk body = true := decide_eq_true hlen
  simp only [exec, execAppreg, if_pos hbody, if_true, itemStage_download hph, itemOpen]

/-- Settles O41: past the status gate the item is one list of gated writes that a flush delivers
(`regItem_eq_sync`). -/
theorem regItemWritesSelectedRegisters : Obligations.RegItemWritesSelectedRegisters := by
  intro s body kg bg hph hcount hlen hgen stop stopWrite aux en
  rw [exec_appreg_download hph hlen]
  constructor
  · intro hidle
    exact next_of_closed (by simp [statusOpen_iff, hidle])
  · intro hst
    refine ⟨_, next_of_open (statusOpen_iff.2 hst), ?_⟩
    simp only [downloadStep, downloadItem, regItem_eq_sync _ _ hgen]
    have hevs : (regEntries (regFlags body) (regVals body) kg bg s).map (QEntry.event s.w.ph) = aux ++ en := by
      rw [regEntries, List.map_append, auxEntries_events, stopEntries_events, hph]
      rfl
    have hflush : 0 < s.w.qn ∨ aux ++ en ≠ [] ↔ 0 < s.w.qn ∨ aux ≠ [] ∨ en ≠ [] := by
      rw [Ne, List.append_eq_nil_iff, not_and_or]
    have hcancel : cancelsSilence s.cfg (.reg (regFlags body) (regVals body)) =
        ((byteAt body 0).getLsbD s.cfg.sinSlot.val &&
          decide (byteAt body (1 + s.cfg.sinSlot.val) = s.cfg.vSinInactive)) := by
      rw [cancelsSilence, byteAt_regVals body s.cfg.sinSlot.isLt, regFlags]
    refine ⟨?_, syncQueue_queue ?_, syncQueue_g _, ?_, syncQueue_site _, syncQueue_cfg _, syncQueue_io_inbox _⟩
    · rw [syncQueue_queueEntries_trace (s := regNoted _ _ _ _ s) hevs]
      simp only [← hflush, ← hph, List.append_assoc]
      rfl
    · exact (congrArg (· + _) hcount).trans List.length_append.symm
    · rw [syncQueue_w, ← hcancel]
      rfl

/-- What emits nothing is let through, and only counted (rules R29, R158). -/
theorem itemStage_of_silent {rule : AnalysisRecord → Option AnalysisRecord} {item : Item} {s : State}
    (hph : s.w.ph = .download) (hsilent : item = .fw ∨ item = .skip) :
    itemStage rule (some item) s = { s with w := { s.w with ix := s.w.ix + 1 } } := by
  rw [itemStage_download hph]
  rcases hsilent with rfl | rfl
  · rfl
  · rfl

/-- Settles O42: each of the four forms is an FW or a SKIP item (`itemStage_of_silent`). -/
theorem otherItemsEmitNothing : Obligations.OtherItemsEmitNothing := by
  intro s i hph hform
  rcases hform with ⟨body, rfl, hbody⟩ | ⟨tag, body, rfl⟩ | ⟨a, body, rfl, hbody, hcount⟩ |
    ⟨a, body, rfl, hlen, hother⟩
  · rw [exec, execFwctrlB, if_pos hbody]
    exact congrArg Host.Outcome.next (itemStage_of_silent hph (.inl rfl))
  · exact congrArg Host.Outcome.next (itemStage_of_silent hph (.inr rfl))
  · have hnone : coefCount s.cfg body = 0 := hcount
    rw [exec, execAppcoef, if_pos hbody, if_pos hnone]
    exact congrArg Host.Outcome.next (itemStage_of_silent hph (.inr rfl))
  · have hbody : regBodyOk body = true := decide_eq_true hlen
    rw [exec, execAppreg, if_pos hbody, if_neg hother]
    exact congrArg Host.Outcome.next (itemStage_of_silent hph (.inr rfl))

end Sys2Proof.Machine
end

section
/-! One poll of a WAIT inside a command, with nothing queued, by the answer it is given (rules R137, R167, R182):
the whole state that each answer leaves. -/

namespace Sys2Proof.Machine

/-- The answer ends the wait with a failure, and with it the command. -/
theorem waitThen_of_fails {w : WaitName} {s : State} {v : Byte} {rest : List WaitAnswer}
    (hc : admissible s.cfg = true) (hqn : s.w.qn = 0) (hwaits : s.orc.waits = .fails v :: rest)
    (site : WaitSite) (next : State → State) :
    waitThen w site next s = { s with
      w := { s.w with ph := .idle, result := s.cfg.eRuntime }
      io := { s.io with
        trace := s.io.trace ++ [{ phase := s.w.ph, op := .wait w false }]
        rdata := v
        waitRes := .failed
        sport := bytes32 s.cfg.eRuntime }
      orc := { s.orc with waits := rest }
      site := none } := by
  have hpoll := waitPoll_fails w s hwaits
  rw [syncQueue_of_qn_zero hqn, pollFailed, admissible_wait_blockPortRead hc] at hpoll
  rw [waitThen, hpoll]
  rfl

/-- With nothing queued, a poll that reads the byte `v` is `pollSeen` with the answer taken. -/
theorem waitPoll_of_seen {w : WaitName} {s : State} {v : Byte} {rest : List WaitAnswer} (hqn : s.w.qn = 0)
    (hwaits : s.orc.waits = .seen v :: rest) :
    waitPoll w s = pollSeen w v { s with orc := { s.orc with waits := rest } } := by
  simp only [waitPoll, syncQueue_of_qn_zero hqn, poll, drawWait, hwaits]

/-- The answer shows no flag, and the command is held up. -/
theorem waitThen_of_hidden {w : WaitName} {s : State} {v : Byte} {rest : List WaitAnswer}
    (hc : admissible s.cfg = true) (hqn : s.w.qn = 0) (hwaits : s.orc.waits = .seen v :: rest)
    (hv : v &&& (s.cfg.wait w).mask ≠ (s.cfg.wait w).want) (site : WaitSite) (next : State → State) :
    waitThen w site next s = { s with
      io := { s.io with rdata := v, waitRes := .polling }
      orc := { s.orc with waits := rest }
      site := some site } := by
  have hpoll := waitPoll_of_seen (w := w) hqn hwaits
  have hflag : ¬flagShows (s.cfg.wait w) v = true := by simpa [flagShows] using hv
  rw [pollSeen, if_neg hflag, admissible_wait_blockPortRead hc] at hpoll
  rw [waitThen, hpoll]

/-- The state past a WAIT whose poll read `v` and saw the flag, with nothing queued before; `rest` are the
answers left. -/
def letThrough (w : WaitName) (v : Byte) (rest : List WaitAnswer) (s : State) : State :=
  { s with
    hw := flagSeen w s.hw
    io := { s.io with
      trace := s.io.trace ++ [{ phase := s.w.ph, op := .wait w true }]
      rdata := v
      waitRes := .ok }
    orc := { s.orc with waits := rest }
    site := none }

/-- The answer shows the flag, and the command goes on. -/
theorem waitThen_of_shown {w : WaitName} {s : State} {v : Byte} {rest : List WaitAnswer}
    (hc : admissible s.cfg = true) (hqn : s.w.qn = 0) (hwaits : s.orc.waits = .seen v :: rest)
    (hv : v &&& (s.cfg.wait w).mask = (s.cfg.wait w).want) (site : WaitSite) (next : State → State) :
    waitThen w site next s = next (letThrough w v rest s) := by
  have hpoll := waitPoll_of_seen (w := w) hqn hwaits
  have hflag : flagShows (s.cfg.wait w) v = true := decide_eq_true hv
  rw [pollSeen, if_pos hflag, admissible_wait_blockPortRead hc] at hpoll
  rw [waitThen, hpoll]
  rfl

end Sys2Proof.Machine
end

section
/-! UPLOAD up to its wait (rules R165 to R167): what its tests come to (O57) and the wait when it fails (O59);
and that no access of UPLOAD writes more than the address and control registers (rule R170, O60). -/

namespace Sys2Proof.Machine

/-! ## The arguments -/

/-- The arguments that UPLOAD takes: the byte names the memory `m`, and the address is in its legal range (rules
R52, R166). -/
structure UploadLegal (c : Cfg) (dom : Byte) (addr : Word) (m : MemDom) : Prop where
  domain : memDomOf dom = some m
  low : c.lo m ≤ addr.toNat
  high : addr.toNat < c.hi m

theorem uploadAddrOk_iff {c : Cfg} {m : MemDom} {addr : Word} :
    uploadAddrOk c m addr = true ↔ c.lo m ≤ addr.toNat ∧ addr.toNat < c.hi m := by
  simp [uploadAddrOk]

theorem memDomOf_eq_none {dom : Byte} (h0 : dom ≠ 0) (h1 : dom ≠ 1) : memDomOf dom = none := by
  rw [memDomOf, if_neg h0, if_neg h1]

theorem uploadChecked_of_legal {dom : Byte} {addr : Word} {m : MemDom} {s : State}
    (h : UploadLegal s.cfg dom addr m) (size : Word) :
    uploadChecked dom addr size s = uploadUnits m addr (clampUnits s.cfg m addr size) s := by
  rw [uploadChecked, h.domain]
  exact if_pos (uploadAddrOk_iff.2 ⟨h.low, h.high⟩)

theorem uploadChecked_of_illegal {dom : Byte} {addr : Word} {s : State}
    (h : ∀ m, ¬UploadLegal s.cfg dom addr m) (size : Word) :
    uploadChecked dom addr size s = earlyEnd .malformed s := by
  rcases hdom : memDomOf dom with _ | m
  · rw [uploadChecked, hdom]
  · rw [uploadChecked, hdom]
    exact if_neg fun hok => h m ⟨hdom, (uploadAddrOk_iff.1 hok).1, (uploadAddrOk_iff.1 hok).2⟩

/-- The clamp leaves a unit exactly if one was asked for. -/
theorem clampUnits_eq_zero_iff {c : Cfg} {m : MemDom} {addr size : Word} (h : addr.toNat < c.hi m) :
    clampUnits c m addr size = 0 ↔ size = 0 := by
  have hsize : size.toNat = 0 ↔ size = 0 := BitVec.toNat_inj (y := 0)
  rw [clampUnits, ← hsize]
  omega

/-- No unit left: UPLOAD succeeds at once. -/
theorem uploadUnits_zero (m : MemDom) (addr : Word) (s : State) : uploadUnits m addr 0 s = finishUpload [] s := rfl

/-- UPLOAD at its wait is the poll that a held one makes. -/
theorem uploadUnits_of_ne_zero {units : Nat} (h : units ≠ 0) (m : MemDom) (addr : Word) (s : State) :
    uploadUnits m addr units s = resumeWait (.upload m addr units) s := if_neg h

/-! ## UPLOAD as an instruction -/

theorem exec_upload_of_ready {s : State} (hready : ready s = true) (hst : s.g.st = .inited) (dom : Byte)
    (addr size : Word) :
    exec (.upload dom addr size) s = .next (uploadChecked dom addr size (accept .upload s)) := by
  rw [exec, execUpload]
  exact onCommand_next_iff.2 ⟨hready, (if_pos hst).symm⟩

/-- An UPLOAD that comes to its wait. -/
theorem exec_upload_waits {s : State} {dom : Byte} {addr size : Word} {m : MemDom} (hready : ready s = true)
    (hst : s.g.st = .inited) (hlegal : UploadLegal s.cfg dom addr m) (hsize : size ≠ 0) :
    exec (.upload dom addr size) s =
      .next (resumeWait (.upload m addr (clampUnits s.cfg m addr size)) (accept .upload s)) := by
  have hunits := mt (clampUnits_eq_zero_iff hlegal.high).1 hsize
  rw [exec_upload_of_ready hready hst, uploadChecked_of_legal (s := accept .upload s) hlegal]
  exact congrArg Host.Outcome.next (uploadUnits_of_ne_zero hunits m addr _)

/-- All that an UPLOAD can come to in its first step: it ends early, it succeeds on no unit, or it polls. -/
theorem exec_upload_cases {s t : State} {dom : Byte} {addr size : Word}
    (h : exec (.upload dom addr size) s = .next t) : ready s = true ∧
      ((∃ k, t = earlyEnd k (accept .upload s)) ∨ t = finishUpload [] (accept .upload s) ∨
        ∃ m, UploadLegal s.cfg dom addr m ∧
          t = resumeWait (.upload m addr (clampUnits s.cfg m addr size)) (accept .upload s)) := by
  rw [exec, execUpload, onCommand_next_iff] at h
  obtain ⟨hready, rfl⟩ := h
  refine ⟨hready, ?_⟩
  simp only
  split
  · by_cases hlegal : ∃ m, UploadLegal s.cfg dom addr m
    · obtain ⟨m, hlegal⟩ := hlegal
      rw [uploadChecked_of_legal (s := accept .upload s) hlegal]
      by_cases hunits : clampUnits s.cfg m addr size = 0
      · exact .inr (.inl (by rw [accept_cfg, hunits, uploadUnits_zero]))
      · exact .inr (.inr ⟨m, hlegal, uploadUnits_of_ne_zero hunits m addr _⟩)
    · exact .inl ⟨.malformed, uploadChecked_of_illegal (s := accept .upload s) (not_exists.1 hlegal) size⟩
  · exact .inl ⟨.runtime, rfl⟩

/-- Settles O57: arguments outside the tests are not legal, so that the command ends early
(`uploadChecked_of_illegal`); of legal ones with no unit asked for the clamp leaves none. -/
theorem uploadTestsItsArgumentsFirst : Obligations.UploadTestsItsArgumentsFirst := by
  constructor
  · intro s dom addr size hready hst hbad
    have hillegal : ∀ m, ¬UploadLegal s.cfg dom addr m := by
      rintro m ⟨hdom, hlow, hhigh⟩
      rcases hbad with ⟨h0, h1⟩ | ⟨rfl, hout⟩ | ⟨rfl, hout⟩
      · rw [memDomOf_eq_none h0 h1] at hdom
        cases hdom
      · obtain rfl : .d8 = m := Option.some.inj hdom
        exact hout.elim hlow.not_gt hhigh.not_ge
      · obtain rfl : .d4 = m := Option.some.inj hdom
        exact hout.elim hlow.not_gt hhigh.not_ge
    rw [exec_upload_of_ready hready hst, uploadChecked_of_illegal (s := accept .upload s) hillegal]
    rfl
  · intro s dom addr m hready hst hdom hlow hhigh
    have hlegal : UploadLegal s.cfg dom addr m := ⟨hdom, hlow, hhigh⟩
    rw [exec_upload_of_ready hready hst, uploadChecked_of_legal (s := accept .upload s) hlegal,
      accept_cfg, (clampUnits_eq_zero_iff hhigh).2 rfl]
    rfl

/-! ## A wait that fails -/

/-- An UPLOAD held up in its wait: PH is P_UPLOAD and nothing is queued (rules R28, R65). -/
theorem Inv.of_upload {s : State} {m : MemDom} {addr : Word} {units : Nat} (hs : Inv s)
    (hsite : s.site = some (.upload m addr units)) : s.w.ph = .upload ∧ s.hw.queue = [] ∧ s.w.qn = 0 := by
  have hq : s.hw.queue = [] := hs.waitEmpty (by simp [hsite])
  exact ⟨by rw [hs.phase, hsite]; rfl, hq, by rw [hs.counted, hq]; rfl⟩

/-- Settles O59: the poll, the first one or a later one, ends the command (`waitThen_of_fails`). -/
theorem failedTransferWaitEndsUpload : Obligations.FailedTransferWaitEndsUpload := by
  constructor
  · intro s dom addr size m v rest hc hready hst _ hqn hdom hlow hhigh hsize hwaits
    rw [exec_upload_waits hready hst ⟨hdom, hlow, hhigh⟩ hsize, resumeWait,
      waitThen_of_fails (s := accept .upload s) hc hqn hwaits, ← (ready_iff.1 hready).2]
    rfl
  · intro s m addr units v rest hc hs hsite hwaits
    obtain ⟨hph, _, hqn⟩ := hs.of_upload hsite
    rw [step_resumes hc hsite, resumeWait, waitThen_of_fails hc hqn hwaits, hph]

/-! ## UPLOAD is read-only (rule R170) -/

/-- Acts whose allowance admits no write of a copied register leave group G as it is. -/
theorem Acts.g {al : Allowed} {s t : State} (h : Acts al s t) (hen : ∀ k v, ¬al.en k v)
    (hbyp : ∀ v, ¬al.byp v) (hmaster : ∀ v, ¬al.master v) : t.g = s.g := by
  induction h with
  | refl => rfl
  | write _ _ ih => exact ih
  | en _ ha => exact absurd ha (hen _ _)
  | byp _ ha => exact absurd ha (hbyp _)
  | master _ ha => exact absurd ha (hmaster _)
  | sync _ ih => exact (syncQueue_g _).trans ih
  | read _ _ ih => exact (rdReg_g _ _).trans ih
  | note _ _ _ _ _ ih => exact ih

theorem uploadRead_g (m : MemDom) (addr : Word) (units : Nat) (s : State) : (uploadRead m addr units s).g = s.g := by
  obtain ⟨t, ha, ht⟩ := uploadRead_acts m addr units s
  rw [ht]
  exact ha.g (fun _ _ => id) (fun _ => id) (fun _ => id)

/-- From `s` to `t` group G is kept, and each write is a forced one of an address register or of the control
register of block memory. -/
def PointsOnly (s t : State) : Prop :=
  t.g = s.g ∧ ∃ evs, t.io.trace = s.io.trace ++ evs ∧
    ∀ e ∈ evs, ∀ g q v, e.op = .qw g q v → g = .forced ∧ (q ∈ s.cfg.rBma ∨ q = s.cfg.rBmctl)

theorem PointsOnly.trans {s t u : State} (h : PointsOnly s t) (h' : PointsOnly t u) (hcfg : t.cfg = s.cfg) :
    PointsOnly s u := by
  obtain ⟨hg, evs, htrace, hevs⟩ := h
  obtain ⟨hg', evs', htrace', hevs'⟩ := h'
  refine ⟨hg'.trans hg, evs ++ evs', by rw [htrace', htrace, List.append_assoc], fun e he => ?_⟩
  exact (List.mem_append.1 he).elim (hevs e) (hcfg ▸ hevs' e)

theorem waitPoll_pointsOnly (w : WaitName) (s : State) : PointsOnly s (waitPoll w s) := by
  refine ⟨waitPoll_g w s, _, by rw [waitPoll_trace, syncQueue_trace, List.append_assoc], fun e he g q v hop => ?_⟩
  rcases List.mem_append.1 he with he | he
  · split at he
    · cases List.mem_singleton.1 he
      cases hop
    · cases he
  · exact absurd hop (waitEvents_not_qw he g q v)

theorem uploadRead_pointsOnly (m : MemDom) (addr : Word) (units : Nat) (s : State) :
    PointsOnly s (uploadRead m addr units s) := by
  obtain ⟨evs, htrace, hevs⟩ := uploadRead_events m addr units s
  refine ⟨uploadRead_g m addr units s, evs, htrace, fun e he g q v hop => ?_⟩
  obtain ⟨_, hadmits⟩ := hevs e he
  rw [hop] at hadmits
  rcases hadmits with (hwrite | ⟨_, ⟨_, _, hen⟩ | ⟨_, hbyp⟩ | ⟨_, hmaster⟩⟩) | ⟨_, _, hwait, _⟩
  · exact hwrite
  · exact hen.elim
  · exact hbyp.elim
  · exact hmaster.elim
  · cases hwait

theorem resumeWait_upload_pointsOnly (m : MemDom) (addr : Word) (units : Nat) (s : State) :
    PointsOnly s (resumeWait (.upload m addr units) s) :=
  have hpoll := waitPoll_pointsOnly .xfer s
  waitThen_ind (P := PointsOnly s) _ _ _ _
    (fun _ => hpoll.trans (uploadRead_pointsOnly m addr units { waitPoll .xfer s with site := none })
      (waitPoll_cfg .xfer s))
    (fun _ => hpoll) (fun _ => hpoll)

/-- Settles O60: what ends before the wait has emitted nothing, and every poll is
`resumeWait_upload_pointsOnly`. -/
theorem uploadIsReadOnly : Obligations.UploadIsReadOnly := by
  constructor
  · intro s t dom addr size h
    obtain ⟨_, ⟨k, rfl⟩ | rfl | ⟨m, _, rfl⟩⟩ := exec_upload_cases h
    · exact ⟨rfl, nofun⟩
    · exact ⟨rfl, nofun⟩
    · obtain ⟨hg, evs, htrace, hevs⟩ :=
        resumeWait_upload_pointsOnly m addr (clampUnits s.cfg m addr size) (accept .upload s)
      refine ⟨hg, ?_⟩
      rw [htrace]
      exact hevs
  · intro s t m addr units hsite h
    obtain ⟨_, rfl⟩ := step_of_site hsite h
    exact resumeWait_upload_pointsOnly m addr units s

end Sys2Proof.Machine
end

section
/-! UPLOAD past its wait (rules R168, R169): the pointer is set by one flush that reaches neither coefficient
memory nor the trigger, and the reads of R_BMD return the bytes one by one; with it O58, what UPLOAD returns. -/

namespace Sys2Proof.Machine

/-! ## A pending transfer changes at the trigger only -/

theorem blockPortWrite_xfer {c : Cfg} {r : Reg} (v : Byte) (h : Hardware) (hr : r ≠ c.rTrig) :
    (blockPortWrite c r v h).xfer = h.xfer := by
  unfold blockPortWrite blockDataWrite
  split_ifs <;> rfl

theorem deliver_xfer {e : QEntry} {s : State} (he : e.reg ≠ s.cfg.rTrig) : (deliver e s).hw.xfer = s.hw.xfer := by
  rcases deliver_cases e s with ⟨o, h⟩ | ⟨_, _, o, h⟩
  · rw [h]
    exact blockPortWrite_xfer _ _ he
  · rw [h]

theorem deliverAll_xfer {es : List QEntry} {s : State} (hes : ∀ e ∈ es, e.reg ≠ s.cfg.rTrig) :
    (deliverAll es s).hw.xfer = s.hw.xfer := by
  induction es generalizing s with
  | nil => rfl
  | cons e es ih =>
    rw [deliverAll, ih (by simpa using fun f hf => hes f (List.mem_cons_of_mem _ hf)),
      deliver_xfer (hes e List.mem_cons_self)]

/-! ## The pointer (rules R159, R168) -/

/-- UPLOAD once the pointer is set and OUTBUF is empty: the writes of a coefficient item without a payload, with
the control value of the read direction. -/
def uploadPointed (m : MemDom) (addr : Word) (s : State) : State :=
  let t := flushQueue (qwForced (coefPairs s.cfg (s.cfg.vCtlRd m) addr []) s)
  { t with w := { t.w with outbuf := [], ix := 0 } }

theorem uploadRead_eq (m : MemDom) (addr : Word) (units : Nat) (s : State) :
    uploadRead m addr units s = finishUpload (drain (units * m.unit) (uploadPointed m addr s)).w.outbuf
      (drain (units * m.unit) (uploadPointed m addr s)) := by
  have hwrites : qw .forced s.cfg.rBmctl (s.cfg.vCtlRd m) (writeAddrRegs addr s) =
      qwForced (coefPairs s.cfg (s.cfg.vCtlRd m) addr []) s := (qwForced_coefPairs _ addr [] s).symm
  have hsync : syncQueue (qwForced (coefPairs s.cfg (s.cfg.vCtlRd m) addr []) s) = flushQueue _ :=
    syncQueue_of_pos (by simp [coefPairs])
  rw [uploadRead, writeAddrRegs_cfg, hwrites, hsync]
  rfl

/-- The registers that set the pointer are neither the data register nor the trigger register (rule R6 (7)). -/
theorem pointerWrites_spare {c : Cfg} (hc : admissible c = true) {ctl : Byte} {addr : Word} {e : QEntry}
    (he : e ∈ forcedEntries (coefPairs c ctl addr [])) : e.reg ≠ c.rBmd ∧ e.reg ≠ c.rTrig := by
  obtain ⟨_, hdata, _, hctl⟩ := admissible_blockRegs hc
  obtain ⟨htrig, htrigctl, _⟩ := admissible_rTrig hc
  obtain ⟨p, hp, rfl⟩ := List.mem_map.1 he
  rw [coefPairs, List.map_nil, List.append_nil] at hp
  rcases List.mem_append.1 hp with hp | hp
  · have hmem : p.1 ∈ c.rBma := (List.of_mem_zip hp).1
    exact ⟨ne_of_mem_of_not_mem hmem hdata, ne_of_mem_of_not_mem hmem htrig⟩
  · obtain rfl := List.mem_singleton.1 hp
    exact ⟨hctl, htrigctl.symm⟩

/-- What setting the pointer leaves, with nothing queued before. -/
structure Pointed (m : MemDom) (addr : Word) (s t : State) : Prop where
  w : t.w = { s.w with qn := 0, outbuf := [], ix := 0 }
  cfg : t.cfg = s.cfg
  reads : t.orc.reads = s.orc.reads
  queue : t.hw.queue = []
  xfer : t.hw.xfer = s.hw.xfer
  bmem : t.hw.bmem = s.hw.bmem
  trace : t.io.trace = s.io.trace ++
    (s.cfg.rBma.zip (addrBytes s.cfg addr)).map (fun p => { phase := s.w.ph, op := .qw .forced p.1 p.2 }) ++
    [{ phase := s.w.ph, op := .qw .forced s.cfg.rBmctl (s.cfg.vCtlRd m) }, { phase := s.w.ph, op := .flush }]

theorem uploadPointed_pointed (m : MemDom) (addr : Word) {s : State} (hc : admissible s.cfg = true)
    (hq : s.hw.queue = []) : Pointed m addr s (uploadPointed m addr s) := by
  have hspare := fun e he => pointerWrites_spare hc (ctl := s.cfg.vCtlRd m) (addr := addr) (e := e) he
  simp only [uploadPointed, qwForced_eq_entries, hq, List.nil_append]
  constructor
  · simp
  · simp
  · simp
  · rfl
  · exact deliverAll_xfer fun e he => (hspare e he).2
  · exact flushQueue_bmem _ fun e he => (hspare e he).1
  · simp [forcedEntries, coefPairs, Function.comp_def]

/-! ## The reads (rules R55, R169) -/

/-- The reads that lead from `s` to `t` returned `bytes`, one event each, and moved nothing but the pointer. -/
structure ReadOut (bytes : List Byte) (s t : State) : Prop where
  tape : bytes.length ≤ s.orc.reads.length → bytes = s.orc.reads.take bytes.length
  outbuf : t.w.outbuf = s.w.outbuf ++ bytes
  trace : t.io.trace = s.io.trace ++ bytes.map (fun b => { phase := s.w.ph, op := .rd s.cfg.rBmd b })
  queue : t.hw.queue = s.hw.queue
  xfer : t.hw.xfer = s.hw.xfer
  bmem : t.hw.bmem = s.hw.bmem

/-- One round of the loop: a read, its byte to OUTBUF. -/
def drainOne (s : State) : State :=
  let t := rdReg s.cfg.rBmd s
  { t with w := { t.w with outbuf := t.w.outbuf ++ [t.io.rdata], ix := t.w.ix + 1 } }

theorem drain_succ (n : Nat) (s : State) : drain (n + 1) s = drain n (drainOne s) := rfl

theorem drain_readOut (n : Nat) {s : State} (hqn : s.w.qn = 0) :
    ∃ bytes, bytes.length = n ∧ ReadOut bytes s (drain n s) := by
  induction n generalizing s with
  | zero => exact ⟨[], rfl, fun _ => rfl, by simp [drain], by simp [drain], rfl, rfl, rfl⟩
  | succ n ih =>
    obtain ⟨bytes, rfl, hrest⟩ := ih (s := drainOne s) (by simp [drainOne])
    have hsync := syncQueue_of_qn_zero hqn
    rw [drain_succ]
    refine ⟨(rdReg s.cfg.rBmd s).io.rdata :: bytes, rfl, ?_, ?_, ?_, ?_, ?_, ?_⟩
    · intro hlen
      rcases hreads : s.orc.reads with _ | ⟨v, rest⟩
      · simp [hreads] at hlen
      · obtain ⟨hdata, hreads'⟩ := rdReg_answer s.cfg.rBmd s hreads
        have htape := hrest.tape
        simp only [drainOne, hreads'] at htape
        rw [hdata, List.length_cons, List.take_succ_cons, ← htape (by simpa [hreads] using hlen)]
    · exact hrest.outbuf.trans (by simp [drainOne])
    · exact hrest.trace.trans (by simp [drainOne, rdReg_trace, hqn])
    · exact hrest.queue.trans (by simp [drainOne, rdReg, hsync])
    · exact hrest.xfer.trans (by simp [drainOne, rdReg, hsync])
    · exact hrest.bmem.trans (by simp [drainOne, rdReg, hsync])

/-! ## UPLOAD past its wait -/

theorem countWord_of_lt {n : Nat} (h : n < 2 ^ 32) : countWord n = BitVec.ofNat 32 n := if_pos h

theorem uploadRead_site (m : MemDom) (addr : Word) (units : Nat) (s : State) :
    (uploadRead m addr units s).site = s.site := by
  obtain ⟨t, ha, ht⟩ := uploadRead_acts m addr units s
  rw [ht]
  exact ha.samePhase.site

theorem transferDone_xfer (h : Hardware) : (transferDone h).xfer = none := by
  unfold transferDone
  split
  · rfl
  · assumption

/-- What UPLOAD returns from the state `s` past its wait, the bytes read being `bytes` (rules R168 to R170). -/
structure Returned (m : MemDom) (addr : Word) (bytes : List Byte) (s t : State) : Prop where
  tape : bytes.length ≤ s.orc.reads.length → bytes = s.orc.reads.take bytes.length
  outbuf : t.w.outbuf = bytes
  sport : t.io.sport = bytes32 0 ++ bytes32 (countWord bytes.length) ++ bytes
  trace : t.io.trace = s.io.trace ++
    (s.cfg.rBma.zip (addrBytes s.cfg addr)).map (fun p => { phase := s.w.ph, op := .qw .forced p.1 p.2 }) ++
    [{ phase := s.w.ph, op := .qw .forced s.cfg.rBmctl (s.cfg.vCtlRd m) }, { phase := s.w.ph, op := .flush }] ++
    bytes.map (fun b => { phase := s.w.ph, op := .rd s.cfg.rBmd b })
  queue : t.hw.queue = []
  xfer : t.hw.xfer = s.hw.xfer
  bmem : t.hw.bmem = s.hw.bmem

theorem uploadRead_returned (m : MemDom) (addr : Word) (units : Nat) {s : State} (hc : admissible s.cfg = true)
    (hq : s.hw.queue = []) :
    ∃ bytes, bytes.length = units * m.unit ∧ Returned m addr bytes s (uploadRead m addr units s) := by
  have hpointed := uploadPointed_pointed m addr hc hq
  obtain ⟨bytes, hlen, hread⟩ := drain_readOut (units * m.unit) (s := uploadPointed m addr s) (by rw [hpointed.w])
  have hout : (drain (units * m.unit) (uploadPointed m addr s)).w.outbuf = bytes :=
    hread.outbuf.trans (by rw [hpointed.w]; rfl)
  rw [uploadRead_eq, hout]
  refine ⟨bytes, hlen, hpointed.reads ▸ hread.tape, rfl, rfl, hread.trace.trans ?_,
    hread.queue.trans hpointed.queue, hread.xfer.trans hpointed.xfer, hread.bmem.trans hpointed.bmem⟩
  rw [hpointed.trace, hpointed.w, hpointed.cfg]

/-! ## O58 -/

/-- What an UPLOAD leaves that is held up in its wait. -/
theorem resumeWait_upload_held {m : MemDom} {addr : Word} {units : Nat} {s : State} {site : WaitSite}
    (h : (resumeWait (.upload m addr units) s).site = some site) :
    site = .upload m addr units ∧ (waitPoll .xfer s).io.waitRes = .polling ∧
      resumeWait (.upload m addr units) s = { waitPoll .xfer s with site := some (.upload m addr units) } := by
  rw [resumeWait] at h ⊢
  rcases waitThen_cases .xfer (.upload m addr units) (uploadRead m addr units) s with
    ⟨hend, _⟩ | ⟨hend, _⟩ | ⟨hheld, hres⟩
  · rw [hend, uploadRead_site] at h
    cases h
  · rw [hend] at h
    cases h
  · rw [hheld] at h
    exact ⟨(Option.some.inj h).symm, hres, hheld⟩

/-- Settles O58: past the wait, in the first step or in a later one, UPLOAD returns what `uploadRead_returned`
says; a held one has only polled. -/
theorem uploadReturnsClampedBytes : Obligations.UploadReturnsClampedBytes := by
  unfold Obligations.UploadReturnsClampedBytes
  intro returns
  have passes : ∀ (s : State) (m : MemDom) (addr : Word) (units : Nat) (v : Byte) (rest : List WaitAnswer),
      admissible s.cfg = true → s.w.ph = .upload → s.hw.queue = [] → s.w.qn = 0 →
      s.orc.waits = .seen v :: rest → v &&& s.cfg.wXfer.mask = s.cfg.wXfer.want →
      returns s (resumeWait (.upload m addr units) s) m addr units s.io.trace := by
    intro s m addr units v rest hc hph hq hqn hwaits hv
    rw [resumeWait, waitThen_of_shown (w := .xfer) hc hqn hwaits hv]
    obtain ⟨bytes, hlen, hreturned⟩ := uploadRead_returned m addr units (s := letThrough .xfer v rest s) hc
      ((flagSeen_queue .xfer s.hw).trans hq)
    refine ⟨bytes, _, hlen, hreturned.tape, hreturned.outbuf, rfl, rfl, uploadRead_site m addr units _,
      hreturned.sport, countWord_of_lt, hph ▸ hreturned.trace, uploadRead_g m addr units _, hreturned.queue,
      uploadRead_cfg m addr units _, hreturned.xfer.trans (transferDone_xfer s.hw), hreturned.bmem.trans ?_⟩
    show (transferDone s.hw).bmem = _
    unfold transferDone
    cases s.hw.xfer <;> rfl
  refine ⟨?_, ?_, ?_, ?_⟩
  · intro s dom addr size m v rest hc hready hst hq hqn hdom hlow hhigh hsize hwaits hv
    exact ⟨_, exec_upload_waits hready hst ⟨hdom, hlow, hhigh⟩ hsize,
      passes (accept .upload s) m addr _ v rest hc rfl hq hqn hwaits hv⟩
  · intro s m addr units v rest hc hs hsite hwaits hv
    obtain ⟨hph, hq, hqn⟩ := hs.of_upload hsite
    exact ⟨_, step_resumes hc hsite, passes s m addr units v rest hc hph hq hqn hwaits hv⟩
  · intro s t dom addr size site _ h hsite
    obtain ⟨hready, ⟨k, rfl⟩ | rfl | ⟨m, hlegal, rfl⟩⟩ := exec_upload_cases h
    · exact nomatch (ready_iff.1 hready).2.symm.trans hsite
    · exact nomatch (ready_iff.1 hready).2.symm.trans hsite
    · obtain ⟨rfl, hres, hheld⟩ := resumeWait_upload_held hsite
      rw [hheld]
      refine ⟨m, hlegal.domain, hlegal.low, hlegal.high, rfl, waitPoll_w .xfer _, waitPoll_g .xfer _,
        waitPoll_cfg .xfer _, ?_, waitPoll_io_sport .xfer _⟩
      have htrace := waitPoll_trace .xfer (accept .upload s)
      rw [hres, syncQueue_trace] at htrace
      exact htrace.trans (List.append_nil _)
  · intro s dom addr size m v rest hc hready hst hq hqn hdom hlow hhigh hsize hwaits hv
    rw [exec_upload_waits hready hst ⟨hdom, hlow, hhigh⟩ hsize, resumeWait,
      waitThen_of_hidden (w := .xfer) (s := accept .upload s) hc hqn hwaits hv]
    rfl

end Sys2Proof.Machine
end

section
/-! Two port operations offered by themselves (rules R176, R180, R186): a queued write and Sync. -/

namespace Sys2Proof.Machine

/-- Settles O21: the write gate, then the entry that `qw` queues. -/
theorem queueWriteAppendsOneEntry : Obligations.QueueWriteAppendsOneEntry := by
  intro s bank index value r
  have hgate (g : Gate) : writeOpen r s = true ↔ mayIssue s (.qw g r value) := writeOpen_iff g value
  exact ⟨fun hopen => next_of_open ((hgate .gated).2 hopen), fun hopen => next_of_open ((hgate .forced).2 hopen),
    fun hclosed => next_of_closed (mt (hgate .gated).1 hclosed),
    fun hclosed => next_of_closed (mt (hgate .forced).1 hclosed)⟩

/-- Settles O24: the status gate, then the two branches of `syncQueue`. -/
theorem syncFlushesOnlyIfQueued : Obligations.SyncFlushesOnlyIfQueued := by
  intro s
  constructor
  · intro hst hqueued
    have hopen := statusOpen_iff.2 hst
    refine ⟨flushQueue s, ?_, next_of_open hopen, by simp, flushQueue_hw_queue s⟩
    exact (next_of_open hopen).trans (congrArg Host.Outcome.next (syncQueue_of_pos hqueued))
  · intro hnothing
    by_cases hopen : statusOpen s = true
    · have hqn : s.w.qn = 0 := hnothing.resolve_right (by simp [statusOpen_iff.1 hopen])
      exact (next_of_open hopen).trans (congrArg Host.Outcome.next (syncQueue_of_qn_zero hqn))
    · exact next_of_closed hopen

end Sys2Proof.Machine
end

section
/-! A step while a wait polls (rules R182, R197): it takes no frame, and it stands at the same wait afterwards
exactly if its poll neither saw the flag nor failed, since a command never comes back to a wait of its own. -/

namespace Sys2Proof.Machine

/-! ## No frame is taken -/

theorem uploadRead_inbox (m : MemDom) (addr : Word) (units : Nat) (s : State) :
    (uploadRead m addr units s).io.inbox = s.io.inbox := by
  obtain ⟨t, ha, ht⟩ := uploadRead_acts m addr units s
  rw [ht]
  exact ha.samePhase.inbox

theorem resumeWait_passSite_inbox (w : WaitName) (s : State) :
    (resumeWait (passSite w) s).io.inbox = s.io.inbox := by
  obtain ⟨pos, u, hcomes, hends⟩ := resumeWait_ends w s
  generalize resumeWait (passSite w) s = t at *
  cases hends with
  | holds | fails => exact (waitPoll_io_inbox _ u).trans hcomes.inbox
  | completes => exact (quiesceSilent_inbox u).trans hcomes.inbox

theorem resumeWait_inbox (site : WaitSite) (s : State) : (resumeWait site s).io.inbox = s.io.inbox := by
  cases site with
  | applyXfer => exact resumeWait_passSite_inbox .xfer s
  | applyFade => exact resumeWait_passSite_inbox .fade s
  | applySine => exact resumeWait_passSite_inbox .sine s
  | upload m addr units =>
    have hpoll := waitPoll_io_inbox .xfer s
    exact waitThen_ind (P := fun t => t.io.inbox = s.io.inbox) _ _ _ _
      (fun _ => (uploadRead_inbox m addr units _).trans hpoll) (fun _ => hpoll) (fun _ => hpoll)
  | alone w =>
    obtain ⟨_, _, _, _, _, hinbox⟩ := waitAlone_frame w s
    exact hinbox

/-! ## One more poll of the same wait -/

/-- A pass that has gone on has fewer waits to come. -/
theorem Comes.here_or_onward {start pos : Option WaitName} {s u : State} (h : Comes start s pos u) :
    (pos = start ∧ u = s) ∨ waitsToCome pos < waitsToCome start := by
  induction h with
  | here => exact .inl ⟨rfl, rfl⟩
  | @on w u _ _ ih =>
    have hnext := waitsToCome_nextWait w (waited w u)
    rcases ih with ⟨rfl, _⟩ | hlt
    · exact .inr hnext
    · exact .inr (hnext.trans hlt)

theorem resumeWait_passSite_stays {w : WaitName} {s : State}
    (h : (resumeWait (passSite w) s).site = some (passSite w)) : (waitPoll w s).io.waitRes = .polling := by
  obtain ⟨w', u, hcomes, hres, hsame, _⟩ := resumeWait_held h
  obtain rfl := passSite_inj.1 hsame
  rcases hcomes.here_or_onward with ⟨_, rfl⟩ | hlt
  · exact hres
  · exact absurd hlt (lt_irrefl _)

/-- A step that leaves its wait in progress has polled it without an end (rule R182). -/
theorem resumeWait_stays {site : WaitSite} {s : State} (h : (resumeWait site s).site = some site) :
    (waitPoll (siteWait site) s).io.waitRes = .polling := by
  cases site with
  | applyXfer => exact resumeWait_passSite_stays (w := .xfer) h
  | applyFade => exact resumeWait_passSite_stays (w := .fade) h
  | applySine => exact resumeWait_passSite_stays (w := .sine) h
  | upload m addr units => exact (resumeWait_upload_held h).2.1
  | alone w =>
    by_contra hres
    have hended : (waitAlone w s).site = none := by
      rw [waitAlone_eq]
      exact if_neg hres
    exact nomatch hended.symm.trans h

theorem resumeWait_of_polling {site : WaitSite} {s : State}
    (h : (waitPoll (siteWait site) s).io.waitRes = .polling) :
    resumeWait site s = { waitPoll (siteWait site) s with site := some site } := by
  cases site <;> rw [siteWait] at h <;> simp only [resumeWait, siteWait, waitThen, waitAlone, h]

/-- A poll that neither sees the flag nor fails, nothing being queued, leaves the byte it read and uses an
answer; no wait polls the data register, whose reads move the device's pointer (rules R6, R60). -/
theorem waitPoll_of_polling {w : WaitName} {s : State} (hc : admissible s.cfg = true) (hqn : s.w.qn = 0)
    (h : (waitPoll w s).io.waitRes = .polling) :
    ∃ v o, waitPoll w s = { s with io := { s.io with rdata := v, waitRes := .polling }, orc := o } := by
  rw [waitPoll, syncQueue_of_qn_zero hqn] at h ⊢
  obtain ⟨v, o, hpoll⟩ := poll_polling w h
  rw [admissible_wait_blockPortRead hc] at hpoll
  exact ⟨v, o, hpoll⟩

/-- Such a poll by the answer that it takes from the tape, which shows no flag. -/
theorem waitPoll_of_hidden {w : WaitName} {s : State} {v : Byte} {rest : List WaitAnswer}
    (hc : admissible s.cfg = true) (hqn : s.w.qn = 0) (hwaits : s.orc.waits = .seen v :: rest)
    (hv : v &&& (s.cfg.wait w).mask ≠ (s.cfg.wait w).want) :
    waitPoll w s = { s with
      io := { s.io with rdata := v, waitRes := .polling }
      orc := { s.orc with waits := rest } } := by
  have hflag : ¬flagShows (s.cfg.wait w) v = true := by simpa [flagShows] using hv
  rw [waitPoll_of_seen hqn hwaits, pollSeen, if_neg hflag, admissible_wait_blockPortRead hc]

/-- Settles O5: the step is a poll (`step_resumes`), which takes no frame (`resumeWait_inbox`); one that stays at
its wait has only polled (`resumeWait_stays`), as has one whose answer shows no flag. -/
theorem stepDuringWaitTakesNoFrame : Obligations.StepDuringWaitTakesNoFrame := by
  intro s site hc hsite
  have hstep := step_resumes hc hsite
  refine ⟨⟨_, hstep, resumeWait_inbox site s, resumeWait_cfg site s⟩, ?_, ?_⟩
  · intro t hqn ht hstays
    obtain ⟨_, rfl⟩ := step_of_site hsite ht
    have hres := resumeWait_stays hstays
    obtain ⟨v, o, hpoll⟩ := waitPoll_of_polling hc hqn hres
    rw [resumeWait_of_polling hres, hpoll]
    exact ⟨rfl, rfl, rfl, rfl⟩
  · intro v rest hqn hwaits hv
    have hres := (waitPoll_polls (siteWait site) s hwaits hv).1
    rw [hstep, resumeWait_of_polling hres, waitPoll_of_hidden hc hqn hwaits hv, ← hsite]

end Sys2Proof.Machine
end

section
/-! Whether a blob is malformed (rule R192): a chunk's rule answers by the tags seen before and not by the enable
masks, so the walk's answer does not depend on them. -/

namespace Sys2Proof.Machine

/-- Whether a chunk's rule answers, and the tags it leaves as seen, are a matter of the tags seen before (rules
R102, R104, R109, R112, R114). -/
theorem analyseChunk_seen_congr (c : Cfg) (en en' : Two Byte) (k : Chunk) {r r' : AnalysisRecord}
    (h : r.seen = r'.seen) :
    (analyseChunk c en k r).map (·.seen) = (analyseChunk c en' k r').map (·.seen) := by
  cases k with
  | fwctrlB body => simp only [analyseChunk, analyseFwctrlB_seen, h]
  | appcoef a body => simp only [analyseChunk, analyseAppcoef_seen, h]
  | appreg a body => simp only [analyseChunk, analyseAppreg_seen, h]
  | skip tag body => exact congrArg some h

theorem walk_seen_congr (c : Cfg) (en en' : Two Byte) (fuel : Nat) (blob : List Byte) {r r' : AnalysisRecord}
    (h : r.seen = r'.seen) :
    (walk c en fuel blob r).map (·.seen) = (walk c en' fuel blob r').map (·.seen) := by
  induction fuel generalizing blob r r' with
  | zero =>
    cases blob with
    | nil => exact congrArg some h
    | cons b bs => rfl
  | succ fuel ih =>
    cases blob with
    | nil => exact congrArg some h
    | cons b bs =>
      rw [walk, walk]
      rcases decodeChunk c (b :: bs) with _ | ⟨k, rest⟩
      · rfl
      have hchunk := (analyseChunk_seen_congr c en en' k h).symm
      cases hu : analyseChunk c en k r with
      | none =>
        rw [hu, Option.map_none, Option.map_eq_none_iff] at hchunk
        simp only [hu, hchunk]
      | some u =>
        obtain ⟨u', hu', hseen⟩ := Option.map_eq_some_iff.1 (hchunk.trans (congrArg _ hu))
        simp only [hu, hu']
        exact ih rest hseen.symm

theorem analyse_eq_malformed_iff {c : Cfg} {blob : List Byte} {en : Two Byte} :
    analyse c blob en = .malformed ↔ walk c en blob.length blob AnalysisRecord.initial = none := by
  unfold analyse
  cases walk c en blob.length blob AnalysisRecord.initial
  · exact iff_of_true rfl rfl
  · exact iff_of_false nofun nofun

/-- Settles O15: the walk has no record exactly if it leaves no tags as seen, and those it leaves are the same
under any masks (`walk_seen_congr`). -/
theorem verdictIgnoresEnableMasks : Obligations.VerdictIgnoresEnableMasks := by
  intro c blob en en'
  have hseen := walk_seen_congr c en en' blob.length blob (r := AnalysisRecord.initial) rfl
  rw [analyse_eq_malformed_iff, analyse_eq_malformed_iff, ← Option.map_eq_none_iff, hseen,
    Option.map_eq_none_iff]

end Sys2Proof.Machine
end

section
/-! The lifecycle, validation, master and query commands (rules R190 to R195): what each leaves of a ready block.
MSTART and MSTOP flush one entry, which spares block memory. -/

namespace Sys2Proof.Machine

/-! ## What a flush that spares block memory leaves of the device -/

/-- Delivery of an entry that is not for block memory reaches the register file and the shadow only. -/
theorem deliver_hw_of_spares {e : QEntry} {s : State} (he : ¬isBlockMemory s.cfg e.reg) :
    ∃ regs shadow, (deliver e s).hw = { s.hw with regs := regs, shadow := shadow } := by
  rcases deliver_cases e s with ⟨o, h⟩ | ⟨_, _, o, h⟩ <;> rw [h]
  · exact ⟨_, _, blockPortWrite_of_not_blockMemory e.value _ he⟩
  · exact ⟨_, _, rfl⟩

theorem deliverAll_hw_of_spares {es : List QEntry} {s : State} (hes : ∀ e ∈ es, ¬isBlockMemory s.cfg e.reg) :
    ∃ regs shadow, (deliverAll es s).hw = { s.hw with regs := regs, shadow := shadow } := by
  induction es generalizing s with
  | nil => exact ⟨_, _, rfl⟩
  | cons e es ih =>
    obtain ⟨_, _, hfirst⟩ := deliver_hw_of_spares (hes e List.mem_cons_self)
    obtain ⟨regs, shadow, hrest⟩ :=
      ih (s := deliver e s) (by simpa using fun f hf => hes f (List.mem_cons_of_mem _ hf))
    exact ⟨regs, shadow, by rw [deliverAll, hrest, hfirst]⟩

theorem flushQueue_hw_of_spares {s : State} (h : QueueSpares s) :
    ∃ regs shadow, (flushQueue s).hw = { s.hw with regs := regs, shadow := shadow, queue := [] } := by
  obtain ⟨regs, shadow, hdelivered⟩ := deliverAll_hw_of_spares (s := emit .flush s) h
  exact ⟨regs, shadow, by rw [flushQueue, hdelivered]; rfl⟩

/-! ## INIT and TERM (rules R190, R191) -/

/-- Settles O12: the two branches of INIT's load. -/
theorem initLoadsGlobalStateOnce : Obligations.InitLoadsGlobalStateOnce := by
  intro s hready
  rw [exec, execInit, onCommand_next_iff]
  refine ⟨hready, ?_⟩
  by_cases hst : s.g.st = .inited
  · simp only [accept_g, hst, if_true]
    rfl
  · simp only [accept_g, hst, if_false]
    rfl

/-- Settles O13: TERM runs on a ready port, whatever transfer is pending. -/
theorem termSetsIdle : Obligations.TermSetsIdle := by
  intro s hready
  rw [exec, execTerm, onCommand_next_iff]
  exact ⟨hready, rfl⟩

/-! ## VALIDATE (rule R192) -/

theorem exec_validate_of_ready {s : State} (hready : ready s = true) (blob : List Byte) :
    exec (.validate blob) s = .next (finish
      (if analyse s.cfg blob (analysisEn s) = .malformed then s.cfg.eMalformed else 0)
      (latchAnalyse blob (accept .cmd s))) := by
  rw [exec, execValidate, onCommand_next_iff]
  refine ⟨hready, ?_⟩
  have har : (latchAnalyse blob (accept .cmd s)).w.ar = analyse s.cfg blob (analysisEn s) := rfl
  simp only [har]
  cases analyse s.cfg blob (analysisEn s) with
  | malformed => rfl
  | record r => rfl

/-- Settles O14: the verdict on the latched blob is the command's answer (`exec_validate_of_ready`). -/
theorem validateReturnsVerdict : Obligations.ValidateReturnsVerdict := fun _ blob hready =>
  ⟨_, exec_validate_of_ready hready blob, rfl, rfl, rfl, rfl, rfl, rfl, rfl, rfl, rfl, rfl⟩

/-! ## MSTART and MSTOP (rules R193, R194) -/

/-- R_MCTL is no register of block memory, so that its write alone in the queue spares block memory. -/
theorem writeMaster_spares {s : State} (hc : admissible s.cfg = true) (hqueue : s.hw.queue = []) (v : Byte) :
    QueueSpares (writeMaster v s) := by
  have hspares : QueueSpares s := by
    rw [QueueSpares, hqueue]
    exact nofun
  exact (qw_spares .gated v (s := { s with g := { s.g with master := v } }) hspares
    ((admissible_blockMemory hc).2 s.cfg.rMctl (by simp))).1

/-- Each register after the flush of the write of R_MCTL (rules R177, R179). -/
theorem flush_writeMaster_read {s : State} (hqueue : s.hw.queue = []) (hshadow : ShadowCoherent s.hw) (v : Byte)
    (a : Nat) :
    RegFile.read (flushQueue (writeMaster v s)).hw.regs a =
      if s.cfg.rMctl.addr = a then v else RegFile.read s.hw.regs a := by
  calc RegFile.read (flushQueue (writeMaster v s)).hw.regs a
      = pendingValue (writeMaster v s) a := flushQueue_read (s := writeMaster v s) hshadow a
    _ = if s.cfg.rMctl.addr = a then v else pendingValue s a := pendingValue_qw _ _ _ _ a
    _ = if s.cfg.rMctl.addr = a then v else RegFile.read s.hw.regs a := by rw [pendingValue_empty hqueue]

/-- Settles O16: both commands are a write of R_MCTL and a flush; the flush spares block memory
(`writeMaster_spares`) and leaves the value in the register (`flush_writeMaster_read`). -/
theorem mstartMstopSetAndClearMasterEnable : Obligations.MstartMstopSetAndClearMasterEnable := by
  intro s i v hc hready hst hqueue _ hshadow hi
  have hexec : exec i s = .next (finish 0 (syncQueue (writeMaster v (accept .cmd s)))) := by
    obtain ⟨rfl, rfl⟩ | ⟨rfl, rfl⟩ := hi
    · rw [exec, execMstart, onCommand_next_iff]
      exact ⟨hready, (if_pos hst).symm⟩
    · rw [exec, execMstop, onCommand_next_iff]
      exact ⟨hready, (if_pos hst).symm⟩
  have hsync : syncQueue (writeMaster v (accept .cmd s)) = flushQueue (writeMaster v (accept .cmd s)) :=
    syncQueue_of_pos (Nat.succ_pos _)
  obtain ⟨_, _, hhw⟩ := flushQueue_hw_of_spares (writeMaster_spares (s := accept .cmd s) hc hqueue v)
  have hread := flush_writeMaster_read (s := accept .cmd s) hqueue hshadow v
  rw [hsync] at hexec
  refine ⟨_, hexec, ?_, ?_, ?_, rfl, congrArg (·.bmem) hhw, congrArg (·.bmp) hhw,
    congrArg (·.xfer) hhw, (hread _).trans (if_pos rfl), fun a ha => (hread a).trans (if_neg ha.symm), ?_, ?_⟩
  · rw [finish_g, flushQueue_g]
    rfl
  · rw [finish_w, flushQueue_w]
    rfl
  · rw [finish, answer, flushQueue_io]
    rfl
  · rw [finish_site, flushQueue_site]
    exact (ready_iff.1 hready).2
  · rw [finish_cfg, flushQueue_cfg]
    rfl

/-! ## QUERY (rule R195) -/

/-- QUERY of an initialised block, with the read's own flush still in it. -/
theorem exec_query_of_inited {s : State} (hready : ready s = true) (hst : s.g.st = .inited) :
    exec .query s = .next (finish
      (((rdReg s.cfg.rTrans (accept .cmd s)).io.rdata &&& s.cfg.mTrans).setWidth 32)
      (rdReg s.cfg.rTrans (accept .cmd s))) := by
  rw [exec, execQuery, onCommand_next_iff]
  refine ⟨hready, ?_⟩
  simp only [accept_g, hst, if_true, accept_cfg, rdReg_cfg]

/-- Settles O17: while INITED the laws of `rdReg`, with nothing to flush; while IDLE the command ends at once. -/
theorem queryReturnsMaskedTransitions : Obligations.QueryReturnsMaskedTransitions := by
  constructor
  · intro s hready hst hqueue hqn
    have hsync : syncQueue (accept .cmd s) = accept .cmd s := syncQueue_of_qn_zero hqn
    refine ⟨_, _, exec_query_of_inited hready hst,
      fun u rest hreads => (rdReg_answer _ (accept .cmd s) hreads).1, ?_, ?_, rfl, ?_, ?_, ?_, ?_, ?_, ?_⟩
    · rw [finish_w, rdReg_w]
      rfl
    · rw [finish_io_trace, rdReg_trace]
      simp [hqn]
    · rw [finish_g, rdReg_g, accept_g]
    · rw [finish_hw, rdReg, hsync, readNow_hw_regs, accept_hw]
    · rw [finish_hw, rdReg, hsync, readNow_hw_queue, accept_hw, hqueue]
    · rw [finish_hw, rdReg, hsync, readNow_hw_bmem, accept_hw]
    · rw [finish_site, rdReg_site]
      exact (ready_iff.1 hready).2
    · rw [finish_cfg, rdReg_cfg, accept_cfg]
  · intro s hready hst
    rw [exec, execQuery, onCommand_next_iff]
    have hidle : ¬s.g.st = .inited := by simp [hst]
    exact ⟨hready, (if_neg hidle).symm⟩

end Sys2Proof.Machine
end

section
/-! The two early ends that leave nothing but their status (60_exceptions.md, rules R205 to R212): a chunk whose rule
raises Malformed, and a gated command while IDLE. -/

namespace Sys2Proof.Machine

/-! ## Chunks whose rule raises Malformed (M3 to M13 of rule R208) -/

theorem analyseFwctrlB_eq_none_iff {c : Cfg} {en : Two Byte} {body : List Byte} {r : AnalysisRecord} :
    analyseFwctrlB c en body r = none ↔ c.tagFwctrlB ∈ r.seen ∨ ¬fwBodyOk c body := by
  rw [← Option.map_eq_none_iff (f := (·.seen)), analyseFwctrlB_seen, ite_eq_right_iff]
  simp only [reduceCtorEq, imp_false, not_and_or, not_not, or_comm]

theorem analyseAppcoef_eq_none_iff {c : Cfg} {a : AppId} {body : List Byte} {r : AnalysisRecord} :
    analyseAppcoef c a body r = none ↔ appTag c.tagCoef a ∈ r.seen ∨ ¬coefBodyOk c body := by
  rw [← Option.map_eq_none_iff (f := (·.seen)), analyseAppcoef_seen, ite_eq_right_iff]
  simp only [reduceCtorEq, imp_false, not_and_or, not_not, or_comm]

theorem analyseAppreg_eq_none_iff {c : Cfg} {a : AppId} {body : List Byte} {r : AnalysisRecord} :
    analyseAppreg c a body r = none ↔ ¬regBodyOk body ∨ (a = c.gen ∧ appTag c.tagReg a ∈ r.seen) := by
  rw [← Option.map_eq_none_iff (f := (·.seen)), analyseAppreg_seen, ite_eq_right_iff]
  simp only [reduceCtorEq, imp_false, not_and_or, Classical.not_imp, not_not]

/-- Outside phase 3 an item whose rule raises Malformed ends the analysis early (rules R115, R205, R212; log 15). -/
theorem exec_instrOfChunk_none {s : State} {k : Chunk} {r : AnalysisRecord} (hph : s.w.ph ≠ .download)
    (har : s.w.ar = .record r) (hk : analyseChunk s.cfg (analysisEn s) k r = none) :
    exec (instrOfChunk k) s = .next { s with
      w := { s.w with ar := .malformed, ph := .idle, result := s.cfg.eMalformed }
      io := { s.io with sport := bytes32 s.cfg.eMalformed } } := by
  rw [exec_instrOfChunk hph, analyseItem, har]
  simp only [hk]
  rfl

/-- Settles O32: each cause makes its chunk's rule raise Malformed (`analyseFwctrlB_eq_none_iff` and the like), which
ends the analysis (`exec_instrOfChunk_none`). -/
theorem malformedChunkEndsAnalysis : Obligations.MalformedChunkEndsAnalysis := by
  intro s r i hph har hcause
  obtain ⟨body, rfl, hbad⟩ | ⟨a, body, rfl, hbad⟩ | ⟨a, body, rfl, hbad⟩ := hcause
  · refine exec_instrOfChunk_none (k := .fwctrlB body) hph har (analyseFwctrlB_eq_none_iff.2 ?_)
    rwa [fwBodyOk_iff, not_not]
  · refine exec_instrOfChunk_none (k := .appcoef a body) hph har (analyseAppcoef_eq_none_iff.2 ?_)
    rwa [coefBodyOk_iff, not_not]
  · refine exec_instrOfChunk_none (k := .appreg a body) hph har (analyseAppreg_eq_none_iff.2 ?_)
    rwa [regBodyOk_iff, not_not]

/-! ## The status gate (rules R207, R211) -/

/-- A gated command on a ready port while IDLE: its early end undoes what its acceptance did, but for the empty
trace (rules R197, R207, R212). -/
theorem onCommand_gated_of_idle {s : State} (hready : ready s = true) (hst : s.g.st = .idle) (ph : Phase)
    (run : State → State) :
    onCommand s (fun s => gated run (accept ph s)) = .next { s with
      w := { s.w with ph := .idle, result := s.cfg.eRuntime }
      io := { s.io with trace := [], sport := bytes32 s.cfg.eRuntime } } := by
  have hidle : ¬(accept ph s).g.st = .inited := by simp [hst]
  rw [onCommand_next_iff]
  refine ⟨hready, ?_⟩
  rw [gated, if_neg hidle]
  rfl

/-- Settles O18: each of the four commands is behind the status gate (`onCommand_gated_of_idle`). -/
theorem statusGateReturnsRuntimeFailure : Obligations.StatusGateReturnsRuntimeFailure := by
  intro s i hready hst hi
  obtain rfl | rfl | ⟨blob, rfl⟩ | ⟨dom, addr, size, rfl⟩ := hi
  · exact onCommand_gated_of_idle hready hst .cmd _
  · exact onCommand_gated_of_idle hready hst .cmd _
  · exact onCommand_gated_of_idle hready hst .cmd (applyBlob blob)
  · exact onCommand_gated_of_idle hready hst .upload (uploadChecked dom addr size)

end Sys2Proof.Machine
end

section
/-! What a coefficient item leaves in the device (rules R151, R152, R159; log 9): its address and control writes set
the pointer, then each byte of its payload goes to coefficient memory in host-driven mode and to the staging area in
device-internal mode. -/

namespace Sys2Proof.Machine

/-! ## The pointer (rules R55, R56) -/

theorem forcedEntries_append (ps qs : List (Reg × Byte)) :
    forcedEntries (ps ++ qs) = forcedEntries ps ++ forcedEntries qs := List.map_append

/-- From `s` to `t` the pointer was set to word `addr` under the control byte `ctl`, and no data byte written. -/
structure PointerSet (ctl : Byte) (addr : Word) (s t : State) : Prop where
  cfg : t.cfg = s.cfg
  bmp : t.hw.bmp = { addr := addr, ctl := ctl, off := 0 }
  staging : t.hw.staging = []
  bmem : t.hw.bmem = s.hw.bmem

/-- The control write keeps the address and starts over at its first byte (rule R60). -/
theorem deviceWrite_rBmctl_bmp {s : State} (hc : admissible s.cfg = true) (v : Byte) :
    (deviceWrite s.cfg.rBmctl v s).hw.bmp = { s.hw.bmp with ctl := v, off := 0 } := by
  obtain ⟨_, _, haddr, _⟩ := admissible_blockRegs hc
  rw [deviceWrite, blockPortWrite, if_neg haddr, if_pos rfl]

theorem deliverAll_pointer {s : State} (hc : admissible s.cfg = true) (ctl : Byte) {addr : Word}
    (haddr : addr.toNat < 2 ^ s.cfg.addrW) :
    PointerSet ctl addr s (deliverAll (forcedEntries (coefPairs s.cfg ctl addr [])) s) := by
  have hbmem := deliverAll_bmem (forcedEntries (coefPairs s.cfg ctl addr [])) s fun e he =>
    (pointerWrites_spare hc he).1
  have haddressed := congrArg TransferState.addr (deliverAll_addr hc haddr (s := s) rfl)
  have hlast : deliverAll (forcedEntries (coefPairs s.cfg ctl addr [])) s = deviceWrite s.cfg.rBmctl ctl
      (deliverAll (forcedEntries (s.cfg.rBma.zip (addrBytes s.cfg addr))) s) := by
    rw [coefPairs, List.map_nil, List.append_nil, forcedEntries_append, deliverAll_append]
    rfl
  generalize hv : deliverAll (forcedEntries (s.cfg.rBma.zip (addrBytes s.cfg addr))) s = v at haddressed hlast
  have hcfg : v.cfg = s.cfg := by rw [← hv, deliverAll_cfg]
  rw [← hcfg] at hc hlast
  refine ⟨deliverAll_cfg _ s, ?_, ?_, hbmem⟩
  · rw [← hcfg, hlast, deviceWrite_rBmctl_bmp hc]
    exact congrArg (BlockPtr.mk · ctl 0) haddressed
  · rw [← hcfg, hlast]
    exact congrArg TransferState.staging (deviceWrite_rBmctl hc ctl rfl)

/-! ## The payload (rules R60, R159) -/

theorem deviceWrite_rBmd {s : State} (hc : admissible s.cfg = true) (v : Byte) :
    (deviceWrite s.cfg.rBmd v s).hw = blockDataWrite s.cfg v { s.hw with
      regs := RegFile.write s.hw.regs s.cfg.rBmd.addr v
      shadow := Memory.write s.hw.shadow s.cfg.rBmd.addr v } := by
  obtain ⟨_, haddr, _, hapart⟩ := admissible_blockRegs hc
  rw [deviceWrite, blockPortWrite, if_neg haddr, if_neg hapart.symm, if_pos rfl]

/-- Rule R151: in host-driven mode a data byte goes to where the pointer stands, and moves it. -/
theorem deviceWrite_rBmd_host {s : State} (hc : admissible s.cfg = true) (hctl : s.hw.bmp.ctl = s.cfg.vCtlWrHost)
    (v : Byte) :
    (deviceWrite s.cfg.rBmd v s).hw.bmp = { s.hw.bmp with off := s.hw.bmp.off + 1 } ∧
      (deviceWrite s.cfg.rBmd v s).hw.bmem =
        s.hw.bmem.write (s.hw.bmp.addr.toNat * 4 + s.hw.bmp.off) v := by
  rw [deviceWrite_rBmd hc]
  simp only [blockDataWrite, if_pos hctl, and_self]

/-- Rule R152: in device-internal mode a data byte leaves coefficient memory alone. -/
theorem deviceWrite_rBmd_int {s : State} (hc : admissible s.cfg = true) (hctl : s.hw.bmp.ctl = s.cfg.vCtlWrInt)
    (hne : s.cfg.vCtlWrInt ≠ s.cfg.vCtlWrHost) (v : Byte) :
    (deviceWrite s.cfg.rBmd v s).hw.bmp.ctl = s.hw.bmp.ctl ∧
      (deviceWrite s.cfg.rBmd v s).hw.bmem = s.hw.bmem := by
  have hhost : ¬s.hw.bmp.ctl = s.cfg.vCtlWrHost := hctl ▸ hne
  rw [deviceWrite_rBmd hc]
  simp only [blockDataWrite, if_neg hhost, if_pos hctl, and_self]

theorem deliverAll_payload_host_bmem {c : Cfg} (hc : admissible c = true) (payload : List Byte) {s : State}
    (hcfg : s.cfg = c) (hctl : s.hw.bmp.ctl = c.vCtlWrHost) :
    (deliverAll (forcedEntries (payload.map fun v => (c.rBmd, v))) s).hw.bmem =
      s.hw.bmem.writeBytes (s.hw.bmp.addr.toNat * 4 + s.hw.bmp.off) payload := by
  induction payload generalizing s with
  | nil => rfl
  | cons v payload ih =>
    subst hcfg
    obtain ⟨hbmp, hbmem⟩ := deviceWrite_rBmd_host hc hctl v
    have hrest := ih (s := deviceWrite s.cfg.rBmd v s) rfl (by rw [hbmp]; exact hctl)
    rw [hbmp, hbmem] at hrest
    exact hrest

theorem deliverAll_payload_int_bmem {c : Cfg} (hc : admissible c = true) (hne : c.vCtlWrInt ≠ c.vCtlWrHost)
    (payload : List Byte) {s : State} (hcfg : s.cfg = c) (hctl : s.hw.bmp.ctl = c.vCtlWrInt) :
    (deliverAll (forcedEntries (payload.map fun v => (c.rBmd, v))) s).hw.bmem = s.hw.bmem := by
  induction payload generalizing s with
  | nil => rfl
  | cons v payload ih =>
    subst hcfg
    obtain ⟨hctl', hbmem⟩ := deviceWrite_rBmd_int hc hctl hne v
    exact (ih (s := deviceWrite s.cfg.rBmd v s) rfl (hctl'.trans hctl)).trans hbmem

/-- Bytes of a body written from an address on: those are read back, every other one is as before. -/
theorem Memory.read_writeBytes_take_drop (m : Memory) (base x : Nat) {body : List Byte} {start n : Nat}
    (hlen : start + n ≤ body.length) :
    Memory.read (m.writeBytes base ((body.drop start).take n)) x =
      if base ≤ x ∧ x < base + n then some (byteAt body (start + (x - base))) else Memory.read m x := by
  have hlength : ((body.drop start).take n).length = n := by
    rw [List.length_take, List.length_drop]
    omega
  rw [Memory.read_writeBytes]
  by_cases hx : base ≤ x ∧ x < base + n
  · have hin : x - base < n := by omega
    rw [dif_pos ⟨hx.1, by omega⟩, if_pos hx, ← byteAt_take_drop body start hin, byteAt,
      List.getD_eq_getElem]
  · rw [dif_neg (by omega), if_neg hx]

/-! ## The item -/

theorem forcedEntries_coefPairs (c : Cfg) (ctl : Byte) (addr : Word) (payload : List Byte) :
    forcedEntries (coefPairs c ctl addr payload) =
      forcedEntries (coefPairs c ctl addr []) ++ forcedEntries (payload.map fun v => (c.rBmd, v)) := by
  rw [← forcedEntries_append, coefPairs, coefPairs, List.map_nil, List.append_nil]

/-- With nothing queued before, the item sets the pointer under its mode's control value and then delivers its
payload. -/
theorem coefItem_delivers {s : State} (hc : admissible s.cfg = true) (hqueue : s.hw.queue = []) {addr : Word}
    (haddr : addr.toNat < 2 ^ s.cfg.addrW) (payload : List Byte) (hmode : (passRecord s).mode ≠ .none) :
    ∃ t, PointerSet (if (passRecord s).mode = .host then s.cfg.vCtlWrHost else s.cfg.vCtlWrInt) addr s t ∧
      (coefItem addr payload s).hw =
        { (deliverAll (forcedEntries (payload.map fun v => (s.cfg.rBmd, v))) t).hw with queue := [] } := by
  rw [coefItem_eq_flush _ _ hmode]
  generalize (if (passRecord s).mode = .host then s.cfg.vCtlWrHost else s.cfg.vCtlWrInt) = ctl
  generalize hu : qwForced (coefPairs s.cfg ctl addr payload) _ = u
  have hucfg : u.cfg = s.cfg := by rw [← hu, qwForced_cfg]
  have huhw : u.hw = { s.hw with queue := forcedEntries (coefPairs s.cfg ctl addr payload) } := by
    rw [← hu, qwForced_eq_entries, hqueue, List.nil_append]
  have hpointer := deliverAll_pointer (s := emit .flush u) (by rwa [emit_cfg, hucfg]) ctl (addr := addr)
    (by rwa [emit_cfg, hucfg])
  rw [emit_cfg, hucfg] at hpointer
  obtain ⟨hcfg, hbmp, hstaging, hbmem⟩ := hpointer
  refine ⟨_, ⟨hcfg.trans hucfg, hbmp, hstaging, hbmem.trans ?_⟩, ?_⟩
  · rw [emit_hw, huhw]
  · rw [← deliverAll_append, ← forcedEntries_coefPairs]
    simp only [flushQueue, huhw]

/-- Settles O40: the item sets the pointer (`coefItem_delivers`), and by the control value its payload is written to
coefficient memory from there on or staged. -/
theorem coefItemReachesTheDevice : Obligations.CoefItemReachesTheDevice := by
  intro s a body n hc hph hst hwaited hqueue _ hcount hpos hmod hlen haddr
  have hopen := (coefItemOpen_iff a (be32At body s.cfg.offAddr) ((body.drop s.cfg.offData).take n) hph).2
    ⟨hst, hwaited⟩
  have hexec := (exec_appcoef_download a hph hcount hpos hmod hlen haddr).trans (next_of_open hopen)
  have hdelivers := coefItem_delivers hc hqueue haddr ((body.drop s.cfg.offData).take n)
  constructor
  · intro hmode
    obtain ⟨t, ⟨hcfg, hbmp, _, hbmem⟩, hhw⟩ := hdelivers (by simp [hmode])
    rw [if_pos hmode] at hbmp
    refine ⟨_, hexec, fun x => ?_⟩
    show Memory.read (coefItem _ _ s).hw.bmem x = _
    rw [hhw, deliverAll_payload_host_bmem hc _ hcfg (congrArg BlockPtr.ctl hbmp), hbmp, hbmem]
    exact Memory.read_writeBytes_take_drop _ _ x hlen
  · intro hmode hne
    obtain ⟨t, ⟨hcfg, hbmp, hstaging, hbmem⟩, hhw⟩ := hdelivers (by simp [hmode])
    rw [if_neg (by simp [hmode])] at hbmp
    have hctl : t.hw.bmp.ctl = s.cfg.vCtlWrInt := congrArg BlockPtr.ctl hbmp
    have hkept := deliverAll_payload_int_bmem hc hne ((body.drop s.cfg.offData).take n) hcfg hctl
    have hstaged := deliverAll_payload hc hne ((body.drop s.cfg.offData).take n) hcfg hctl
    simp only [transferState, TransferState.mk.injEq, hstaging, hbmp, List.nil_append] at hstaged
    obtain ⟨haddr', _, hstaging', _⟩ := hstaged
    refine ⟨_, hexec, ?_⟩
    show (coefItem _ _ s).hw.bmem = _ ∧ (coefItem _ _ s).hw.staging = _ ∧ (coefItem _ _ s).hw.bmp.addr = _
    rw [hhw]
    exact ⟨hkept.trans hbmem, hstaging', haddr'⟩

end Sys2Proof.Machine
end

section
/-! When nothing runs and when something does (rules R196, R197, R230): a step with nothing offered, the reserved
opcodes, a command offered to a busy port. -/

namespace Sys2Proof.Machine

/-- Settles O6, by the branch of `step` that finds no frame. -/
theorem stepWaitsForACommand : Obligations.StepWaitsForACommand := by
  intro s hc hsite hinbox
  rw [step, if_pos hc, hsite, hinbox]

/-- The early end undoes what the acceptance did, but for the empty trace (rules R196, R197, R212; log 11). -/
theorem reservedAnswer_of_ready {s : State} (hready : ready s = true) :
    reservedAnswer s = .next { s with
      w := { s.w with ph := .idle, result := s.cfg.eMalformed }
      io := { s.io with trace := [], sport := bytes32 s.cfg.eMalformed } } := by
  rw [reservedAnswer, onCommand_next_iff]
  exact ⟨hready, rfl⟩

/-- Settles O19: each of the five ranges of reserved opcodes has the one answer of `reservedAnswer_of_ready`. -/
theorem reservedOpcodesAnswerMalformed : Obligations.ReservedOpcodesAnswerMalformed := by
  intro s i hready hi
  obtain ⟨x, rfl⟩ | ⟨x, rfl⟩ | ⟨x, rfl⟩ | ⟨x, rfl⟩ | ⟨x, rfl⟩ := hi <;>
    exact reservedAnswer_of_ready hready

theorem onCommand_of_busy {s : State} (hbusy : ready s = false) (run : State → State) :
    onCommand s run = .refused .commandPortBusy := by
  simp only [onCommand, hbusy, Bool.false_eq_true, if_false]

/-- Settles O20: every command runs behind `onCommand` (`exec_onCommand_or_next`). -/
theorem busyPortRefusesCommands : Obligations.BusyPortRefusesCommands := by
  intro s i hi hbusy
  obtain ⟨_, run, hrun⟩ | ⟨hnot, _⟩ := exec_onCommand_or_next i s
  · rw [hrun, onCommand_of_busy hbusy]
  · rw [hi] at hnot
    cases hnot

end Sys2Proof.Machine
end
